-- ==== Sys2Proof/Word.lean ====
section
/-! DEFINITION. The word types of the DEFLATE codec core (spec/00_scope.md R12): `u8`, `u16`, `u32`, and the
15-bit rolling hash of spec/45_lz77_match_finder.md R550. Their arithmetic wraps modulo 2^N, as R12 says. -/

namespace Sys2Proof

/-- `u8`, R12. -/
abbrev Byte := BitVec 8
/-- `u16`, R12. -/
abbrev Half := BitVec 16
/-- `u32`, R12. -/
abbrev Word := BitVec 32
/-- The rolling hash `insH`, an int in 0..HASH_SIZE-1 with HASH_SIZE = 2^15 (R8, R101). -/
abbrev Hash := BitVec 15

end Sys2Proof
end

