-- ==== Sys2Proof/Syntax.lean ====
section
/-! DEFINITION. The host commands of spec/30_encoding.md R202..R210, one constructor per row of
spec/opcode_table.json. A field has exactly the bits its rule gives it, so an instruction may hold an operand
outside its legal values: Sys2Proof/WellFormed.lean says which operands are legal. -/

namespace Sys2Proof

/-- A decoded host command: the fields of W0's IMM24 and, where the command uses it, of W1. -/
inductive Instr where
  /-- R202 `INF.RESET`: `W1` is `dictSum`. -/
  | infReset (wbits : BitVec 4) (hasDict : BitVec 1) (dictSum : Word)
  /-- R202 `INF.STEP`. -/
  | infStep
  /-- R202 `INF.SETDICT`. -/
  | infSetDict
  /-- R203 `DEF.RESET`. -/
  | defReset (wbits : BitVec 4) (level : BitVec 4) (strategy : BitVec 2)
  /-- R203 `DEF.STEP`. -/
  | defStep (flush : BitVec 3)
  /-- R203 `DEF.SETDICT`. -/
  | defSetDict
  /-- R205 `BCR.NEED`. -/
  | bcrNeed (n : BitVec 5)
  /-- R205 `BCR.PEEK`. -/
  | bcrPeek (n : BitVec 5)
  /-- R205 `BCR.DROP`. -/
  | bcrDrop (n : BitVec 5)
  /-- R205 `BCR.GET`. -/
  | bcrGet (n : BitVec 5)
  /-- R205 `BCR.ALIGN`. -/
  | bcrAlign
  /-- R205 `BCR.BYTE`. -/
  | bcrByte
  /-- R206 `BCW.PUT`. -/
  | bcwPut (n : BitVec 5) (value : Half)
  /-- R206 `BCW.PUTBYTE`. -/
  | bcwPutByte (b : Byte)
  /-- R206 `BCW.PUTSHORT`. -/
  | bcwPutShort (w : Half)
  /-- R206 `BCW.WINDUP`. -/
  | bcwWindup
  /-- R206 `BCW.FLUSH`. -/
  | bcwFlush
  /-- R206 `BCW.DRAIN`. -/
  | bcwDrain
  /-- R207 `SWB.PUT`. -/
  | swbPut (b : Byte)
  /-- R207 `SWB.COPY`: `W1` is `dist`. -/
  | swbCopy (len : BitVec 9) (dist : Word)
  /-- R207 `SWB.DRAIN`. -/
  | swbDrain
  /-- R207 `SWB.SEED`. -/
  | swbSeed
  /-- R207 `SWB.FILL`. -/
  | swbFill
  /-- R207 `SWB.SLIDE`. -/
  | swbSlide
  /-- R207 `SWB.DSEED`. -/
  | swbDseed
  /-- R208 `HDT.BUILD`. -/
  | hdtBuild (kind : BitVec 2) (n : BitVec 9)
  /-- R208 `HDT.FIXED`. -/
  | hdtFixed
  /-- R208 `HDT.DECODE`. -/
  | hdtDecode (table : BitVec 2)
  /-- R209 `MF.HASHINIT`. -/
  | mfHashInit
  /-- R209 `MF.INSERT`: `W1` is `pos`. -/
  | mfInsert (pos : Word)
  /-- R209 `MF.LONGEST`: `W1` is `curMatch`. -/
  | mfLongest (curMatch : Word)
  /-- R210 `TB.INITBLOCK`. -/
  | tbInitBlock
  /-- R210 `TB.TALLY`: `W1` is `dist`. -/
  | tbTally (lc : Byte) (dist : Word)
  /-- R210 `TB.BUILD`. -/
  | tbBuild (desc : BitVec 2)
  /-- R210 `TB.GENBITLEN`. -/
  | tbGenBitlen (desc : BitVec 2)
  /-- R210 `TB.GENCODES`. -/
  | tbGenCodes (desc : BitVec 2)
  /-- R210 `TB.SCAN`. -/
  | tbScan (desc : BitVec 2)
  /-- R210 `TB.BLTREE`. -/
  | tbBlTree
  /-- R210 `TB.SENDTREE`. -/
  | tbSendTree (desc : BitVec 2)
  /-- R210 `TB.SENDALL`. -/
  | tbSendAll (lcodes : BitVec 9) (dcodes : BitVec 5) (blcodes : BitVec 5)
  /-- R210 `TB.COMPRESS`. -/
  | tbCompress (dynamic : BitVec 1)
  /-- R210 `TB.STORED`: `W1` is `[15:0] buf`, `[31:16] len`. -/
  | tbStored (eof : BitVec 1) (buf : Half) (len : Half)
  /-- R210 `TB.FLUSHBLOCK`. -/
  | tbFlushBlock (eof : BitVec 1)
  deriving DecidableEq, Repr

/-- Which kind of instance a command needs (spec/30_encoding.md R201, R207; spec/60_exceptions.md R764: a reset
command is accepted by every instance). -/
inductive Owner where
  /-- A reset command: any kind, or none. -/
  | reset
  /-- A unit that exists only in an inflate instance. -/
  | inflate
  /-- A unit that exists only in a deflate instance. -/
  | deflate
  deriving DecidableEq, Repr

end Sys2Proof
end

