-- ==== Sys2Proof/WellFormed.lean ====
section
/-! DEFINITION. The legal operand values of each command, as the tables of spec/30_encoding.md R202..R210 and
spec/41_bit_packer.md R340 give them. An operand outside them is refused with StreamError(BAD_OPERAND) (R211).
The flush codes of DEF.STEP are not judged here: R771 gives an illegal one a reason of its own (BAD_FLUSH). -/

namespace Sys2Proof

/-- The operands are inside the legal values their table gives (R202..R210, R340). -/
def Instr.wellFormed : Instr → Bool
  | .infReset wbits hasDict dictSum =>
      decide (8 ≤ wbits.toNat) && (hasDict == 1 || dictSum == 0)
  | .infStep => true
  | .infSetDict => true
  | .defReset wbits level strategy =>
      decide (9 ≤ wbits.toNat) && decide (level.toNat ≤ 9) && strategy == 0
  | .defStep _ => true
  | .defSetDict => true
  | .bcrNeed n => decide (n.toNat ≤ 16)
  | .bcrPeek n => decide (n.toNat ≤ 16)
  | .bcrDrop n => decide (n.toNat ≤ 16)
  | .bcrGet n => decide (n.toNat ≤ 16)
  | .bcrAlign => true
  | .bcrByte => true
  | .bcwPut n value => decide (1 ≤ n.toNat) && decide (n.toNat ≤ 16) && decide (value.toNat < 2 ^ n.toNat)
  | .bcwPutByte _ => true
  | .bcwPutShort _ => true
  | .bcwWindup => true
  | .bcwFlush => true
  | .bcwDrain => true
  | .swbPut _ => true
  | .swbCopy len dist => decide (3 ≤ len.toNat) && decide (len.toNat ≤ 258) && decide (dist.toNat ≤ 32768)
  | .swbDrain => true
  | .swbSeed => true
  | .swbFill => true
  | .swbSlide => true
  | .swbDseed => true
  | .hdtBuild kind n =>
      (kind == 0 && n.toNat == 19) ||
      (kind == 1 && decide (257 ≤ n.toNat) && decide (n.toNat ≤ 286)) ||
      (kind == 2 && decide (1 ≤ n.toNat) && decide (n.toNat ≤ 30))
  | .hdtFixed => true
  | .hdtDecode table => decide (table.toNat ≤ 2)
  | .mfHashInit => true
  | .mfInsert _ => true
  | .mfLongest _ => true
  | .tbInitBlock => true
  | .tbTally _ dist => decide (dist.toNat ≤ 32768)
  | .tbBuild desc => decide (desc.toNat ≤ 2)
  | .tbGenBitlen desc => decide (desc.toNat ≤ 2)
  | .tbGenCodes desc => decide (desc.toNat ≤ 2)
  | .tbScan desc => decide (desc.toNat ≤ 1)
  | .tbBlTree => true
  | .tbSendTree desc => decide (desc.toNat ≤ 1)
  | .tbSendAll lcodes dcodes blcodes =>
      decide (257 ≤ lcodes.toNat) && decide (lcodes.toNat ≤ 286) &&
      decide (1 ≤ dcodes.toNat) && decide (dcodes.toNat ≤ 30) &&
      decide (4 ≤ blcodes.toNat) && decide (blcodes.toNat ≤ 19)
  | .tbCompress _ => true
  | .tbStored _ _ _ => true
  | .tbFlushBlock _ => true

end Sys2Proof
end

