-- ==== Sys2Proof/Decode.lean ====
section
/-! DEFINITION. Decoding of a command word W0 and its operand word W1 (spec/30_encoding.md R200..R210, R215), total on
all words, and the encoder written from the same tables. -/

namespace Sys2Proof

/-- Why a command is not decoded. -/
inductive DecodeError where
  /-- An unassigned UNIT or OP (R215). -/
  | unknown
  /-- An assigned command whose reserved IMM24 bits, or whose unused W1, are not zero (R200, R211). `i` is the command
  without them: its unit decides whether WRONG_KIND comes first (spec/60_exceptions.md R775). -/
  | reserved (i : Instr)
  deriving DecidableEq, Repr

/-- Bits `lo .. lo+n-1` of a word (R11 `v[hi:lo]`). -/
def field (w : Word) (lo n : Nat) : BitVec n := w.extractLsb' lo n

/-- A command of W0 alone: the IMM24 bits of `mask` are reserved and W1 is unused, and all of them must be 0. -/
def oneWord (i : Instr) (w0 w1 mask : Word) : Except DecodeError Instr :=
  if w0 &&& mask = 0 ∧ w1 = 0 then .ok i else .error (.reserved i)

/-- A command of W0 and W1: the IMM24 bits of `mask` are reserved and must be 0. -/
def twoWords (i : Instr) (w0 mask : Word) : Except DecodeError Instr :=
  if w0 &&& mask = 0 then .ok i else .error (.reserved i)

/-- The command that W0 and W1 encode (R200..R210). UNIT and OP are W0[31:24]. -/
def decode (w0 w1 : Word) : Except DecodeError Instr :=
  match (field w0 24 8).toNat with
  | 0x10 => twoWords (.infReset (field w0 0 4) (field w0 4 1) w1) w0 0x00FFFFE0
  | 0x11 => oneWord .infStep w0 w1 0x00FFFFFF
  | 0x12 => oneWord .infSetDict w0 w1 0x00FFFFFF
  | 0x20 => oneWord (.defReset (field w0 0 4) (field w0 4 4) (field w0 8 2)) w0 w1 0x00FFFC00
  | 0x21 => oneWord (.defStep (field w0 0 3)) w0 w1 0x00FFFFF8
  | 0x22 => oneWord .defSetDict w0 w1 0x00FFFFFF
  | 0x30 => oneWord (.bcrNeed (field w0 0 5)) w0 w1 0x00FFFFE0
  | 0x31 => oneWord (.bcrPeek (field w0 0 5)) w0 w1 0x00FFFFE0
  | 0x32 => oneWord (.bcrDrop (field w0 0 5)) w0 w1 0x00FFFFE0
  | 0x33 => oneWord (.bcrGet (field w0 0 5)) w0 w1 0x00FFFFE0
  | 0x34 => oneWord .bcrAlign w0 w1 0x00FFFFFF
  | 0x35 => oneWord .bcrByte w0 w1 0x00FFFFFF
  | 0x40 => oneWord (.bcwPut (field w0 0 5) (field w0 8 16)) w0 w1 0x000000E0
  | 0x41 => oneWord (.bcwPutByte (field w0 0 8)) w0 w1 0x00FFFF00
  | 0x42 => oneWord (.bcwPutShort (field w0 8 16)) w0 w1 0x000000FF
  | 0x43 => oneWord .bcwWindup w0 w1 0x00FFFFFF
  | 0x44 => oneWord .bcwFlush w0 w1 0x00FFFFFF
  | 0x45 => oneWord .bcwDrain w0 w1 0x00FFFFFF
  | 0x50 => oneWord (.swbPut (field w0 0 8)) w0 w1 0x00FFFF00
  | 0x51 => twoWords (.swbCopy (field w0 0 9) w1) w0 0x00FFFE00
  | 0x52 => oneWord .swbDrain w0 w1 0x00FFFFFF
  | 0x53 => oneWord .swbSeed w0 w1 0x00FFFFFF
  | 0x54 => oneWord .swbFill w0 w1 0x00FFFFFF
  | 0x55 => oneWord .swbSlide w0 w1 0x00FFFFFF
  | 0x56 => oneWord .swbDseed w0 w1 0x00FFFFFF
  | 0x60 => oneWord (.hdtBuild (field w0 0 2) (field w0 8 9)) w0 w1 0x00FE00FC
  | 0x61 => oneWord .hdtFixed w0 w1 0x00FFFFFF
  | 0x62 => oneWord (.hdtDecode (field w0 0 2)) w0 w1 0x00FFFFFC
  | 0x70 => oneWord .mfHashInit w0 w1 0x00FFFFFF
  | 0x71 => twoWords (.mfInsert w1) w0 0x00FFFFFF
  | 0x72 => twoWords (.mfLongest w1) w0 0x00FFFFFF
  | 0x80 => oneWord .tbInitBlock w0 w1 0x00FFFFFF
  | 0x81 => twoWords (.tbTally (field w0 0 8) w1) w0 0x00FFFF00
  | 0x82 => oneWord (.tbBuild (field w0 0 2)) w0 w1 0x00FFFFFC
  | 0x83 => oneWord (.tbGenBitlen (field w0 0 2)) w0 w1 0x00FFFFFC
  | 0x84 => oneWord (.tbGenCodes (field w0 0 2)) w0 w1 0x00FFFFFC
  | 0x85 => oneWord (.tbScan (field w0 0 2)) w0 w1 0x00FFFFFC
  | 0x86 => oneWord .tbBlTree w0 w1 0x00FFFFFF
  | 0x87 => oneWord (.tbSendTree (field w0 0 2)) w0 w1 0x00FFFFFC
  | 0x88 => oneWord (.tbSendAll (field w0 0 9) (field w0 9 5) (field w0 14 5)) w0 w1 0x00F80000
  | 0x89 => oneWord (.tbCompress (field w0 0 1)) w0 w1 0x00FFFFFE
  | 0x8A => twoWords (.tbStored (field w0 0 1) (field w1 0 16) (field w1 16 16)) w0 0x00FFFFFE
  | 0x8B => oneWord (.tbFlushBlock (field w0 0 1)) w0 w1 0x00FFFFFE
  | _ => .error .unknown

/-- The fixed name the host asks with: the command whose bits are `w`, bit 0 the least significant bit of W0, bits
63..32 those of W1, and every bit above `nbits` zero. -/
def decodeTableWord (nbits w : Nat) : Option Instr :=
  let w := w % 2 ^ nbits
  match decode (BitVec.ofNat 32 w) (BitVec.ofNat 32 (w / 2 ^ 32)) with
  | .ok i => some i
  | .error _ => none

/-- A command word: UNIT and OP, then IMM24 (R200). -/
def word0 (unitOp : Byte) (imm : BitVec 24) : Word := unitOp ++ imm

/-- The words W0 and W1 of a command (R200..R210); a word the command does not use is 0. -/
def encode : Instr → Word × Word
  | .infReset wbits hasDict dictSum => (word0 0x10 (0#19 ++ hasDict ++ wbits), dictSum)
  | .infStep => (word0 0x11 0, 0)
  | .infSetDict => (word0 0x12 0, 0)
  | .defReset wbits level strategy => (word0 0x20 (0#14 ++ strategy ++ level ++ wbits), 0)
  | .defStep flush => (word0 0x21 (0#21 ++ flush), 0)
  | .defSetDict => (word0 0x22 0, 0)
  | .bcrNeed n => (word0 0x30 (0#19 ++ n), 0)
  | .bcrPeek n => (word0 0x31 (0#19 ++ n), 0)
  | .bcrDrop n => (word0 0x32 (0#19 ++ n), 0)
  | .bcrGet n => (word0 0x33 (0#19 ++ n), 0)
  | .bcrAlign => (word0 0x34 0, 0)
  | .bcrByte => (word0 0x35 0, 0)
  | .bcwPut n value => (word0 0x40 (value ++ 0#3 ++ n), 0)
  | .bcwPutByte b => (word0 0x41 (0#16 ++ b), 0)
  | .bcwPutShort w => (word0 0x42 (w ++ 0#8), 0)
  | .bcwWindup => (word0 0x43 0, 0)
  | .bcwFlush => (word0 0x44 0, 0)
  | .bcwDrain => (word0 0x45 0, 0)
  | .swbPut b => (word0 0x50 (0#16 ++ b), 0)
  | .swbCopy len dist => (word0 0x51 (0#15 ++ len), dist)
  | .swbDrain => (word0 0x52 0, 0)
  | .swbSeed => (word0 0x53 0, 0)
  | .swbFill => (word0 0x54 0, 0)
  | .swbSlide => (word0 0x55 0, 0)
  | .swbDseed => (word0 0x56 0, 0)
  | .hdtBuild kind n => (word0 0x60 (0#7 ++ n ++ 0#6 ++ kind), 0)
  | .hdtFixed => (word0 0x61 0, 0)
  | .hdtDecode table => (word0 0x62 (0#22 ++ table), 0)
  | .mfHashInit => (word0 0x70 0, 0)
  | .mfInsert pos => (word0 0x71 0, pos)
  | .mfLongest curMatch => (word0 0x72 0, curMatch)
  | .tbInitBlock => (word0 0x80 0, 0)
  | .tbTally lc dist => (word0 0x81 (0#16 ++ lc), dist)
  | .tbBuild desc => (word0 0x82 (0#22 ++ desc), 0)
  | .tbGenBitlen desc => (word0 0x83 (0#22 ++ desc), 0)
  | .tbGenCodes desc => (word0 0x84 (0#22 ++ desc), 0)
  | .tbScan desc => (word0 0x85 (0#22 ++ desc), 0)
  | .tbBlTree => (word0 0x86 0, 0)
  | .tbSendTree desc => (word0 0x87 (0#22 ++ desc), 0)
  | .tbSendAll lcodes dcodes blcodes => (word0 0x88 (0#5 ++ blcodes ++ dcodes ++ lcodes), 0)
  | .tbCompress dynamic => (word0 0x89 (0#23 ++ dynamic), 0)
  | .tbStored eof buf len => (word0 0x8A (0#23 ++ eof), len ++ buf)
  | .tbFlushBlock eof => (word0 0x8B (0#23 ++ eof), 0)

end Sys2Proof
end

