-- ==== Sys2Proof/Config.lean ====
section
/-! DEFINITION. The implementation parameters of spec/00_scope.md R8, each at the value R8 fixes for this hardware, and the
free values: what a rule reads in a state that only sub-block commands bring about (U6) and for which it states no value. -/

namespace Sys2Proof.Config

/-- `MEM_LEVEL` (R8, D17). -/
def memLevel : Nat := 8
/-- `HASH_BITS = MEM_LEVEL + 7` (R8). -/
def hashBits : Nat := 15
/-- `HASH_SIZE = 1 << HASH_BITS` (R8). -/
def hashSize : Nat := 32768
/-- `HASH_SHIFT = (HASH_BITS + 2) / 3` (R8). -/
def hashShift : Nat := 5
/-- `LIT_BUFSIZE = 1 << (MEM_LEVEL + 6)` (R8). -/
def litBufSize : Nat := 16384
/-- `PENDING_BUF_SIZE = 4 * LIT_BUFSIZE` (R8, D25). -/
def pendingBufSize : Nat := 65536
/-- `TRUNCATE_HEURISTIC` (R8, D24). -/
def truncateHeuristic : Bool := true
/-- `ROOT_LL` (R8, D31). -/
def rootLL : Nat := 9
/-- `ROOT_D` (R8, D31). -/
def rootD : Nat := 6
/-- `ROOT_CL` (R8, D31). -/
def rootCL : Nat := 7
/-- Root width of the fixed literal/length table (R440). -/
def rootFixedLL : Nat := 9
/-- Root width of the fixed distance table (R440). -/
def rootFixedD : Nat := 5
/-- `BW_CHUNK`, the bits the bit packer holds before it moves them to the FIFO (R8, D26); `BW.biBuf` is a u16 (R65). -/
def bwChunk : Nat := 16
/-- `MIN_MATCH` (R8). -/
def minMatch : Nat := 3
/-- `MAX_MATCH` (R8). -/
def maxMatch : Nat := 258
/-- `MIN_LOOKAHEAD = MAX_MATCH + MIN_MATCH + 1` (R8). -/
def minLookahead : Nat := 262
/-- `TOO_FAR` (R8, D17). -/
def tooFar : Nat := 4096
/-- `ENOUGH`, the entries of `HT.arena` (R76). -/
def enough : Nat := 1444
/-- The entries of `HT.clArena` (R76). -/
def clArenaSize : Nat := 128
/-- Where a DISTS table starts in `HT.arena` (R420). -/
def distBase : Nat := 852
/-- The entries of `HT.work` (R76). -/
def workSize : Nat := 320
/-- The elements of `TB.heap` and `TB.depth` (R108). -/
def heapSize : Nat := 573
/-- The greatest literal/length and distance code length (R268). -/
def maxBits : Nat := 15
/-- The greatest code-length code length (R268). -/
def maxBlBits : Nat := 7

/-! ## Free values (DESIGN CHOICE, log entries 7 and 8) -/

/-- The distance symbol of `d = D - 1` for a distance D outside 1..32768, for which R600 and R267 state none. -/
opaque distSymbolOutside : Int → Fin 30
/-- `INF.extra` after `DIST` meets an entry that is neither `DIST(x)` nor INVALID (R514): `x of DIST(x)` is not stated. The
arguments are the entry's operation code (R208) and `val`. -/
opaque extraOutside : Nat → Nat → Fin 14
/-- RESULT0[7:0] of HDT.DECODE where the walk ends at a link of width `w` inside a sub-table (R208 names no code). -/
opaque linkCode : Nat → BitVec 8
/-- The arena index where a decode through `NONE` starts, by alphabet (R76, R430). -/
opaque noneStart : Nat → Nat
/-- The root width of a decode through `NONE`, by alphabet (R76, R430). -/
opaque noneRoot : Nat → Nat

end Sys2Proof.Config
end

