-- ==== Sys2Proof/Machine/State.lean ====
section
/-! DEFINITION. The state of the hardware: every field of spec/10_state.md (R50..R109), the error latch (R84, R106), the
register block (R52), the host's side of a command (spec/20_memory.md R150) and the host's waiting commands. All of it
is plain data.

Arrays are sparse: `Cells` lists (index, element) pairs with indices strictly rising. In an array whose reset content
the spec gives (windows, hash chains, frequencies, code lengths), an unlisted element reads as 0 and no entry is 0; in
an array the spec calls unspecified, an unlisted element is ABSENT and reading it is the spec's own model fault
`UnwrittenRead` (head of spec/10_state.md; spec/93_implementation_defined.md U7; log entry 10). -/

namespace Sys2Proof.Machine

/-- A sparse array: (index, element) pairs, indices strictly rising. -/
abbrev Cells (α : Type) := List (Nat × α)

/-- A byte memory (a window buffer) in the one canonical form of Sys2Proof/Machine/Ops.lean `Memory.wf`. -/
abbrev Memory := List Host.Cell

/-! ## Why a command or the machine stops -/

/-- The reasons of a DataError, R231 and spec/60_exceptions.md R770. -/
inductive DataReason where
  | badBlockType | storedLenMismatch | tooManySymbols | badCodelenSet | badRepeat | missingEob
  | badLitlenSet | badDistSet | badLitlenCode | badDistCode | distTooFar | dictMismatch
  deriving DecidableEq, Repr

/-- The reasons of a StreamError, R231 and spec/60_exceptions.md R771. -/
inductive StreamReason where
  | badOperand | badFlush | afterFinish | dictNotAllowed | unknownCommand | wrongKind
  deriving DecidableEq, Repr

/-- What an error latch holds (R84, R763). -/
inductive Latch where
  | data (r : DataReason)
  | stream (r : StreamReason)
  deriving DecidableEq, Repr

/-- The status of a command (R230). -/
inductive Status where
  | ok | streamEnd | needDictionary | needMoreInput | needMoreOutput | bufError | dataError | streamError
  deriving DecidableEq, Repr

/-- The arrays an index or read fault can name. -/
inductive ArrayName where
  | window | pending | lBuf | dBuf | freq | len | code | dad | maxCode | heap | heapLen | heapMax | depth | blCount
  | nextCode | arena | clArena | fixedLL | fixedD | count | cl | lens | blOrder
  deriving DecidableEq, Repr

/-- The model faults. The first two are the spec's own (R13, head of spec/10_state.md); each is raised inside an
instruction that otherwise completes, in a state only a host that breaks an engine invariant with sub-block commands can
reach (U6), or by a sub-block command that reads a field no command has written (U7). -/
inductive Fault where
  /-- `IndexFault(array, i)` (R13, D36, U13): an index outside the declared bounds of an array. Safe: the machine stops. -/
  | indexFault (a : ArrayName) (i : Int)
  /-- `UnwrittenRead(field)` (head of spec/10_state.md, U7): a read of an unspecified field before its first write. Safe. -/
  | unwrittenRead (a : ArrayName) (i : Nat)
  /-- The rules' loop never ends, so the command never completes (R50 lets the next one start only then): a chain of
  `prev` entries that returns to itself under a search whose budget is not positive (level 0, R565). DEDUCED,
  log entry 9. Safe. -/
  | neverCompletes
  deriving DecidableEq, Repr

/-- The refusals of the machine. -/
inductive Refusal where
  /-- Raised by exec for an instruction without a meaning; no instruction of this model is one. Safe. -/
  | notModelled (mnemonic : String)
  deriving DecidableEq, Repr

/-! ## The register block (R52) -/

/-- The 13 registers of R52, in the order of their offsets. -/
structure Regs where
  cfgKind : Word
  cfgWbits : Word
  cfgLevel : Word
  cfgStrategy : Word
  cfgDict : Word
  cfgDictSum : Word
  status : Word
  inConsumed : Word
  outProduced : Word
  totalIn : Word
  totalOut : Word
  result0 : Word
  result1 : Word
  deriving DecidableEq, Repr

/-- The names of the 13 registers of R52. -/
inductive RegName where
  | cfgKind | cfgWbits | cfgLevel | cfgStrategy | cfgDict | cfgDictSum | status | inConsumed | outProduced | totalIn
  | totalOut | result0 | result1
  deriving DecidableEq, Repr

/-- Every register reads 0 (R805). -/
def Regs.zero : Regs := ⟨0, 0, 0, 0, 0, 0, 0, 0, 0, 0, 0, 0, 0⟩

/-! ## The units of an inflate instance -/

/-- bit_cursor_read, R60. -/
structure BitCursor where
  bitBuffer : Word
  bitCount : Nat
  bytePosition : Nat
  deriving DecidableEq, Repr

/-- sliding_window_buffer, decoder use, R70: the capacity is `1 << wbits`. -/
structure SlidingWindow where
  wbits : Nat
  buffer : Memory
  writeCursor : Nat
  undelivered : Nat
  whave : Nat
  deriving DecidableEq, Repr

/-- What a decode-table entry means, R75. -/
inductive EntryOp where
  | lit | len (e : Nat) | dist (e : Nat) | eob | link (w : Nat) | cl (s : Nat) | invalid
  deriving DecidableEq, Repr

/-- A decode-table entry, R75. -/
structure Entry where
  op : EntryOp
  bits : Nat
  val : Nat
  deriving DecidableEq, Repr

/-- Where a table stands, R76: an arena of the instance, or the read-only storage of the fixed tables. -/
inductive TableStore where
  | arena | clArena | fixedLL | fixedD
  deriving DecidableEq, Repr

/-- A table reference, R76: arena start index and root width. -/
structure TableRef where
  store : TableStore
  start : Nat
  root : Nat
  deriving DecidableEq, Repr

/-- The table arenas and the builder's scratch, R76: all of it unspecified at reset. -/
structure DecodeTables where
  arena : Cells Entry
  clArena : Cells Entry
  count : Cells Nat
  offs : Cells Nat
  work : Cells Nat
  deriving DecidableEq, Repr

/-- The decoder's state tag, R80. -/
inductive Mode where
  | needDict | type | storedLen | storedCopy | table | lenLens | codeLens | len | lenExt | dist | distExt | matchCopy
  | blockEnd | drain | done | error
  deriving DecidableEq, Repr

/-- The sub-state of CODELENS, R81. -/
inductive CodeLensSub where
  | sym | rep16 | rep17 | rep18
  deriving DecidableEq, Repr

/-- The state of an inflate instance: R60, R70, R75..R84 (the latch `INF.err` is `Codec.err`). -/
structure Inflate where
  bc : BitCursor
  sw : SlidingWindow
  ht : DecodeTables
  llRef : Option TableRef
  dRef : Option TableRef
  clRef : Option TableRef
  mode : Mode
  sub : CodeLensSub
  last : Bool
  length : Nat
  dist : Nat
  extra : Nat
  nlen : Nat
  ndist : Nat
  ncode : Nat
  haveCount : Nat
  /-- `INF.cl[0..18]`: an unlisted element is 0 (R83). -/
  cl : Cells Nat
  /-- `INF.lens[0..315]`: an unlisted element is 0 (R83). -/
  lens : Cells Nat
  hasDict : Bool
  dictSum : Word
  deriving DecidableEq, Repr

/-! ## The units of a deflate instance -/

/-- bit_cursor_write, R65. -/
structure BitWriter where
  biBuf : Half
  biValid : Nat
  deriving DecidableEq, Repr

/-- `DEF.kind`, R100. -/
inductive StrategyKind where
  | stored | fast | slow
  deriving DecidableEq, Repr

/-- `DEF.status`, R106. -/
inductive EncStatus where
  | init | busy | finish
  deriving DecidableEq, Repr

/-- A tree descriptor, R107. -/
structure Tree where
  /-- An unlisted frequency is 0 (R107: every `freq` is 0 after reset but `LD.freq[256]`). -/
  freq : Cells Nat
  /-- Unspecified until the first tree build, as `code` and `dad`. -/
  len : Cells Nat
  code : Cells Half
  dad : Cells Nat
  /-- `maxCode`, an int; none is the spec's "unspecified until the first tree build" (R107). -/
  maxCode : Option Int
  deriving DecidableEq, Repr

/-- The tree builder's shared scratch, R108: unspecified (absent) until a tree build writes it. -/
structure TreeScratch where
  heap : Cells Nat
  heapLen : Option Nat
  heapMax : Option Nat
  depth : Cells Byte
  blCount : Cells Int
  deriving DecidableEq, Repr

/-- The state of a deflate instance: R65, R66, R100..R109 (the latch `DEF.err` is `Codec.err`). -/
structure Deflate where
  /-- `DWBITS` (R9): `W_SIZE = 1 << dwbits`, `WINDOW_SIZE = 2 * W_SIZE`. -/
  dwbits : Nat
  level : Nat
  goodMatch : Nat
  maxLazy : Nat
  niceMatch : Nat
  maxChain : Nat
  kind : StrategyKind
  bw : BitWriter
  /-- `DEF.pending`, oldest byte first (R66). -/
  pending : List Byte
  window : Memory
  strstart : Nat
  lookahead : Nat
  blockStart : Int
  insH : Hash
  matchStart : Int
  /-- An unlisted chain entry is 0, "no such position" (R102). -/
  head : Cells Half
  prev : Cells Half
  matchLength : Nat
  prevLength : Nat
  prevMatch : Int
  matchAvailable : Bool
  /-- Unspecified until a token is tallied (R105), as `dBuf`. -/
  lBuf : Cells Byte
  dBuf : Cells Half
  lastLit : Nat
  matchCount : Nat
  status : EncStatus
  /-- -1, or the flush code of the last accepted step (R106). -/
  lastFlush : Int
  finishReq : Bool
  ld : Tree
  dd : Tree
  bd : Tree
  tb : TreeScratch
  optLen : Int
  staticLen : Int
  dictAllowed : Bool
  deriving DecidableEq, Repr

/-! ## An instance, the host's side, and the machine -/

/-- What an instance is made of: its kind decides which fields exist (R800, R801: the other kind's fields are absent;
R805: before the first legal reset it has no kind and every unit's state is absent). -/
inductive Engine where
  | unset
  | inflate (d : Inflate)
  | deflate (e : Deflate)
  deriving DecidableEq, Repr

/-- One instance of the codec (R10, R50): its register block, its error latch and its units. -/
structure Codec where
  regs : Regs
  err : Option Latch
  engine : Engine
  deriving DecidableEq, Repr

/-- An instance at power-on, R805. -/
def Codec.powerOn : Codec := ⟨Regs.zero, none, .unset⟩

/-- The host's side of one command (R14, R150): the bytes of its input slice not yet consumed, its output byte slots not
yet filled, and the output bytes of the command so far, in order (log entry 3, DESIGN CHOICE). -/
structure Port where
  input : List Byte
  space : Nat
  output : List Byte
  deriving DecidableEq, Repr

/-- A command the host has issued (R200): the instance it addresses, W0, W1, its input slice and its output space (log
entry 1, DESIGN CHOICE). -/
structure Command where
  target : Nat
  w0 : Word
  w1 : Word
  input : List Byte
  space : Nat
  deriving DecidableEq, Repr

/-- The machine: the instance the current command addresses, the other instances (an unlisted one is at power-on; the
current one is not listed; none is listed at power-on), the host's side of the current command, and the commands the
host has issued and the machine has not yet taken, oldest first (log entries 1, 2 and 3, DESIGN CHOICE). -/
structure State where
  target : Nat
  codec : Codec
  parked : List (Nat × Codec)
  port : Port
  queue : List Command
  deriving DecidableEq, Repr

/-- Power-on (R805): no instance has a kind, every register reads 0, no latch is set, and no command is waiting. -/
def State.reset : State := ⟨0, Codec.powerOn, [], ⟨[], 0, []⟩, []⟩

end Sys2Proof.Machine
end

