-- ==== Sys2Proof/Machine/Flags.lean ====
section
/-! DEFINITION. The STATUS register (spec/10_state.md R52; spec/30_encoding.md R230, R231). The hardware has no
condition-code register (R53): its one-bit flags are fields of State, and each rule that sets or clears one does so. -/

namespace Sys2Proof.Machine

/-- `STATUS[3:0]`, R230. -/
def Status.code : Status → Nat
  | .ok => 0
  | .streamEnd => 1
  | .needDictionary => 2
  | .needMoreInput => 3
  | .needMoreOutput => 4
  | .bufError => 5
  | .dataError => 6
  | .streamError => 7

/-- `STATUS[7:4]` of a DataError, R231. -/
def DataReason.code : DataReason → Nat
  | .badBlockType => 1
  | .storedLenMismatch => 2
  | .tooManySymbols => 3
  | .badCodelenSet => 4
  | .badRepeat => 5
  | .missingEob => 6
  | .badLitlenSet => 7
  | .badDistSet => 8
  | .badLitlenCode => 9
  | .badDistCode => 10
  | .distTooFar => 11
  | .dictMismatch => 12

/-- `STATUS[7:4]` of a StreamError, R231. -/
def StreamReason.code : StreamReason → Nat
  | .badOperand => 1
  | .badFlush => 2
  | .afterFinish => 3
  | .dictNotAllowed => 4
  | .unknownCommand => 5
  | .wrongKind => 6

/-- The status class of a latched error (R763). -/
def Latch.status : Latch → Status
  | .data _ => .dataError
  | .stream _ => .streamError

/-- The reason code of a latched error (R231). -/
def Latch.reason : Latch → Nat
  | .data r => r.code
  | .stream r => r.code

/-- The STATUS word of a command that raised nothing: reason 0 (R52). -/
def Status.word (st : Status) : Word := BitVec.ofNat 32 st.code

/-- The STATUS word of a DataError or StreamError: the reason in [7:4] (R52). -/
def Latch.word (e : Latch) : Word := BitVec.ofNat 32 (e.reason * 16 + e.status.code)

end Sys2Proof.Machine
end

