-- ==== Sys2Proof/Machine/Ops.lean ====
section
/-! DEFINITION. The shared operations over memory, arrays, the host's port and the register block; raising an error
(this hardware's exception, spec/60_exceptions.md R763), which only a reset command undoes; and the frame every command
runs in: the latch, the kind and the operand check, in the order of R775. -/

namespace Sys2Proof.Machine

/-! ## Sparse arrays -/

/-- The element listed at index `i`. -/
def Cells.find? {α : Type} : Cells α → Nat → Option α
  | [], _ => none
  | (k, v) :: rest, i => if i = k then some v else if i < k then none else Cells.find? rest i

/-- List `v` at index `i`, in place of what is listed there. -/
def Cells.put {α : Type} : Cells α → Nat → α → Cells α
  | [], i, v => [(i, v)]
  | (k, w) :: rest, i, v =>
    if i < k then (i, v) :: (k, w) :: rest
    else if i = k then (i, v) :: rest
    else (k, w) :: Cells.put rest i v

/-- List nothing at index `i`. -/
def Cells.erase {α : Type} : Cells α → Nat → Cells α
  | [], _ => []
  | (k, w) :: rest, i =>
    if i < k then (k, w) :: rest
    else if i = k then rest
    else (k, w) :: Cells.erase rest i

/-- Read an array whose unlisted elements are `d`. -/
def Cells.read {α : Type} (d : α) (m : Cells α) (i : Nat) : α := (Cells.find? m i).getD d

/-- Write an array whose unlisted elements are `d`, keeping the canonical form. -/
def Cells.write {α : Type} [DecidableEq α] (d : α) (m : Cells α) (i : Nat) (v : α) : Cells α :=
  if v = d then Cells.erase m i else Cells.put m i v

/-- Write `vs` at `i`, `i+1`, .... -/
def Cells.writeAll {α : Type} [DecidableEq α] (d : α) : Cells α → Nat → List α → Cells α
  | m, _, [] => m
  | m, i, v :: vs => Cells.writeAll d (Cells.write d m i v) (i + 1) vs

/-- Indices strictly rising. -/
abbrev Cells.sorted {α : Type} (m : Cells α) : Prop := m.Pairwise (fun a b => a.1 < b.1)

/-- The canonical form of an array whose unlisted elements are `d`. -/
abbrev Cells.wf {α : Type} (d : α) (m : Cells α) : Prop := Cells.sorted m ∧ ∀ c ∈ m, c.2 ≠ d

/-- The canonical form of a window buffer: addresses strictly rising, no entry 0 (every unlisted byte reads 0: R71,
R101). -/
abbrev Memory.wf (m : Memory) : Prop := Cells.wf (0 : Byte) m

/-- Read one byte of a window buffer (`MemRead(Win, i, 1)`, R14). -/
def Memory.read (m : Memory) (i : Nat) : Byte := Cells.read 0 m i

/-- Write one byte of a window buffer (`MemWrite(Win, i, 1, v)`, R14). -/
def Memory.write (m : Memory) (i : Nat) (v : Byte) : Memory := Cells.write 0 m i v

/-! ## Bounded arrays (R13) -/

/-- An index inside the declared bounds, or the model fault `IndexFault` (R13). -/
def checkIndex (a : ArrayName) (size : Nat) (i : Int) : Except Fault Nat :=
  if 0 ≤ i ∧ i < size then .ok i.toNat else .error (.indexFault a i)

/-- `A[i]` of an array whose unlisted elements are `d`. -/
def Cells.load {α : Type} (d : α) (a : ArrayName) (size : Nat) (m : Cells α) (i : Int) : Except Fault α := do
  let k ← checkIndex a size i
  .ok (Cells.read d m k)

/-- `A[i] <- v` of an array whose unlisted elements are `d`. -/
def Cells.store {α : Type} [DecidableEq α] (d : α) (a : ArrayName) (size : Nat) (m : Cells α) (i : Int) (v : α) :
    Except Fault (Cells α) := do
  let k ← checkIndex a size i
  .ok (Cells.write d m k v)

/-- `A[i]` of an array the spec calls unspecified at reset: an element no command has written is the model fault
`UnwrittenRead` (head of spec/10_state.md). -/
def Cells.get {α : Type} (a : ArrayName) (size : Nat) (m : Cells α) (i : Int) : Except Fault α := do
  let k ← checkIndex a size i
  match Cells.find? m k with
  | some v => .ok v
  | none => .error (.unwrittenRead a k)

/-- `A[i] <- v` of an array the spec calls unspecified at reset. -/
def Cells.set {α : Type} (a : ArrayName) (size : Nat) (m : Cells α) (i : Int) (v : α) : Except Fault (Cells α) := do
  let k ← checkIndex a size i
  .ok (Cells.put m k v)

/-- Read an unspecified scalar field (head of spec/10_state.md). -/
def readField {α : Type} (a : ArrayName) : Option α → Except Fault α
  | some v => .ok v
  | none => .error (.unwrittenRead a 0)

/-! ## The host's side of a command (R14) -/

/-- `InAvail()`. -/
def Port.inAvail (p : Port) : Nat := p.input.length

/-- `OutByte(b)` for each byte of `bs`, in order. -/
def Port.emit (p : Port) (bs : List Byte) : Port :=
  { p with space := p.space - bs.length, output := p.output ++ bs }

/-- The port as a command finds it: no output yet. -/
def State.startPort (s : State) : Port := { s.port with output := [] }

/-! ## The register block (R52, R212) -/

/-- A register of the block by its name (R52). -/
def Regs.get (r : Regs) : RegName → Word
  | .cfgKind => r.cfgKind
  | .cfgWbits => r.cfgWbits
  | .cfgLevel => r.cfgLevel
  | .cfgStrategy => r.cfgStrategy
  | .cfgDict => r.cfgDict
  | .cfgDictSum => r.cfgDictSum
  | .status => r.status
  | .inConsumed => r.inConsumed
  | .outProduced => r.outProduced
  | .totalIn => r.totalIn
  | .totalOut => r.totalOut
  | .result0 => r.result0
  | .result1 => r.result1

/-- The layout of the register block (R52): the register at a byte offset. An offset the table does not list names no
register. -/
def regAt (offset : Nat) : Option RegName :=
  match offset with
  | 0x00 => some .cfgKind
  | 0x04 => some .cfgWbits
  | 0x08 => some .cfgLevel
  | 0x0C => some .cfgStrategy
  | 0x10 => some .cfgDict
  | 0x14 => some .cfgDictSum
  | 0x18 => some .status
  | 0x1C => some .inConsumed
  | 0x20 => some .outProduced
  | 0x24 => some .totalIn
  | 0x28 => some .totalOut
  | 0x2C => some .result0
  | 0x30 => some .result1
  | _ => none

/-- The word the host reads at an offset of a register block; none where the table lists no register (R52; log entry
24). -/
def Regs.readAt (r : Regs) (offset : Nat) : Option Word := (regAt offset).map r.get

/-- Write STATUS and the per-command counts, and add the counts to the totals, mod 2^32 (R212, R160). -/
def Regs.report (r : Regs) (status : Word) (consumed produced : Nat) : Regs :=
  { r with
    status := status
    inConsumed := BitVec.ofNat 32 consumed
    outProduced := BitVec.ofNat 32 produced
    totalIn := r.totalIn + BitVec.ofNat 32 consumed
    totalOut := r.totalOut + BitVec.ofNat 32 produced }

/-- The input bytes a command took that leaves its port as `p` (R151). -/
def State.consumed (s : State) (p : Port) : Nat := s.port.input.length - p.input.length

/-- A command completes: its unit state, its port, STATUS, the counts and the results (R212). -/
def State.complete (s : State) (st : Status) (r0 r1 : Word) (eng : Engine) (p : Port) : State :=
  { s with
    codec := { s.codec with
      engine := eng
      regs := { s.codec.regs.report st.word (s.consumed p) p.output.length with result0 := r0, result1 := r1 } }
    port := p }

/-- A command ends with a transient status: only STATUS and the counts, both 0, are written (R765; log
entry 5). -/
def State.transient (s : State) (st : Status) : State :=
  { s with
    codec := { s.codec with regs := s.codec.regs.report st.word 0 0 }
    port := s.startPort }

/-! ## Raising an error, and the latch (R763, R764) -/

/-- What a raise does to the units: an inflate instance's state tag becomes ERROR (R763 item 2). -/
def Engine.failed : Engine → Engine
  | .unset => .unset
  | .inflate d => .inflate { d with mode := .error }
  | .deflate e => .deflate e

/-- `raise DataError(reason)` and `raise StreamError(reason)` (R15, R763): the latch is set, an inflate instance's tag
becomes ERROR, STATUS holds the status and the reason, the counts hold what was taken and delivered before the raise, and
every other field keeps the value it had at the raise (`eng`, `p`), RESULT0 and RESULT1 among them (log entry 5). -/
def State.raise (s : State) (e : Latch) (eng : Engine) (p : Port) : State :=
  { s with
    codec := { s.codec with
      err := some e
      engine := eng.failed
      regs := s.codec.regs.report e.word (s.consumed p) p.output.length }
    port := p }

/-- The raise of an engine command in its body. Engine commands write RESULT0 = RESULT1 = 0 (R212); everything else is as
in any raise (DEDUCED, log entry 5). -/
def State.raiseEngine (s : State) (e : Latch) (eng : Engine) (p : Port) : State :=
  { s with codec := { s.codec with regs := { s.codec.regs with result0 := 0, result1 := 0 } } }.raise e eng p

/-- A StreamError raised before the command did anything: it consumes and produces nothing (R763). -/
def State.raiseAtOnce (s : State) (r : StreamReason) : State :=
  s.raise (.stream r) s.codec.engine s.startPort

/-- The answer of an instance whose latch is set: the latched status and reason; nothing else changes, and the counts are
0 (R764). -/
def State.answerLatched (s : State) (e : Latch) : State :=
  { s with
    codec := { s.codec with regs := s.codec.regs.report e.word 0 0 }
    port := s.startPort }

/-- A refused reset (R804): the latch is set with StreamError(BAD_OPERAND), and the instance keeps its kind, its
configuration registers and every other field, its state tag among them (DEDUCED, log entry 4). -/
def State.refuseReset (s : State) : State :=
  { s with
    codec := { s.codec with
      err := some (.stream .badOperand)
      regs := s.codec.regs.report (Latch.stream .badOperand).word 0 0 }
    port := s.startPort }

/-! ## The frame of a command (R775) -/

/-- How the body of a command on a unit of state `σ` ends. -/
inductive Reply (σ : Type) where
  /-- It completes with a status and its two results (R212). -/
  | done (st : Status) (r0 r1 : Word) (u : σ) (p : Port)
  /-- An engine step made no progress (R765). -/
  | transient (st : Status)
  /-- It raises an error (R763), from the unit state and port at the raise. -/
  | raised (e : Latch) (u : σ) (p : Port)
  /-- It is an engine command and raises an error: as `raised`, and its results are 0 (R212). -/
  | failed (e : Latch) (u : σ) (p : Port)
  /-- A model fault (R13). -/
  | fault (f : Fault)

/-- Put the end of a command's body into the state. -/
def State.commit {σ : Type} (s : State) (wrap : σ → Engine) : Reply σ → Host.Outcome State Fault Refusal
  | .done st r0 r1 u p => .next (s.complete st r0 r1 (wrap u) p)
  | .transient st => .next (s.transient st)
  | .raised e u p => .next (s.raise e (wrap u) p)
  | .failed e u p => .next (s.raiseEngine e (wrap u) p)
  | .fault f => .fault f

/-- A command that only an inflate instance has: the latch first, then the kind, then the operands, then its body
(R764, R775). -/
def State.inflateCommand (s : State) (legal : Bool) (body : Inflate → Port → Reply Inflate) :
    Host.Outcome State Fault Refusal :=
  match s.codec.err with
  | some e => .next (s.answerLatched e)
  | none =>
    match s.codec.engine with
    | .inflate d => if legal then s.commit .inflate (body d s.startPort) else .next (s.raiseAtOnce .badOperand)
    | .deflate _ => .next (s.raiseAtOnce .wrongKind)
    | .unset => .next (s.raiseAtOnce .wrongKind)

/-- A command that only a deflate instance has. -/
def State.deflateCommand (s : State) (legal : Bool) (body : Deflate → Port → Reply Deflate) :
    Host.Outcome State Fault Refusal :=
  match s.codec.err with
  | some e => .next (s.answerLatched e)
  | none =>
    match s.codec.engine with
    | .deflate d => if legal then s.commit .deflate (body d s.startPort) else .next (s.raiseAtOnce .badOperand)
    | .inflate _ => .next (s.raiseAtOnce .wrongKind)
    | .unset => .next (s.raiseAtOnce .wrongKind)

/-- A reset command: accepted in every state (R764); with illegal operands it is refused (R804). -/
def State.resetCommand (s : State) (legal : Bool) (fresh : Codec) : Host.Outcome State Fault Refusal :=
  if legal then .next { s with codec := fresh, port := s.startPort } else .next s.refuseReset

/-- Carry a model fault out of a computation. -/
def Reply.ofExcept {σ α : Type} (x : Except Fault α) (k : α → Reply σ) : Reply σ :=
  match x with
  | .ok a => k a
  | .error f => .fault f

/-! ## Taking the host's next command (R50, R200) -/

/-- The instance with number `k` (R10): an instance no command has reset is at power-on (R805). -/
def State.codecAt (s : State) (k : Nat) : Codec :=
  if k = s.target then s.codec else Cells.read Codec.powerOn s.parked k

/-- The word the host reads at an offset of the register block of instance `k` (R52): it reads at any time, and a read
changes nothing. -/
def State.hostRead (s : State) (k offset : Nat) : Option Word := (s.codecAt k).regs.readAt offset

/-- Address instance `k`. -/
def State.select (s : State) (k : Nat) : State :=
  if k = s.target then s
  else
    { s with
      target := k
      codec := Cells.read Codec.powerOn s.parked k
      parked := Cells.write Codec.powerOn (Cells.erase s.parked k) s.target s.codec }

/-- Take command `c`, leaving `rest` waiting: address its instance and present its input slice and output space. -/
def State.present (s : State) (c : Command) (rest : List Command) : State :=
  { s.select c.target with port := ⟨c.input, c.space, []⟩, queue := rest }

end Sys2Proof.Machine
end

