-- ==== Sys2Proof/Machine/Operands.lean ====
section
/-! DEFINITION. What the operand fields of a command stand for (spec/30_encoding.md R201..R210, R232), which instance kind
a command needs, and what a command word that does not decode does (R211, R214, R215). -/

namespace Sys2Proof.Machine

/-- The instance kind a command needs: R201 (units 3 and 6 inflate; 4, 7 and 8 deflate), R207 (SWB OP 0..3 inflate, 4..6
deflate). -/
def owner : Instr → Owner
  | .infReset _ _ _ => .reset
  | .infStep => .inflate
  | .infSetDict => .inflate
  | .defReset _ _ _ => .reset
  | .defStep _ => .deflate
  | .defSetDict => .deflate
  | .bcrNeed _ => .inflate
  | .bcrPeek _ => .inflate
  | .bcrDrop _ => .inflate
  | .bcrGet _ => .inflate
  | .bcrAlign => .inflate
  | .bcrByte => .inflate
  | .bcwPut _ _ => .deflate
  | .bcwPutByte _ => .deflate
  | .bcwPutShort _ => .deflate
  | .bcwWindup => .deflate
  | .bcwFlush => .deflate
  | .bcwDrain => .deflate
  | .swbPut _ => .inflate
  | .swbCopy _ _ => .inflate
  | .swbDrain => .inflate
  | .swbSeed => .inflate
  | .swbFill => .deflate
  | .swbSlide => .deflate
  | .swbDseed => .deflate
  | .hdtBuild _ _ => .inflate
  | .hdtFixed => .inflate
  | .hdtDecode _ => .inflate
  | .mfHashInit => .deflate
  | .mfInsert _ => .deflate
  | .mfLongest _ => .deflate
  | .tbInitBlock => .deflate
  | .tbTally _ _ => .deflate
  | .tbBuild _ => .deflate
  | .tbGenBitlen _ => .deflate
  | .tbGenCodes _ => .deflate
  | .tbScan _ => .deflate
  | .tbBlTree => .deflate
  | .tbSendTree _ => .deflate
  | .tbSendAll _ _ _ => .deflate
  | .tbCompress _ => .deflate
  | .tbStored _ _ _ => .deflate
  | .tbFlushBlock _ => .deflate

/-- The operands a command accepts whatever the state holds (R211). -/
def operandsLegal (i : Instr) : Bool := i.wellFormed

/-- A flush mode, R232. -/
inductive Flush where
  | noFlush | syncFlush | fullFlush | finish
  deriving DecidableEq, Repr

/-- The flush mode of a code; none is a code that R232 refuses with BAD_FLUSH. -/
def flushOf (code : BitVec 3) : Option Flush :=
  match code.toNat with
  | 0 => some .noFlush
  | 2 => some .syncFlush
  | 3 => some .fullFlush
  | 4 => some .finish
  | _ => none

/-- The code of a flush mode, as `lastFlush` holds it (R106, R232). -/
def Flush.code : Flush → Int
  | .noFlush => 0
  | .syncFlush => 2
  | .fullFlush => 3
  | .finish => 4

/-- The tree descriptors, R107. -/
inductive TreeId where
  | ld | dd | bd
  deriving DecidableEq, Repr

/-- The descriptor of a `desc` field: 0 = LD, 1 = DD, 2 = BD (R210). 3 is refused before this is read. -/
def treeOf (desc : BitVec 2) : TreeId :=
  match desc.toNat with
  | 0 => .ld
  | 1 => .dd
  | _ => .bd

/-- The alphabets a decode table is built for, R420. -/
inductive CodeKind where
  | codes | lens | dists
  deriving DecidableEq, Repr

/-- The alphabet of HDT.BUILD's `kind` and HDT.DECODE's `table`: 0 = CODES / clRef, 1 = LENS / llRef, 2 = DISTS / dRef
(R208). 3 is refused before this is read. -/
def codeKindOf (k : BitVec 2) : CodeKind :=
  match k.toNat with
  | 0 => .codes
  | 1 => .lens
  | _ => .dists

/-- A two's-complement u32 of an int (R565, R612). -/
def wordOfInt (v : Int) : Word := BitVec.ofInt 32 v

/-- A command word that does not decode (R211, R214, R215), with the priorities of R775: the latch (which a reset command
skips), UNKNOWN_COMMAND, WRONG_KIND, BAD_OPERAND. -/
def State.refuseDecode (s : State) (e : DecodeError) : Host.Outcome State Fault Refusal :=
  match e with
  | .unknown =>
    match s.codec.err with
    | some l => .next (s.answerLatched l)
    | none => .next (s.raiseAtOnce .unknownCommand)
  | .reserved i =>
    match owner i with
    | .reset => .next s.refuseReset
    | .inflate => s.inflateCommand false (fun d p => .raised (.stream .badOperand) d p)
    | .deflate => s.deflateCommand false (fun d p => .raised (.stream .badOperand) d p)

end Sys2Proof.Machine
end

