-- ==== Sys2Proof/Machine/Tables.lean ====
section
/-! DEFINITION. The read-only tables of the hardware (spec/10_state.md R110): spec/30_encoding.md R262..R268,
spec/46_huffman_encode_tree.md R621, spec/47_deflate_engine.md R671, and the constants of a tree descriptor
(spec/10_state.md R107). -/

namespace Sys2Proof.Machine

/-- `LEN_EXTRA`, R264. -/
def lenExtra : List Nat :=
  [0, 0, 0, 0, 0, 0, 0, 0, 1, 1, 1, 1, 2, 2, 2, 2, 3, 3, 3, 3, 4, 4, 4, 4, 5, 5, 5, 5, 0]

/-- `LEN_BASE`, R264. -/
def lenBase : List Nat :=
  [3, 4, 5, 6, 7, 8, 9, 10, 11, 13, 15, 17, 19, 23, 27, 31, 35, 43, 51, 59, 67, 83, 99, 115, 131, 163, 195, 227, 258]

/-- `DIST_EXTRA`, R265. -/
def distExtra : List Nat :=
  [0, 0, 0, 0, 1, 1, 2, 2, 3, 3, 4, 4, 5, 5, 6, 6, 7, 7, 8, 8, 9, 9, 10, 10, 11, 11, 12, 12, 13, 13]

/-- `DIST_BASE`, R265. -/
def distBase : List Nat :=
  [1, 2, 3, 4, 5, 7, 9, 13, 17, 25, 33, 49, 65, 97, 129, 193, 257, 385, 513, 769, 1025, 1537, 2049, 3073, 4097, 6145,
   8193, 12289, 16385, 24577]

/-- `BL_ORDER`, R266. -/
def blOrder : List Nat := [16, 17, 18, 0, 8, 7, 9, 6, 10, 5, 11, 4, 12, 3, 13, 2, 14, 1, 15]

/-- `BL_EXTRA`, R266. -/
def blExtra : List Nat := [0, 0, 0, 0, 0, 0, 0, 0, 0, 0, 0, 0, 0, 0, 0, 0, 2, 3, 7]

/-- Element `i` of a constant table (0 past its end, which no rule reads). -/
def tableAt (t : List Nat) (i : Nat) : Nat := t.getD i 0

/-- The largest index whose base is at most `v`, in a rising table whose first base is at most `v` (R267). -/
def largestBase (bases : List Nat) (v : Nat) : Nat := (bases.filter (fun b => b ≤ v)).length - 1

/-- `LengthCode(lc)`, R267, R600: the index of the length symbol whose range holds the length `lc + 3`. -/
def lengthCode (lc : Nat) : Nat := largestBase lenBase (lc + 3)

/-- `DistCode(d)`, R267, R600: the index of the distance symbol whose range holds the distance `d + 1`. -/
def distCode (d : Nat) : Nat := largestBase distBase (d + 1)

/-- The fixed literal/length code lengths, R262. -/
def fixedLLLen (s : Nat) : Nat :=
  if s < 144 then 8 else if s < 256 then 9 else if s < 280 then 7 else 8

/-- The fixed literal/length code of a symbol, most significant bit first, R262. -/
def fixedLLCode (s : Nat) : Nat :=
  if s < 144 then 0x30 + s else if s < 256 then 0x190 + (s - 144) else if s < 280 then s - 256 else 0xC0 + (s - 280)

/-- The 288 fixed literal/length code lengths, R262. -/
def fixedLLLens : List Nat := (List.range 288).map fixedLLLen

/-- The 32 fixed distance code lengths, R263. -/
def fixedDLens : List Nat := List.replicate 32 5

/-- `bitrev(v, n)`, R16: the n-bit value whose bit i is bit (n-1-i) of v. -/
def bitrev (v : Nat) : Nat → Nat
  | 0 => 0
  | n + 1 => (v % 2) * 2 ^ n + bitrev (v / 2) n

/-- A row of `CONFIG_TABLE`, R671. -/
structure LevelRow where
  goodMatch : Nat
  maxLazy : Nat
  niceMatch : Nat
  maxChain : Nat
  kind : StrategyKind

/-- `CONFIG_TABLE[level]`, R671. -/
def levelRow (level : Nat) : LevelRow :=
  match level with
  | 0 => ⟨0, 0, 0, 0, .stored⟩
  | 1 => ⟨4, 4, 8, 4, .fast⟩
  | 2 => ⟨4, 5, 16, 8, .fast⟩
  | 3 => ⟨4, 6, 32, 32, .fast⟩
  | 4 => ⟨4, 4, 16, 16, .slow⟩
  | 5 => ⟨8, 16, 32, 32, .slow⟩
  | 6 => ⟨8, 16, 128, 128, .slow⟩
  | 7 => ⟨8, 32, 128, 256, .slow⟩
  | 8 => ⟨32, 128, 258, 1024, .slow⟩
  | _ => ⟨32, 258, 258, 4096, .slow⟩

/-- `t.elems`, R107. -/
def TreeId.elems : TreeId → Nat
  | .ld => 286
  | .dd => 30
  | .bd => 19

/-- The number of nodes of a descriptor, `2 * elems + 1` (R107). -/
def TreeId.nodes : TreeId → Nat
  | .ld => 573
  | .dd => 61
  | .bd => 39

/-- `t.maxLength`, R107. -/
def TreeId.maxLength : TreeId → Nat
  | .ld => 15
  | .dd => 15
  | .bd => 7

/-- The extra bits of symbol `n`: `(n >= t.extraBase) ? t.extra[n - t.extraBase] : 0` (R107, R615). -/
def TreeId.extraBits (t : TreeId) (n : Nat) : Nat :=
  match t with
  | .ld => if 257 ≤ n then tableAt lenExtra (n - 257) else 0
  | .dd => tableAt distExtra n
  | .bd => tableAt blExtra n

/-- `t.stree[n]`, the static tree's length of symbol `n`; none where the descriptor has no static tree (R107, R612). -/
def TreeId.stree (t : TreeId) (n : Nat) : Option Nat :=
  match t with
  | .ld => some (fixedLLLen n)
  | .dd => some 5
  | .bd => none

end Sys2Proof.Machine
end

