-- ==== Sys2Proof/Machine/BitPacker.lean ====
section
/-! DEFINITION. bit_cursor_write / bit_packer: the operations of spec/41_bit_packer.md and the BCW commands. -/

namespace Sys2Proof.Machine

/-- A deflate instance's units and the port of the command that runs on them. -/
structure Enc where
  u : Deflate
  port : Port
  deriving DecidableEq, Repr

/-- `PutByte` of each byte of `bs`, in order (R341). Appending to a full FIFO is `IndexFault(pending, PENDING_BUF_SIZE)`
(R340). -/
def Deflate.putBytes (d : Deflate) (bs : List Byte) : Except Fault Deflate :=
  if d.pending.length + bs.length ≤ Config.pendingBufSize then .ok { d with pending := d.pending ++ bs }
  else .error (.indexFault .pending Config.pendingBufSize)

/-- `PutByte(b)`, R341. -/
def Deflate.putByte (d : Deflate) (b : Byte) : Except Fault Deflate := d.putBytes [b]

/-- `PutShort(w)`, R342: the low byte first. -/
def Deflate.putShort (d : Deflate) (w : Half) : Except Fault Deflate :=
  d.putBytes [w.extractLsb' 0 8, w.extractLsb' 8 8]

/-- `SendBits(value, n)`, R340. -/
def Deflate.sendBits (d : Deflate) (value : Half) (n : Nat) : Except Fault Deflate :=
  let buf := d.bw.biBuf ||| (value <<< d.bw.biValid)
  if d.bw.biValid + n > Config.bwChunk then do
    let d ← d.putShort buf
    .ok { d with
      bw := { biBuf := value >>> (Config.bwChunk - d.bw.biValid), biValid := d.bw.biValid + n - Config.bwChunk } }
  else .ok { d with bw := { biBuf := buf, biValid := d.bw.biValid + n } }

/-- `SendBits` of a value given as a number. -/
def Deflate.sendNat (d : Deflate) (value n : Nat) : Except Fault Deflate := d.sendBits (BitVec.ofNat 16 value) n

/-- `Windup()`, R344. -/
def Deflate.windup (d : Deflate) : Except Fault Deflate := do
  let d' ←
    if d.bw.biValid > 8 then d.putShort d.bw.biBuf
    else if d.bw.biValid > 0 then d.putByte (d.bw.biBuf.extractLsb' 0 8)
    else .ok d
  .ok { d' with bw := { biBuf := 0, biValid := 0 } }

/-- `FlushBits()`, R345. -/
def Deflate.flushBits (d : Deflate) : Except Fault Deflate :=
  if d.bw.biValid = Config.bwChunk then do
    let d' ← d.putShort d.bw.biBuf
    .ok { d' with bw := { biBuf := 0, biValid := 0 } }
  else if 8 ≤ d.bw.biValid then do
    let d' ← d.putByte (d.bw.biBuf.extractLsb' 0 8)
    .ok { d' with bw := { biBuf := d.bw.biBuf >>> 8, biValid := d.bw.biValid - 8 } }
  else .ok d

/-- The number of bytes `FlushPending()` moves (R350). -/
def Enc.flushCount (c : Enc) : Nat := min c.u.pending.length c.port.space

/-- `FlushPending()`, R350: pending bytes leave from the head, in order. -/
def Enc.flushPending (c : Enc) : Enc :=
  { u := { c.u with pending := c.u.pending.drop c.flushCount }
    port := c.port.emit (c.u.pending.take c.flushCount) }

/-- A deflate sub-block command completes with its results (R217). -/
def Deflate.answer (d : Deflate) (p : Port) (r0 r1 : Word) : Reply Deflate := .done .ok r0 r1 d p

/-- `BCW.PUT n, value`, R340. -/
def execBcwPut (n : BitVec 5) (value : Half) (s : State) : Host.Outcome State Fault Refusal :=
  s.deflateCommand (operandsLegal (.bcwPut n value)) fun d p =>
    Reply.ofExcept (d.sendBits value n.toNat) fun d => d.answer p 0 0

/-- `BCW.PUTBYTE b`, R341. -/
def execBcwPutByte (b : Byte) (s : State) : Host.Outcome State Fault Refusal :=
  s.deflateCommand (operandsLegal (.bcwPutByte b)) fun d p =>
    Reply.ofExcept (d.putByte b) fun d => d.answer p 0 0

/-- `BCW.PUTSHORT w`, R342. -/
def execBcwPutShort (w : Half) (s : State) : Host.Outcome State Fault Refusal :=
  s.deflateCommand (operandsLegal (.bcwPutShort w)) fun d p =>
    Reply.ofExcept (d.putShort w) fun d => d.answer p 0 0

/-- `BCW.WINDUP`, R344. -/
def execBcwWindup (s : State) : Host.Outcome State Fault Refusal :=
  s.deflateCommand (operandsLegal .bcwWindup) fun d p =>
    Reply.ofExcept d.windup fun d => d.answer p 0 0

/-- `BCW.FLUSH`, R345. -/
def execBcwFlush (s : State) : Host.Outcome State Fault Refusal :=
  s.deflateCommand (operandsLegal .bcwFlush) fun d p =>
    Reply.ofExcept d.flushBits fun d => d.answer p 0 0

/-- `BCW.DRAIN`, R350: NeedMoreOutput while bytes remain in the FIFO. -/
def execBcwDrain (s : State) : Host.Outcome State Fault Refusal :=
  s.deflateCommand (operandsLegal .bcwDrain) fun d p =>
    let c : Enc := ⟨d, p⟩
    let c' := c.flushPending
    .done (if c'.u.pending = [] then .ok else .needMoreOutput) (BitVec.ofNat 32 c.flushCount) 0 c'.u c'.port

end Sys2Proof.Machine
end

