-- ==== Sys2Proof/Machine/MatchFinder.lean ====
section
/-! DEFINITION. lz77_match_finder: spec/45_lz77_match_finder.md and the MF commands. -/

namespace Sys2Proof.Machine

/-- `W_SIZE`, R9. -/
def Deflate.wSize (d : Deflate) : Nat := 2 ^ d.dwbits

/-- `WINDOW_SIZE`, R9. -/
def Deflate.windowSize (d : Deflate) : Nat := 2 * d.wSize

/-- `MAX_DIST`, R8. -/
def Deflate.maxDist (d : Deflate) : Nat := d.wSize - Config.minLookahead

/-- `DEF.window[i]`. -/
def Deflate.windowAt (d : Deflate) (i : Int) : Except Fault Byte := Cells.load 0 .window d.windowSize d.window i

/-- `UpdateHash(h, c)`, R550. -/
def updateHash (h : Hash) (c : Byte) : Hash := (h <<< Config.hashShift) ^^^ c.setWidth 15

/-- The rebasing of a chain entry by `Slide` (R552). -/
def rebase (w : Nat) (v : Half) : Half := if w ≤ v.toNat then BitVec.ofNat 16 (v.toNat - w) else 0

/-- Rebase every entry of a hash chain array; an entry that becomes 0 is no longer listed. -/
def rebaseAll (w : Nat) (m : Cells Half) : Cells Half :=
  (m.map fun c => (c.1, rebase w c.2)).filter fun c => c.2 ≠ 0

/-- Copy the bytes at and above `w` down by `w`; the upper half is unchanged (R552). -/
def slideDown (w : Nat) (m : Memory) : Memory :=
  ((m.filter fun c => decide (w ≤ c.1)).map fun c => (c.1 - w, c.2)) ++ m.filter fun c => decide (w ≤ c.1)

/-- `Slide()`, R552. -/
def Deflate.slide (d : Deflate) : Deflate :=
  { d with
    window := slideDown d.wSize d.window
    matchStart := d.matchStart - d.wSize
    strstart := d.strstart - d.wSize
    blockStart := d.blockStart - d.wSize
    head := rebaseAll d.wSize d.head
    prev := rebaseAll d.wSize d.prev }

/-- `HashInit()`, R560: the hash of the two bytes at `i` and `i + 1`. -/
def Deflate.hashInitAt (d : Deflate) (i : Nat) : Except Fault Deflate := do
  let b0 ← d.windowAt (i : Int)
  let b1 ← d.windowAt ((i : Int) + 1)
  .ok { d with insH := updateHash (b0.setWidth 15) b1 }

/-- `HashInit()`, R560. -/
def Deflate.hashInit (d : Deflate) : Except Fault Deflate := d.hashInitAt d.strstart

/-- `InsertString(s) -> hashHead`, R561. -/
def Deflate.insertString (d : Deflate) (s : Nat) : Except Fault (Half × Deflate) := do
  let c ← d.windowAt ((s : Int) + Config.minMatch - 1)
  let h := updateHash d.insH c
  let hashHead := Cells.read 0 d.head h.toNat
  .ok (hashHead,
    { d with
      insH := h
      prev := Cells.write 0 d.prev (s % d.wSize) hashHead
      head := Cells.write 0 d.head h.toNat (BitVec.ofNat 16 s) })

/-- `W[i] == W[j]`. -/
def Deflate.sameByte (d : Deflate) (i j : Int) : Except Fault Bool := do
  let a ← d.windowAt i
  let b ← d.windowAt j
  .ok (a == b)

/-- The quick test of R565, in its order: offsets best, best - 1, 0 and 1. -/
def Deflate.quickTest (d : Deflate) (m scan best : Nat) : Except Fault Bool := do
  if !(← d.sameByte ((m : Int) + best) ((scan : Int) + best)) then return false
  if !(← d.sameByte ((m : Int) + best - 1) ((scan : Int) + best - 1)) then return false
  if !(← d.sameByte m scan) then return false
  d.sameByte ((m : Int) + 1) ((scan : Int) + 1)

/-- The compare loop of R565 from offset `k`: `fuel` is `MAX_MATCH - k`. -/
def Deflate.matchLen (d : Deflate) (m scan : Nat) : Nat → Nat → Except Fault Nat
  | 0, k => .ok k
  | fuel + 1, k => do
    if ← d.sameByte ((m : Int) + k) ((scan : Int) + k) then d.matchLen m scan fuel (k + 1) else .ok k

/-- The variables of R565's loop: the best length, and `matchStart`. -/
structure Search where
  best : Nat
  matchStart : Int

/-- The loop of R565. `fuel` bounds its iterations; `chain` counts down as an int. -/
def Deflate.search (d : Deflate) (scan limit nice : Nat) : Nat → Int → Nat → Search → Except Fault Search
  | 0, _, _, _ => .error .neverCompletes
  | fuel + 1, chain, m, r => do
    let r' ←
      if ← d.quickTest m scan r.best then do
        let k ← d.matchLen m scan (Config.maxMatch - 3) 3
        .ok (if r.best < k then { best := k, matchStart := (m : Int) } else r)
      else .ok r
    if r.best < r'.best ∧ nice ≤ r'.best then return r'
    let m' := (Cells.read 0 d.prev (m % d.wSize)).toNat
    let chain' := chain - 1
    if limit < m' ∧ chain' ≠ 0 then d.search scan limit nice fuel chain' m' r' else return r'

/-- The chain budget of R565. -/
def Deflate.chainBudget (d : Deflate) : Nat := if d.goodMatch ≤ d.prevLength then d.maxChain / 4 else d.maxChain

/-- The iterations R565's loop can make before it ends or has entered a cycle. With a positive budget the budget ends it.
With budget 0 (level 0) the count never reaches 0 again and only the chain can end it: the candidates are u16 positions,
and a second visit of a position never improves the best, so a loop longer than twice the positions never ends
(DEDUCED, log entry 9). -/
def searchFuel (chain : Nat) : Nat := if chain = 0 then 2 * 65536 + 2 else chain

/-- `LongestMatch(curMatch) -> length`, R565, R566. -/
def Deflate.longestMatch (d : Deflate) (curMatch : Nat) : Except Fault (Nat × Deflate) := do
  let chain := d.chainBudget
  let limit := if d.maxDist < d.strstart then d.strstart - d.maxDist else 0
  let nice := min d.niceMatch d.lookahead
  let r ← d.search d.strstart limit nice (searchFuel chain) (chain : Int) curMatch ⟨d.prevLength, d.matchStart⟩
  .ok (min r.best d.lookahead, { d with matchStart := r.matchStart })

/-- `MF.HASHINIT`, R560. -/
def execMfHashInit (s : State) : Host.Outcome State Fault Refusal :=
  s.deflateCommand (operandsLegal .mfHashInit) fun d p =>
    Reply.ofExcept d.hashInit fun d => d.answer p (d.insH.setWidth 32) 0

/-- `MF.INSERT pos`, R561: refused when `pos > WINDOW_SIZE - 3`. R561's precondition, that `insH` is the hash of the two bytes
at `pos` and `pos + 1`, is not checked: R561 names a refusal for `pos` only, and the command runs from whatever `insH` holds,
though R771 could be read to refuse it (DESIGN CHOICE, log entry 25). -/
def execMfInsert (pos : Word) (s : State) : Host.Outcome State Fault Refusal :=
  s.deflateCommand (operandsLegal (.mfInsert pos)) fun d p =>
    if d.windowSize - 3 < pos.toNat then .raised (.stream .badOperand) d p
    else Reply.ofExcept (d.insertString pos.toNat) fun (hashHead, d) => d.answer p (hashHead.setWidth 32) 0

/-- `MF.LONGEST curMatch`, R565: the operand is a candidate position with `curMatch < strstart`. One at or past `strstart` is
refused (R211, R771; DEDUCED, log entry 6). One below `strstart` that R561 does not admit as a candidate (0, or farther
than MAX_DIST back) is searched: the spec does not say whether it is refused (DESIGN CHOICE, log entry 6). -/
def execMfLongest (curMatch : Word) (s : State) : Host.Outcome State Fault Refusal :=
  s.deflateCommand (operandsLegal (.mfLongest curMatch)) fun d p =>
    if d.strstart ≤ curMatch.toNat then .raised (.stream .badOperand) d p
    else
      Reply.ofExcept (d.longestMatch curMatch.toNat) fun (length, d) =>
        d.answer p (BitVec.ofNat 32 length) (wordOfInt d.matchStart)

end Sys2Proof.Machine
end

