-- ==== Sys2Proof/Machine/EncoderWindow.lean ====
section
/-! DEFINITION. sliding_window_buffer, encoder use (linear, with slide): spec/42_sliding_window.md part 2 and SWB OP 4..6. -/

namespace Sys2Proof.Machine

/-- `ReadBuf(start, size)`, R391, for `n = min(InAvail(), size)` (an int: nothing is read when it is not positive). -/
def Enc.readBuf (c : Enc) (start n : Nat) : Except Fault Enc :=
  if n = 0 ∨ start + n ≤ c.u.windowSize then
    .ok { u := { c.u with window := Cells.writeAll 0 c.u.window start (c.port.input.take n) }
          port := { c.port with input := c.port.input.drop n } }
  else .error (.indexFault .window c.u.windowSize)

/-- The slide test of R390, before the input test. -/
def Deflate.fillSlides (d : Deflate) : Bool :=
  decide (d.wSize + d.wSize - Config.minLookahead ≤ d.strstart)

/-- The space `more` that R390 gives `ReadBuf`, after the slide test: an int. -/
def Deflate.fillSpace (d : Deflate) : Int :=
  let more := (d.windowSize : Int) - d.lookahead - d.strstart
  if more = 0 ∧ d.strstart = 0 ∧ d.lookahead = 0 then d.wSize
  else if d.fillSlides then more + d.wSize
  else more

/-- The units after the slide test of R390. -/
def Deflate.fillSlide (d : Deflate) : Deflate :=
  if (d.windowSize : Int) - d.lookahead - d.strstart = 0 ∧ d.strstart = 0 ∧ d.lookahead = 0 then d
  else if d.fillSlides then d.slide
  else d

/-- `FillWindow()`, R390. `fuel` bounds its iterations: each one but the last consumes input. -/
def Enc.fillLoop : Nat → Enc → Except Fault Enc
  | 0, _ => .error .neverCompletes
  | fuel + 1, c => do
    let more := c.u.fillSpace
    let d := c.u.fillSlide
    if c.port.inAvail = 0 then return { c with u := d }
    let n := min (c.port.inAvail : Int) more
    let c ← Enc.readBuf { c with u := d } (d.strstart + d.lookahead) n.toNat
    let d := { c.u with lookahead := (c.u.lookahead + n).toNat }
    let d ← if Config.minMatch ≤ d.lookahead then d.hashInit else .ok d
    let c := { c with u := d }
    if d.lookahead < Config.minLookahead ∧ c.port.inAvail ≠ 0 then Enc.fillLoop fuel c else return c

/-- `FillWindow()`, R390. -/
def Enc.fillWindow (c : Enc) : Except Fault Enc := Enc.fillLoop (c.port.inAvail + 2) c

/-- `InsertString(n)`, `InsertString(n + 1)`, ... (`k` calls), R394. -/
def Deflate.insertFrom : Nat → Nat → Deflate → Except Fault Deflate
  | 0, _, d => .ok d
  | k + 1, n, d => do
    let (_, d) ← d.insertString n
    Deflate.insertFrom k (n + 1) d

/-- `DictSeed(dict)`, R394: the bytes kept. -/
def Deflate.dictSeed (d : Deflate) (dict : List Byte) : Except Fault (Nat × Deflate) :=
  if dict.length < Config.minMatch then .ok (0, d)
  else do
    let length := min dict.length d.maxDist
    let kept := dict.drop (dict.length - length)
    let d := { d with window := Cells.writeAll 0 d.window 0 kept, strstart := length, blockStart := length }
    let d ← d.hashInitAt 0
    let d ← Deflate.insertFrom (length - Config.minMatch + 1) 0 d
    .ok (length, d)

/-- `SWB.FILL`, R390: RESULT0 is the bytes read. -/
def execSwbFill (s : State) : Host.Outcome State Fault Refusal :=
  s.deflateCommand (operandsLegal .swbFill) fun d p =>
    Reply.ofExcept (Enc.fillWindow ⟨d, p⟩) fun c =>
      c.u.answer c.port (BitVec.ofNat 32 (p.inAvail - c.port.inAvail)) 0

/-- `SWB.SLIDE`, R392: legal only when `strstart ≥ W_SIZE`. -/
def execSwbSlide (s : State) : Host.Outcome State Fault Refusal :=
  s.deflateCommand (operandsLegal .swbSlide) fun d p =>
    if d.strstart < d.wSize then .raised (.stream .badOperand) d p else d.slide.answer p 0 0

/-- `SWB.DSEED`, R394: refused unless `strstart = lookahead = 0`; the whole slice is consumed. -/
def execSwbDseed (s : State) : Host.Outcome State Fault Refusal :=
  s.deflateCommand (operandsLegal .swbDseed) fun d p =>
    if d.strstart ≠ 0 ∨ d.lookahead ≠ 0 then .raised (.stream .badOperand) d p
    else
      Reply.ofExcept (d.dictSeed p.input) fun (length, d) =>
        d.answer { p with input := [] } (BitVec.ofNat 32 length) 0

end Sys2Proof.Machine
end

