-- ==== Sys2Proof/Machine/HuffmanEncode.lean ====
section
/-! DEFINITION. huffman_encode_tree_builder and block emission: spec/46_huffman_encode_tree.md and the TB commands. -/

namespace Sys2Proof.Machine

/-! ## Tokens and frequencies (R600..R607) -/

/-- `InitBlock()`, R606. Only leaf frequencies are cleared. -/
def clearLeaves (t : TreeId) (freq : Cells Nat) : Cells Nat := freq.filter fun c => decide (t.elems ≤ c.1)

/-- `InitBlock()`, R606. -/
def Deflate.initBlock (d : Deflate) : Deflate :=
  { d with
    ld := { d.ld with freq := Cells.write 0 (clearLeaves .ld d.ld.freq) 256 1 }
    dd := { d.dd with freq := clearLeaves .dd d.dd.freq }
    bd := { d.bd with freq := clearLeaves .bd d.bd.freq }
    optLen := 0
    staticLen := 0
    lastLit := 0
    matchCount := 0 }

/-- `t.freq[n]`. -/
def Tree.freqAt (id : TreeId) (t : Tree) (n : Nat) : Except Fault Nat := Cells.load 0 .freq id.nodes t.freq (n : Int)

/-- `t.freq[n] <- v`. -/
def Tree.setFreq (id : TreeId) (t : Tree) (n v : Nat) : Except Fault Tree := do
  let freq ← Cells.store 0 .freq id.nodes t.freq (n : Int) v
  .ok { t with freq := freq }

/-- `t.freq[n] += k`. -/
def Tree.addFreq (id : TreeId) (t : Tree) (n k : Nat) : Except Fault Tree := do
  let f ← t.freqAt id n
  t.setFreq id n (f + k)

/-- The estimate `outLength` of R607's heuristic, in bytes. -/
def Deflate.outEstimate (d : Deflate) : Nat :=
  (d.lastLit * 8 + ((List.range 30).map fun c => Cells.read 0 d.dd.freq c * (5 + tableAt distExtra c)).sum) / 8

/-- The truncate heuristic of R607 after a token is appended: end the block early. -/
def Deflate.truncates (d : Deflate) : Bool :=
  Config.truncateHeuristic && d.lastLit % 8192 == 0 && decide (2 < d.level) &&
    decide (d.matchCount < d.lastLit / 2) &&
    decide ((d.outEstimate : Int) < Int.tdiv ((d.strstart : Int) - d.blockStart) 2)

/-- `DistCode(d)` of an int (R600, R267). For a distance D = d + 1 outside 1..32768 no symbol is stated: it is a free value
(DESIGN CHOICE, log entry 8). -/
def distSymbol (d : Int) : Nat := if 0 ≤ d ∧ d < 32768 then distCode d.toNat else (Config.distSymbolOutside d).val

/-- `Tally(dist, lc) -> mustFlush`, R607. `dist` is an int: a strategy subtracts positions (R694, R700), and in a state that
sub-block commands have built the difference can be negative, which is a match token like every `dist` but 0. -/
def Deflate.tally (d : Deflate) (dist : Int) (lc : Byte) : Except Fault (Bool × Deflate) := do
  let dBuf ← Cells.set .dBuf Config.litBufSize d.dBuf (d.lastLit : Int) (BitVec.ofInt 16 dist)
  let lBuf ← Cells.set .lBuf Config.litBufSize d.lBuf (d.lastLit : Int) lc
  let d := { d with dBuf := dBuf, lBuf := lBuf, lastLit := d.lastLit + 1 }
  let d ←
    if dist = 0 then do
      let ld ← d.ld.addFreq .ld lc.toNat 1
      .ok { d with ld := ld }
    else do
      let ld ← d.ld.addFreq .ld (257 + lengthCode lc.toNat) 1
      let dd ← d.dd.addFreq .dd (distSymbol (dist - 1)) 1
      .ok { d with ld := ld, dd := dd, matchCount := d.matchCount + 1 }
  .ok (d.truncates || d.lastLit == Config.litBufSize - 1, d)

/-! ## Tree construction (R610..R621) -/

/-- What a tree build works on: one descriptor, the shared scratch and the two cost accumulators. -/
structure Forest where
  tree : Tree
  tb : TreeScratch
  optLen : Int
  staticLen : Int

/-- A descriptor of the instance. -/
def Deflate.tree (d : Deflate) : TreeId → Tree
  | .ld => d.ld
  | .dd => d.dd
  | .bd => d.bd

/-- Put a descriptor back. -/
def Deflate.setTree (d : Deflate) (id : TreeId) (t : Tree) : Deflate :=
  match id with
  | .ld => { d with ld := t }
  | .dd => { d with dd := t }
  | .bd => { d with bd := t }

/-- Take out what a build of descriptor `id` works on. -/
def Deflate.forest (d : Deflate) (id : TreeId) : Forest := ⟨d.tree id, d.tb, d.optLen, d.staticLen⟩

/-- Put back what a build of descriptor `id` left. -/
def Deflate.plant (d : Deflate) (id : TreeId) (f : Forest) : Deflate :=
  { d.setTree id f.tree with tb := f.tb, optLen := f.optLen, staticLen := f.staticLen }

/-- `TB.heap[i]`. -/
def heapAt (heap : Cells Nat) (i : Int) : Except Fault Nat := Cells.get .heap Config.heapSize heap i

/-- `TB.heap[i] <- n`. -/
def setHeap (heap : Cells Nat) (i : Int) (n : Nat) : Except Fault (Cells Nat) := Cells.set .heap Config.heapSize heap i n

/-- `Smaller(t, n, m)`, R610. -/
def smaller (id : TreeId) (f : Forest) (n m : Nat) : Except Fault Bool := do
  let fn ← f.tree.freqAt id n
  let fm ← f.tree.freqAt id m
  if fn < fm then .ok true
  else if fn = fm then do
    let dn ← Cells.get .depth Config.heapSize f.tb.depth (n : Int)
    let dm ← Cells.get .depth Config.heapSize f.tb.depth (m : Int)
    .ok (decide (dn.toNat ≤ dm.toNat))
  else .ok false

/-- The loop of `PqDownHeap` (R611): sift `v` down from `k`, with `j = 2k`. `fuel` bounds its iterations. -/
def siftDown (id : TreeId) (f : Forest) (len v : Nat) : Nat → Nat → Cells Nat → Except Fault (Cells Nat)
  | 0, k, heap => setHeap heap (k : Int) v
  | fuel + 1, k, heap => do
    let j := 2 * k
    if len < j then return ← setHeap heap (k : Int) v
    let j ←
      if j < len then do
        let r ← heapAt heap ((j : Int) + 1)
        let l ← heapAt heap (j : Int)
        if ← smaller id f r l then .ok (j + 1) else .ok j
      else .ok j
    let c ← heapAt heap (j : Int)
    if ← smaller id f v c then return ← setHeap heap (k : Int) v
    let heap ← setHeap heap (k : Int) c
    siftDown id f len v fuel j heap

/-- `PqDownHeap(t, k)`, R611. -/
def pqDownHeap (id : TreeId) (k : Nat) (f : Forest) : Except Fault Forest := do
  let len ← readField .heapLen f.tb.heapLen
  let v ← heapAt f.tb.heap (k : Int)
  let heap ← siftDown id f len v len k f.tb.heap
  .ok { f with tb := { f.tb with heap := heap } }

/-- The symbol loop of `BuildTree` (R612): used symbols enter the heap, unused ones get length 0. The heap length and
maxCode go along. -/
def gatherLeaves (id : TreeId) : List Nat → Nat → Int → Forest → Except Fault (Nat × Int × Forest)
  | [], heapLen, maxCode, f => .ok (heapLen, maxCode, f)
  | n :: rest, heapLen, maxCode, f => do
    let fr ← f.tree.freqAt id n
    if fr ≠ 0 then do
      let heap ← setHeap f.tb.heap ((heapLen : Int) + 1) n
      let depth ← Cells.set .depth Config.heapSize f.tb.depth (n : Int) 0
      gatherLeaves id rest (heapLen + 1) n { f with tb := { f.tb with heap := heap, depth := depth } }
    else do
      let len ← Cells.set .len id.nodes f.tree.len (n : Int) 0
      gatherLeaves id rest heapLen maxCode { f with tree := { f.tree with len := len } }

/-- The forcing loop of R612: at least two codes. `fuel` is the most codes it can add. -/
def forceTwo (id : TreeId) : Nat → Nat → Int → Forest → Except Fault (Nat × Int × Forest)
  | 0, heapLen, maxCode, f => .ok (heapLen, maxCode, f)
  | fuel + 1, heapLen, maxCode, f =>
    if heapLen < 2 then do
      let maxCode' := if maxCode < 2 then maxCode + 1 else maxCode
      let node := if maxCode < 2 then (maxCode + 1).toNat else 0
      let heap ← setHeap f.tb.heap ((heapLen : Int) + 1) node
      let tree ← f.tree.setFreq id node 1
      let depth ← Cells.set .depth Config.heapSize f.tb.depth (node : Int) 0
      let cost : Int := match id.stree node with
        | some l => (l : Int)
        | none => 0
      forceTwo id fuel (heapLen + 1) maxCode'
        { tree := tree
          tb := { f.tb with heap := heap, depth := depth }
          optLen := f.optLen - 1
          staticLen := f.staticLen - cost }
    else .ok (heapLen, maxCode, f)

/-- `for n in k down to 1: PqDownHeap(t, n)` (R612). -/
def heapify (id : TreeId) : Nat → Forest → Except Fault Forest
  | 0, f => .ok f
  | k + 1, f => do
    let f ← pqDownHeap id (k + 1) f
    heapify id k f

/-- Put node `n` at the front of the sorted part of the heap: `heapMax -= 1; heap[heapMax] <- n` (R612). -/
def pushSorted (n : Nat) (f : Forest) : Except Fault Forest := do
  let heapMax ← readField .heapMax f.tb.heapMax
  let heap ← setHeap f.tb.heap ((heapMax : Int) - 1) n
  .ok { f with tb := { f.tb with heap := heap, heapMax := some (heapMax - 1) } }

/-- One round of the merge loop of R612: the two least nodes become the children of `node`. -/
def mergeTwo (id : TreeId) (node : Nat) (f : Forest) : Except Fault Forest := do
  let len ← readField .heapLen f.tb.heapLen
  let n ← heapAt f.tb.heap 1
  let last ← heapAt f.tb.heap (len : Int)
  let heap ← setHeap f.tb.heap 1 last
  let f ← pqDownHeap id 1 { f with tb := { f.tb with heap := heap, heapLen := some (len - 1) } }
  let m ← heapAt f.tb.heap 1
  let f ← pushSorted n f
  let f ← pushSorted m f
  let fn ← f.tree.freqAt id n
  let fm ← f.tree.freqAt id m
  let tree ← f.tree.setFreq id node (fn + fm)
  let dn ← Cells.get .depth Config.heapSize f.tb.depth (n : Int)
  let dm ← Cells.get .depth Config.heapSize f.tb.depth (m : Int)
  let depth ← Cells.set .depth Config.heapSize f.tb.depth (node : Int) ((if dn.toNat ≤ dm.toNat then dm else dn) + 1)
  let dad ← Cells.set .dad id.nodes tree.dad (n : Int) node
  let dad ← Cells.set .dad id.nodes dad (m : Int) node
  let heap ← setHeap f.tb.heap 1 node
  pqDownHeap id 1 { f with tree := { tree with dad := dad }, tb := { f.tb with heap := heap, depth := depth } }

/-- The merge loop of R612, `until heapLen < 2`. `fuel` bounds its rounds. -/
def mergeLoop (id : TreeId) : Nat → Nat → Forest → Except Fault Forest
  | 0, _, _ => .error .neverCompletes
  | fuel + 1, node, f => do
    let f ← mergeTwo id node f
    let len ← readField .heapLen f.tb.heapLen
    if len < 2 then .ok f else mergeLoop id fuel (node + 1) f

/-- `TB.blCount[b]`. -/
def blCountAt (c : Cells Int) (b : Int) : Except Fault Int := Cells.get .blCount 16 c b

/-- `TB.blCount[b] += k`. -/
def addBlCount (c : Cells Int) (b k : Int) : Except Fault (Cells Int) := do
  let v ← blCountAt c b
  Cells.set .blCount 16 c b (v + k)

/-- The length loop of `GenBitlen` over the heap positions given (R615): the overflow count and the forest. -/
def depthLoop (id : TreeId) : List Nat → Nat → Forest → Except Fault (Nat × Forest)
  | [], overflow, f => .ok (overflow, f)
  | h :: rest, overflow, f => do
    let n ← heapAt f.tb.heap (h : Int)
    let dad ← Cells.get .dad id.nodes f.tree.dad (n : Int)
    let up ← Cells.get .len id.nodes f.tree.len (dad : Int)
    let bits := min (up + 1) id.maxLength
    let overflow := if id.maxLength < up + 1 then overflow + 1 else overflow
    let len ← Cells.set .len id.nodes f.tree.len (n : Int) bits
    let f := { f with tree := { f.tree with len := len } }
    let maxCode ← readField .maxCode f.tree.maxCode
    if maxCode < (n : Int) then depthLoop id rest overflow f
    else do
      let bl ← addBlCount f.tb.blCount (bits : Int) 1
      let fr ← f.tree.freqAt id n
      let xbits := id.extraBits n
      let cost : Int := match id.stree n with
        | some l => ((fr * (l + xbits) : Nat) : Int)
        | none => 0
      depthLoop id rest overflow
        { f with
          tb := { f.tb with blCount := bl }
          optLen := f.optLen + ((fr * (bits + xbits) : Nat) : Int)
          staticLen := f.staticLen + cost }

/-- `while blCount[bits] == 0: bits -= 1` (R615), from `bits`. -/
def lastUsedLength (c : Cells Int) : Nat → Except Fault Nat
  | 0 => do
    let v ← blCountAt c 0
    if v = 0 then .error (.indexFault .blCount (-1)) else .ok 0
  | bits + 1 => do
    let v ← blCountAt c ((bits + 1 : Nat) : Int)
    if v = 0 then lastUsedLength c bits else .ok (bits + 1)

/-- The repair loop of R615, `until overflow <= 0`. The first argument is `overflow` rounded up to rounds. -/
def repairLoop (maxLength : Nat) : Nat → Cells Int → Except Fault (Cells Int)
  | 0, c => .ok c
  | rounds + 1, c => do
    let bits ← lastUsedLength c (maxLength - 1)
    let c ← addBlCount c (bits : Int) (-1)
    let c ← addBlCount c ((bits : Int) + 1) 2
    let c ← addBlCount c (maxLength : Int) (-1)
    repairLoop maxLength rounds c

/-- `while n != 0` of R615's reassignment for one length: `h` is the heap position walked down from. The fuel `h` bounds
it: a walk below position 0 is `IndexFault(heap, -1)`. -/
def assignLength (id : TreeId) (maxCode : Int) (bits : Nat) : Nat → Int → Forest → Except Fault (Nat × Forest)
  | h, 0, f => .ok (h, f)
  | 0, _, _ => .error (.indexFault .heap (-1))
  | h + 1, n, f => do
    let m ← heapAt f.tb.heap (h : Int)
    if maxCode < (m : Int) then assignLength id maxCode bits h n f
    else do
      let l ← Cells.get .len id.nodes f.tree.len (m : Int)
      if l ≠ bits then do
        let fr ← f.tree.freqAt id m
        let len ← Cells.set .len id.nodes f.tree.len (m : Int) bits
        assignLength id maxCode bits h (n - 1)
          { f with
            tree := { f.tree with len := len }
            optLen := f.optLen + ((bits : Int) - l) * fr }
      else assignLength id maxCode bits h (n - 1) f

/-- The reassignment of R615 from length `bits` down to 1. -/
def reassign (id : TreeId) (maxCode : Int) : Nat → Nat → Forest → Except Fault Forest
  | 0, _, f => .ok f
  | bits + 1, h, f => do
    let n ← blCountAt f.tb.blCount ((bits + 1 : Nat) : Int)
    let (h, f) ← assignLength id maxCode (bits + 1) h n f
    reassign id maxCode bits h f

/-- `GenBitlen(t)`, R615. `maxCode` is read where the rule compares with it: not before a heap position below the root. -/
def genBitlen (id : TreeId) (f : Forest) : Except Fault Forest := do
  let heapMax ← readField .heapMax f.tb.heapMax
  let root ← heapAt f.tb.heap (heapMax : Int)
  let len ← Cells.set .len id.nodes f.tree.len (root : Int) 0
  let zeros : Cells Int := (List.range 16).map fun b => (b, 0)
  let f := { f with tree := { f.tree with len := len }, tb := { f.tb with blCount := zeros } }
  let (overflow, f) ← depthLoop id (List.range' (heapMax + 1) (Config.heapSize - (heapMax + 1))) 0 f
  if overflow = 0 then .ok f
  else do
    let maxCode ← readField .maxCode f.tree.maxCode
    let bl ← repairLoop id.maxLength ((overflow + 1) / 2) f.tb.blCount
    reassign id maxCode id.maxLength Config.heapSize { f with tb := { f.tb with blCount := bl } }

/-- `nextCode[bits]` for the lengths given, rising (R620). -/
def nextCodes (bl : Cells Int) : List Nat → Int → Except Fault (Cells Int)
  | [], _ => .ok []
  | bits :: rest, code => do
    let v ← blCountAt bl ((bits : Int) - 1)
    let code := (code + v) * 2
    let more ← nextCodes bl rest code
    .ok ((bits, code) :: more)

/-- `BitReverse` of a code value, low `n` bits (R620). -/
def reverseCode (code : Int) (n : Nat) : Half := BitVec.ofNat 16 (bitrev (BitVec.ofInt 16 code).toNat n)

/-- The symbol loop of `GenCodes` over the symbols given (R620). -/
def assignCodes (id : TreeId) (len : Cells Nat) : List Nat → Cells Int → Cells Half → Except Fault (Cells Half)
  | [], _, code => .ok code
  | n :: rest, next, code => do
    let l ← Cells.get .len id.nodes len (n : Int)
    if l = 0 then assignCodes id len rest next code
    else do
      let v ← Cells.get .nextCode 16 next (l : Int)
      let code ← Cells.set .code id.nodes code (n : Int) (reverseCode v l)
      let next ← Cells.set .nextCode 16 next (l : Int) (v + 1)
      assignCodes id len rest next code

/-- The symbols `0..maxCode`. -/
def symbolsTo (maxCode : Int) : List Nat := List.range (maxCode + 1).toNat

/-- `GenCodes(t, maxCode)`, R620. -/
def genCodes (id : TreeId) (maxCode : Int) (f : Forest) : Except Fault Forest := do
  let next ← nextCodes f.tb.blCount (List.range' 1 15) 0
  let code ← assignCodes id f.tree.len (symbolsTo maxCode) next f.tree.code
  .ok { f with tree := { f.tree with code := code } }

/-- `BuildTree(t) -> maxCode`, R612. -/
def buildTree (id : TreeId) (f : Forest) : Except Fault (Int × Forest) := do
  let (heapLen, maxCode, f) ← gatherLeaves id (List.range id.elems) 0 (-1) f
  let (heapLen, maxCode, f) ← forceTwo id 2 heapLen maxCode f
  let f := { f with
    tree := { f.tree with maxCode := some maxCode }
    tb := { f.tb with heapLen := some heapLen, heapMax := some Config.heapSize } }
  let f ← heapify id (heapLen / 2) f
  let f ← mergeLoop id heapLen id.elems f
  let root ← heapAt f.tb.heap 1
  let f ← pushSorted root f
  let f ← genBitlen id f
  let f ← genCodes id maxCode f
  .ok (maxCode, f)

/-- `BuildTree` on the units. -/
def Deflate.buildTree (d : Deflate) (id : TreeId) : Except Fault (Int × Deflate) := do
  let (maxCode, f) ← Machine.buildTree id (d.forest id)
  .ok (maxCode, d.plant id f)

/-! ## The compact tree description (R625..R628) -/

/-- A piece of the run-length form of a code-length sequence (R625, R626): the same control selects what `ScanTree` counts
and what `SendTree` sends. -/
inductive Run where
  /-- `count < minCount`: the length itself, `count` times. -/
  | single (len count : Nat)
  /-- Symbol 16 after the length itself where that is not the length just sent; `count` is the copies 16 stands for. -/
  | repeat16 (len : Nat) (lead : Bool) (count : Nat)
  /-- Symbol 17 for `count` zeros. -/
  | zeros17 (count : Nat)
  /-- Symbol 18 for `count` zeros. -/
  | zeros18 (count : Nat)
  deriving DecidableEq, Repr

/-- The variables of R625's and R626's loop. `prevlen = none` is the rules' -1. -/
structure RunState where
  prevlen : Option Nat
  count : Nat
  maxCount : Nat
  minCount : Nat

/-- The run that ends at length `curlen` after `count` of it. -/
def runOf (curlen count minCount : Nat) (prevlen : Option Nat) : Run :=
  if count < minCount then .single curlen count
  else if curlen ≠ 0 then
    if prevlen = some curlen then .repeat16 curlen false count else .repeat16 curlen true (count - 1)
  else if count ≤ 10 then .zeros17 count
  else .zeros18 count

/-- The limits after a run of `curlen` that `nextlen` follows. -/
def runLimits (curlen nextlen : Nat) : Nat × Nat :=
  if nextlen = 0 then (138, 3) else if curlen = nextlen then (6, 3) else (7, 4)

/-- The runs of a sequence of code lengths (R625, R626); the guard after the last one is 0xFFFF. -/
def runsFrom : List Nat → RunState → List Run
  | [], _ => []
  | curlen :: rest, r =>
    let nextlen := rest.headD 0xFFFF
    let count := r.count + 1
    if count < r.maxCount ∧ curlen = nextlen then runsFrom rest { r with count := count }
    else
      let lim := runLimits curlen nextlen
      runOf curlen count r.minCount r.prevlen :: runsFrom rest ⟨some curlen, 0, lim.1, lim.2⟩

/-- The runs of a code-length sequence with the limits R625 and R626 start from. -/
def runs (lens : List Nat) : List Run :=
  runsFrom lens (if lens.headD 0xFFFF = 0 then ⟨none, 0, 138, 3⟩ else ⟨none, 0, 7, 4⟩)

/-- `t.len[n]` for the symbols given. -/
def readLens (id : TreeId) (t : Tree) : List Nat → Except Fault (List Nat)
  | [] => .ok []
  | n :: rest => do
    let l ← Cells.get .len id.nodes t.len (n : Int)
    let ls ← readLens id t rest
    .ok (l :: ls)

/-- What `ScanTree` counts for a run (R625). -/
def countRun (bd : Tree) : Run → Except Fault Tree
  | .single len count => bd.addFreq .bd len count
  | .repeat16 len lead _ => do
    let bd ← if lead then bd.addFreq .bd len 1 else .ok bd
    bd.addFreq .bd 16 1
  | .zeros17 _ => bd.addFreq .bd 17 1
  | .zeros18 _ => bd.addFreq .bd 18 1

/-- Count each run. -/
def countRuns : List Run → Tree → Except Fault Tree
  | [], bd => .ok bd
  | r :: rest, bd => do
    let bd ← countRun bd r
    countRuns rest bd

/-- `ScanTree(t, maxCode)`, R625. -/
def Deflate.scanTree (d : Deflate) (id : TreeId) (maxCode : Int) : Except Fault Deflate := do
  let lens ← readLens id (d.tree id) (symbolsTo maxCode)
  let bd ← countRuns (runs lens) d.bd
  .ok { d with bd := bd }

/-- `SendCode(c, t)`, R626. -/
def Deflate.sendCode (d : Deflate) (id : TreeId) (c : Nat) : Except Fault Deflate := do
  let v ← Cells.get .code id.nodes (d.tree id).code (c : Int)
  let l ← Cells.get .len id.nodes (d.tree id).len (c : Int)
  d.sendBits v l

/-- `repeat count times: SendCode(c, BD)`. -/
def sendRepeated (c : Nat) : Nat → Deflate → Except Fault Deflate
  | 0, d => .ok d
  | n + 1, d => do
    let d ← d.sendCode .bd c
    sendRepeated c n d

/-- What `SendTree` sends for a run (R626). -/
def Deflate.sendRun (d : Deflate) : Run → Except Fault Deflate
  | .single len count => sendRepeated len count d
  | .repeat16 len lead count => do
    let d ← if lead then d.sendCode .bd len else .ok d
    let d ← d.sendCode .bd 16
    d.sendNat (count - 3) 2
  | .zeros17 count => do
    let d ← d.sendCode .bd 17
    d.sendNat (count - 3) 3
  | .zeros18 count => do
    let d ← d.sendCode .bd 18
    d.sendNat (count - 11) 7

/-- Send each run. -/
def sendRuns : List Run → Deflate → Except Fault Deflate
  | [], d => .ok d
  | r :: rest, d => do
    let d ← d.sendRun r
    sendRuns rest d

/-- `SendTree(t, maxCode)`, R626. -/
def Deflate.sendTree (d : Deflate) (id : TreeId) (maxCode : Int) : Except Fault Deflate := do
  let lens ← readLens id (d.tree id) (symbolsTo maxCode)
  sendRuns (runs lens) d

/-- The loop of `BuildBlTree` from `mb` (R627). -/
def lastBlIndex (bd : Tree) : Nat → Except Fault Nat
  | 0 => .ok 0
  | mb + 1 =>
    if 3 ≤ mb + 1 then do
      let l ← Cells.get .len (TreeId.bd).nodes bd.len (tableAt blOrder (mb + 1) : Int)
      if l = 0 then lastBlIndex bd mb else .ok (mb + 1)
    else .ok (mb + 1)

/-- `BuildBlTree() -> maxBlIndex`, R627. -/
def Deflate.buildBlTree (d : Deflate) : Except Fault (Nat × Deflate) := do
  let lmax ← readField .maxCode d.ld.maxCode
  let d ← d.scanTree .ld lmax
  let dmax ← readField .maxCode d.dd.maxCode
  let d ← d.scanTree .dd dmax
  let (_, d) ← d.buildTree .bd
  let mb ← lastBlIndex d.bd 18
  .ok (mb, { d with optLen := d.optLen + 3 * ((mb : Int) + 1) + 5 + 5 + 4 })

/-- The code-length code lengths of R628, for the symbols given. -/
def sendBlLens : List Nat → Deflate → Except Fault Deflate
  | [], d => .ok d
  | s :: rest, d => do
    let l ← Cells.get .len (TreeId.bd).nodes d.bd.len (s : Int)
    let d ← d.sendNat l 3
    sendBlLens rest d

/-- `SendAllTrees(lcodes, dcodes, blcodes)`, R628. -/
def Deflate.sendAllTrees (d : Deflate) (lcodes dcodes blcodes : Nat) : Except Fault Deflate := do
  let d ← d.sendNat (lcodes - 257) 5
  let d ← d.sendNat (dcodes - 1) 5
  let d ← d.sendNat (blcodes - 4) 4
  let d ← sendBlLens (blOrder.take blcodes) d
  let d ← d.sendTree .ld ((lcodes : Int) - 1)
  d.sendTree .dd ((dcodes : Int) - 1)

/-! ## Block emission (R630..R640) -/

/-- Send a literal/length symbol with the fixed codes (R621) or the dynamic ones. -/
def Deflate.sendLL (d : Deflate) (dynamic : Bool) (s : Nat) : Except Fault Deflate :=
  if dynamic then d.sendCode .ld s else d.sendNat (bitrev (fixedLLCode s) (fixedLLLen s)) (fixedLLLen s)

/-- Send a distance symbol with the fixed codes (R621) or the dynamic ones. -/
def Deflate.sendDist (d : Deflate) (dynamic : Bool) (s : Nat) : Except Fault Deflate :=
  if dynamic then d.sendCode .dd s else d.sendNat (bitrev s 5) 5

/-- Send extra bits where there are any. -/
def Deflate.sendExtra (d : Deflate) (value n : Nat) : Except Fault Deflate :=
  if n = 0 then .ok d else d.sendNat value n

/-- One token of `CompressBlock`, R630. -/
def Deflate.sendToken (d : Deflate) (dynamic : Bool) (dist lc : Nat) : Except Fault Deflate :=
  if dist = 0 then d.sendLL dynamic lc
  else do
    let c := lengthCode lc
    let d ← d.sendLL dynamic (257 + c)
    let d ← d.sendExtra (lc + 3 - tableAt lenBase c) (tableAt lenExtra c)
    let c := distSymbol ((dist : Int) - 1)
    let d ← d.sendDist dynamic c
    d.sendExtra (dist - tableAt distBase c) (tableAt distExtra c)

/-- The token loop of `CompressBlock` over the token indices given (R630). -/
def sendTokens (dynamic : Bool) : List Nat → Deflate → Except Fault Deflate
  | [], d => .ok d
  | lx :: rest, d => do
    let dist ← Cells.get .dBuf Config.litBufSize d.dBuf (lx : Int)
    let lc ← Cells.get .lBuf Config.litBufSize d.lBuf (lx : Int)
    let d ← d.sendToken dynamic dist.toNat lc.toNat
    sendTokens dynamic rest d

/-- `CompressBlock`, R630. -/
def Deflate.compressBlock (d : Deflate) (dynamic : Bool) : Except Fault Deflate := do
  let d ← sendTokens dynamic (List.range d.lastLit) d
  d.sendLL dynamic 256

/-- `DEF.window[i]` for the indices given. -/
def readWindow (d : Deflate) : List Nat → Except Fault (List Byte)
  | [] => .ok []
  | i :: rest => do
    let b ← d.windowAt (i : Int)
    let bs ← readWindow d rest
    .ok (b :: bs)

/-- `StoredBlock(buf, len, eof)`, R632. -/
def Deflate.storedBlock (d : Deflate) (buf len : Nat) (eof : Bool) : Except Fault Deflate := do
  let d ← d.sendNat (if eof then 1 else 0) 3
  let d ← d.windup
  let w := BitVec.ofNat 16 len
  let d ← d.putShort w
  let d ← d.putShort (~~~w)
  let bs ← readWindow d (List.range' buf len)
  d.putBytes bs

/-- The block types, in the order of TB.FLUSHBLOCK's RESULT0 (R210, R640). -/
inductive BlockType where
  | stored | fixed | dynamic
  deriving DecidableEq, Repr

/-- TB.FLUSHBLOCK's RESULT0 (R210). -/
def BlockType.code : BlockType → Nat
  | .stored => 0
  | .fixed => 1
  | .dynamic => 2

/-- The choice of R640 from the stored length, the two estimates in bytes (the first already the smaller) and whether the
block's first byte is still in the window. -/
def chooseBlock (storedLen optLenb staticLenb : Int) (inWindow : Bool) : BlockType :=
  if storedLen + 4 ≤ optLenb ∧ inWindow then .stored
  else if staticLenb = optLenb then .fixed
  else .dynamic

/-- The estimates of R640: `maxBlIndex`, `optLenb`, `staticLenb`, and the units after the tree builds. -/
def Deflate.estimates (d : Deflate) : Except Fault (Nat × Int × Int × Deflate) :=
  if 0 < d.level then do
    let (_, d) ← d.buildTree .ld
    let (_, d) ← d.buildTree .dd
    let (mb, d) ← d.buildBlTree
    let optLenb := (d.optLen + 3 + 7) / 8
    let staticLenb := (d.staticLen + 3 + 7) / 8
    .ok (mb, if staticLenb ≤ optLenb then staticLenb else optLenb, staticLenb, d)
  else
    let stored : Int := (d.strstart : Int) - d.blockStart + 5
    .ok (0, stored, stored, d)

/-- Emit the block chosen (R640). -/
def Deflate.emitBlock (d : Deflate) (kind : BlockType) (eof : Bool) (maxBlIndex : Nat) : Except Fault Deflate :=
  match kind with
  | .stored => d.storedBlock d.blockStart.toNat ((d.strstart : Int) - d.blockStart).toNat eof
  | .fixed => do
    let d ← d.sendNat (2 + if eof then 1 else 0) 3
    d.compressBlock false
  | .dynamic => do
    let d ← d.sendNat (4 + if eof then 1 else 0) 3
    let lmax ← readField .maxCode d.ld.maxCode
    let dmax ← readField .maxCode d.dd.maxCode
    let d ← d.sendAllTrees (lmax + 1).toNat (dmax + 1).toNat (maxBlIndex + 1)
    d.compressBlock true

/-- `FlushBlock(eof) -> kind`, R640. -/
def Deflate.flushBlock (d : Deflate) (eof : Bool) : Except Fault (BlockType × Deflate) := do
  let storedLen : Int := (d.strstart : Int) - d.blockStart
  let inWindow := decide (0 ≤ d.blockStart)
  let (mb, optLenb, staticLenb, d) ← d.estimates
  let kind := chooseBlock storedLen optLenb staticLenb inWindow
  let d ← d.emitBlock kind eof mb
  let d := d.initBlock
  let d ← if eof then d.windup else .ok d
  .ok (kind, { d with blockStart := (d.strstart : Int) })

/-! ## The TB commands -/

/-- A TB command that completes with no result. -/
def Reply.plain (p : Port) (x : Except Fault Deflate) : Reply Deflate := Reply.ofExcept x fun d => d.answer p 0 0

/-- `TB.INITBLOCK`, R606. -/
def execTbInitBlock (s : State) : Host.Outcome State Fault Refusal :=
  s.deflateCommand (operandsLegal .tbInitBlock) fun d p => d.initBlock.answer p 0 0

/-- `TB.TALLY lc, dist`, R607: refused when the buffer already holds `LIT_BUFSIZE - 1` tokens. -/
def execTbTally (lc : Byte) (dist : Word) (s : State) : Host.Outcome State Fault Refusal :=
  s.deflateCommand (operandsLegal (.tbTally lc dist)) fun d p =>
    if Config.litBufSize - 1 ≤ d.lastLit then .raised (.stream .badOperand) d p
    else Reply.ofExcept (d.tally dist.toNat lc) fun (mustFlush, d) => d.answer p (if mustFlush then 1 else 0) 0

/-- `TB.BUILD desc`, R612. -/
def execTbBuild (desc : BitVec 2) (s : State) : Host.Outcome State Fault Refusal :=
  s.deflateCommand (operandsLegal (.tbBuild desc)) fun d p =>
    Reply.ofExcept (d.buildTree (treeOf desc)) fun (maxCode, d) => d.answer p (wordOfInt maxCode) 0

/-- `TB.GENBITLEN desc`, R615: it uses the heap the last build left. -/
def execTbGenBitlen (desc : BitVec 2) (s : State) : Host.Outcome State Fault Refusal :=
  s.deflateCommand (operandsLegal (.tbGenBitlen desc)) fun d p =>
    Reply.ofExcept (genBitlen (treeOf desc) (d.forest (treeOf desc))) fun f => (d.plant (treeOf desc) f).answer p 0 0

/-- `TB.GENCODES desc`, R620: with `t.maxCode` and the current `blCount`. -/
def execTbGenCodes (desc : BitVec 2) (s : State) : Host.Outcome State Fault Refusal :=
  s.deflateCommand (operandsLegal (.tbGenCodes desc)) fun d p =>
    Reply.ofExcept (readField .maxCode (d.tree (treeOf desc)).maxCode) fun maxCode =>
      Reply.ofExcept (genCodes (treeOf desc) maxCode (d.forest (treeOf desc))) fun f =>
        (d.plant (treeOf desc) f).answer p 0 0

/-- `TB.SCAN desc`, R625, with `maxCode = t.maxCode`. -/
def execTbScan (desc : BitVec 2) (s : State) : Host.Outcome State Fault Refusal :=
  s.deflateCommand (operandsLegal (.tbScan desc)) fun d p =>
    Reply.ofExcept (readField .maxCode (d.tree (treeOf desc)).maxCode) fun maxCode =>
      Reply.plain p (d.scanTree (treeOf desc) maxCode)

/-- `TB.BLTREE`, R627. -/
def execTbBlTree (s : State) : Host.Outcome State Fault Refusal :=
  s.deflateCommand (operandsLegal .tbBlTree) fun d p =>
    Reply.ofExcept d.buildBlTree fun (mb, d) => d.answer p (BitVec.ofNat 32 mb) 0

/-- `TB.SENDTREE desc`, R626, with `maxCode = t.maxCode`. -/
def execTbSendTree (desc : BitVec 2) (s : State) : Host.Outcome State Fault Refusal :=
  s.deflateCommand (operandsLegal (.tbSendTree desc)) fun d p =>
    Reply.ofExcept (readField .maxCode (d.tree (treeOf desc)).maxCode) fun maxCode =>
      Reply.plain p (d.sendTree (treeOf desc) maxCode)

/-- `TB.SENDALL lcodes, dcodes, blcodes`, R628. -/
def execTbSendAll (lcodes : BitVec 9) (dcodes blcodes : BitVec 5) (s : State) : Host.Outcome State Fault Refusal :=
  s.deflateCommand (operandsLegal (.tbSendAll lcodes dcodes blcodes)) fun d p =>
    Reply.plain p (d.sendAllTrees lcodes.toNat dcodes.toNat blcodes.toNat)

/-- `TB.COMPRESS dynamic`, R630: the block header is not part of it. -/
def execTbCompress (dynamic : BitVec 1) (s : State) : Host.Outcome State Fault Refusal :=
  s.deflateCommand (operandsLegal (.tbCompress dynamic)) fun d p => Reply.plain p (d.compressBlock (dynamic == 1))

/-- `TB.STORED eof, buf, len`, R632: refused when `buf + len > WINDOW_SIZE`. -/
def execTbStored (eof : BitVec 1) (buf len : Half) (s : State) : Host.Outcome State Fault Refusal :=
  s.deflateCommand (operandsLegal (.tbStored eof buf len)) fun d p =>
    if d.windowSize < buf.toNat + len.toNat then .raised (.stream .badOperand) d p
    else Reply.plain p (d.storedBlock buf.toNat len.toNat (eof == 1))

/-- `TB.FLUSHBLOCK eof`, R640: the pending bytes stay in the FIFO. -/
def execTbFlushBlock (eof : BitVec 1) (s : State) : Host.Outcome State Fault Refusal :=
  s.deflateCommand (operandsLegal (.tbFlushBlock eof)) fun d p =>
    Reply.ofExcept (d.flushBlock (eof == 1)) fun (kind, d) => d.answer p (BitVec.ofNat 32 kind.code) 0

end Sys2Proof.Machine
end

