-- ==== Sys2Proof/Machine/DeflateEngine.lean ====
section
/-! DEFINITION. deflate_encoder: the strategies and the step of spec/47_deflate_engine.md, DEF.STEP and DEF.SETDICT. -/

namespace Sys2Proof.Machine

/-- The results of a strategy, R691. -/
inductive BState where
  | needMore | blockDone | finishStarted | finishDone
  deriving DecidableEq, Repr

/-- Run a computation on the units alone. -/
def Enc.onUnits (c : Enc) (x : Except Fault Deflate) : Except Fault Enc := do
  let d ← x
  .ok { c with u := d }

/-- `FlushBlockOnly(eof)`, R684. -/
def Enc.flushBlockOnly (c : Enc) (eof : Bool) : Except Fault Enc := do
  let (_, d) ← c.u.flushBlock eof
  .ok (Enc.flushPending { c with u := d })

/-- What `FlushBlockOnlyOrStop(eof)` returns when it stops the strategy (R691). -/
def stopState (eof : Bool) : BState := if eof then .finishStarted else .needMore

/-- The end of each strategy: `FlushBlockOnlyOrStop(flush == Finish)` and its return (R694, R700, R710). -/
def Enc.endStrategy (c : Enc) (flush : Flush) : Except Fault (BState × Enc) := do
  let eof := flush == .finish
  let c ← c.flushBlockOnly eof
  if c.port.space = 0 then .ok (stopState eof, c)
  else .ok (if eof then .finishDone else .blockDone, c)

/-- What the head of a strategy's loop decides (R694, R700). -/
inductive LoopHead where
  | needMore (c : Enc)
  | exitLoop (c : Enc)
  | go (c : Enc)

/-- The head of the loop of R694 and R700: refill below MIN_LOOKAHEAD. -/
def Enc.loopHead (c : Enc) (flush : Flush) : Except Fault LoopHead :=
  if c.u.lookahead < Config.minLookahead then do
    let c ← c.fillWindow
    if c.u.lookahead < Config.minLookahead ∧ flush = .noFlush then .ok (.needMore c)
    else if c.u.lookahead = 0 then .ok (.exitLoop c)
    else .ok (.go c)
  else .ok (.go c)

/-- `if lookahead >= MIN_MATCH: hashHead <- InsertString(strstart)`: the hash head, kept where nothing is inserted. -/
def Deflate.insertHere (d : Deflate) (hashHead : Nat) : Except Fault (Nat × Deflate) :=
  if Config.minMatch ≤ d.lookahead then do
    let (h, d) ← d.insertString d.strstart
    .ok (h.toNat, d)
  else .ok (hashHead, d)

/-- The candidate rule of R561: `hashHead != 0 and strstart - hashHead <= MAX_DIST`. -/
def Deflate.candidate (d : Deflate) (hashHead : Nat) : Bool :=
  hashHead != 0 && decide ((d.strstart : Int) - hashHead ≤ d.maxDist)

/-! ## DeflateFast (R694, R695) -/

/-- The `repeat` of R694: insert the strings inside a match. The count is `matchLength` after its first decrement; it
returns the last hash head. -/
def insertInside : Nat → Nat → Deflate → Except Fault (Nat × Deflate)
  | 0, hashHead, d => .ok (hashHead, d)
  | n + 1, _, d => do
    let (h, d) ← Deflate.insertString { d with strstart := d.strstart + 1 } (d.strstart + 1)
    insertInside n h.toNat d

/-- The match branch of R694: the flush request, the hash head and the units. -/
def Deflate.fastMatch (d : Deflate) (hashHead : Nat) : Except Fault (Bool × Nat × Deflate) := do
  let (bflush, d) ← d.tally ((d.strstart : Int) - d.matchStart) (BitVec.ofNat 8 (d.matchLength - Config.minMatch))
  let d := { d with lookahead := d.lookahead - d.matchLength }
  if d.matchLength ≤ d.maxLazy ∧ Config.minMatch ≤ d.lookahead then do
    let (hashHead, d) ← insertInside (d.matchLength - 1) hashHead d
    .ok (bflush, hashHead, { d with matchLength := 0, strstart := d.strstart + 1 })
  else do
    let d ← Deflate.hashInit { d with strstart := d.strstart + d.matchLength, matchLength := 0 }
    .ok (bflush, hashHead, d)

/-- The literal branch of R694. -/
def Deflate.fastLiteral (d : Deflate) : Except Fault (Bool × Deflate) := do
  let b ← d.windowAt (d.strstart : Int)
  let (bflush, d) ← d.tally 0 b
  .ok (bflush, { d with lookahead := d.lookahead - 1, strstart := d.strstart + 1 })

/-- One round of R694 after the loop's head, up to `if bflush`. -/
def Deflate.fastRound (d : Deflate) (hashHead : Nat) : Except Fault (Bool × Nat × Deflate) := do
  let (hashHead, d) ← d.insertHere hashHead
  let d ←
    if d.candidate hashHead then do
      let (len, d) ← d.longestMatch hashHead
      .ok { d with matchLength := len }
    else .ok d
  if Config.minMatch ≤ d.matchLength then d.fastMatch hashHead
  else do
    let (bflush, d) ← d.fastLiteral
    .ok (bflush, hashHead, d)

/-- The loop of R694. `fuel` bounds its rounds: each consumes at least one byte of lookahead or input. -/
def fastLoop (flush : Flush) : Nat → Nat → Enc → Except Fault (BState × Enc)
  | 0, _, _ => .error .neverCompletes
  | fuel + 1, hashHead, c => do
    match ← c.loopHead flush with
    | .needMore c => .ok (.needMore, c)
    | .exitLoop c => c.endStrategy flush
    | .go c => do
      let (bflush, hashHead, d) ← c.u.fastRound hashHead
      let c := { c with u := d }
      if bflush then do
        let c ← c.flushBlockOnly false
        if c.port.space = 0 then .ok (stopState false, c) else fastLoop flush fuel hashHead c
      else fastLoop flush fuel hashHead c

/-- The rounds a strategy of R694 or R700 can make, and one more. -/
def Enc.rounds (c : Enc) : Nat := c.u.lookahead + c.port.inAvail + 2

/-- `DeflateFast(flush)`, R694. -/
def Enc.deflateFast (c : Enc) (flush : Flush) : Except Fault (BState × Enc) := fastLoop flush c.rounds 0 c

/-! ## DeflateSlow (R700) -/

/-- The `repeat` of R700: advance over the held match, inserting up to `maxInsert`. The count is `prevLength - 2`. -/
def insertHeld (maxInsert : Int) : Nat → Nat → Deflate → Except Fault (Nat × Deflate)
  | 0, hashHead, d => .ok (hashHead, d)
  | n + 1, hashHead, d => do
    let d := { d with strstart := d.strstart + 1 }
    if (d.strstart : Int) ≤ maxInsert then do
      let (h, d) ← d.insertString d.strstart
      insertHeld maxInsert n h.toNat d
    else insertHeld maxInsert n hashHead d

/-- R700 up to its three branches: insert, hold the previous match, search. -/
def Deflate.slowSearch (d : Deflate) (hashHead : Nat) : Except Fault (Nat × Deflate) := do
  let (hashHead, d) ← d.insertHere hashHead
  let d := { d with prevLength := d.matchLength, prevMatch := d.matchStart, matchLength := Config.minMatch - 1 }
  if d.candidate hashHead ∧ d.prevLength < d.maxLazy then do
    let (len, d) ← d.longestMatch hashHead
    let far := len = Config.minMatch ∧ (Config.tooFar : Int) < (d.strstart : Int) - d.matchStart
    .ok (hashHead, { d with matchLength := if far then Config.minMatch - 1 else len })
  else .ok (hashHead, d)

/-- The held-match branch of R700: emit the match that starts at `strstart - 1`. -/
def Deflate.slowMatch (d : Deflate) (hashHead : Nat) : Except Fault (Bool × Nat × Deflate) := do
  let maxInsert : Int := (d.strstart : Int) + d.lookahead - Config.minMatch
  let (bflush, d) ←
    d.tally ((d.strstart : Int) - 1 - d.prevMatch) (BitVec.ofNat 8 (d.prevLength - Config.minMatch))
  let (hashHead, d) ←
    insertHeld maxInsert (d.prevLength - 2) hashHead { d with lookahead := d.lookahead - (d.prevLength - 1) }
  .ok (bflush, hashHead,
    { d with
      prevLength := 0
      matchAvailable := false
      matchLength := Config.minMatch - 1
      strstart := d.strstart + 1 })

/-- The literal of the held byte: `Tally(0, window[strstart - 1])` (R700). -/
def Deflate.tallyHeld (d : Deflate) : Except Fault (Bool × Deflate) := do
  let b ← d.windowAt ((d.strstart : Int) - 1)
  d.tally 0 b

/-- `strstart += 1; lookahead -= 1` (R700). -/
def Deflate.advance (d : Deflate) : Deflate := { d with strstart := d.strstart + 1, lookahead := d.lookahead - 1 }

/-- R700 after its loop: the byte still held becomes a literal, and the block ends. -/
def Enc.slowEnd (c : Enc) (flush : Flush) : Except Fault (BState × Enc) := do
  let c ←
    if c.u.matchAvailable then do
      let (_, d) ← c.u.tallyHeld
      .ok { c with u := { d with matchAvailable := false } }
    else .ok c
  c.endStrategy flush

/-- The loop of R700. `fuel` bounds its rounds. -/
def slowLoop (flush : Flush) : Nat → Nat → Enc → Except Fault (BState × Enc)
  | 0, _, _ => .error .neverCompletes
  | fuel + 1, hashHead, c => do
    match ← c.loopHead flush with
    | .needMore c => .ok (.needMore, c)
    | .exitLoop c => c.slowEnd flush
    | .go c => do
      let (hashHead, d) ← c.u.slowSearch hashHead
      if Config.minMatch ≤ d.prevLength ∧ d.matchLength ≤ d.prevLength then do
        let (bflush, hashHead, d) ← d.slowMatch hashHead
        let c := { c with u := d }
        if bflush then do
          let c ← c.flushBlockOnly false
          if c.port.space = 0 then .ok (stopState false, c) else slowLoop flush fuel hashHead c
        else slowLoop flush fuel hashHead c
      else if d.matchAvailable then do
        let (bflush, d) ← d.tallyHeld
        let c := { c with u := d }
        let c ← if bflush then c.flushBlockOnly false else .ok c
        let c := { c with u := c.u.advance }
        if c.port.space = 0 then .ok (.needMore, c) else slowLoop flush fuel hashHead c
      else slowLoop flush fuel hashHead { c with u := Deflate.advance { d with matchAvailable := true } }

/-- `DeflateSlow(flush)`, R700. -/
def Enc.deflateSlow (c : Enc) (flush : Flush) : Except Fault (BState × Enc) := slowLoop flush c.rounds 0 c

/-! ## DeflateStored (R710) -/

/-- `maxBlockSize`, R710. -/
def maxBlockSize : Nat := min 65535 (Config.pendingBufSize - 5)

/-- `FlushBlockOnlyOrStop(0)` where `cond` holds (R710): whether the strategy stops, and what it leaves. -/
def Enc.flushIf (c : Enc) (cond : Bool) : Except Fault (Bool × Enc) :=
  if cond then do
    let c ← c.flushBlockOnly false
    .ok (decide (c.port.space = 0), c)
  else .ok (false, c)

/-- The block at hand has reached `maxBlockSize` (R710). -/
def Deflate.blockFull (d : Deflate) : Bool :=
  d.strstart == 0 || decide (d.blockStart + maxBlockSize ≤ (d.strstart : Int))

/-- Cut the block at hand at `maxStart` (R710). -/
def Deflate.cutBlock (d : Deflate) : Deflate :=
  let maxStart := d.blockStart + maxBlockSize
  { d with lookahead := ((d.strstart : Int) - maxStart).toNat, strstart := maxStart.toNat }

/-- The loop of R710. `fuel` bounds its rounds. -/
def storedLoop (flush : Flush) : Nat → Enc → Except Fault (BState × Enc)
  | 0, _ => .error .neverCompletes
  | fuel + 1, c => do
    let refill := decide (c.u.lookahead ≤ 1)
    let c ← if refill then c.fillWindow else .ok c
    if refill ∧ c.u.lookahead = 0 ∧ flush = .noFlush then .ok (.needMore, c)
    else if refill ∧ c.u.lookahead = 0 then c.endStrategy flush
    else do
      let d := { c.u with strstart := c.u.strstart + c.u.lookahead, lookahead := 0 }
      let full := d.blockFull
      let (stop, c) ← Enc.flushIf { c with u := if full then d.cutBlock else d } full
      if stop then .ok (stopState false, c)
      else do
        let (stop, c) ← c.flushIf (decide ((c.u.maxDist : Int) ≤ (c.u.strstart : Int) - c.u.blockStart))
        if stop then .ok (stopState false, c) else storedLoop flush fuel c

/-- More than the rounds R710 can make: a round takes input or lookahead into the block, or ends a block of
`maxBlockSize` bytes. -/
def Enc.storedRounds (c : Enc) : Nat :=
  2 * (c.u.lookahead + c.port.inAvail) + ((c.u.strstart : Int) - c.u.blockStart).toNat + 4

/-- `DeflateStored(flush)`, R710. -/
def Enc.deflateStored (c : Enc) (flush : Flush) : Except Fault (BState × Enc) := storedLoop flush c.storedRounds c

/-! ## The step command (R680) -/

/-- `Compress(flush)`, R680. -/
def Enc.compress (c : Enc) (flush : Flush) : Except Fault (BState × Enc) :=
  match c.u.kind with
  | .stored => c.deflateStored flush
  | .fast => c.deflateFast flush
  | .slow => c.deflateSlow flush

/-- `FlushMarker(flush)`, R686. -/
def Deflate.flushMarker (d : Deflate) (flush : Flush) : Except Fault Deflate := do
  let d ← d.storedBlock 0 0 false
  .ok (if flush = .fullFlush then { d with head := [] } else d)

/-- An engine step ends with a status and results 0 (R212). -/
def Enc.ends (c : Enc) (st : Status) : Reply Deflate := .done st 0 0 c.u c.port

/-- `lastFlush <- -1` where output space ran out, and `return Ok` (R680). -/
def Enc.endsOk (c : Enc) : Reply Deflate :=
  if c.port.space = 0 then Enc.ends { c with u := { c.u with lastFlush := -1 } } .ok else c.ends .ok

/-- The last two lines of R680. -/
def Enc.endsStep (c : Enc) (flush : Flush) : Reply Deflate :=
  c.ends (if flush = .finish then .streamEnd else .ok)

/-- R680 after `Compress` has returned `b`. -/
def Enc.afterCompress (c : Enc) (flush : Flush) (b : BState) : Reply Deflate :=
  let c := match b with
    | .finishStarted => { c with u := { c.u with status := .finish } }
    | .finishDone => { c with u := { c.u with status := .finish } }
    | .needMore => c
    | .blockDone => c
  match b with
  | .needMore => c.endsOk
  | .finishStarted => c.endsOk
  | .finishDone => c.endsStep flush
  | .blockDone =>
    Reply.ofExcept (c.onUnits (c.u.flushMarker flush)) fun c =>
      let c := c.flushPending
      if c.port.space = 0 then c.endsOk else c.endsStep flush

/-- There is something to compress, or a flush to make (R680). -/
def Enc.hasWork (c : Enc) (flush : Flush) : Bool :=
  c.port.inAvail != 0 || c.u.lookahead != 0 || (flush != .noFlush && c.u.status != .finish)

/-- What an accepted step records before it works (R680). -/
def Deflate.accept (d : Deflate) (flush : Flush) : Deflate :=
  { d with
    lastFlush := flush.code
    finishReq := d.finishReq || flush == .finish
    dictAllowed := false
    status := if d.status = .init then .busy else d.status }

/-- An accepted step (R680). -/
def Enc.stepAccepted (c : Enc) (flush : Flush) : Reply Deflate :=
  let c := { c with u := c.u.accept flush }
  let drained := c.u.pending ≠ []
  let c := if drained then c.flushPending else c
  if drained ∧ c.port.space = 0 then c.endsOk
  else if c.hasWork flush then
    Reply.ofExcept (c.compress flush) fun (b, c) => c.afterCompress flush b
  else c.endsStep flush

/-- A step that can make no progress (R680). -/
def Enc.noProgress (c : Enc) (flush : Flush) : Bool :=
  c.u.pending == [] && c.port.inAvail == 0 && decide (flush.code ≤ c.u.lastFlush) && flush != .finish

/-- `DEF.STEP` on the units, in the order of R680's checks. -/
def Enc.step (c : Enc) (code : BitVec 3) : Reply Deflate :=
  match flushOf code with
  | none => .failed (.stream .badFlush) c.u c.port
  | some flush =>
    if c.u.finishReq ∧ flush ≠ .finish then .failed (.stream .afterFinish) c.u c.port
    else if c.u.status = .finish ∧ c.port.inAvail ≠ 0 then .failed (.stream .afterFinish) c.u c.port
    else if c.port.space = 0 then .transient .bufError
    else if c.noProgress flush then .transient .bufError
    else c.stepAccepted flush

/-- `DEF.STEP flush`, R680. -/
def execDefStep (flush : BitVec 3) (s : State) : Host.Outcome State Fault Refusal :=
  s.deflateCommand (operandsLegal (.defStep flush)) fun d p => Enc.step ⟨d, p⟩ flush

/-- `DEF.SETDICT`, R740: the whole slice is consumed. -/
def execDefSetDict (s : State) : Host.Outcome State Fault Refusal :=
  s.deflateCommand (operandsLegal .defSetDict) fun d p =>
    if d.dictAllowed = false then .failed (.stream .dictNotAllowed) d p
    else
      Reply.ofExcept (d.dictSeed p.input) fun (_, d) =>
        Deflate.answer { d with dictAllowed := false } { p with input := [] } 0 0

end Sys2Proof.Machine
end

