-- ==== Sys2Proof/Machine/BitCursor.lean ====
section
/-! DEFINITION. bit_cursor_read: the operations of spec/40_bit_cursor_read.md and the BCR commands. -/

namespace Sys2Proof.Machine

/-- The body of one pull (R300): the byte goes above the valid bits. -/
def BitCursor.push (bc : BitCursor) (b : Byte) : BitCursor :=
  { bitBuffer := bc.bitBuffer ||| (b.setWidth 32 <<< bc.bitCount)
    bitCount := bc.bitCount + 8
    bytePosition := bc.bytePosition + 1 }

/-- The pull loop of `Need(n)` (R300) over the input slice: the cursor and the bytes left. -/
def BitCursor.pull (n : Nat) (bc : BitCursor) : List Byte → BitCursor × List Byte
  | [] => (bc, [])
  | b :: rest => if bc.bitCount < n ∧ bc.bitCount ≤ 24 then BitCursor.pull n (bc.push b) rest else (bc, b :: rest)

/-- `Peek(n)`, R301. -/
def BitCursor.peek (bc : BitCursor) (n : Nat) : Nat := bc.bitBuffer.toNat % 2 ^ n

/-- `Drop(n)`, R302. -/
def BitCursor.drop (bc : BitCursor) (n : Nat) : BitCursor :=
  { bc with bitBuffer := bc.bitBuffer >>> n, bitCount := bc.bitCount - n }

/-- `Align()`, R304: the number of bits it drops. -/
def BitCursor.alignCount (bc : BitCursor) : Nat := bc.bitCount % 8

/-- `Align()`, R304. -/
def BitCursor.align (bc : BitCursor) : BitCursor := bc.drop bc.alignCount

/-- An inflate instance's units and the port of the command that runs on them. -/
structure Dec where
  u : Inflate
  port : Port
  deriving DecidableEq, Repr

/-- `Need(n)` pulls (R300). -/
def Dec.pull (c : Dec) (n : Nat) : Dec :=
  let r := c.u.bc.pull n c.port.input
  { u := { c.u with bc := r.1 }, port := { c.port with input := r.2 } }

/-- The result of `Need(n)` after its pulls: at least n bits are buffered (R300). -/
def Dec.has (c : Dec) (n : Nat) : Bool := decide (n ≤ c.u.bc.bitCount)

/-- `Peek(n)`, R301. -/
def Dec.peek (c : Dec) (n : Nat) : Nat := c.u.bc.peek n

/-- `Drop(n)`, R302. -/
def Dec.drop (c : Dec) (n : Nat) : Dec := { c with u := { c.u with bc := c.u.bc.drop n } }

/-- `Align()`, R304. -/
def Dec.align (c : Dec) : Dec := { c with u := { c.u with bc := c.u.bc.align } }

/-- A BCR command ends for want of bits: the bytes pulled stay pulled (R217). -/
def Dec.needMore (c : Dec) : Reply Inflate := .done .needMoreInput 0 0 c.u c.port

/-- A BCR command completes with RESULT0 and RESULT1 (R217). -/
def Dec.answer (c : Dec) (r0 r1 : Nat) : Reply Inflate :=
  .done .ok (BitVec.ofNat 32 r0) (BitVec.ofNat 32 r1) c.u c.port

/-- `BCR.NEED n`, R300. -/
def execBcrNeed (n : BitVec 5) (s : State) : Host.Outcome State Fault Refusal :=
  s.inflateCommand (operandsLegal (.bcrNeed n)) fun d p =>
    let c := Dec.pull ⟨d, p⟩ n.toNat
    if c.has n.toNat then c.answer 1 0 else c.needMore

/-- `BCR.PEEK n`, R301. -/
def execBcrPeek (n : BitVec 5) (s : State) : Host.Outcome State Fault Refusal :=
  s.inflateCommand (operandsLegal (.bcrPeek n)) fun d p =>
    let c := Dec.pull ⟨d, p⟩ n.toNat
    if c.has n.toNat then c.answer (c.peek n.toNat) 0 else c.needMore

/-- `BCR.DROP n`, R302. -/
def execBcrDrop (n : BitVec 5) (s : State) : Host.Outcome State Fault Refusal :=
  s.inflateCommand (operandsLegal (.bcrDrop n)) fun d p =>
    let c := Dec.pull ⟨d, p⟩ n.toNat
    if c.has n.toNat then (c.drop n.toNat).answer 0 0 else c.needMore

/-- `BCR.GET n`, R303. -/
def execBcrGet (n : BitVec 5) (s : State) : Host.Outcome State Fault Refusal :=
  s.inflateCommand (operandsLegal (.bcrGet n)) fun d p =>
    let c := Dec.pull ⟨d, p⟩ n.toNat
    if c.has n.toNat then (c.drop n.toNat).answer (c.peek n.toNat) 0 else c.needMore

/-- `BCR.ALIGN`, R304. -/
def execBcrAlign (s : State) : Host.Outcome State Fault Refusal :=
  s.inflateCommand (operandsLegal .bcrAlign) fun d p =>
    let c : Dec := ⟨d, p⟩
    c.align.answer d.bc.alignCount 0

/-- `BCR.BYTE`, R305: RESULT1 = 1 says that a byte was read. -/
def execBcrByte (s : State) : Host.Outcome State Fault Refusal :=
  s.inflateCommand (operandsLegal .bcrByte) fun d p =>
    let c := Dec.pull ⟨d, p⟩ 8
    if c.has 8 then (c.drop 8).answer (c.peek 8) 1 else c.needMore

end Sys2Proof.Machine
end

