-- ==== Sys2Proof/Machine/HuffmanDecode.lean ====
section
/-! DEFINITION. huffman_decode_table_builder and canonical_huffman_decoder: spec/43_huffman_decode_table.md and the HDT
commands. -/

namespace Sys2Proof.Machine

/-! ## Building a table (R420..R427) -/

/-- How a table build ends (R420, R422, R423). -/
inductive BuildResult where
  | complete | empty | oversubscribed | incomplete | acceptedIncomplete
  deriving DecidableEq, Repr

/-- HDT.BUILD's `RESULT0` (R208). -/
def BuildResult.code : BuildResult → Nat
  | .complete => 0
  | .empty => 1
  | .oversubscribed => 2
  | .incomplete => 3
  | .acceptedIncomplete => 4

/-- `HT.count[L]` after the histogram of R421, as a number. -/
def lengthCount (lens : List Nat) (l : Nat) : Nat := (lens.filter (fun x => x == l)).length

/-- `HT.count[0..15]` after the histogram (R421). -/
def histogram (lens : List Nat) : Cells Nat := (List.range 16).map fun l => (l, lengthCount lens l)

/-- The code lengths 1..15 in use, rising. -/
def usedLengths (lens : List Nat) : List Nat := (List.range' 1 15).filter fun l => lengthCount lens l ≠ 0

/-- `max` of R421: 0 when no length is used. -/
def maxLength (lens : List Nat) : Nat := (usedLengths lens).getLastD 0

/-- `min` of R421: read only when `max > 0`. -/
def minLength (lens : List Nat) : Nat := (usedLengths lens).headD 0

/-- `root` of R421. -/
def rootWidth (lens : List Nat) (req : Nat) : Nat := max (minLength lens) (min req (maxLength lens))

/-- The loop of R422 from a list of lengths: the final `left`, or none when it goes below 0. -/
def codeSpaceLeft (lens : List Nat) : List Nat → Int → Option Int
  | [], left => some left
  | l :: ls, left =>
    let left := 2 * left - (lengthCount lens l : Int)
    if left < 0 then none else codeSpaceLeft lens ls left

/-- The acceptance rule, R422 and R423. -/
def acceptance (kind : CodeKind) (lens : List Nat) : BuildResult :=
  if maxLength lens = 0 then .empty
  else
    match codeSpaceLeft lens (List.range' 1 15) 1 with
    | none => .oversubscribed
    | some left =>
      if 0 < left ∧ (kind = .codes ∨ maxLength lens ≠ 1) then .incomplete
      else if 0 < left then .acceptedIncomplete
      else .complete

/-- The symbols of length `l`, rising. -/
def symbolsOfLength (lens : List Nat) (l : Nat) : List Nat :=
  (List.range lens.length).filter fun s => lens.getD s 0 == l

/-- `work[0..]` after R424: the used symbols by length, and by symbol within a length. -/
def sortedSymbols (lens : List Nat) : List Nat := (List.range' 1 15).flatMap (symbolsOfLength lens)

/-- `offs[1..15]` after R424: each start of its length plus the symbols placed, that is, the symbols of length at most
`l`. -/
def finalOffsets (lens : List Nat) : Cells Nat :=
  (List.range' 1 15).map fun l => (l, ((List.range' 1 l).map (lengthCount lens)).sum)

/-- `Entry(s, bits)`, R425. -/
def symbolEntry (kind : CodeKind) (s bits : Nat) : Entry :=
  match kind with
  | .codes => ⟨.cl s, bits, s⟩
  | .lens =>
    if s < 256 then ⟨.lit, bits, s⟩
    else if s = 256 then ⟨.eob, bits, 0⟩
    else if s < 286 then ⟨.len (tableAt lenExtra (s - 257)), bits, tableAt lenBase (s - 257)⟩
    else ⟨.invalid, bits, 0⟩
  | .dists => if s < 30 then ⟨.dist (tableAt distExtra s), bits, tableAt distBase s⟩ else ⟨.invalid, bits, 0⟩

/-- The next code of length `n`, bit-reversed (R426): 0 after the last. -/
def nextHuff (huff : Nat) : Nat → Nat
  | 0 => 0
  | n + 1 => if huff.testBit n then nextHuff huff n else huff % 2 ^ n + 2 ^ n

/-- The widening loop of a new sub-table (R426): its index width. `fuel` bounds `max - (curr + drop)`. -/
def subWidth (count : Cells Nat) (max drop : Nat) : Nat → Int → Nat → Except Fault Nat
  | 0, _, curr => .ok curr
  | fuel + 1, left, curr =>
    if curr + drop < max then do
      let n ← Cells.get .count 16 count ((curr + drop : Nat) : Int)
      let left := left - (n : Int)
      if left ≤ 0 then .ok curr else subWidth count max drop fuel (left * 2) (curr + 1)
    else .ok curr

/-- The inner fill loop of R426: entry `e` at `at`, `at + incr`, ... (`n` places). -/
def fillEntries (a : ArrayName) (size at_ incr : Nat) (e : Entry) : Nat → Cells Entry → Except Fault (Cells Entry)
  | 0, t => .ok t
  | n + 1, t => do
    let t ← Cells.set a size t ((at_ + n * incr : Nat) : Int) e
    fillEntries a size at_ incr e n t

/-- The variables of R426's loop. `low = none` is the rule's -1. -/
structure FillState where
  table : Cells Entry
  count : Cells Nat
  huff : Nat
  next : Nat
  curr : Nat
  drop : Nat
  low : Option Nat

/-- The loop of R426 over the sorted symbols that remain; `L` is the length of the one at hand. -/
def fillTable (kind : CodeKind) (lens : List Nat) (a : ArrayName) (size root max base : Nat) :
    List Nat → FillState → Except Fault FillState
  | [], f => .ok f
  | s :: rest, f => do
    let l := lens.getD s 0
    let table ← fillEntries a size (f.next + (f.huff >>> f.drop)) (2 ^ (l - f.drop)) (symbolEntry kind s (l - f.drop))
      (2 ^ (f.curr - (l - f.drop))) f.table
    let huff := nextHuff f.huff l
    let n ← Cells.get .count 16 f.count (l : Int)
    let count ← Cells.set .count 16 f.count (l : Int) (n - 1)
    match rest with
    | [] => .ok { f with table := table, count := count, huff := huff }
    | s' :: _ =>
      let l' := lens.getD s' 0
      if root < l' ∧ f.low ≠ some (huff % 2 ^ root) then do
        let drop := if f.drop = 0 then root else f.drop
        let next := f.next + 2 ^ f.curr
        let curr ← subWidth count max drop (max - (l' - drop + drop)) ((2 ^ (l' - drop) : Nat) : Int) (l' - drop)
        let low := huff % 2 ^ root
        let table ← Cells.set a size table ((base + low : Nat) : Int) ⟨.link curr, root, next⟩
        fillTable kind lens a size root max base rest ⟨table, count, huff, next, curr, drop, some low⟩
      else fillTable kind lens a size root max base rest { f with table := table, count := count, huff := huff }

/-- The whole of step 5 (R426): the table and the builder's counts afterwards. -/
def buildEntries (kind : CodeKind) (lens : List Nat) (a : ArrayName) (size root base : Nat) (table : Cells Entry) :
    Except Fault (Cells Entry × Cells Nat) := do
  let max := maxLength lens
  let f ← fillTable kind lens a size root max base (sortedSymbols lens) ⟨table, histogram lens, 0, base, root, 0, none⟩
  if f.huff ≠ 0 then do
    let table ← Cells.set a size f.table ((f.next + (f.huff >>> f.drop) : Nat) : Int) ⟨.invalid, max - f.drop, 0⟩
    .ok (table, f.count)
  else .ok (f.table, f.count)

/-- `work` written from its start (R424); entries beyond keep their old values. -/
def writeWork : Cells Nat → Nat → List Nat → Cells Nat
  | w, _, [] => w
  | w, i, s :: rest => writeWork (Cells.put w i s) (i + 1) rest

/-- The arena of an alphabet (R420). -/
def CodeKind.arenaName : CodeKind → ArrayName
  | .codes => .clArena
  | .lens => .arena
  | .dists => .arena

/-- The bounds of an alphabet's arena (R76). -/
def CodeKind.arenaSize : CodeKind → Nat
  | .codes => Config.clArenaSize
  | .lens => Config.enough
  | .dists => Config.enough

/-- Where an alphabet's table starts in its arena (R420). -/
def CodeKind.base : CodeKind → Nat
  | .codes => 0
  | .lens => 0
  | .dists => Config.distBase

/-- The requested root width of an alphabet (R420). -/
def CodeKind.rootReq : CodeKind → Nat
  | .codes => Config.rootCL
  | .lens => Config.rootLL
  | .dists => Config.rootD

/-- The arena an alphabet's table is built in. -/
def DecodeTables.arenaOf (t : DecodeTables) : CodeKind → Cells Entry
  | .codes => t.clArena
  | .lens => t.arena
  | .dists => t.arena

/-- Put an alphabet's arena back. -/
def DecodeTables.setArena (t : DecodeTables) (k : CodeKind) (a : Cells Entry) : DecodeTables :=
  match k with
  | .codes => { t with clArena := a }
  | .lens => { t with arena := a }
  | .dists => { t with arena := a }

/-- The reference of an alphabet's table (R420). -/
def CodeKind.ref (k : CodeKind) (root : Nat) : TableRef :=
  { store := match k with
      | .codes => .clArena
      | .lens => .arena
      | .dists => .arena
    start := k.base
    root := root }

/-- `BuildTable(kind, lens, root_req, base_index)` into the alphabet's own arena (R420..R427): the result, the root used
(0 for a refused set) and the tables and scratch it leaves. -/
def buildTable (kind : CodeKind) (lens : List Nat) (t : DecodeTables) :
    Except Fault (BuildResult × Nat × DecodeTables) :=
  let t := { t with count := histogram lens }
  match acceptance kind lens with
  | .empty => do
    let a ← fillEntries kind.arenaName kind.arenaSize kind.base 1 ⟨.invalid, 1, 0⟩ 2 (t.arenaOf kind)
    .ok (.empty, 1, t.setArena kind a)
  | .oversubscribed => .ok (.oversubscribed, 0, t)
  | .incomplete => .ok (.incomplete, 0, t)
  | r => do
    let root := rootWidth lens kind.rootReq
    let (a, count) ← buildEntries kind lens kind.arenaName kind.arenaSize root kind.base (t.arenaOf kind)
    let t := t.setArena kind a
    .ok (r, root, { t with
      count := count
      offs := finalOffsets lens
      work := writeWork t.work 0 (sortedSymbols lens) })

/-! ## The fixed tables (R440) -/

/-- `HT.fixedLL[i]`, i in 0..511: the entry of the symbol whose code starts the index's stream bits (R440). -/
def fixedLLEntry (i : Nat) : Entry :=
  let c7 := bitrev i 7
  if c7 < 24 then symbolEntry .lens (256 + c7) 7
  else
    let c8 := bitrev i 8
    if c8 < 0xC0 then symbolEntry .lens (c8 - 0x30) 8
    else if c8 < 0xC8 then symbolEntry .lens (280 + (c8 - 0xC0)) 8
    else symbolEntry .lens (144 + (bitrev i 9 - 0x190)) 9

/-- `HT.fixedD[i]`, i in 0..31 (R263, R440). -/
def fixedDEntry (i : Nat) : Entry := symbolEntry .dists (bitrev i 5) 5

/-- The references of the fixed tables (R440). -/
def fixedLLRef : TableRef := ⟨.fixedLL, 0, Config.rootFixedLL⟩
def fixedDRef : TableRef := ⟨.fixedD, 0, Config.rootFixedD⟩

/-- Entry `i` of a table's storage (R76). -/
def DecodeTables.entry (t : DecodeTables) (store : TableStore) (i : Nat) : Except Fault Entry :=
  match store with
  | .arena => Cells.get .arena Config.enough t.arena (i : Int)
  | .clArena => Cells.get .clArena Config.clArenaSize t.clArena (i : Int)
  | .fixedLL => do
    let k ← checkIndex .fixedLL 512 (i : Int)
    .ok (fixedLLEntry k)
  | .fixedD => do
    let k ← checkIndex .fixedD 32 (i : Int)
    .ok (fixedDEntry k)

/-! ## Decoding one symbol (R430) -/

/-- One of the two loops of R430: look an entry up by the buffered bits, and pull a byte while the entry needs more bits
than are buffered. `skip` is the bits an earlier level resolved. None is NEED. -/
def walk (look : BitCursor → Except Fault Entry) (skip : Nat) (bc : BitCursor) :
    List Byte → Except Fault (Option Entry × BitCursor × List Byte)
  | [] => do
    let e ← look bc
    .ok (if skip + e.bits ≤ bc.bitCount then some e else none, bc, [])
  | b :: rest => do
    let e ← look bc
    if skip + e.bits ≤ bc.bitCount then .ok (some e, bc, b :: rest) else walk look skip (bc.push b) rest

/-- The root lookup of R430. -/
def DecodeTables.lookRoot (t : DecodeTables) (r : TableRef) (bc : BitCursor) : Except Fault Entry :=
  t.entry r.store (r.start + bc.peek r.root)

/-- The sub-table lookup of R430. -/
def DecodeTables.lookSub (t : DecodeTables) (store : TableStore) (at_ r w : Nat) (bc : BitCursor) : Except Fault Entry :=
  t.entry store (at_ + bc.peek (r + w) / 2 ^ r)

/-- The end of R430: an INVALID entry drops nothing. -/
def dropEntry (e : Entry) (bc : BitCursor) : BitCursor := if e.op = .invalid then bc else bc.drop e.bits

/-- `DecodeSym(ref)`, R430: none is NEED. -/
def Dec.decodeSym (c : Dec) (r : TableRef) : Except Fault (Option Entry × Dec) := do
  let (e?, bc, inp) ← walk (c.u.ht.lookRoot r) 0 c.u.bc c.port.input
  let back (bc : BitCursor) (inp : List Byte) : Dec :=
    { u := { c.u with bc := bc }, port := { c.port with input := inp } }
  match e? with
  | none => .ok (none, back bc inp)
  | some e =>
    match e.op with
    | .link w => do
      let (f?, bc, inp) ← walk (c.u.ht.lookSub r.store e.val e.bits w) e.bits bc inp
      match f? with
      | none => .ok (none, back bc inp)
      | some f => .ok (some f, back (dropEntry f (bc.drop e.bits)) inp)
    | _ => .ok (some e, back (dropEntry e bc) inp)

/-- The pair (arena index, root width) that a decode through `NONE` reads: no rule states it, so it is a free value inside the
alphabet's arena and root width (DESIGN CHOICE, log entry 7). -/
def CodeKind.noneRef (k : CodeKind) : TableRef :=
  { k.ref (Config.noneRoot k.rootReq % (k.rootReq + 1)) with start := Config.noneStart k.rootReq % k.arenaSize }

/-- `DecodeSym` through an alphabet's reference, which may be `NONE`. -/
def Dec.decodeVia (c : Dec) (k : CodeKind) (r : Option TableRef) : Except Fault (Option Entry × Dec) :=
  c.decodeSym (r.getD k.noneRef)

/-! ## The HDT commands -/

/-- The reference of an alphabet (R76). -/
def Inflate.refOf (d : Inflate) : CodeKind → Option TableRef
  | .codes => d.clRef
  | .lens => d.llRef
  | .dists => d.dRef

/-- Set the reference of an alphabet. -/
def Inflate.setRef (d : Inflate) (k : CodeKind) (r : Option TableRef) : Inflate :=
  match k with
  | .codes => { d with clRef := r }
  | .lens => { d with llRef := r }
  | .dists => { d with dRef := r }

/-- A build that leaves no table (R420). -/
def BuildResult.refused : BuildResult → Bool
  | .oversubscribed => true
  | .incomplete => true
  | .complete => false
  | .empty => false
  | .acceptedIncomplete => false

/-- The reference a build leaves (R420): `NONE` for a refused set. -/
def builtRef (kind : CodeKind) (r : BuildResult) (root : Nat) : Option TableRef :=
  if r.refused then none else some (kind.ref root)

/-- `HDT.BUILD kind, n`, R420: n length bytes from the input slice, each at most 15. -/
def execHdtBuild (kind : BitVec 2) (n : BitVec 9) (s : State) : Host.Outcome State Fault Refusal :=
  s.inflateCommand (operandsLegal (.hdtBuild kind n)) fun d p =>
    let lens := (p.input.take n.toNat).map BitVec.toNat
    if lens.length < n.toNat ∨ lens.any (fun l => decide (15 < l)) then .raised (.stream .badOperand) d p
    else
      let k := codeKindOf kind
      Reply.ofExcept (buildTable k lens d.ht) fun (r, root, ht) =>
        .done .ok (BitVec.ofNat 32 r.code) (BitVec.ofNat 32 root)
          (Inflate.setRef { d with ht := ht } k (builtRef k r root)) { p with input := p.input.drop n.toNat }

/-- `HDT.FIXED`, R440. -/
def execHdtFixed (s : State) : Host.Outcome State Fault Refusal :=
  s.inflateCommand (operandsLegal .hdtFixed) fun d p =>
    .done .ok 0 0 { d with llRef := some fixedLLRef, dRef := some fixedDRef } p

/-- `RESULT0[3:0]` and `[7:4]` of HDT.DECODE (R208): none for a link. -/
def EntryOp.resultCode : EntryOp → Option Nat
  | .lit => some 0
  | .len e => some (1 + 16 * e)
  | .dist e => some (2 + 16 * e)
  | .eob => some 3
  | .cl _ => some 4
  | .invalid => some 5
  | .link _ => none

/-- `RESULT0[7:0]` of HDT.DECODE: a free value for a link inside a sub-table (DESIGN CHOICE, log entry 8). -/
def EntryOp.code (op : EntryOp) : Nat :=
  op.resultCode.getD (match op with
    | .link w => (Config.linkCode w).toNat
    | _ => 0)

/-- `HDT.DECODE table`, R430: RESULT0 packs the entry, RESULT1 is the bits dropped. A `NONE` reference is refused. -/
def execHdtDecode (table : BitVec 2) (s : State) : Host.Outcome State Fault Refusal :=
  s.inflateCommand (operandsLegal (.hdtDecode table)) fun d p =>
    match d.refOf (codeKindOf table) with
    | none => .raised (.stream .badOperand) d p
    | some r =>
      Reply.ofExcept (Dec.decodeSym ⟨d, p⟩ r) fun (e?, c) =>
        match e? with
        | none => .done .needMoreInput 15 0 c.u c.port
        | some e =>
          let pulled := 8 * (p.input.length - c.port.input.length)
          c.answer (e.op.code + 65536 * e.val) (d.bc.bitCount + pulled - c.u.bc.bitCount)

end Sys2Proof.Machine
end

