-- ==== Sys2Proof/Machine/SlidingWindow.lean ====
section
/-! DEFINITION. sliding_window_buffer, decoder use (circular): spec/42_sliding_window.md part 1 and SWB OP 0..3. -/

namespace Sys2Proof.Machine

/-- `SW.capacity = 1 << IWBITS`, R70. -/
def SlidingWindow.capacity (w : SlidingWindow) : Nat := 2 ^ w.wbits

/-- The window is full of undelivered bytes (R380). -/
def SlidingWindow.full (w : SlidingWindow) : Bool := decide (w.capacity ≤ w.undelivered)

/-- `WinPut(b)` on a window that is not full (R380). -/
def SlidingWindow.put (w : SlidingWindow) (b : Byte) : SlidingWindow :=
  { w with
    buffer := Memory.write w.buffer w.writeCursor b
    writeCursor := (w.writeCursor + 1) % w.capacity
    undelivered := w.undelivered + 1
    whave := min w.capacity (w.whave + 1) }

/-- The index `back` bytes before the write cursor, circularly: `(writeCursor - back) mod capacity` (R165). -/
def SlidingWindow.indexBack (w : SlidingWindow) (back : Nat) : Nat :=
  (((w.writeCursor : Int) - back) % (w.capacity : Int)).toNat

/-- The byte `WinCopyByte(dist)` copies (R382). -/
def SlidingWindow.byteBack (w : SlidingWindow) (dist : Nat) : Byte := Memory.read w.buffer (w.indexBack dist)

/-- Up to `len` calls of `WinCopyByte(dist)`, stopping at a full window: the bytes copied and the window (R382). -/
def SlidingWindow.copy (dist : Nat) : Nat → SlidingWindow → Nat × SlidingWindow
  | 0, w => (0, w)
  | len + 1, w =>
    if w.full then (0, w)
    else
      let r := SlidingWindow.copy dist len (w.put (w.byteBack dist))
      (r.1 + 1, r.2)

/-- The number of bytes `WinDrain()` delivers (R384). -/
def SlidingWindow.drainCount (w : SlidingWindow) (space : Nat) : Nat := min w.undelivered space

/-- The first `n` undelivered bytes, oldest first (R384; the read cursor is R70's). -/
def SlidingWindow.oldest (w : SlidingWindow) (n : Nat) : List Byte :=
  (List.range n).map fun i => Memory.read w.buffer ((w.indexBack w.undelivered + i) % w.capacity)

/-- `WinDrain()`, R384. -/
def Dec.winDrain (c : Dec) : Dec :=
  let n := c.u.sw.drainCount c.port.space
  { u := { c.u with sw := { c.u.sw with undelivered := c.u.sw.undelivered - n } }
    port := c.port.emit (c.u.sw.oldest n) }

/-- Write `bs` at the write cursor, circularly, as history (the loop of R386). -/
def SlidingWindow.history : SlidingWindow → List Byte → SlidingWindow
  | w, [] => w
  | w, b :: bs =>
    SlidingWindow.history
      { w with buffer := Memory.write w.buffer w.writeCursor b, writeCursor := (w.writeCursor + 1) % w.capacity } bs

/-- The bytes `WinSeed` keeps: the last `min(len, capacity)` (R386). -/
def SlidingWindow.seedKept (w : SlidingWindow) (dict : List Byte) : Nat := min dict.length w.capacity

/-- `WinSeed(dict)`, R386. -/
def SlidingWindow.seed (w : SlidingWindow) (dict : List Byte) : SlidingWindow :=
  let k := w.seedKept dict
  let w' := w.history (dict.drop (dict.length - k))
  { w' with whave := min w.capacity (w.whave + k) }

/-- `SWB.PUT b`, R380. -/
def execSwbPut (b : Byte) (s : State) : Host.Outcome State Fault Refusal :=
  s.inflateCommand (operandsLegal (.swbPut b)) fun d p =>
    if d.sw.full then .done .needMoreOutput 0 0 d p
    else .done .ok 1 0 { d with sw := d.sw.put b } p

/-- `SWB.COPY len, dist`, R382. -/
def execSwbCopy (len : BitVec 9) (dist : Word) (s : State) : Host.Outcome State Fault Refusal :=
  s.inflateCommand (operandsLegal (.swbCopy len dist)) fun d p =>
    if dist.toNat = 0 ∨ d.sw.whave < dist.toNat then .done .ok 0 1 d p
    else
      let r := SlidingWindow.copy dist.toNat len.toNat d.sw
      .done (if r.1 < len.toNat then .needMoreOutput else .ok) (BitVec.ofNat 32 r.1) 0 { d with sw := r.2 } p

/-- `SWB.DRAIN`, R384: NeedMoreOutput while undelivered bytes remain. -/
def execSwbDrain (s : State) : Host.Outcome State Fault Refusal :=
  s.inflateCommand (operandsLegal .swbDrain) fun d p =>
    let c := Dec.winDrain ⟨d, p⟩
    .done (if 0 < c.u.sw.undelivered then .needMoreOutput else .ok) (BitVec.ofNat 32 (d.sw.drainCount p.space)) 0
      c.u c.port

/-- `SWB.SEED`, R386: refused while undelivered bytes remain. -/
def execSwbSeed (s : State) : Host.Outcome State Fault Refusal :=
  s.inflateCommand (operandsLegal .swbSeed) fun d p =>
    if d.sw.undelivered ≠ 0 then .raised (.stream .badOperand) d p
    else
      .done .ok (BitVec.ofNat 32 (d.sw.seedKept p.input)) 0 { d with sw := d.sw.seed p.input } { p with input := [] }

end Sys2Proof.Machine
end

