-- ==== Sys2Proof/Machine/Inflate.lean ====
section
/-! DEFINITION. deflate_decoder / inflate_bitstream_fsm: the micro-steps of spec/44_inflate_fsm.md, INF.STEP and
INF.SETDICT. -/

namespace Sys2Proof.Machine

/-- Why a micro-step blocks, R472: more input, or more output space. -/
inductive BlockKind where
  | input | output
  deriving DecidableEq, Repr

/-- The end of a micro-step (R472, R15). -/
inductive Micro where
  /-- It completed. -/
  | advanced (c : Dec)
  /-- `BLOCK(kind)`: nothing changed but the bytes pulled. -/
  | blocked (k : BlockKind) (c : Dec)
  /-- `DONE_STOP`. -/
  | doneStop (c : Dec)
  /-- `raise DataError(reason)`, from the state at the raise. -/
  | raised (r : DataReason) (c : Dec)
  /-- A model fault. -/
  | fault (f : Fault)

/-- Carry a model fault out of a computation. -/
def Micro.ofExcept {α : Type} (x : Except Fault α) (k : α → Micro) : Micro :=
  match x with
  | .ok a => k a
  | .error f => .fault f

/-- `if not Need(n): return BLOCK(IN)` and then `k`. -/
def Dec.needing (c : Dec) (n : Nat) (k : Dec → Micro) : Micro :=
  let c := c.pull n
  if c.has n then k c else .blocked .input c

/-- A change of the engine's own fields. -/
def Dec.edit (c : Dec) (f : Inflate → Inflate) : Dec := { c with u := f c.u }

/-- `INF.mode <- m`. -/
def Dec.goto (c : Dec) (m : Mode) : Dec := { c with u := { c.u with mode := m } }

/-! ## Block header and stored blocks -/

/-- `TYPE`, R480, R481. -/
def microType (c : Dec) : Micro :=
  c.needing 3 fun c =>
    let last := c.peek 1 == 1
    let c := (c.drop 1).edit fun d => { d with last := last }
    let t := c.peek 2
    let c := c.drop 2
    if t = 0 then .advanced (c.align.goto .storedLen)
    else if t = 1 then
      .advanced ((c.edit fun d => { d with llRef := some fixedLLRef, dRef := some fixedDRef }).goto .len)
    else if t = 2 then .advanced (c.goto .table)
    else .raised .badBlockType c

/-- `STORED_LEN`, R482. -/
def microStoredLen (c : Dec) : Micro :=
  c.needing 32 fun c =>
    let len := c.peek 16
    let c := c.drop 16
    let nlen := c.peek 16
    let c := c.drop 16
    if len ≠ 0xFFFF - nlen then .raised .storedLenMismatch c
    else .advanced ((c.edit fun d => { d with length := len }).goto (if len = 0 then .blockEnd else .storedCopy))

/-- `STORED_COPY`, R483. -/
def microStoredCopy (c : Dec) : Micro :=
  if c.u.sw.full then .blocked .output c
  else
    c.needing 8 fun c =>
      let b := BitVec.ofNat 8 (c.peek 8)
      let c := (c.drop 8).edit fun d => { d with sw := d.sw.put b, length := d.length - 1 }
      .advanced (if c.u.length = 0 then c.goto .blockEnd else c)

/-! ## Dynamic block header -/

/-- `TABLE`, R484. -/
def microTable (c : Dec) : Micro :=
  c.needing 14 fun c =>
    let nlen := c.peek 5 + 257
    let c := c.drop 5
    let ndist := c.peek 5 + 1
    let c := c.drop 5
    let ncode := c.peek 4 + 4
    let c := (c.drop 4).edit fun d => { d with nlen := nlen, ndist := ndist, ncode := ncode }
    if 286 < nlen ∨ 30 < ndist then .raised .tooManySymbols c
    else .advanced ((c.edit fun d => { d with haveCount := 0, cl := [] }).goto .lenLens)

/-- The first `n` elements of an array whose unlisted elements are 0. -/
def Cells.firstOf (m : Cells Nat) (start n : Nat) : List Nat := (List.range' start n).map (Cells.read 0 m)

/-- `LENLENS`, R486. -/
def microLenLens (c : Dec) : Micro :=
  if c.u.haveCount < c.u.ncode then
    c.needing 3 fun c =>
      Micro.ofExcept (checkIndex .blOrder 19 (c.u.haveCount : Int)) fun i =>
        Micro.ofExcept (Cells.store 0 .cl 19 c.u.cl (tableAt blOrder i : Int) (c.peek 3)) fun cl =>
          .advanced ((c.drop 3).edit fun d => { d with cl := cl, haveCount := d.haveCount + 1 })
  else
    Micro.ofExcept (buildTable .codes (Cells.firstOf c.u.cl 0 19) c.u.ht) fun (r, root, ht) =>
      let c := c.edit fun d => { d with ht := ht }
      if r ≠ .complete then .raised .badCodelenSet c
      else
        .advanced ((c.edit fun d =>
          { d with clRef := some (CodeKind.codes.ref root), haveCount := 0, lens := [], sub := .sym }).goto .codeLens)

/-- The sub-state a repeat symbol leaves, R488: 16, 17 or 18. -/
def subOf (s : Nat) : CodeLensSub := if s = 16 then .rep16 else if s = 17 then .rep17 else .rep18

/-- `CODELENS` in sub-state SYM with lengths still to read, R488. -/
def microCodeLensSym (c : Dec) : Micro :=
  Micro.ofExcept (c.decodeVia .codes c.u.clRef) fun (e?, c) =>
    match e? with
    | none => .blocked .input c
    | some e =>
      if e.val < 16 then
        Micro.ofExcept (Cells.store 0 .lens 316 c.u.lens (c.u.haveCount : Int) e.val) fun lens =>
          .advanced (c.edit fun d => { d with lens := lens, haveCount := d.haveCount + 1 })
      else .advanced (c.edit fun d => { d with sub := subOf e.val })

/-- Write `v` at `i`, `i+1`, .... (`n` places) of `INF.lens` (the loop of R490). -/
def repeatLens (v : Nat) : Nat → Nat → Cells Nat → Except Fault (Cells Nat)
  | 0, _, m => .ok m
  | n + 1, i, m => do
    let m ← Cells.store 0 .lens 316 m (i : Int) v
    repeatLens v n (i + 1) m

/-- The end of R490: repeat `v` `n` times, or raise when that passes the lengths declared. -/
def microRepeat (c : Dec) (v n : Nat) : Micro :=
  if c.u.nlen + c.u.ndist < c.u.haveCount + n then .raised .badRepeat c
  else
    Micro.ofExcept (repeatLens v n c.u.haveCount c.u.lens) fun lens =>
      .advanced (c.edit fun d => { d with lens := lens, haveCount := d.haveCount + n, sub := .sym })

/-- `CODELENS` in sub-state 16, R490. -/
def microRep16 (c : Dec) : Micro :=
  c.needing 2 fun c =>
    if c.u.haveCount = 0 then .raised .badRepeat c
    else
      Micro.ofExcept (Cells.load 0 .lens 316 c.u.lens ((c.u.haveCount : Int) - 1)) fun v =>
        microRepeat (c.drop 2) v (3 + c.peek 2)

/-- `CODELENS` in sub-state 17, R490. -/
def microRep17 (c : Dec) : Micro := c.needing 3 fun c => microRepeat (c.drop 3) 0 (3 + c.peek 3)

/-- `CODELENS` in sub-state 18, R490. -/
def microRep18 (c : Dec) : Micro := c.needing 7 fun c => microRepeat (c.drop 7) 0 (11 + c.peek 7)

/-- `CODELENS` with every length read, R494. -/
def microCodeLensBuild (c : Dec) : Micro :=
  if Cells.read 0 c.u.lens 256 = 0 then .raised .missingEob c
  else
    Micro.ofExcept (buildTable .lens (Cells.firstOf c.u.lens 0 c.u.nlen) c.u.ht) fun (r1, root1, ht) =>
      let c := c.edit fun d => { d with ht := ht }
      if r1 ≠ .complete ∧ r1 ≠ .acceptedIncomplete then .raised .badLitlenSet c
      else
        Micro.ofExcept (buildTable .dists (Cells.firstOf c.u.lens c.u.nlen c.u.ndist) c.u.ht) fun (r2, root2, ht) =>
          let c := c.edit fun d => { d with ht := ht }
          if r2.refused then .raised .badDistSet c
          else
            .advanced ((c.edit fun d =>
              { d with llRef := some (CodeKind.lens.ref root1), dRef := some (CodeKind.dists.ref root2) }).goto .len)

/-- `CODELENS`, R488, R490, R494. -/
def microCodeLens (c : Dec) : Micro :=
  match c.u.sub with
  | .rep16 => microRep16 c
  | .rep17 => microRep17 c
  | .rep18 => microRep18 c
  | .sym => if c.u.haveCount < c.u.nlen + c.u.ndist then microCodeLensSym c else microCodeLensBuild c

/-! ## Token decode loop -/

/-- `LEN`, R510. An entry of another alphabet, or a link inside a sub-table, has no branch in the rule's case: its bits are
dropped and nothing else happens (DESIGN CHOICE, log entry 8). -/
def microLen (c : Dec) : Micro :=
  if c.u.sw.full then .blocked .output c
  else
    Micro.ofExcept (c.decodeVia .lens c.u.llRef) fun (e?, c) =>
      match e? with
      | none => .blocked .input c
      | some e =>
        match e.op with
        | .lit => .advanced (c.edit fun d => { d with sw := d.sw.put (BitVec.ofNat 8 e.val) })
        | .eob => .advanced (c.goto .blockEnd)
        | .len x => .advanced ((c.edit fun d => { d with length := e.val, extra := x }).goto .lenExt)
        | .invalid => .raised .badLitlenCode c
        | .dist _ => .advanced c
        | .link _ => .advanced c
        | .cl _ => .advanced c

/-- `LENEXT`, R512. -/
def microLenExt (c : Dec) : Micro :=
  c.needing c.u.extra fun c =>
    let x := c.peek c.u.extra
    .advanced (((c.drop c.u.extra).edit fun d => { d with length := d.length + x }).goto .dist)

/-- `INF.extra` after `DIST`, `x of DIST(x)` (R514): a free value for an entry that is not `DIST(x)` (DESIGN CHOICE, log
entry 8). -/
def Entry.distExtra (e : Entry) : Nat :=
  match e.op with
  | .dist x => x
  | .lit | .eob | .len _ | .link _ | .cl _ | .invalid => (Config.extraOutside e.op.code e.val).val

/-- `DIST`, R514. -/
def microDist (c : Dec) : Micro :=
  Micro.ofExcept (c.decodeVia .dists c.u.dRef) fun (e?, c) =>
    match e? with
    | none => .blocked .input c
    | some e =>
      if e.op = .invalid then .raised .badDistCode c
      else .advanced ((c.edit fun d => { d with dist := e.val, extra := e.distExtra }).goto .distExt)

/-- `DISTEXT`, R516, and the distance check, R518. -/
def microDistExt (c : Dec) : Micro :=
  c.needing c.u.extra fun c =>
    let x := c.peek c.u.extra
    let c := (c.drop c.u.extra).edit fun d => { d with dist := d.dist + x }
    if c.u.sw.whave < c.u.dist then .raised .distTooFar c else .advanced (c.goto .matchCopy)

/-- `MATCH`, R520. -/
def microMatch (c : Dec) : Micro :=
  if c.u.sw.full then .blocked .output c
  else
    let c := c.edit fun d => { d with sw := d.sw.put (d.sw.byteBack d.dist), length := d.length - 1 }
    .advanced (if c.u.length = 0 then c.goto .len else c)

/-! ## End of block and end of stream -/

/-- `BLOCK_END`, R500. -/
def microBlockEnd (c : Dec) : Micro := .advanced (c.goto (if c.u.last then .drain else .type))

/-- `DRAIN`, R502. -/
def microDrain (c : Dec) : Micro :=
  if 0 < c.u.sw.undelivered then .blocked .output c else .advanced (c.align.goto .done)

/-- `Micro()`: one micro-step (R472, R473). R473 has none for NEED_DICT and ERROR: there nothing happens and the loop ends
(DESIGN CHOICE, log entry 8); INF.STEP answers those tags before its loop (R470, R764). -/
def micro (c : Dec) : Micro :=
  match c.u.mode with
  | .type => microType c
  | .storedLen => microStoredLen c
  | .storedCopy => microStoredCopy c
  | .table => microTable c
  | .lenLens => microLenLens c
  | .codeLens => microCodeLens c
  | .len => microLen c
  | .lenExt => microLenExt c
  | .dist => microDist c
  | .distExt => microDistExt c
  | .matchCopy => microMatch c
  | .blockEnd => microBlockEnd c
  | .drain => microDrain c
  | .done => .doneStop c
  | .needDict => .doneStop c
  | .error => .doneStop c

/-! ## The step command (R470) -/

/-- How the loop of R470 ends. -/
inductive LoopEnd where
  /-- `exit loop`; `k` is the kind of a block, none after `DONE_STOP`. -/
  | exit (progressed : Bool) (k : Option BlockKind) (c : Dec)
  /-- A DataError. -/
  | raised (r : DataReason) (c : Dec)
  /-- A model fault. -/
  | fault (f : Fault)

/-- The loop of R470. `fuel` bounds the micro-steps that complete. -/
def inflateLoop : Nat → Bool → Dec → LoopEnd
  | 0, _, _ => .fault .neverCompletes
  | fuel + 1, progressed, c =>
    let progressed := progressed || decide (0 < c.u.sw.drainCount c.port.space)
    match micro c.winDrain with
    | .advanced c => inflateLoop fuel true c
    | .blocked k c => .exit progressed (some k) c
    | .doneStop c => .exit progressed none c
    | .raised r c => .raised r c
    | .fault f => .fault f

/-- More than the micro-steps any step can complete. Between two micro-steps that consume a bit at most 259 + 316 + 3
complete (a match of 258 bytes; code lengths through an all-invalid table; ends of blocks), and the first run of them is
bounded by the fields the step starts from. -/
def inflateFuel (c : Dec) : Nat :=
  1000 * (c.u.bc.bitCount + 8 * c.port.input.length + 2) + c.u.length + c.u.nlen + c.u.ndist + c.u.ncode

/-- `INF.STEP` on the units (R470). -/
def inflateStep (c : Dec) : Reply Inflate :=
  if c.u.mode = .done then .done .streamEnd 0 0 c.u c.port
  else if c.u.mode = .needDict then .done .needDictionary 0 0 c.u c.port
  else
    match inflateLoop (inflateFuel c) false c with
    | .fault f => .fault f
    | .raised r c' => .failed (.data r) c'.u c'.port
    | .exit progressed k c' =>
      if c'.u.mode = .done then .done .streamEnd 0 0 c'.u c'.port
      else if progressed ∨ c'.port.input.length < c.port.input.length then .done .ok 0 0 c'.u c'.port
      else if k = some .output then .transient .needMoreOutput
      else .transient .needMoreInput

/-- `INF.STEP`, R470. -/
def execInfStep (s : State) : Host.Outcome State Fault Refusal :=
  s.inflateCommand (operandsLegal .infStep) fun d p => inflateStep ⟨d, p⟩

/-! ## Preset dictionary (R530, R532) -/

/-- The two sums of `ADLER32` (R7), each mod 65521. -/
def adlerSums : List Byte → Nat × Nat → Nat × Nat
  | [], ab => ab
  | x :: rest, (a, b) =>
    let a := (a + x.toNat) % 65521
    adlerSums rest (a, (b + a) % 65521)

/-- `ADLER32(bytes, 1)`, R7. -/
def adler32 (bytes : List Byte) : Word :=
  let ab := adlerSums bytes (1, 0)
  BitVec.ofNat 32 (ab.2 * 65536 + ab.1)

/-- `INF.SETDICT`, R532: the slice is consumed before the checksum is compared. -/
def execInfSetDict (s : State) : Host.Outcome State Fault Refusal :=
  s.inflateCommand (operandsLegal .infSetDict) fun d p =>
    if d.mode ≠ .needDict then .failed (.stream .dictNotAllowed) d p
    else
      let p' := { p with input := [] }
      if adler32 p.input ≠ d.dictSum then .failed (.data .dictMismatch) d p'
      else .done .ok 0 0 { d with sw := d.sw.seed p.input, mode := .type } p'

end Sys2Proof.Machine
end

