-- ==== Sys2Proof/Machine/Reset.lean ====
section
/-! DEFINITION. The reset commands: spec/70_reset_and_hazards.md R800, R801, with the reset values of spec/10_state.md. -/

namespace Sys2Proof.Machine

/-- Reset values of R60. -/
def BitCursor.fresh : BitCursor := ⟨0, 0, 0⟩

/-- Reset values of R70, R71. -/
def SlidingWindow.fresh (wbits : Nat) : SlidingWindow := ⟨wbits, [], 0, 0, 0⟩

/-- Reset values of R76: arena and scratch unspecified. -/
def DecodeTables.fresh : DecodeTables := ⟨[], [], [], [], []⟩

/-- Reset values of R60, R70, R76 and R80..R84. -/
def Inflate.fresh (wbits : Nat) (hasDict : Bool) (dictSum : Word) : Inflate :=
  { bc := BitCursor.fresh
    sw := SlidingWindow.fresh wbits
    ht := DecodeTables.fresh
    llRef := none
    dRef := none
    clRef := none
    mode := if hasDict then .needDict else .type
    sub := .sym
    last := false
    length := 0
    dist := 0
    extra := 0
    nlen := 0
    ndist := 0
    ncode := 0
    haveCount := 0
    cl := []
    lens := []
    hasDict := hasDict
    dictSum := dictSum }

/-- The register block after a reset (R800, R801). -/
def Regs.fresh (kind wbits level dict : Nat) (dictSum : Word) : Regs :=
  { Regs.zero with
    cfgKind := BitVec.ofNat 32 kind
    cfgWbits := BitVec.ofNat 32 wbits
    cfgLevel := BitVec.ofNat 32 level
    cfgStrategy := 0
    cfgDict := BitVec.ofNat 32 dict
    cfgDictSum := dictSum }

/-- An inflate instance right after `INF.RESET` (R800). -/
def Codec.freshInflate (wbits hasDict : Nat) (dictSum : Word) : Codec :=
  ⟨Regs.fresh 0 wbits 0 hasDict dictSum, none, .inflate (Inflate.fresh wbits (hasDict == 1) dictSum)⟩

/-- A tree descriptor right after reset: every frequency 0, the rest unspecified (R107). -/
def Tree.fresh : Tree := ⟨[], [], [], [], none⟩

/-- Reset values of R65, R66 and R100..R109, before `InitBlock`. -/
def Deflate.blank (wbits level : Nat) : Deflate :=
  { dwbits := wbits
    level := level
    goodMatch := (levelRow level).goodMatch
    maxLazy := (levelRow level).maxLazy
    niceMatch := (levelRow level).niceMatch
    maxChain := (levelRow level).maxChain
    kind := (levelRow level).kind
    bw := ⟨0, 0⟩
    pending := []
    window := []
    strstart := 0
    lookahead := 0
    blockStart := 0
    insH := 0
    matchStart := 0
    head := []
    prev := []
    matchLength := Config.minMatch - 1
    prevLength := Config.minMatch - 1
    prevMatch := 0
    matchAvailable := false
    lBuf := []
    dBuf := []
    lastLit := 0
    matchCount := 0
    status := .init
    lastFlush := 0
    finishReq := false
    ld := Tree.fresh
    dd := Tree.fresh
    bd := Tree.fresh
    tb := ⟨[], none, none, [], []⟩
    optLen := 0
    staticLen := 0
    dictAllowed := true }

/-- A deflate instance right after `DEF.RESET` (R801). -/
def Codec.freshDeflate (wbits level : Nat) : Codec :=
  ⟨Regs.fresh 1 wbits level 0 0, none, .deflate (Deflate.blank wbits level).initBlock⟩

/-- `INF.RESET wbits, hasDict, dictSum`, R800. -/
def execInfReset (wbits : BitVec 4) (hasDict : BitVec 1) (dictSum : Word) (s : State) :
    Host.Outcome State Fault Refusal :=
  s.resetCommand (operandsLegal (.infReset wbits hasDict dictSum))
    (Codec.freshInflate wbits.toNat hasDict.toNat dictSum)

/-- `DEF.RESET wbits, level, strategy`, R801. -/
def execDefReset (wbits level : BitVec 4) (strategy : BitVec 2) (s : State) : Host.Outcome State Fault Refusal :=
  s.resetCommand (operandsLegal (.defReset wbits level strategy)) (Codec.freshDeflate wbits.toNat level.toNat)

end Sys2Proof.Machine
end

