-- ==== Sys2Proof/Machine/Dispatch.lean ====
section
/-! DEFINITION. One arm per command: its meaning. -/

namespace Sys2Proof.Machine

def exec (i : Instr) (s : State) : Host.Outcome State Fault Refusal :=
  match i with
  | .infReset wbits hasDict dictSum => Sys2Proof.Machine.execInfReset wbits hasDict dictSum s
  | .infStep => Sys2Proof.Machine.execInfStep s
  | .infSetDict => Sys2Proof.Machine.execInfSetDict s
  | .defReset wbits level strategy => Sys2Proof.Machine.execDefReset wbits level strategy s
  | .defStep flush => Sys2Proof.Machine.execDefStep flush s
  | .defSetDict => Sys2Proof.Machine.execDefSetDict s
  | .bcrNeed n => Sys2Proof.Machine.execBcrNeed n s
  | .bcrPeek n => Sys2Proof.Machine.execBcrPeek n s
  | .bcrDrop n => Sys2Proof.Machine.execBcrDrop n s
  | .bcrGet n => Sys2Proof.Machine.execBcrGet n s
  | .bcrAlign => Sys2Proof.Machine.execBcrAlign s
  | .bcrByte => Sys2Proof.Machine.execBcrByte s
  | .bcwPut n value => Sys2Proof.Machine.execBcwPut n value s
  | .bcwPutByte b => Sys2Proof.Machine.execBcwPutByte b s
  | .bcwPutShort w => Sys2Proof.Machine.execBcwPutShort w s
  | .bcwWindup => Sys2Proof.Machine.execBcwWindup s
  | .bcwFlush => Sys2Proof.Machine.execBcwFlush s
  | .bcwDrain => Sys2Proof.Machine.execBcwDrain s
  | .swbPut b => Sys2Proof.Machine.execSwbPut b s
  | .swbCopy len dist => Sys2Proof.Machine.execSwbCopy len dist s
  | .swbDrain => Sys2Proof.Machine.execSwbDrain s
  | .swbSeed => Sys2Proof.Machine.execSwbSeed s
  | .swbFill => Sys2Proof.Machine.execSwbFill s
  | .swbSlide => Sys2Proof.Machine.execSwbSlide s
  | .swbDseed => Sys2Proof.Machine.execSwbDseed s
  | .hdtBuild kind n => Sys2Proof.Machine.execHdtBuild kind n s
  | .hdtFixed => Sys2Proof.Machine.execHdtFixed s
  | .hdtDecode table => Sys2Proof.Machine.execHdtDecode table s
  | .mfHashInit => Sys2Proof.Machine.execMfHashInit s
  | .mfInsert pos => Sys2Proof.Machine.execMfInsert pos s
  | .mfLongest curMatch => Sys2Proof.Machine.execMfLongest curMatch s
  | .tbInitBlock => Sys2Proof.Machine.execTbInitBlock s
  | .tbTally lc dist => Sys2Proof.Machine.execTbTally lc dist s
  | .tbBuild desc => Sys2Proof.Machine.execTbBuild desc s
  | .tbGenBitlen desc => Sys2Proof.Machine.execTbGenBitlen desc s
  | .tbGenCodes desc => Sys2Proof.Machine.execTbGenCodes desc s
  | .tbScan desc => Sys2Proof.Machine.execTbScan desc s
  | .tbBlTree => Sys2Proof.Machine.execTbBlTree s
  | .tbSendTree desc => Sys2Proof.Machine.execTbSendTree desc s
  | .tbSendAll lcodes dcodes blcodes => Sys2Proof.Machine.execTbSendAll lcodes dcodes blcodes s
  | .tbCompress dynamic => Sys2Proof.Machine.execTbCompress dynamic s
  | .tbStored eof buf len => Sys2Proof.Machine.execTbStored eof buf len s
  | .tbFlushBlock eof => Sys2Proof.Machine.execTbFlushBlock eof s

end Sys2Proof.Machine
end

