-- ==== Sys2Proof/Machine/Step.lean ====
section
/-! DEFINITION. One step of the machine: take the host's next command and execute it to completion
(spec/10_state.md R50, spec/70_reset_and_hazards.md R810). -/

namespace Sys2Proof.Machine

/-- One step. With no command waiting nothing happens (spec/60_exceptions.md R761): the machine stays as it is
(log entry 1). -/
def step (s : State) : Host.Outcome State Fault Refusal :=
  match s.queue with
  | [] => .next s
  | c :: rest =>
    match decode c.w0 c.w1 with
    | .ok i => exec i (s.present c rest)
    | .error e => (s.present c rest).refuseDecode e

/-- The machine with one command put where the next step takes it, for the instance now addressed, with an empty input
slice and no output space: bits 31..0 of `w` are W0 and bits 63..32 W1 (log entry 1: it stands for
the host's issuing the command). -/
def State.withFetchWord (s : State) (nbits w : Nat) : State :=
  let w := w % 2 ^ nbits
  { s with queue := ⟨s.target, BitVec.ofNat 32 w, BitVec.ofNat 32 (w / 2 ^ 32), [], 0⟩ :: s.queue }

end Sys2Proof.Machine
end

