-- ==== Sys2Proof/Safety.lean ====
section
/-! DEFINITION. What the claims call a safe run: bounds on the fields of an instance, the canonical form of every array, and
the agreement of the register block with the units (R52).

The bounds are those that every command keeps, whatever the host does: those of R70, of R60 on the bits above the valid
ones, of R65 on the count of bits held, of R66, of R101 on window indices, of R105 on the tokens that fit the buffers, and of
R107 on code lengths. Not among them, because sub-block commands may break engine invariants (R816): R60's bound on
`bitCount`, R65's zero bits above `biValid`, R101's `strstart + lookahead ≤ WINDOW_SIZE`, R103's range and R105's
`lastLit ≤ LIT_BUFSIZE - 1`. -/

namespace Sys2Proof.Machine

/-- The machine answers a next state. -/
def answers (o : Host.Outcome State Fault Refusal) : Prop := ∃ t, o = .next t

/-- An instance without a latched error that is an inflate instance with units `d`. -/
def State.isInflate (s : State) (d : Inflate) : Prop := s.codec.err = none ∧ s.codec.engine = .inflate d

/-- An instance without a latched error that is a deflate instance with units `d`. -/
def State.isDeflate (s : State) (d : Deflate) : Prop := s.codec.err = none ∧ s.codec.engine = .deflate d

/-- Every listed index is below `n`. -/
def Cells.below {α : Type} (n : Nat) (m : Cells α) : Prop := ∀ c ∈ m, c.1 < n

/-- The bits above the valid ones are zero (R60). -/
def BitCursor.Ok (bc : BitCursor) : Prop := bc.bitBuffer.toNat < 2 ^ bc.bitCount

/-- The bounds of R70, and the canonical form of the buffer. -/
structure SlidingWindow.Ok (w : SlidingWindow) : Prop where
  wbits_low : 8 ≤ w.wbits
  wbits_high : w.wbits ≤ 15
  cursor : w.writeCursor < w.capacity
  undelivered : w.undelivered ≤ w.whave
  whave : w.whave ≤ w.capacity
  canonical : Memory.wf w.buffer
  inside : Cells.below w.capacity w.buffer

/-- The canonical form of the table arenas and the builder's scratch (R76). -/
structure DecodeTables.Ok (t : DecodeTables) : Prop where
  arena : Cells.sorted t.arena
  clArena : Cells.sorted t.clArena
  count : Cells.sorted t.count
  offs : Cells.sorted t.offs
  work : Cells.sorted t.work

/-- What holds of the units of an inflate instance (R60, R70, R76, R83). -/
structure Inflate.Ok (d : Inflate) : Prop where
  cursor : d.bc.Ok
  window : d.sw.Ok
  tables : d.ht.Ok
  cl : Cells.wf 0 d.cl
  lens : Cells.wf 0 d.lens

/-- No code length of a descriptor is above 15 (R107), and its arrays are in canonical form. -/
structure Tree.Ok (t : Tree) : Prop where
  len : ∀ c ∈ t.len, c.2 ≤ Config.maxBits
  freq : Cells.wf 0 t.freq
  lens : Cells.sorted t.len
  code : Cells.sorted t.code
  dad : Cells.sorted t.dad

/-- The canonical form of the tree builder's scratch (R108). -/
structure TreeScratch.Ok (t : TreeScratch) : Prop where
  heap : Cells.sorted t.heap
  depth : Cells.sorted t.depth
  blCount : Cells.sorted t.blCount

/-- What holds of the units of a deflate instance (R65, R66, R101, R102, R105, R107, R108; no row of R671 has a `niceMatch` above
MAX_MATCH). -/
structure Deflate.Ok (d : Deflate) : Prop where
  wbits_low : 9 ≤ d.dwbits
  wbits_high : d.dwbits ≤ 15
  writer : d.bw.biValid ≤ 16
  pending : d.pending.length ≤ Config.pendingBufSize
  window : Memory.wf d.window
  inside : Cells.below d.windowSize d.window
  head : Cells.wf 0 d.head
  prev : Cells.wf 0 d.prev
  tokens : d.lastLit ≤ Config.litBufSize
  lBuf : Cells.sorted d.lBuf
  dBuf : Cells.sorted d.dBuf
  ld : d.ld.Ok
  dd : d.dd.Ok
  bd : d.bd.Ok
  tb : d.tb.Ok
  nice : d.niceMatch ≤ Config.maxMatch

/-- The units are in bounds, and the configuration registers say what they are (R52). -/
def Codec.Ok (c : Codec) : Prop :=
  c.regs.status.toNat < 256 ∧
  match c.engine with
  | .unset => c.regs.cfgKind = 0 ∧ c.regs.cfgWbits = 0 ∧ c.regs.cfgLevel = 0
  | .inflate d => d.Ok ∧ c.regs.cfgKind = 0 ∧ c.regs.cfgWbits.toNat = d.sw.wbits ∧ c.regs.cfgLevel = 0
  | .deflate d => d.Ok ∧ c.regs.cfgKind = 1 ∧ c.regs.cfgWbits.toNat = d.dwbits ∧ c.regs.cfgLevel.toNat = d.level

/-- The invariant of the machine: every instance is in bounds, and the list of the instances not addressed is in
canonical form and does not list the one that is. -/
structure State.Inv (s : State) : Prop where
  codec : s.codec.Ok
  parked : ∀ p ∈ s.parked, p.2.Ok
  canonical : Cells.wf Codec.powerOn s.parked
  apart : Cells.find? s.parked s.target = none

end Sys2Proof.Machine
end

