-- ==== Sys2Proof/Certificates/Slice0/Obligations.lean ====
section
/-! DEFINITION. The statements about the machine, for the provers. `Sys2Proof.Claim` holds the words they use: the state
after a command written out field by field, and the closed forms of what the rules compute step by step. -/

namespace Sys2Proof.Claim

open Sys2Proof.Machine

/-! ## The words of the statements -/

/-- The state right after a command, every field written out (R52, R212): the latch, STATUS, the two results, the units,
the input left with the host and the output bytes. IN_CONSUMED and OUT_PRODUCED count them, the totals add them, and the
configuration registers, the other instances and the waiting commands are those of `s`. -/
def after (s : State) (err : Option Latch) (status : Nat) (r0 r1 : Word) (eng : Engine) (input output : List Byte) :
    State :=
  { target := s.target
    codec :=
      { regs :=
          { cfgKind := s.codec.regs.cfgKind
            cfgWbits := s.codec.regs.cfgWbits
            cfgLevel := s.codec.regs.cfgLevel
            cfgStrategy := s.codec.regs.cfgStrategy
            cfgDict := s.codec.regs.cfgDict
            cfgDictSum := s.codec.regs.cfgDictSum
            status := BitVec.ofNat 32 status
            inConsumed := BitVec.ofNat 32 (s.port.input.length - input.length)
            outProduced := BitVec.ofNat 32 output.length
            totalIn := s.codec.regs.totalIn + BitVec.ofNat 32 (s.port.input.length - input.length)
            totalOut := s.codec.regs.totalOut + BitVec.ofNat 32 output.length
            result0 := r0
            result1 := r1 }
        err := err
        engine := eng }
    parked := s.parked
    port := { input := input, space := s.port.space - output.length, output := output }
    queue := s.queue }

/-- A command completes without an error. -/
def completes (i : Instr) (s : State) (status r0 r1 : Nat) (eng : Engine) (input output : List Byte) : Prop :=
  exec i s = .next (after s none status (BitVec.ofNat 32 r0) (BitVec.ofNat 32 r1) eng input output)

/-- A command raises an error: the latch is set, STATUS holds `code`, and the results keep their values (R763;
log entry 5). -/
def raises (i : Instr) (s : State) (e : Latch) (code : Nat) (eng : Engine) (input output : List Byte) : Prop :=
  exec i s = .next (after s (some e) code s.codec.regs.result0 s.codec.regs.result1 eng input output)

/-- An engine command raises an error in its body: as `raises`, and its two results are 0 (R212; the model's reading, log
entry 5). -/
def fails (i : Instr) (s : State) (e : Latch) (code : Nat) (eng : Engine) (input output : List Byte) : Prop :=
  exec i s = .next (after s (some e) code 0 0 eng input output)

/-- The state after the commands `is`, one after the other on the addressed instance and its port; none where one stops. -/
def chain : List Instr → State → Option State
  | [], s => some s
  | i :: is, s =>
    match exec i s with
    | .next t => chain is t
    | _ => none

/-- The units of an instance after a raise: an inflate instance's tag is ERROR (R763). -/
def stopped : Engine → Engine
  | .unset => .unset
  | .inflate d => .inflate { d with mode := .error }
  | .deflate d => .deflate d

/-- The number whose little-endian bytes are `bs`: bit k of it is the k-th bit in stream order (R153). -/
def streamValue : List Byte → Nat
  | [] => 0
  | b :: bs => b.toNat + 256 * streamValue bs

/-- The `n` low bytes of `v`, lowest first. -/
def bytesOf (v : Nat) : Nat → List Byte
  | 0 => []
  | n + 1 => BitVec.ofNat 8 v :: bytesOf (v / 256) n

/-! ### The bit cursor -/

/-- The bits of the cursor followed by the bits of `input`, in stream order. -/
def bitsOf (bc : BitCursor) (input : List Byte) : Nat := bc.bitBuffer.toNat + 2 ^ bc.bitCount * streamValue input

/-- The bytes `Need(n)` pulls where there are enough (R300). -/
def pullCount (bc : BitCursor) (n : Nat) : Nat := (n - bc.bitCount + 7) / 8

/-- The cursor after it pulled the bytes `got` and dropped `n` bits. -/
def cursorAfter (bc : BitCursor) (got : List Byte) (n : Nat) : BitCursor :=
  { bitBuffer := BitVec.ofNat 32 (bitsOf bc got / 2 ^ n)
    bitCount := bc.bitCount + 8 * got.length - n
    bytePosition := bc.bytePosition + got.length }

/-! ### The bit packer -/

/-- Bit fields (value, width) packed in order, the first lowest: their joint value. -/
def packedValue : List (Nat × Nat) → Nat
  | [] => 0
  | f :: fs => f.1 + 2 ^ f.2 * packedValue fs

/-- The width of bit fields packed in order. -/
def packedWidth : List (Nat × Nat) → Nat
  | [] => 0
  | f :: fs => f.2 + packedWidth fs

/-- `d'` is `d` after the bit fields `fs` left through the bit packer in order: the bits held and the bytes appended are
those held before with the fields above them, and nothing else changed (R340, R343). -/
def emits (d d' : Deflate) (fs : List (Nat × Nat)) : Prop :=
  ∃ more : List Byte,
    d' = { d with bw := d'.bw, pending := d.pending ++ more } ∧
    d'.bw.biValid ≤ 16 ∧
    8 * more.length + d'.bw.biValid = d.bw.biValid + packedWidth fs ∧
    streamValue more + 2 ^ (8 * more.length) * d'.bw.biBuf.toNat =
      d.bw.biBuf.toNat + 2 ^ d.bw.biValid * packedValue fs

/-- The invariant of the bit writer (R65): at most 16 bits are held, and the bits above them are zero. -/
def writerOk (d : Deflate) : Prop := d.bw.biValid ≤ 16 ∧ d.bw.biBuf.toNat < 2 ^ d.bw.biValid

/-- Symbol `n` of an alphabet has a code that its length holds. -/
def hasCode (t : Tree) (n : Nat) : Prop :=
  ∃ c l, Cells.find? t.code n = some c ∧ Cells.find? t.len n = some l ∧ l ≤ 15 ∧ c.toNat < 2 ^ l

/-- The bit field of symbol `n` with the codes of `t`. -/
def codeField (t : Tree) (n : Nat) : Nat × Nat :=
  (((Cells.find? t.code n).getD 0).toNat, (Cells.find? t.len n).getD 0)

/-! ### Code lengths -/

/-- The descriptor `t` has a length of at most 15 for every symbol below `n`. -/
def hasLens (t : Tree) (n : Nat) : Prop := ∀ k < n, ∃ l, Cells.find? t.len k = some l ∧ l ≤ 15

/-- The lengths of the symbols below `n`. -/
def lensBelow (t : Tree) (n : Nat) : List Nat := (List.range n).map fun k => (Cells.find? t.len k).getD 0

/-- The bit-length symbols a run stands for (R625). -/
def runSymbols : Run → List Nat
  | .single len count => List.replicate count len
  | .repeat16 len lead _ => if lead then [len, 16] else [16]
  | .zeros17 _ => [17]
  | .zeros18 _ => [18]

/-- The bit fields of a run (R626): `bl` gives the field of a bit-length symbol. -/
def runFields (bl : Nat → Nat × Nat) : Run → List (Nat × Nat)
  | .single len count => List.replicate count (bl len)
  | .repeat16 len lead count => (if lead then [bl len] else []) ++ [bl 16, (count - 3, 2)]
  | .zeros17 count => [bl 17, (count - 3, 3)]
  | .zeros18 count => [bl 18, (count - 11, 7)]

/-- The bit-length symbols that describe a sequence of lengths. -/
def symbolsOf (lens : List Nat) : List Nat := (runs lens).flatMap runSymbols

/-- What the decoder makes of a run after the length `last` (R488, R490), none where it refuses it. -/
def decodeRun (last : Option Nat) : Run → Option (List Nat)
  | .single len count => if len ≤ 15 then some (List.replicate count len) else none
  | .repeat16 len lead count =>
    if 3 ≤ count ∧ count ≤ 6 then
      if lead then if len ≤ 15 then some (len :: List.replicate count len) else none
      else last.map fun v => List.replicate count v
    else none
  | .zeros17 count => if 3 ≤ count ∧ count ≤ 10 then some (List.replicate count 0) else none
  | .zeros18 count => if 11 ≤ count ∧ count ≤ 138 then some (List.replicate count 0) else none

/-- What the decoder makes of a sequence of runs. -/
def decodeRuns (last : Option Nat) : List Run → Option (List Nat)
  | [] => some []
  | r :: rest =>
    match decodeRun last r with
    | none => none
    | some ls =>
      match decodeRuns (ls.getLast? <|> last) rest with
      | none => none
      | some more => some (ls ++ more)

/-- The Kraft sum of a set of code lengths, in units of 2^-15. -/
def kraft (lens : List Nat) : Nat := ((lens.filter fun l => l ≠ 0).map fun l => 2 ^ (15 - l)).sum

/-- The canonical code of symbol `s` (R260): codes rise with the length, and with the symbol within a length. -/
def canonicalCode (lens : List Nat) (s : Nat) : Nat :=
  let l := lens.getD s 0
  ((List.range' 1 (l - 1)).map fun k => (lens.filter fun x => x == k).length * 2 ^ (l - k)).sum +
    ((lens.take s).filter fun x => x == l).length

/-- The bit field of symbol `s`: its canonical code, most significant bit first in the stream (R154, R260). -/
def canonicalField (lens : List Nat) (s : Nat) : Nat × Nat :=
  (bitrev (canonicalCode lens s) (lens.getD s 0), lens.getD s 0)

/-- Symbol `s` has a code. -/
def coded (lens : List Nat) (s : Nat) : Prop := lens.getD s 0 ≠ 0

/-- The stream bits `v` start with the code of symbol `s`. -/
def startsWith (lens : List Nat) (s v : Nat) : Prop :=
  coded lens s ∧ v % 2 ^ lens.getD s 0 = (canonicalField lens s).1

/-- A decode table holds the canonical codes of `lens` (R425, R426): any stream bits start with exactly one symbol's code,
and the table leads to that symbol's entry, directly where its code fits the root width, else through a sub-table. -/
def laidOut (t : DecodeTables) (r : TableRef) (k : CodeKind) (lens : List Nat) : Prop :=
  ∀ v : Nat, ∃ sym, startsWith lens sym v ∧ (∀ other, startsWith lens other v → other = sym) ∧
    let l := lens.getD sym 0
    (l ≤ r.root → t.entry r.store (r.start + v % 2 ^ r.root) = .ok (symbolEntry k sym l)) ∧
    (r.root < l → ∃ w sub,
      t.entry r.store (r.start + v % 2 ^ r.root) = .ok ⟨.link w, r.root, sub⟩ ∧
      t.entry r.store (sub + v % 2 ^ (r.root + w) / 2 ^ r.root) = .ok (symbolEntry k sym (l - r.root)))

/-- The code lengths a dynamic block may declare for an alphabet (R422, R423): a complete set, or none longer than 1. -/
def acceptable (lens : List Nat) : Prop := kraft lens = 2 ^ 15 ∨ (kraft lens ≤ 2 ^ 15 ∧ ∀ l ∈ lens, l ≤ 1)

/-- HDT.DECODE reads entry `e` where the code has `need` bits, of which `drop` are dropped (R430, R208): it pulls only the
bytes `need` takes; with too few bits it pulls every byte, drops nothing and answers NeedMoreInput. -/
def readsEntry (table : BitVec 2) (s : State) (d : Inflate) (e : Entry) (need drop : Nat) : Prop :=
  (d.bc.bitCount + 8 * s.port.input.length < need →
    completes (.hdtDecode table) s 3 15 0 (.inflate { d with bc := cursorAfter d.bc s.port.input 0 }) [] []) ∧
  (need ≤ d.bc.bitCount + 8 * s.port.input.length →
    ∃ code, e.op.resultCode = some code ∧
      completes (.hdtDecode table) s 0 (code + 65536 * e.val) drop
        (.inflate { d with bc := cursorAfter d.bc (s.port.input.take (pullCount d.bc need)) drop })
        (s.port.input.drop (pullCount d.bc need)) [])

/-- The two symbols that get codes when at most two are used (R612). -/
def codedPair : List Nat → Nat × Nat
  | [] => (0, 1)
  | [u] => if u < 2 then (u, u + 1) else (0, u)
  | a :: b :: _ => (a, b)

/-- The used symbols of an alphabet of `n`, by frequency. -/
def usedBelow (n : Nat) (freq : Nat → Nat) : List Nat := (List.range n).filter fun k => freq k ≠ 0

/-- The frequency of symbol `n` where the symbols of `pair` are forced to have one (R612). -/
def forcedFreq (pair : Nat × Nat) (freq : Nat → Nat) (n : Nat) : Nat :=
  if (n = pair.1 ∨ n = pair.2) ∧ freq n = 0 then 1 else freq n

/-- What a tree of two leaves of length 1 adds to `optLen`: a forced symbol's cost is offset by 1 (R612, R615). -/
def pairCost (id : TreeId) (pair : Nat × Nat) (freq : Nat → Nat) : Int :=
  let cost : Nat → Int := fun n =>
    ((forcedFreq pair freq n * (1 + id.extraBits n) : Nat) : Int) - if freq n = 0 then 1 else 0
  cost pair.1 + cost pair.2

/-- What it adds to `staticLen`, for a descriptor with a static tree. -/
def pairStatic (id : TreeId) (pair : Nat × Nat) (freq : Nat → Nat) : Int :=
  let cost : Nat → Int := fun n =>
    match id.stree n with
    | none => 0
    | some l => ((forcedFreq pair freq n * (l + id.extraBits n) : Nat) : Int) - if freq n = 0 then (l : Int) else 0
  cost pair.1 + cost pair.2

/-- The largest `b` from the given one down with `c b` not 0. -/
def lastNonzero (c : Nat → Int) : Nat → Option Nat
  | 0 => if c 0 = 0 then none else some 0
  | b + 1 => if c (b + 1) = 0 then lastNonzero c b else some (b + 1)

/-- One round of the repair of R615 on the counts per length: a code moves down from the longest length in use below the
limit, and a code of the limit joins it. -/
def repairRound (limit : Nat) (c : Nat → Int) : Option (Nat → Int) :=
  (lastNonzero c (limit - 1)).map fun b k =>
    c k + (if k = b then -1 else 0) + (if k = b + 1 then 2 else 0) + if k = limit then -1 else 0

/-- Rounds of the repair of R615. -/
def repairRounds (limit : Nat) : Nat → (Nat → Int) → Option (Nat → Int)
  | 0, c => some c
  | n + 1, c => (repairRound limit c).bind (repairRounds limit n)

/-- The length of the leaf with rank `r` where `c b` leaves get length `b`, the longest first (R615). -/
def lengthFrom (c : Nat → Nat) : Nat → Nat → Nat
  | 0, _ => 0
  | b + 1, r => if r < c (b + 1) then b + 1 else lengthFrom c b (r - c (b + 1))

/-! ### Tokens -/

/-- The bit fields of a match length of `lc + 3` (R630). -/
def lengthFields (ll : Nat → Nat × Nat) (lc : Nat) : List (Nat × Nat) :=
  let c := lengthCode lc
  [ll (257 + c)] ++ (if tableAt lenExtra c = 0 then [] else [(lc + 3 - tableAt lenBase c, tableAt lenExtra c)])

/-- The bit fields of a match distance (R630). -/
def distFields (dd : Nat → Nat × Nat) (dist : Nat) : List (Nat × Nat) :=
  let e := distCode (dist - 1)
  [dd e] ++ (if tableAt distExtra e = 0 then [] else [(dist - tableAt distBase e, tableAt distExtra e)])

/-- The bit fields of a token (R630): `ll` and `dd` give the fields of the symbols. -/
def tokenFields (ll dd : Nat → Nat × Nat) (dist lc : Nat) : List (Nat × Nat) :=
  if dist = 0 then [ll lc] else lengthFields ll lc ++ distFields dd dist

/-- The bit field of a literal/length symbol with the fixed codes (R262). -/
def fixedLLField (n : Nat) : Nat × Nat := (bitrev (fixedLLCode n) (fixedLLLen n), fixedLLLen n)

/-- The bit field of a distance symbol with the fixed codes (R263). -/
def fixedDistField (n : Nat) : Nat × Nat := (bitrev n 5, 5)

/-- The bit field of a literal/length symbol in a block with the fixed or the dynamic codes. -/
def llField (d : Deflate) (dynamic : Bool) (n : Nat) : Nat × Nat :=
  if dynamic then codeField d.ld n else fixedLLField n

/-- The bit field of a distance symbol in a block with the fixed or the dynamic codes. -/
def distField (d : Deflate) (dynamic : Bool) (n : Nat) : Nat × Nat :=
  if dynamic then codeField d.dd n else fixedDistField n

/-- The bit fields of tokens (distance, literal byte or length less 3) and END_BLOCK. -/
def bodyFields (ll dd : Nat → Nat × Nat) (toks : List (Nat × Nat)) : List (Nat × Nat) :=
  toks.flatMap (fun t => tokenFields ll dd t.1 t.2) ++ [ll 256]

/-- Every symbol of a token has a code. -/
def tokenCoded (ll dd : List Nat) (t : Nat × Nat) : Prop :=
  (t.1 = 0 → coded ll t.2) ∧ (t.1 ≠ 0 → coded ll (257 + lengthCode t.2) ∧ coded dd (distCode (t.1 - 1)))

/-- Append `n` bytes to a history, each the byte `dist` back (R382). -/
def copyBack (dist : Nat) : Nat → List Byte → List Byte
  | 0, h => h
  | n + 1, h => copyBack dist n (h ++ [h.getD (h.length - dist) 0])

/-- What tokens append to a history: a literal its byte, a match the bytes it copies. -/
def replay : List Byte → List (Nat × Nat) → List Byte
  | h, [] => h
  | h, t :: ts => replay (if t.1 = 0 then h ++ [BitVec.ofNat 8 t.2] else copyBack t.1 (t.2 + 3) h) ts

/-- Every match of the tokens reaches back into a history that has `n` bytes before the first of them, and no farther than
`cap` (R518). -/
def replayable (cap : Nat) : Nat → List (Nat × Nat) → Prop
  | _, [] => True
  | n, t :: ts =>
    t.2 < 256 ∧ (if t.1 = 0 then replayable cap (n + 1) ts else t.1 ≤ min cap n ∧ replayable cap (n + t.2 + 3) ts)

/-- The history of a decoder window, oldest byte first (R70). -/
def historyOf (w : SlidingWindow) : List Byte :=
  (List.range w.whave).map fun i => Memory.read w.buffer ((w.writeCursor + 2 ^ w.wbits - w.whave + i) % 2 ^ w.wbits)

/-- The cursor's bits and the input slice start with the bit fields `fs`. -/
def streams (d : Inflate) (s : State) (fs : List (Nat × Nat)) : Prop :=
  packedWidth fs ≤ d.bc.bitCount + 8 * s.port.input.length ∧
    bitsOf d.bc s.port.input % 2 ^ packedWidth fs = packedValue fs

/-- The window `w'` is `w` after the bytes `out` went through it, all delivered. -/
def delivers (w w' : SlidingWindow) (out : List Byte) : Prop :=
  let cap := 2 ^ w.wbits
  w'.undelivered = 0 ∧ w'.whave = min cap (w.whave + out.length) ∧ w'.writeCursor = (w.writeCursor + out.length) % cap ∧
    ∀ i < min cap out.length,
      Memory.read w'.buffer ((w.writeCursor + (out.length - 1 - i)) % cap) = out.getD (out.length - 1 - i) 0

/-- INF.STEP reads the bit fields `fs` of blocks of which the last is final, ends the stream at the next byte boundary and
delivers the bytes that the tokens append to the history. -/
def decodesTo (s : State) (d : Inflate) (fs toks : List (Nat × Nat)) : Prop :=
  let w := packedWidth fs
  let got := s.port.input.take (pullCount d.bc w)
  let out := (replay (historyOf d.sw) toks).drop d.sw.whave
  ∃ d' : Inflate,
    completes .infStep s 1 0 0 (.inflate d') (s.port.input.drop (pullCount d.bc w)) out ∧
    d'.mode = .done ∧ d'.bc = cursorAfter d.bc got (w + (d.bc.bitCount + 8 * got.length - w) % 8) ∧ delivers d.sw d'.sw out

/-- INF.STEP reads the bit fields `fs` of a block that is not final, delivers the bytes that the tokens append to the history,
and answers Ok with every input byte pulled: it waits for the next block's header. -/
def awaitsHeader (s : State) (d : Inflate) (fs toks : List (Nat × Nat)) : Prop :=
  let out := (replay (historyOf d.sw) toks).drop d.sw.whave
  ∃ d' : Inflate,
    completes .infStep s 0 0 0 (.inflate d') [] out ∧
    d'.mode = .type ∧ d'.last = false ∧ d'.bc = cursorAfter d.bc s.port.input (packedWidth fs) ∧ delivers d.sw d'.sw out

/-- A block that is not final, with the bit fields `fs`: INF.STEP goes on with the header of the next block, a final one with the
fixed codes; and it waits for that header where fewer than 3 bits follow. -/
def goesOn (s : State) (d : Inflate) (fs toks : List (Nat × Nat)) : Prop :=
  (∀ more : List (Nat × Nat),
    replayable (2 ^ d.sw.wbits) d.sw.whave (toks ++ more) →
    (replay (historyOf d.sw) (toks ++ more)).length - d.sw.whave ≤ s.port.space →
    let all := fs ++ [(3, 3)] ++ bodyFields fixedLLField fixedDistField more
    streams d s all → decodesTo s d all (toks ++ more)) ∧
  (streams d s fs → d.bc.bitCount + 8 * s.port.input.length < packedWidth fs + 3 → awaitsHeader s d fs toks)

/-- The end of a block with the bit fields `fs`. -/
def blockEnds (s : State) (d : Inflate) (last : Bool) (fs toks : List (Nat × Nat)) : Prop :=
  if last then streams d s fs → decodesTo s d fs toks else goesOn s d fs toks

/-- INF.STEP reads the bit fields `fs`, delivers the bytes `out` and raises the DataError `r`. Every byte that `fs` takes is
pulled, and the bits of `fs` but the last `kept` are dropped. The results are 0 (log entry 5). -/
def rejects (s : State) (d : Inflate) (r : DataReason) (fs : List (Nat × Nat)) (kept : Nat) (out : List Byte) : Prop :=
  let w := packedWidth fs
  ∃ d' : Inflate,
    d'.mode = .error ∧ d'.bc = cursorAfter d.bc (s.port.input.take (pullCount d.bc w)) (w - kept) ∧
    d'.sw.undelivered = 0 ∧ (out = [] → d'.sw = d.sw) ∧
    fails .infStep s (.data r) (Latch.data r).word.toNat (.inflate d') (s.port.input.drop (pullCount d.bc w)) out

/-- The bits that stay in the cursor where a code of length `l`, read through a table of the root width given, leads to an
invalid entry (R430). -/
def undropped (root l : Nat) : Nat := if l ≤ root then l else l - root

/-- A table of two entries of one bit each (R423, R431). -/
def oneBit (t : DecodeTables) (r : TableRef) (e : Nat → Entry) : Prop :=
  r.root = 1 ∧ ∀ i < 2, t.entry r.store (r.start + i) = .ok (e i) ∧ (e i).bits = 1

/-- The first `n` tokens (R105). -/
def tokens (d : Deflate) (n : Nat) : List (Nat × Nat) :=
  (List.range n).map fun k => (((Cells.find? d.dBuf k).getD 0).toNat, ((Cells.find? d.lBuf k).getD 0).toNat)

/-- The truncation test of R607 for `lastLit` tokens of which `matches_` are matches: `freq` are the distance
frequencies. -/
def endsEarly (lastLit matches_ level : Nat) (span : Int) (freq : Nat → Nat) : Bool :=
  decide (lastLit % 8192 = 0) && decide (2 < level) && decide (matches_ < lastLit / 2) &&
    decide (((lastLit * 8 + ((List.range 30).map fun c => freq c * (5 + tableAt distExtra c)).sum) / 8 : Nat) <
      Int.tdiv span 2)

/-- The bytes of a stored block that starts at a byte boundary: `head` holds the header bits (R242, R482). -/
def storedBytes (head : Byte) (bytes : List Byte) : List Byte :=
  head :: bytesOf bytes.length 2 ++ bytesOf (65535 - bytes.length) 2 ++ bytes

/-! ### Window bytes -/

/-- `n` bytes of the encoder window from index `i`. -/
def windowBytes (m : Memory) (i n : Nat) : List Byte := (List.range n).map fun k => Memory.read m (i + k)

/-- The hash of two bytes (R560). -/
def hash2 (b0 b1 : Byte) : Hash := (b0.setWidth 15 <<< 5) ^^^ b1.setWidth 15

/-- The hash of the three bytes at index `i` (R550, R560, R561). -/
def hash3 (m : Memory) (i : Nat) : Hash :=
  (hash2 (Memory.read m i) (Memory.read m (i + 1)) <<< 5) ^^^ (Memory.read m (i + 2)).setWidth 15

/-- The head of the chain of `h` after the strings at 0, 1, ..., n-1 are inserted in order (R561): the last of them with
that hash, or what the head was. -/
def chainHead (m : Memory) : Nat → Hash → Half → Half
  | 0, _, old => old
  | n + 1, h, old => if hash3 m n = h then BitVec.ofNat 16 n else chainHead m n h old

/-- The sum `a` of R7 for a byte string. -/
def adlerA (bytes : List Byte) : Nat := (1 + (bytes.map BitVec.toNat).sum) % 65521

/-- The sum `b` of R7: the sum of `a` over the prefixes. -/
def adlerB (bytes : List Byte) : Nat := ((List.range bytes.length).map fun n => adlerA (bytes.take (n + 1))).sum % 65521

/-! ### Steps of the encoder -/

/-- What a DEF.STEP with SyncFlush, FullFlush or Finish answers, the output space unused so far, once its strategy has taken
the whole input and holds the units `u`: it runs `held` (the tally of a byte still held), ends the block as FLUSHBLOCK does,
sends a marker of an empty stored block after it where the flush is no Finish, and delivers it. Where the output space is used
up, the rest stays in the FIFO, `lastFlush` becomes -1 and the answer is Ok, with no marker where the block used it up. -/
def endsBlock (flush : BitVec 3) (s : State) (held : List Instr) (u : Deflate) : Prop :=
  let filled : Deflate → Deflate := fun e => { e with pending := e.pending.drop s.port.space, lastFlush := -1 }
  ∀ (v : State) (e : Deflate),
    chain (held ++ [.tbFlushBlock (if flush = 4 then 1 else 0)]) { s with codec := { s.codec with engine := .deflate u } } =
      some v →
    v.isDeflate e →
    (s.port.space ≤ e.pending.length →
      completes (.defStep flush) s 0 0 0 (.deflate (filled { e with status := if flush = 4 then .finish else .busy })) []
        (e.pending.take s.port.space)) ∧
    (e.pending.length < s.port.space → flush = 4 →
      completes (.defStep flush) s 1 0 0 (.deflate { e with pending := [], status := .finish }) [] e.pending) ∧
    (e.pending.length < s.port.space → flush ≠ 4 → ∀ (x : State) (m : Deflate), chain [.tbStored 0 0 0] v = some x →
      x.isDeflate m →
      let marked := { m with head := if flush = 3 then [] else m.head, status := .busy }
      (m.pending.length < s.port.space →
        completes (.defStep flush) s 0 0 0 (.deflate { marked with pending := [] }) [] m.pending) ∧
      (s.port.space ≤ m.pending.length →
        completes (.defStep flush) s 0 0 0 (.deflate (filled marked)) [] (m.pending.take s.port.space)))

/-- The state after DEF.STEPs without a flush on the slices given, each with the same output space; none where one stops. -/
def feed (space : Nat) : List (List Byte) → State → Option State
  | [], s => some s
  | y :: ys, s =>
    match exec (.defStep 0) { s with port := ⟨y, space, []⟩ } with
    | .next t => feed space ys t
    | _ => none

/-- The literal/length symbol of a token. -/
def llSymbol (t : Nat × Nat) : Nat := if t.1 = 0 then t.2 else 257 + lengthCode t.2

/-- The units `e` are the units `d` after a strategy of R694 or R700 worked on them, with no block ended since the bytes `all`
began: the window's end and the block at hand are `all`; the tokens replay to those of its bytes that are passed over (all but
the lookahead and a byte still held) and reach no farther back than MAX_DIST; and the frequencies count the tokens' symbols
and END_BLOCK. -/
def tallied (d e : Deflate) (all : List Byte) : Prop :=
  let toks := tokens e e.lastLit
  let ahead := e.lookahead + if e.matchAvailable then 1 else 0
  e =
    { d with
      window := e.window
      strstart := e.strstart
      lookahead := e.lookahead
      blockStart := e.blockStart
      insH := e.insH
      matchStart := e.matchStart
      head := e.head
      prev := e.prev
      matchLength := e.matchLength
      prevLength := e.prevLength
      prevMatch := e.prevMatch
      matchAvailable := e.matchAvailable
      lBuf := e.lBuf
      dBuf := e.dBuf
      lastLit := e.lastLit
      matchCount := e.matchCount
      ld := { d.ld with freq := e.ld.freq }
      dd := { d.dd with freq := e.dd.freq }
      lastFlush := e.lastFlush
      finishReq := e.finishReq
      dictAllowed := false
      status := .busy } ∧
  (e.strstart : Int) + e.lookahead - e.blockStart = all.length ∧
  (0 ≤ e.blockStart → windowBytes e.window e.blockStart.toNat all.length = all) ∧
  ahead ≤ all.length ∧ replayable (2 ^ e.dwbits - 262) 0 toks ∧ replay [] toks = all.take (all.length - ahead) ∧
  (∀ n < 286, Cells.read 0 e.ld.freq n = (toks.filter fun t => llSymbol t = n).length + if n = 256 then 1 else 0) ∧
  (∀ n < 30, Cells.read 0 e.dd.freq n = (toks.filter fun t => t.1 ≠ 0 ∧ distCode (t.1 - 1) = n).length) ∧
  e.matchCount = (toks.filter fun t => t.1 ≠ 0).length

end Sys2Proof.Claim

open Sys2Proof Sys2Proof.Machine Sys2Proof.Claim

/-! ## The machine as a whole -/

/-- R805, R52: at power-on every instance has no kind, every register reads 0 and no error is latched. The host reads the
13 registers at the offsets of R52. The model's own choices: there are instances numbered 0, 1, ... (log entry 2), no command
waits and no bytes are presented (log entries 1 and 3), and no register is read at any other offset (log entry 24). -/
def Obligations.PowerOnState : Prop :=
  (∀ k, State.reset.codecAt k = ⟨⟨0, 0, 0, 0, 0, 0, 0, 0, 0, 0, 0, 0, 0⟩, none, .unset⟩) ∧ State.reset.queue = [] ∧
    State.reset.port = ⟨[], 0, []⟩ ∧
    (∀ r : Regs, [0x00, 0x04, 0x08, 0x0C, 0x10, 0x14, 0x18, 0x1C, 0x20, 0x24, 0x28, 0x2C, 0x30].map r.readAt =
      [r.cfgKind, r.cfgWbits, r.cfgLevel, r.cfgStrategy, r.cfgDict, r.cfgDictSum, r.status, r.inConsumed, r.outProduced,
        r.totalIn, r.totalOut, r.result0, r.result1].map some) ∧
    ∀ k offset, State.reset.hostRead k offset = if offset % 4 = 0 ∧ offset ≤ 0x30 then some 0 else none

/-- R50, R200, R761: with no command waiting a step changes nothing. Otherwise it takes the oldest command, addresses its
instance, gives it its input slice and output space, and executes what its words decode to. A command of the opcode table
put where the machine takes its next command is what the next step runs. No step is refused as not modelled. That commands
wait in a queue and leave it oldest first (log entry 1), that each names its instance (log entry 2) and that its slice and
space stand in a port (log entry 3) are the model's own choices. -/
def Obligations.StepRunsDecodedCommand : Prop :=
  (∀ s : State, s.queue = [] → step s = .next s) ∧
  (∀ (s : State) (c : Command) (rest : List Command) (i : Instr), s.queue = c :: rest → decode c.w0 c.w1 = .ok i →
    ∃ u : State, step s = exec i u ∧ u.target = c.target ∧ u.codec = s.codecAt c.target ∧
      u.port = ⟨c.input, c.space, []⟩ ∧ u.queue = rest) ∧
  (∀ (s : State) (nbits w : Nat) (i : Instr), decodeTableWord nbits w = some i →
    step (s.withFetchWord nbits w) = exec i { s with port := ⟨[], 0, []⟩ }) ∧
  (∀ (s : State) (r : Refusal), step s ≠ .refused r)

/-- The invariant holds at power-on. -/
def Obligations.PowerOnInvariant : Prop := State.reset.Inv

/-- Every step keeps the invariant of Sys2Proof/Safety.lean. It holds, of every instance: R60's zero bits above the valid
ones; R65's bound of 16 bits held; R66's bound on the FIFO; R70's bounds on the decoder window; indices inside the encoder
window (R101); at most LIT_BUFSIZE tokens (R105); no code length above 15 (R107); `niceMatch` at most MAX_MATCH (R671); every array in canonical form (both windows,
`cl`, `lens`, the arenas, the builder's scratch, the hash chains, the trees, the heap and the token buffers); and the agreement
of the configuration registers with the units (R52). Bounds that sub-block commands may break (R816) are not in it: R60's on
`bitCount`, R65's zero bits, R101's `strstart + lookahead ≤ WINDOW_SIZE` and R105's `lastLit ≤ LIT_BUFSIZE - 1`. -/
def Obligations.StepKeepsInvariant : Prop := ∀ s t : State, s.Inv → step s = .next t → t.Inv

/-- R780: a step changes no instance but the one its command addresses. The model's own choice (log entries 1 and 2): it
addresses the instance the oldest command names, and takes exactly that command out of the queue. -/
def Obligations.OtherInstancesUntouched : Prop :=
  ∀ (s t : State) (c : Command) (rest : List Command), s.Inv → s.queue = c :: rest → step s = .next t →
    (∀ k, k ≠ c.target → t.codecAt k = s.codecAt k) ∧ t.target = c.target ∧ t.queue = rest

/-- R780, R161: what a step does to the instance it addresses, and what it answers the host, does not depend on any other
instance or on the commands that wait. -/
def Obligations.OtherInstancesUnread : Prop :=
  ∀ (s₁ s₂ t₁ : State) (c : Command) (rest₁ rest₂ : List Command), s₁.queue = c :: rest₁ → s₂.queue = c :: rest₂ →
    s₁.codecAt c.target = s₂.codecAt c.target → step s₁ = .next t₁ →
    ∃ t₂, step s₂ = .next t₂ ∧ t₂.codec = t₁.codec ∧ t₂.port = t₁.port

/-- R52, R800, R801: only a reset command writes the configuration registers or the kind of an instance. -/
def Obligations.OnlyResetsConfigure : Prop :=
  ∀ (i : Instr) (s t : State), owner i ≠ .reset → exec i s = .next t →
    t.codec.regs.cfgKind = s.codec.regs.cfgKind ∧ t.codec.regs.cfgWbits = s.codec.regs.cfgWbits ∧
    t.codec.regs.cfgLevel = s.codec.regs.cfgLevel ∧ t.codec.regs.cfgStrategy = s.codec.regs.cfgStrategy ∧
    t.codec.regs.cfgDict = s.codec.regs.cfgDict ∧ t.codec.regs.cfgDictSum = s.codec.regs.cfgDictSum ∧
    match s.codec.engine, t.codec.engine with
    | .unset, .unset => True
    | .inflate d, .inflate d' => d'.sw.wbits = d.sw.wbits ∧ d'.hasDict = d.hasDict ∧ d'.dictSum = d.dictSum
    | .deflate d, .deflate d' =>
      d'.dwbits = d.dwbits ∧ d'.level = d.level ∧ d'.goodMatch = d.goodMatch ∧ d'.maxLazy = d.maxLazy ∧
      d'.niceMatch = d.niceMatch ∧ d'.maxChain = d.maxChain ∧ d'.kind = d.kind
    | _, _ => False

/-- R151, R152, R212: a command takes input from the front of its slice and fills no more output space than it has; the
counts say how much, and the totals add them mod 2^32. -/
def Obligations.CountsReportTheTransfer : Prop :=
  ∀ (i : Instr) (s t : State), owner i ≠ .reset → exec i s = .next t →
    ∃ taken, s.port.input = taken ++ t.port.input ∧ t.port.output.length + t.port.space = s.port.space ∧
      t.codec.regs.inConsumed = BitVec.ofNat 32 taken.length ∧
      t.codec.regs.outProduced = BitVec.ofNat 32 t.port.output.length ∧
      t.codec.regs.totalIn = s.codec.regs.totalIn + BitVec.ofNat 32 taken.length ∧
      t.codec.regs.totalOut = s.codec.regs.totalOut + BitVec.ofNat 32 t.port.output.length

/-! ## Statuses and errors -/

/-- R230, R231, R763: the codes of the statuses and reasons; a command that reports a DataError or StreamError has latched
it, and one that reports another status leaves no latch set. -/
def Obligations.StatusReportsTheLatch : Prop :=
  [Status.ok, .streamEnd, .needDictionary, .needMoreInput, .needMoreOutput, .bufError, .dataError, .streamError].map
    Status.code = [0, 1, 2, 3, 4, 5, 6, 7] ∧
  [DataReason.badBlockType, .storedLenMismatch, .tooManySymbols, .badCodelenSet, .badRepeat, .missingEob, .badLitlenSet,
    .badDistSet, .badLitlenCode, .badDistCode, .distTooFar, .dictMismatch].map (fun r => (Latch.data r).word) =
    [0x16, 0x26, 0x36, 0x46, 0x56, 0x66, 0x76, 0x86, 0x96, 0xA6, 0xB6, 0xC6] ∧
  [StreamReason.badOperand, .badFlush, .afterFinish, .dictNotAllowed, .unknownCommand, .wrongKind].map
    (fun r => (Latch.stream r).word) = [0x17, 0x27, 0x37, 0x47, 0x57, 0x67] ∧
  (∀ (i : Instr) (s t : State), exec i s = .next t →
    match t.codec.err with
    | none => t.codec.regs.status.toNat < 6
    | some e => t.codec.regs.status = e.word)

/-- R764: while an instance's latch is set, every command but a reset answers the latched status and changes nothing; a
legal reset clears the latch. -/
def Obligations.LatchAnswersEveryCommand : Prop :=
  (∀ (s : State) (c : Command) (rest : List Command) (e : Latch), s.queue = c :: rest →
    (s.codecAt c.target).err = some e → (∀ i, decode c.w0 c.w1 = .ok i → owner i ≠ .reset) →
    (∀ i, decode c.w0 c.w1 = .error (.reserved i) → owner i ≠ .reset) →
    step s = .next (after (s.present c rest) (some e) e.word.toNat (s.codecAt c.target).regs.result0
      (s.codecAt c.target).regs.result1 (s.codecAt c.target).engine c.input [])) ∧
  (∀ (i : Instr) (s : State), owner i = .reset → i.wellFormed = true →
    ∃ t, exec i s = .next t ∧ t.codec.err = none)

/-- BufError, and an engine step's NeedMoreInput or NeedMoreOutput, leave every state field as it was (R765) and write STATUS
and the counts. That RESULT0 and RESULT1 keep their values, too, is the model's reading of R765 beside R212 (log entry 5). -/
def Obligations.TransientStatusChangesNothing : Prop :=
  ∀ (i : Instr) (s t : State), exec i s = .next t →
    (t.codec.regs.status = 5 ∨
      ((i = .infStep ∨ ∃ f, i = .defStep f) ∧ (t.codec.regs.status = 3 ∨ t.codec.regs.status = 4))) →
    t = after s none t.codec.regs.status.toNat s.codec.regs.result0 s.codec.regs.result1 s.codec.engine s.port.input []

/-- R201, R207, R214, R775: a command to a unit the instance's kind does not have raises WRONG_KIND, and so do words of such
a command that set a reserved bit or an unused W1. That the tag becomes ERROR and the results keep their values is the model's
reading (log entries 4 and 5). -/
def Obligations.WrongKindRaises : Prop :=
  (∀ (i : Instr) (s : State), s.codec.err = none →
    ((owner i = .inflate ∧ ∀ d, s.codec.engine ≠ .inflate d) ∨ (owner i = .deflate ∧ ∀ d, s.codec.engine ≠ .deflate d)) →
    raises i s (.stream .wrongKind) 0x67 (stopped s.codec.engine) s.port.input []) ∧
  (∀ (i : Instr) (s : State) (c : Command) (rest : List Command), s.queue = c :: rest →
    decode c.w0 c.w1 = .error (.reserved i) → (s.codecAt c.target).err = none →
    ((owner i = .inflate ∧ ∀ d, (s.codecAt c.target).engine ≠ .inflate d) ∨
      (owner i = .deflate ∧ ∀ d, (s.codecAt c.target).engine ≠ .deflate d)) →
    step s = .next (after (s.present c rest) (some (.stream .wrongKind)) 0x67 (s.codecAt c.target).regs.result0
      (s.codecAt c.target).regs.result1 (stopped (s.codecAt c.target).engine) c.input []))

/-- R211: an operand outside its legal values, a reserved bit or a non-zero unused W1 raises BAD_OPERAND, and nothing is
consumed, produced or changed but the latch. That an inflate instance's tag becomes ERROR, as at every raise (R763 item 2), is
the model's reading of R211 beside R763 (log entry 4), and that the results keep their values is log entry 5. -/
def Obligations.BadOperandRaises : Prop :=
  (∀ (i : Instr) (s : State), s.codec.err = none → i.wellFormed = false →
    ((owner i = .inflate ∧ ∃ d, s.codec.engine = .inflate d) ∨ (owner i = .deflate ∧ ∃ d, s.codec.engine = .deflate d)) →
    raises i s (.stream .badOperand) 0x17 (stopped s.codec.engine) s.port.input []) ∧
  (∀ (i : Instr) (s : State) (c : Command) (rest : List Command), s.queue = c :: rest →
    decode c.w0 c.w1 = .error (.reserved i) → (s.codecAt c.target).err = none →
    ((owner i = .inflate ∧ ∃ d, (s.codecAt c.target).engine = .inflate d) ∨
      (owner i = .deflate ∧ ∃ d, (s.codecAt c.target).engine = .deflate d)) →
    step s = .next (after (s.present c rest) (some (.stream .badOperand)) 0x17 (s.codecAt c.target).regs.result0
      (s.codecAt c.target).regs.result1 (stopped (s.codecAt c.target).engine) c.input []))

/-- R215: the unassigned encodings, and what each raises. That the tag becomes ERROR and the results keep their values is the
model's reading (log entries 4 and 5). -/
def Obligations.UnassignedEncodingsRefused : Prop :=
  (∀ w0 w1 : Word, decode w0 w1 = .error .unknown ↔
    (let unit := w0.toNat / 2 ^ 28
     let op := w0.toNat / 2 ^ 24 % 16
     unit = 0 ∨ 9 ≤ unit ∨ ((unit = 1 ∨ unit = 2) ∧ 3 ≤ op) ∨ ((unit = 3 ∨ unit = 4) ∧ 6 ≤ op) ∨ (unit = 5 ∧ 7 ≤ op) ∨
      ((unit = 6 ∨ unit = 7) ∧ 3 ≤ op) ∨ (unit = 8 ∧ 12 ≤ op))) ∧
  (∀ (s : State) (c : Command) (rest : List Command), s.queue = c :: rest → decode c.w0 c.w1 = .error .unknown →
    (s.codecAt c.target).err = none →
    step s = .next (after (s.present c rest) (some (.stream .unknownCommand)) 0x57 (s.codecAt c.target).regs.result0
      (s.codecAt c.target).regs.result1 (stopped (s.codecAt c.target).engine) c.input []))

/-! ## Encodings -/

/-- Words written out from R200..R210. -/
def Obligations.SampleWordsDecode : Prop :=
  decode 0x1000001F 0x024D0127 = .ok (.infReset 15 1 0x024D0127) ∧
  decode 0x2000006F 0 = .ok (.defReset 15 6 0) ∧
  decode 0x21000004 0 = .ok (.defStep 4) ∧
  decode 0x33000010 0 = .ok (.bcrGet 16) ∧
  decode 0x401FFF0D 0 = .ok (.bcwPut 13 0x1FFF) ∧
  decode 0x51000102 0x8000 = .ok (.swbCopy 258 0x8000) ∧
  decode 0x60010101 0 = .ok (.hdtBuild 1 257) ∧
  decode 0x72000000 1 = .ok (.mfLongest 1) ∧
  decode 0x8A000001 0x00030002 = .ok (.tbStored 1 2 3) ∧
  decode 0x880005FF 0 = .ok (.tbSendAll 511 2 0)

/-- Every command, with every value its fields hold, is read back from the words that encode it: no bit is dropped. -/
def Obligations.DecodeOfEncode : Prop := ∀ i : Instr, decode (encode i).1 (encode i).2 = .ok i

/-- Every pair of words that decodes to a command is that command's encoding: each has one spelling. -/
def Obligations.EncodeOfDecode : Prop := ∀ (w0 w1 : Word) (i : Instr), decode w0 w1 = .ok i → encode i = (w0, w1)

/-! ## Reset -/

/-- R800: INF.RESET installs an inflate instance with every field at its reset value, whatever the state. -/
def Obligations.InfResetInstalls : Prop :=
  ∀ (wbits : BitVec 4) (hasDict : BitVec 1) (dictSum : Word) (s : State),
    8 ≤ wbits.toNat → (hasDict = 0 → dictSum = 0) →
    exec (.infReset wbits hasDict dictSum) s = .next
      { s with
        codec :=
          { regs := ⟨0, wbits.setWidth 32, 0, 0, hasDict.setWidth 32, dictSum, 0, 0, 0, 0, 0, 0, 0⟩
            err := none
            engine := .inflate
              { bc := ⟨0, 0, 0⟩
                sw := ⟨wbits.toNat, [], 0, 0, 0⟩
                ht := ⟨[], [], [], [], []⟩
                llRef := none
                dRef := none
                clRef := none
                mode := if hasDict = 1 then .needDict else .type
                sub := .sym
                last := false
                length := 0
                dist := 0
                extra := 0
                nlen := 0
                ndist := 0
                ncode := 0
                haveCount := 0
                cl := []
                lens := []
                hasDict := hasDict == 1
                dictSum := dictSum } }
        port := { s.port with output := [] } }

/-- R801, R671: DEF.RESET installs a deflate instance with every field at its reset value and the level's parameters,
whatever the state. -/
def Obligations.DefResetInstalls : Prop :=
  ∀ (wbits level : BitVec 4) (s : State), 9 ≤ wbits.toNat → level.toNat ≤ 9 →
    ∃ e : Deflate,
      exec (.defReset wbits level 0) s = .next
        { s with
          codec := ⟨⟨1, wbits.setWidth 32, level.setWidth 32, 0, 0, 0, 0, 0, 0, 0, 0, 0, 0⟩, none, .deflate e⟩
          port := { s.port with output := [] } } ∧
      e.dwbits = wbits.toNat ∧ e.level = level.toNat ∧
      [(0, 0, 0, 0, StrategyKind.stored), (4, 4, 8, 4, .fast), (4, 5, 16, 8, .fast), (4, 6, 32, 32, .fast),
        (4, 4, 16, 16, .slow), (8, 16, 32, 32, .slow), (8, 16, 128, 128, .slow), (8, 32, 128, 256, .slow),
        (32, 128, 258, 1024, .slow), (32, 258, 258, 4096, .slow)][level.toNat]? =
        some (e.goodMatch, e.maxLazy, e.niceMatch, e.maxChain, e.kind) ∧
      e.bw = ⟨0, 0⟩ ∧ e.pending = [] ∧ e.window = [] ∧ e.strstart = 0 ∧ e.lookahead = 0 ∧ e.blockStart = 0 ∧ e.insH = 0 ∧
      e.matchStart = 0 ∧ e.head = [] ∧ e.prev = [] ∧ e.matchLength = 2 ∧ e.prevLength = 2 ∧ e.prevMatch = 0 ∧
      e.matchAvailable = false ∧ e.lBuf = [] ∧ e.dBuf = [] ∧ e.lastLit = 0 ∧ e.matchCount = 0 ∧ e.status = .init ∧
      e.lastFlush = 0 ∧ e.finishReq = false ∧ e.ld = ⟨[(256, 1)], [], [], [], none⟩ ∧ e.dd = ⟨[], [], [], [], none⟩ ∧
      e.bd = ⟨[], [], [], [], none⟩ ∧ e.tb = ⟨[], none, none, [], []⟩ ∧ e.optLen = 0 ∧ e.staticLen = 0 ∧
      e.dictAllowed = true

/-- R804: a refused reset latches BAD_OPERAND and changes nothing else: the instance keeps its kind, its configuration
registers and every other field. That an inflate instance's tag is kept too (R804 beside R763 item 2) is the model's reading, log
entry 4, and that RESULT0 and RESULT1 are kept is log entry 5. -/
def Obligations.RefusedResetKeepsTheInstance : Prop :=
  (∀ (i : Instr) (s : State), owner i = .reset → i.wellFormed = false →
    raises i s (.stream .badOperand) 0x17 s.codec.engine s.port.input []) ∧
  (∀ (i : Instr) (s : State) (c : Command) (rest : List Command), s.queue = c :: rest → owner i = .reset →
    decode c.w0 c.w1 = .error (.reserved i) →
    step s = .next (after (s.present c rest) (some (.stream .badOperand)) 0x17 (s.codecAt c.target).regs.result0
      (s.codecAt c.target).regs.result1 (s.codecAt c.target).engine c.input []))

/-! ## bit_cursor_read -/

/-- R300..R303: NEED, PEEK, DROP and GET pull only the bytes they need and take their field from the low end of the
stream of bits. With too few bits they pull every byte, drop nothing and answer NeedMoreInput with results 0. -/
def Obligations.BitFieldsInStreamOrder : Prop :=
  ∀ (n : BitVec 5) (s : State) (d : Inflate), s.isInflate d → d.bc.Ok → n.toNat ≤ 16 →
    let got := s.port.input.take (pullCount d.bc n.toNat)
    let left := s.port.input.drop (pullCount d.bc n.toNat)
    let v := bitsOf d.bc s.port.input % 2 ^ n.toNat
    let starved := Engine.inflate { d with bc := cursorAfter d.bc s.port.input 0 }
    (n.toNat ≤ d.bc.bitCount + 8 * s.port.input.length →
      completes (.bcrNeed n) s 0 1 0 (.inflate { d with bc := cursorAfter d.bc got 0 }) left [] ∧
      completes (.bcrPeek n) s 0 v 0 (.inflate { d with bc := cursorAfter d.bc got 0 }) left [] ∧
      completes (.bcrDrop n) s 0 0 0 (.inflate { d with bc := cursorAfter d.bc got n.toNat }) left [] ∧
      completes (.bcrGet n) s 0 v 0 (.inflate { d with bc := cursorAfter d.bc got n.toNat }) left []) ∧
    (d.bc.bitCount + 8 * s.port.input.length < n.toNat →
      completes (.bcrNeed n) s 3 0 0 starved [] [] ∧ completes (.bcrPeek n) s 3 0 0 starved [] [] ∧
      completes (.bcrDrop n) s 3 0 0 starved [] [] ∧ completes (.bcrGet n) s 3 0 0 starved [] [])

/-- R304, R305: ALIGN drops the bits up to the next byte boundary; BYTE reads 8 bits, or answers NeedMoreInput. -/
def Obligations.AlignAndByte : Prop :=
  ∀ (s : State) (d : Inflate), s.isInflate d → d.bc.Ok →
    completes .bcrAlign s 0 (d.bc.bitCount % 8) 0
      (.inflate { d with bc := cursorAfter d.bc [] (d.bc.bitCount % 8) }) s.port.input [] ∧
    (8 ≤ d.bc.bitCount + 8 * s.port.input.length →
      completes .bcrByte s 0 (bitsOf d.bc s.port.input % 256) 1
        (.inflate { d with bc := cursorAfter d.bc (s.port.input.take (pullCount d.bc 8)) 8 })
        (s.port.input.drop (pullCount d.bc 8)) []) ∧
    (d.bc.bitCount + 8 * s.port.input.length < 8 →
      completes .bcrByte s 3 0 0 (.inflate { d with bc := cursorAfter d.bc s.port.input 0 }) [] [])

/-! ## bit_cursor_write -/

/-- R340: PUT appends its field above the bits held; 16 bits that are exceeded leave as two bytes, low byte first. -/
def Obligations.PutAppendsField : Prop :=
  ∀ (n : BitVec 5) (value : Half) (s : State) (d : Deflate), s.isDeflate d → writerOk d → 1 ≤ n.toNat → n.toNat ≤ 16 →
    value.toNat < 2 ^ n.toNat → d.pending.length + 2 ≤ 65536 →
    let v := d.bw.biBuf.toNat + 2 ^ d.bw.biValid * value.toNat
    completes (.bcwPut n value) s 0 0 0
      (.deflate
        (if d.bw.biValid + n.toNat ≤ 16 then { d with bw := ⟨BitVec.ofNat 16 v, d.bw.biValid + n.toNat⟩ }
         else
          { d with
            bw := ⟨BitVec.ofNat 16 (v / 65536), d.bw.biValid + n.toNat - 16⟩
            pending := d.pending ++ bytesOf v 2 }))
      s.port.input []

/-- R341, R342, R340: PUTBYTE and PUTSHORT append their bytes to the FIFO past the bit buffer; a full FIFO is the model
fault IndexFault. -/
def Obligations.PutBytesAppend : Prop :=
  ∀ (b : Byte) (w : Half) (s : State) (d : Deflate), s.isDeflate d →
    (d.pending.length < 65536 →
      completes (.bcwPutByte b) s 0 0 0 (.deflate { d with pending := d.pending ++ [b] }) s.port.input []) ∧
    (d.pending.length + 2 ≤ 65536 →
      completes (.bcwPutShort w) s 0 0 0 (.deflate { d with pending := d.pending ++ bytesOf w.toNat 2 }) s.port.input []) ∧
    (65536 ≤ d.pending.length → exec (.bcwPutByte b) s = .fault (.indexFault .pending 65536)) ∧
    (65535 ≤ d.pending.length → exec (.bcwPutShort w) s = .fault (.indexFault .pending 65536))

/-- R344, R345: WINDUP pads to a byte boundary with zero bits; FLUSH moves only whole bytes. -/
def Obligations.WindupAndFlush : Prop :=
  ∀ (s : State) (d : Deflate), s.isDeflate d → writerOk d → d.pending.length + 2 ≤ 65536 →
    completes .bcwWindup s 0 0 0
      (.deflate
        { d with bw := ⟨0, 0⟩, pending := d.pending ++ bytesOf d.bw.biBuf.toNat ((d.bw.biValid + 7) / 8) })
      s.port.input [] ∧
    completes .bcwFlush s 0 0 0
      (.deflate
        { d with
          bw := ⟨BitVec.ofNat 16 (d.bw.biBuf.toNat / 2 ^ (8 * (d.bw.biValid / 8))), d.bw.biValid % 8⟩
          pending := d.pending ++ bytesOf d.bw.biBuf.toNat (d.bw.biValid / 8) })
      s.port.input []

/-- R350: DRAIN moves bytes from the head of the FIFO to the output, in order. -/
def Obligations.DrainMovesPendingBytes : Prop :=
  ∀ (s : State) (d : Deflate), s.isDeflate d →
    completes .bcwDrain s (if d.pending.length ≤ s.port.space then 0 else 4) (min d.pending.length s.port.space) 0
      (.deflate { d with pending := d.pending.drop s.port.space }) s.port.input (d.pending.take s.port.space)

/-! ## sliding_window_buffer, decoder -/

/-- R380, R384: PUT writes one byte where there is room; DRAIN delivers the oldest undelivered bytes in order. -/
def Obligations.WindowPutAndDrain : Prop :=
  ∀ (b : Byte) (s : State) (d : Inflate), s.isInflate d → d.sw.Ok →
    let cap := 2 ^ d.sw.wbits
    (d.sw.undelivered < cap →
      ∃ buffer, (∀ k, Memory.read buffer k = if k = d.sw.writeCursor then b else Memory.read d.sw.buffer k) ∧
        completes (.swbPut b) s 0 1 0
          (.inflate
            { d with
              sw :=
                ⟨d.sw.wbits, buffer, (d.sw.writeCursor + 1) % cap, d.sw.undelivered + 1, min cap (d.sw.whave + 1)⟩ })
          s.port.input []) ∧
    (d.sw.undelivered = cap → completes (.swbPut b) s 4 0 0 (.inflate d) s.port.input []) ∧
    (let n := min d.sw.undelivered s.port.space
     completes .swbDrain s (if n < d.sw.undelivered then 4 else 0) n 0
      (.inflate { d with sw := { d.sw with undelivered := d.sw.undelivered - n } }) s.port.input
      ((List.range n).map fun i =>
        Memory.read d.sw.buffer ((d.sw.writeCursor + cap - d.sw.undelivered + i) % cap)))

/-- R382: COPY copies bytes from `dist` back, each after the one before it is written, so an overlapping copy repeats; it
stops at a full window, and a distance of 0 or beyond the history copies nothing. -/
def Obligations.WindowCopyRepeatsHistory : Prop :=
  ∀ (len : BitVec 9) (dist : Word) (s : State) (d : Inflate), s.isInflate d → d.sw.Ok → 3 ≤ len.toNat → len.toNat ≤ 258 →
    dist.toNat ≤ 32768 →
    let cap := 2 ^ d.sw.wbits
    let n := min len.toNat (cap - d.sw.undelivered)
    (dist.toNat = 0 ∨ d.sw.whave < dist.toNat → completes (.swbCopy len dist) s 0 0 1 (.inflate d) s.port.input []) ∧
    (1 ≤ dist.toNat → dist.toNat ≤ d.sw.whave →
      ∃ buffer,
        (∀ i < n, Memory.read buffer ((d.sw.writeCursor + i) % cap) =
          if i < dist.toNat then Memory.read d.sw.buffer ((d.sw.writeCursor + cap - dist.toNat + i) % cap)
          else Memory.read buffer ((d.sw.writeCursor + (i - dist.toNat)) % cap)) ∧
        (∀ k, (∀ i < n, k ≠ (d.sw.writeCursor + i) % cap) → Memory.read buffer k = Memory.read d.sw.buffer k) ∧
        completes (.swbCopy len dist) s (if n < len.toNat then 4 else 0) n 0
          (.inflate
            { d with
              sw :=
                ⟨d.sw.wbits, buffer, (d.sw.writeCursor + n) % cap, d.sw.undelivered + n, min cap (d.sw.whave + n)⟩ })
          s.port.input [])

/-- R386: SEED installs the last bytes of its slice as history and consumes the whole slice; it is refused while bytes
are undelivered. -/
def Obligations.WindowSeedInstallsHistory : Prop :=
  ∀ (s : State) (d : Inflate), s.isInflate d → d.sw.Ok →
    let cap := 2 ^ d.sw.wbits
    let k := min s.port.input.length cap
    (d.sw.undelivered = 0 →
      ∃ buffer,
        (∀ i < k, Memory.read buffer ((d.sw.writeCursor + i) % cap) =
          s.port.input.getD (s.port.input.length - k + i) 0) ∧
        (∀ j, (∀ i < k, j ≠ (d.sw.writeCursor + i) % cap) → Memory.read buffer j = Memory.read d.sw.buffer j) ∧
        completes .swbSeed s 0 k 0
          (.inflate
            { d with sw := ⟨d.sw.wbits, buffer, (d.sw.writeCursor + k) % cap, 0, min cap (d.sw.whave + k)⟩ })
          [] []) ∧
    (d.sw.undelivered ≠ 0 →
      raises .swbSeed s (.stream .badOperand) 0x17 (.inflate { d with mode := .error }) s.port.input [])

/-! ## huffman_decode_table_builder and canonical_huffman_decoder -/

/-- R420, R422, R423, R426, R431: what HDT.BUILD answers for every set but a complete one. A short slice or a length above 15
is refused. A set whose Kraft sum is above 1 is oversubscribed; one whose sum is below 1 is incomplete, and refused but for
one code of length 1 in the literal/length or distance alphabet; both leave the reference NONE. That such a refused build
writes the counts of R421 and leaves the other scratch and the arena as they were is the model's reading (log entry 18). The
empty set gets the all-invalid table of two entries. The set of one code of length 1 is accepted with RESULT0 = 4: its table
of two entries holds the symbol at the index 0 and an invalid entry at 1. -/
def Obligations.BuildJudgesTheSet : Prop :=
  ∀ (kind : BitVec 2) (n : BitVec 9) (s : State) (d : Inflate), s.isInflate d → (Instr.hdtBuild kind n).wellFormed = true →
    let lens := (s.port.input.take n.toNat).map BitVec.toNat
    let k := codeKindOf kind
    let left := s.port.input.drop n.toNat
    let counts : Cells Nat := (List.range 16).map fun l => (l, (lens.filter fun x => x == l).length)
    ((s.port.input.length < n.toNat ∨ ∃ l ∈ lens, 15 < l) →
      raises (.hdtBuild kind n) s (.stream .badOperand) 0x17 (.inflate { d with mode := .error }) s.port.input []) ∧
    (n.toNat ≤ s.port.input.length → (∀ l ∈ lens, l ≤ 15) →
      (2 ^ 15 < kraft lens →
        completes (.hdtBuild kind n) s 0 2 0
          (.inflate (Inflate.setRef { d with ht := { d.ht with count := counts } } k none)) left []) ∧
      (0 < kraft lens → kraft lens < 2 ^ 15 → (k = .codes ∨ ∃ l ∈ lens, 2 ≤ l) →
        completes (.hdtBuild kind n) s 0 3 0
          (.inflate (Inflate.setRef { d with ht := { d.ht with count := counts } } k none)) left []) ∧
      (kraft lens = 0 →
        ∃ arena,
          (∀ i, Cells.find? arena i =
            if i = k.base ∨ i = k.base + 1 then some ⟨.invalid, 1, 0⟩ else Cells.find? (d.ht.arenaOf k) i) ∧
          completes (.hdtBuild kind n) s 0 1 1
            (.inflate (Inflate.setRef { d with ht := { d.ht with count := counts }.setArena k arena } k (some (k.ref 1))))
            left []) ∧
      (0 < kraft lens → kraft lens < 2 ^ 15 → k ≠ .codes → (∀ l ∈ lens, l ≤ 1) →
        ∃ (sym : Nat) (ht : DecodeTables), sym < n.toNat ∧ lens.getD sym 0 = 1 ∧ ht.clArena = d.ht.clArena ∧
          (∀ i, Cells.find? ht.arena i =
            if i = k.base then some (symbolEntry k sym 1)
            else if i = k.base + 1 then some ⟨.invalid, 1, 0⟩ else Cells.find? d.ht.arena i) ∧
          completes (.hdtBuild kind n) s 0 4 1 (.inflate (Inflate.setRef { d with ht := ht } k (some (k.ref 1)))) left []))

/-- R420, R425, R426, R260: a complete set is accepted, and its table holds the canonical codes: the entry of each code that
fits the root width at every index whose bits start with it, and the longer codes in sub-tables that links lead to. Where the
longest code fits the root width the build always answers; for longer ones the statement is about every build that answers
(that ENOUGH entries hold every set of R76 is not claimed). Below the table's start the arena, and the other arena, are as they
were; so are the entries past a table without sub-tables. -/
def Obligations.BuildLaysOutCanonicalCodes : Prop :=
  ∀ (kind : BitVec 2) (n : BitVec 9) (s : State) (d : Inflate), s.isInflate d → (Instr.hdtBuild kind n).wellFormed = true →
    n.toNat ≤ s.port.input.length → (∀ b ∈ s.port.input.take n.toNat, b.toNat ≤ 15) →
    let lens := (s.port.input.take n.toNat).map BitVec.toNat
    let k := codeKindOf kind
    let root := min k.rootReq (lens.foldr max 0)
    let built : DecodeTables → Prop := fun ht =>
      laidOut ht (k.ref root) k lens ∧
      (∀ i < k.base, Cells.find? (ht.arenaOf k) i = Cells.find? (d.ht.arenaOf k) i) ∧
      (if k = .codes then ht.arena = d.ht.arena else ht.clArena = d.ht.clArena) ∧
      completes (.hdtBuild kind n) s 0 0 root (.inflate (Inflate.setRef { d with ht := ht } k (some (k.ref root))))
        (s.port.input.drop n.toNat) []
    kraft lens = 2 ^ 15 →
    ((∀ l ∈ lens, l ≤ k.rootReq) →
      ∃ ht, built ht ∧
        ∀ i, k.base + 2 ^ root ≤ i → Cells.find? (ht.arenaOf k) i = Cells.find? (d.ht.arenaOf k) i) ∧
    (answers (exec (.hdtBuild kind n) s) → ∃ ht, built ht)

/-- R440: HDT.FIXED installs the fixed tables, which are what the builder makes of the fixed lengths of R262 and of 32
lengths of 5. -/
def Obligations.FixedTablesInstalled : Prop :=
  (∀ (s : State) (d : Inflate), s.isInflate d →
    completes .hdtFixed s 0 0 0
      (.inflate { d with llRef := some ⟨.fixedLL, 0, 9⟩, dRef := some ⟨.fixedD, 0, 5⟩ }) s.port.input []) ∧
  (∃ table counts, buildEntries .dists (List.replicate 32 5) .fixedD 32 5 0 [] = .ok (table, counts) ∧
    ∀ i < 32, Cells.find? table i = some (fixedDEntry i)) ∧
  (∃ table counts, buildEntries .lens fixedLLLens .fixedLL 512 9 0 [] = .ok (table, counts) ∧
    ∀ i < 512, Cells.find? table i = some (fixedLLEntry i))

/-- R430, R431, R208, R76: HDT.DECODE finds the entry of the stream's next bits, pulls only the bytes its code needs and
drops the code; an invalid entry drops nothing of its own. It reads through the fixed tables, through a table that holds
the canonical codes of a set (links and sub-tables among it), and through a table of two one-bit entries (the empty set's, the
one-code set's). It answers NeedMoreInput, with every byte pulled, while the code is not complete. Through a reference that is
NONE it is refused. -/
def Obligations.DecodeReadsOneCode : Prop :=
  ∀ (table : BitVec 2) (s : State) (d : Inflate), s.isInflate d → d.bc.Ok → table.toNat ≤ 2 →
    let v := bitsOf d.bc s.port.input
    let ref := d.refOf (codeKindOf table)
    let dropped : Entry → Nat := fun e => if e.op = .invalid then 0 else e.bits
    (table = 1 → ref = some ⟨.fixedLL, 0, 9⟩ →
      let e := fixedLLEntry (v % 512)
      readsEntry table s d e e.bits (dropped e)) ∧
    (table = 2 → ref = some ⟨.fixedD, 0, 5⟩ →
      let e := fixedDEntry (v % 32)
      readsEntry table s d e e.bits (dropped e)) ∧
    (∀ (r : TableRef) (k : CodeKind) (lens : List Nat) (sym : Nat), ref = some r → laidOut d.ht r k lens →
      (∀ l ∈ lens, l ≤ 15) → startsWith lens sym v →
      let l := lens.getD sym 0
      let e := symbolEntry k sym l
      readsEntry table s d e l (if e.op ≠ .invalid then l else if l ≤ r.root then 0 else r.root)) ∧
    (∀ (r : TableRef) (e : Nat → Entry), ref = some r → r.root = 1 →
      (∀ i < 2, d.ht.entry r.store (r.start + i) = .ok (e i) ∧ (e i).bits = 1 ∧ ∀ w, (e i).op ≠ .link w) →
      readsEntry table s d (e (v % 2)) 1 (dropped (e (v % 2)))) ∧
    (ref = none →
      raises (.hdtDecode table) s (.stream .badOperand) 0x17 (.inflate { d with mode := .error }) s.port.input [])

/-! ## deflate_decoder -/

/-- R470, R530: INF.STEP in DONE answers StreamEnd, and in NEED_DICT NeedDictionary; neither consumes or changes
anything. -/
def Obligations.FinishedAndWaitingDecoders : Prop :=
  ∀ (s : State) (d : Inflate), s.isInflate d →
    (d.mode = .done → completes .infStep s 1 0 0 (.inflate d) s.port.input []) ∧
    (d.mode = .needDict → completes .infStep s 2 0 0 (.inflate d) s.port.input [])

/-- R480 to R483, R500, R502: a decoder at a byte boundary before a block header, given stored blocks of which only the last is
final and at least as much output space, decodes them to exactly their bytes, ends the stream and leaves what follows
unconsumed; given only blocks that are not final, it delivers their bytes and waits for the next header. R470, R472, R766: a
stored block that runs out of input or of output space before its end is copied as far as both go, the window holding what is
not delivered; the answer is Ok where a byte was copied or delivered, else NeedMoreOutput where the window is full and
NeedMoreInput where it is not, with nothing changed (that the results keep their values there is log entry 5). -/
def Obligations.StoredStreamDecodes : Prop :=
  (∀ (s : State) (d : Inflate) (blocks : List (Byte × List Byte)) (final : Byte) (bytes rest : List Byte), s.isInflate d →
    d.sw.Ok → d.mode = .type → d.bc.bitBuffer = 0 → d.bc.bitCount = 0 → d.sw.undelivered = 0 →
    (∀ b ∈ blocks, b.1.toNat % 8 = 0 ∧ b.2.length ≤ 65535) → final.toNat % 8 = 1 → bytes.length ≤ 65535 →
    let x := blocks.flatMap Prod.snd ++ bytes
    x.length ≤ s.port.space →
    s.port.input = blocks.flatMap (fun b => storedBytes b.1 b.2) ++ storedBytes final bytes ++ rest →
    let cap := 2 ^ d.sw.wbits
    let k := min x.length cap
    ∃ buffer,
      (∀ i < k, Memory.read buffer ((d.sw.writeCursor + x.length - k + i) % cap) = x.getD (x.length - k + i) 0) ∧
      (∀ j, (∀ i < k, j ≠ (d.sw.writeCursor + x.length - k + i) % cap) →
        Memory.read buffer j = Memory.read d.sw.buffer j) ∧
      completes .infStep s 1 0 0
        (.inflate
          { d with
            mode := .done
            last := true
            length := 0
            bc := ⟨0, 0, d.bc.bytePosition + 5 * (blocks.length + 1) + x.length⟩
            sw := ⟨d.sw.wbits, buffer, (d.sw.writeCursor + x.length) % cap, 0, min cap (d.sw.whave + x.length)⟩ })
        rest x) ∧
  (∀ (s : State) (d : Inflate) (blocks : List (Byte × List Byte)), s.isInflate d → d.sw.Ok → d.mode = .type →
    d.bc.bitBuffer = 0 → d.bc.bitCount = 0 → d.sw.undelivered = 0 → blocks ≠ [] →
    (∀ b ∈ blocks, b.1.toNat % 8 = 0 ∧ b.2.length ≤ 65535) →
    let x := blocks.flatMap Prod.snd
    x.length ≤ s.port.space → s.port.input = blocks.flatMap (fun b => storedBytes b.1 b.2) →
    ∃ sw, delivers d.sw sw x ∧ sw.wbits = d.sw.wbits ∧
      completes .infStep s 0 0 0
        (.inflate
          { d with last := false, length := 0, bc := ⟨0, 0, d.bc.bytePosition + s.port.input.length⟩, sw := sw }) [] x) ∧
  (∀ (s : State) (d : Inflate), s.isInflate d → d.sw.Ok → d.mode = .storedCopy → d.bc.bitBuffer = 0 → d.bc.bitCount = 0 →
    let cap := 2 ^ d.sw.wbits
    let held := d.sw.undelivered
    let n := min s.port.input.length (cap + s.port.space - held)
    let out := ((historyOf d.sw).drop (d.sw.whave - held) ++ s.port.input.take n).take s.port.space
    let k := min n cap
    n < d.length →
    (n + out.length = 0 →
      exec .infStep s = .next (after s none (if held = cap then 4 else 3) s.codec.regs.result0 s.codec.regs.result1
        (.inflate d) s.port.input [])) ∧
    (n + out.length ≠ 0 →
      ∃ buffer,
        (∀ i < k, Memory.read buffer ((d.sw.writeCursor + n - k + i) % cap) = s.port.input.getD (n - k + i) 0) ∧
        (∀ j, (∀ i < k, j ≠ (d.sw.writeCursor + n - k + i) % cap) → Memory.read buffer j = Memory.read d.sw.buffer j) ∧
        completes .infStep s 0 0 0
          (.inflate
            { d with
              length := d.length - n
              bc := ⟨0, 0, d.bc.bytePosition + n⟩
              sw :=
                ⟨d.sw.wbits, buffer, (d.sw.writeCursor + n) % cap, held + n - out.length, min cap (d.sw.whave + n)⟩ })
          (s.port.input.drop n) out))

/-- R480 to R494, R776: INF.STEP on a block header. Type 3 raises BAD_BLOCK_TYPE; a stored block whose length and complement
disagree, STORED_LEN_MISMATCH; a dynamic block that declares too many symbols, TOO_MANY_SYMBOLS; one whose code-length code is
not complete, BAD_CODELEN_SET; one whose code lengths, read by that code and the runs of R488 and R490, start with symbol 16 or
repeat past the number declared, BAD_REPEAT; one without a code for symbol 256, MISSING_EOB; and one with a set of codes that
R422 does not accept, BAD_LITLEN_SET or BAD_DIST_SET. Each is raised with the bits that decide it pulled and, but for the extra
bits of a first symbol 16, dropped (the results of an engine command that raises are 0 by the model's reading, log entry 5). A
dynamic block that declares acceptable sets is read: its tokens by the canonical codes of its lengths; where it is not final, the
next header follows (R500). Where a code is longer than its root width the statement is about every such step that answers (the
bound ENOUGH of R76 is not claimed). -/
def Obligations.BlockHeadersAreRead : Prop :=
  ∀ (s : State) (d : Inflate), s.isInflate d → d.bc.Ok → d.sw.Ok → d.mode = .type → d.sw.undelivered = 0 →
    let v := bitsOf d.bc s.port.input
    let avail := d.bc.bitCount + 8 * s.port.input.length
    let read : Nat → BitCursor := fun n => cursorAfter d.bc (s.port.input.take (pullCount d.bc n)) n
    let left : Nat → List Byte := fun n => s.port.input.drop (pullCount d.bc n)
    (3 ≤ avail → v / 2 % 4 = 3 →
      fails .infStep s (.data .badBlockType) 0x16
        (.inflate { d with mode := .error, last := v % 2 == 1, bc := read 3 }) (left 3) []) ∧
    (∀ last pad len nlen : Nat,
      last < 2 → pad < 2 ^ ((d.bc.bitCount + 5) % 8) → len < 65536 → nlen < 65536 → len + nlen ≠ 65535 →
      let fields := [(last, 3), (pad, (d.bc.bitCount + 5) % 8), (len, 16), (nlen, 16)]
      streams d s fields → rejects s d .storedLenMismatch fields 0 []) ∧
    (17 ≤ avail → v / 2 % 4 = 2 → (286 < v / 8 % 32 + 257 ∨ 30 < v / 256 % 32 + 1) →
      fails .infStep s (.data .tooManySymbols) 0x36
        (.inflate
          { d with
            mode := .error
            last := v % 2 == 1
            nlen := v / 8 % 32 + 257
            ndist := v / 256 % 32 + 1
            ncode := v / 8192 % 16 + 4
            bc := read 17 })
        (left 17) []) ∧
    (∀ (last nlen ndist ncode : Nat) (bl : List Nat),
      last < 2 → 257 ≤ nlen → nlen ≤ 286 → 1 ≤ ndist → ndist ≤ 30 → 4 ≤ ncode → ncode ≤ 19 → bl.length = 19 →
      (∀ k ∈ blOrder.drop ncode, bl.getD k 0 = 0) → (∀ l ∈ bl, l ≤ 7) →
      let header :=
        [(4 + last, 3), (nlen - 257, 5), (ndist - 1, 5), (ncode - 4, 4)] ++
          (blOrder.take ncode).map fun k => (bl.getD k 0, 3)
      (kraft bl ≠ 2 ^ 15 → streams d s header → rejects s d .badCodelenSet header 0 []) ∧
      (∀ (rs : List Run) (lens : List Nat),
        kraft bl = 2 ^ 15 → decodeRuns none rs = some lens → (∀ c ∈ rs.flatMap runSymbols, coded bl c) →
        let declared := header ++ rs.flatMap (runFields (canonicalField bl))
        (∀ sym x : Nat, lens.length < nlen + ndist → 16 ≤ sym → sym ≤ 18 → coded bl sym → x < 2 ^ tableAt blExtra sym →
          (sym = 16 ∧ lens = []) ∨ nlen + ndist < lens.length + x + (if sym = 18 then 11 else 3) →
          let fields := declared ++ [canonicalField bl sym, (x, tableAt blExtra sym)]
          streams d s fields → rejects s d .badRepeat fields (if sym = 16 ∧ lens = [] then 2 else 0) []) ∧
        (lens.length = nlen + ndist →
          let ll := lens.take nlen
          let dd := lens.drop nlen
          (¬ coded ll 256 → streams d s declared → rejects s d .missingEob declared 0 []) ∧
          (coded ll 256 → ¬ acceptable ll → streams d s declared → rejects s d .badLitlenSet declared 0 []) ∧
          (coded ll 256 → acceptable ll → ¬ acceptable dd → streams d s declared →
            ((∀ l ∈ ll, l ≤ 9) ∨ answers (exec .infStep s)) → rejects s d .badDistSet declared 0 []) ∧
          (∀ toks : List (Nat × Nat), coded ll 256 → acceptable ll → acceptable dd →
            (∀ t ∈ toks, tokenCoded ll dd t) → replayable (2 ^ d.sw.wbits) d.sw.whave toks →
            (replay (historyOf d.sw) toks).length - d.sw.whave ≤ s.port.space →
            (((∀ l ∈ ll, l ≤ 9) ∧ ∀ l ∈ dd, l ≤ 6) ∨ answers (exec .infStep s)) →
            blockEnds s d (last == 1) (declared ++ bodyFields (canonicalField ll) (canonicalField dd) toks) toks))))

/-- R532, R7: INF.SETDICT outside NEED_DICT is refused; in it, the slice is consumed, and then a wrong checksum is a DataError
and a right one installs the bytes as history. The two sums of the checksum are log entry 16 (R7 gives them from general
knowledge). That history is installed even where bytes are undelivered is the model's choice (log entry 22), and that the two raises of this engine
command write 0 to the results is its reading of R212 (log entry 5). -/
def Obligations.SetDictChecksTheSum : Prop :=
  ∀ (s : State) (d : Inflate), s.isInflate d → d.sw.Ok →
    let cap := 2 ^ d.sw.wbits
    let k := min s.port.input.length cap
    (d.mode ≠ .needDict →
      fails .infSetDict s (.stream .dictNotAllowed) 0x47 (.inflate { d with mode := .error }) s.port.input []) ∧
    (d.mode = .needDict → d.dictSum.toNat ≠ adlerB s.port.input * 65536 + adlerA s.port.input →
      fails .infSetDict s (.data .dictMismatch) 0xC6 (.inflate { d with mode := .error }) [] []) ∧
    (d.mode = .needDict → d.dictSum.toNat = adlerB s.port.input * 65536 + adlerA s.port.input →
      ∃ buffer,
        (∀ i < k, Memory.read buffer ((d.sw.writeCursor + i) % cap) = s.port.input.getD (s.port.input.length - k + i) 0) ∧
        (∀ j, (∀ i < k, j ≠ (d.sw.writeCursor + i) % cap) → Memory.read buffer j = Memory.read d.sw.buffer j) ∧
        completes .infSetDict s 0 0 0
          (.inflate
            { d with
              mode := .type
              sw := ⟨d.sw.wbits, buffer, (d.sw.writeCursor + k) % cap, d.sw.undelivered, min cap (d.sw.whave + k)⟩ })
          [] [])

/-! ## lz77_match_finder -/

/-- R560: HASHINIT primes the rolling hash with the two bytes at the position. -/
def Obligations.HashInitPrimesTheHash : Prop :=
  ∀ (s : State) (d : Deflate), s.isDeflate d → d.strstart + 1 < 2 * 2 ^ d.dwbits →
    let h := hash2 (Memory.read d.window d.strstart) (Memory.read d.window (d.strstart + 1))
    completes .mfHashInit s 0 h.toNat 0 (.deflate { d with insH := h }) s.port.input []

/-- R561: INSERT answers the head of the string's chain, puts the position at its head and links the old head behind it;
a position past WINDOW_SIZE - 3 is refused. That it runs from whatever `insH` holds, R561's precondition on it unchecked, is the
model's choice (log entry 25). -/
def Obligations.InsertLinksTheChain : Prop :=
  ∀ (pos : Word) (s : State) (d : Deflate), s.isDeflate d → d.Ok →
    (pos.toNat + 3 ≤ 2 * 2 ^ d.dwbits →
      let h : Hash := (d.insH <<< 5) ^^^ (Memory.read d.window (pos.toNat + 2)).setWidth 15
      let old := Cells.read 0 d.head h.toNat
      ∃ head prev,
        (∀ k, Cells.read 0 head k = if k = h.toNat then BitVec.ofNat 16 pos.toNat else Cells.read 0 d.head k) ∧
        (∀ k, Cells.read 0 prev k = if k = pos.toNat % 2 ^ d.dwbits then old else Cells.read 0 d.prev k) ∧
        completes (.mfInsert pos) s 0 old.toNat 0 (.deflate { d with insH := h, head := head, prev := prev })
          s.port.input []) ∧
    (2 * 2 ^ d.dwbits < pos.toNat + 3 →
      raises (.mfInsert pos) s (.stream .badOperand) 0x17 (.deflate d) s.port.input [])

/-- R565, R566: LONGEST answers a length of at most `lookahead`. It is the length searched from (`prevLength`), with
`matchStart` as it was, unless a longer match was found; then the bytes at `matchStart` equal those at `strstart` at
every offset below the length but offset 2, which the rule does not compare. A first candidate that agrees at every compared
offset below `n`, where `n` is above `prevLength` and 1, gives a length of at least `n`, clipped to `lookahead`. Nothing but
`matchStart` changes. The bound on `niceMatch` is in the invariant (`Deflate.Ok`, which StepKeepsInvariant keeps); where the chain
budget may be 0 (level 0) the chain must fall, or the rule's loop need not end (log entry 9). That a `curMatch` of 0, or one
farther than MAX_DIST back, is searched like any other, and that one at or past `strstart` is refused, is the model's choice (log
entry 6). -/
def Obligations.LongestFindsTrueMatches : Prop :=
  ∀ (curMatch : Word) (s : State) (d : Deflate), s.isDeflate d →
    (curMatch.toNat < d.strstart → d.niceMatch ≤ 258 →
      d.strstart + max 258 (d.prevLength + 1) ≤ 2 * 2 ^ d.dwbits → d.prevLength ≤ 258 → 1 ≤ d.prevLength + curMatch.toNat →
      (∀ k, (Cells.read 0 d.prev k).toNat ≤ d.strstart) →
      (4 ≤ d.maxChain ∨ ∀ m, 0 < m → m ≤ d.strstart → (Cells.read 0 d.prev (m % 2 ^ d.dwbits)).toNat < m) →
      let same : Int → Prop := fun j =>
        Memory.read d.window (curMatch.toNat + j).toNat = Memory.read d.window (d.strstart + j).toNat
      ∃ (length : Nat) (start : Int),
        completes (.mfLongest curMatch) s 0 length (wordOfInt start).toNat (.deflate { d with matchStart := start })
          s.port.input [] ∧
        length ≤ d.lookahead ∧ min d.prevLength d.lookahead ≤ length ∧ length ≤ 258 ∧
        ((start = d.matchStart ∧ length = min d.prevLength d.lookahead) ∨
          ∃ (m n : Nat), start = (m : Int) ∧ m ≤ d.strstart ∧ d.prevLength < n ∧ length = min n d.lookahead ∧
            ∀ j < n, j ≠ 2 → Memory.read d.window (m + j) = Memory.read d.window (d.strstart + j)) ∧
        ∀ n : Nat, max 1 d.prevLength < n → n ≤ 258 → same ((d.prevLength : Int) - 1) → same d.prevLength →
          (∀ j : Nat, j < n → j ≠ 2 → same j) → min n d.lookahead ≤ length) ∧
    (d.strstart ≤ curMatch.toNat →
      raises (.mfLongest curMatch) s (.stream .badOperand) 0x17 (.deflate d) s.port.input [])

/-! ## sliding_window_buffer, encoder -/

/-- R392, R552: SLIDE moves the upper half of the window down, keeps the upper half, and rebases every position by
W_SIZE, a chain position below W_SIZE becoming 0; before `strstart` reaches W_SIZE it is refused. -/
def Obligations.SlideRebasesEverything : Prop :=
  ∀ (s : State) (d : Deflate), s.isDeflate d → d.Ok →
    let w := 2 ^ d.dwbits
    let down : Half → Half := fun v => BitVec.ofNat 16 (v.toNat - w)
    (w ≤ d.strstart →
      ∃ window head prev,
        (∀ i, Memory.read window i = if i < w then Memory.read d.window (i + w) else Memory.read d.window i) ∧
        (∀ k, Cells.read 0 head k = down (Cells.read 0 d.head k)) ∧
        (∀ k, Cells.read 0 prev k = down (Cells.read 0 d.prev k)) ∧
        completes .swbSlide s 0 0 0
          (.deflate
            { d with
              window := window
              head := head
              prev := prev
              strstart := d.strstart - w
              matchStart := d.matchStart - w
              blockStart := d.blockStart - w })
          s.port.input []) ∧
    (d.strstart < w → raises .swbSlide s (.stream .badOperand) 0x17 (.deflate d) s.port.input [])

/-- R390, R391: FILL copies input to the end of the lookahead until the window is full, and primes the rolling hash once
there are 3 bytes. Where the position has come within MIN_LOOKAHEAD of the window's end, it first does what SLIDE does. -/
def Obligations.FillReadsInput : Prop :=
  ∀ (s : State) (d : Deflate), s.isDeflate d → d.Ok →
    let size := 2 * 2 ^ d.dwbits
    let n := min s.port.input.length (size - d.strstart - d.lookahead)
    d.strstart + d.lookahead ≤ size →
    (d.strstart + 262 < size →
      ∃ window,
        (∀ i, Memory.read window i =
          if d.strstart + d.lookahead ≤ i ∧ i < d.strstart + d.lookahead + n then
            s.port.input.getD (i - (d.strstart + d.lookahead)) 0
          else Memory.read d.window i) ∧
        completes .swbFill s 0 n 0
          (.deflate
            { d with
              window := window
              lookahead := d.lookahead + n
              insH :=
                if 0 < s.port.input.length ∧ 3 ≤ d.lookahead + n then
                  hash2 (Memory.read window d.strstart) (Memory.read window (d.strstart + 1))
                else d.insH })
          (s.port.input.drop n) []) ∧
    (size ≤ d.strstart + 262 →
      ∃ slid : Deflate,
        completes .swbSlide s 0 0 0 (.deflate slid) s.port.input [] ∧
        exec .swbFill s = exec .swbFill { s with codec := { s.codec with engine := .deflate slid } })

/-- R394, R740: DSEED keeps the last MAX_DIST bytes of its slice at the start of the window as history, primes the
rolling hash with the last three of them, inserts the string at every position from 0 to the third last in its chain, and
consumes the whole slice; fewer than 3 bytes are ignored; it is refused once the window is in use. DEF.SETDICT does the
same, answers no result and closes the time for a dictionary; after that it is refused, with results 0 by the model's reading
of R212 (log entry 5). -/
def Obligations.DictionariesSeedTheWindow : Prop :=
  ∀ (s : State) (d : Deflate), s.isDeflate d → d.Ok →
    let n := s.port.input.length
    let k := min n (2 ^ d.dwbits - 262)
    (d.strstart = 0 → d.lookahead = 0 →
      ∃ (kept : Nat) (e : Deflate),
        completes .swbDseed s 0 kept 0 (.deflate e) [] [] ∧
        (d.dictAllowed = true → completes .defSetDict s 0 0 0 (.deflate { e with dictAllowed := false }) [] []) ∧
        (n < 3 → kept = 0 ∧ e = d) ∧
        (3 ≤ n → kept = k ∧
          ∃ window head prev,
            (∀ i, Memory.read window i = if i < k then s.port.input.getD (n - k + i) 0 else Memory.read d.window i) ∧
            (∀ h : Hash, Cells.read 0 head h.toNat = chainHead window (k - 2) h (Cells.read 0 d.head h.toNat)) ∧
            (∀ j, 32768 ≤ j → Cells.read 0 head j = Cells.read 0 d.head j) ∧
            (∀ i, Cells.read 0 prev i =
              if i < k - 2 then chainHead window i (hash3 window i) (Cells.read 0 d.head (hash3 window i).toNat)
              else Cells.read 0 d.prev i) ∧
            e =
              { d with
                window := window
                head := head
                prev := prev
                strstart := k
                blockStart := k
                insH := hash3 window (k - 3) })) ∧
    (d.strstart ≠ 0 ∨ d.lookahead ≠ 0 →
      raises .swbDseed s (.stream .badOperand) 0x17 (.deflate d) s.port.input []) ∧
    (d.dictAllowed = false → fails .defSetDict s (.stream .dictNotAllowed) 0x47 (.deflate d) s.port.input [])

/-! ## huffman_encode_tree_builder and block emission -/

/-- R606: INITBLOCK clears the leaf frequencies but END_BLOCK's, which becomes 1, the two costs and the tokens; the other
frequencies stay. -/
def Obligations.InitBlockClearsTheCounts : Prop :=
  ∀ (s : State) (d : Deflate), s.isDeflate d → d.Ok →
    ∃ lfreq dfreq bfreq : Cells Nat,
      (∀ n, Cells.read 0 lfreq n = if n = 256 then 1 else if n < 286 then 0 else Cells.read 0 d.ld.freq n) ∧
      (∀ n, Cells.read 0 dfreq n = if n < 30 then 0 else Cells.read 0 d.dd.freq n) ∧
      (∀ n, Cells.read 0 bfreq n = if n < 19 then 0 else Cells.read 0 d.bd.freq n) ∧
      completes .tbInitBlock s 0 0 0
        (.deflate
          { d with
            ld := { d.ld with freq := lfreq }
            dd := { d.dd with freq := dfreq }
            bd := { d.bd with freq := bfreq }
            optLen := 0
            staticLen := 0
            lastLit := 0
            matchCount := 0 })
        s.port.input []

/-- R607: TALLY appends the token and counts its symbols, and asks for a block end when the buffer is full or the
truncation test says so; with 16383 tokens held it is refused. -/
def Obligations.TallyAppendsAndCounts : Prop :=
  ∀ (lc : Byte) (dist : Word) (s : State) (d : Deflate), s.isDeflate d → d.Ok → dist.toNat ≤ 32768 →
    (d.lastLit < 16383 →
      ∃ (dBuf : Cells Half) (lBuf : Cells Byte) (lfreq dfreq : Cells Nat),
        (∀ k, Cells.find? dBuf k = if k = d.lastLit then some (BitVec.ofNat 16 dist.toNat) else Cells.find? d.dBuf k) ∧
        (∀ k, Cells.find? lBuf k = if k = d.lastLit then some lc else Cells.find? d.lBuf k) ∧
        (∀ n, Cells.read 0 lfreq n = Cells.read 0 d.ld.freq n +
          if n = (if dist = 0 then lc.toNat else 257 + lengthCode lc.toNat) then 1 else 0) ∧
        (∀ n, Cells.read 0 dfreq n = Cells.read 0 d.dd.freq n +
          if dist ≠ 0 ∧ n = distCode (dist.toNat - 1) then 1 else 0) ∧
        let count := d.matchCount + if dist = 0 then 0 else 1
        completes (.tbTally lc dist) s 0
          (if d.lastLit + 1 = 16383 ∨
              endsEarly (d.lastLit + 1) count d.level ((d.strstart : Int) - d.blockStart) (Cells.read 0 dfreq) = true
            then 1 else 0) 0
          (.deflate
            { d with
              dBuf := dBuf
              lBuf := lBuf
              lastLit := d.lastLit + 1
              matchCount := count
              ld := { d.ld with freq := lfreq }
              dd := { d.dd with freq := dfreq } })
          s.port.input []) ∧
    (16383 ≤ d.lastLit → raises (.tbTally lc dist) s (.stream .badOperand) 0x17 (.deflate d) s.port.input [])

/-- R612, R615, R620: where at most two symbols are used, BUILD forces two codes of length 1: the two used symbols, or the
used one and symbol 0 (the next symbol, where the used one is 0 or 1), or 0 and 1. The lower of the two gets code 0 and the
upper code 1; every other symbol gets length 0; a forced symbol counts once; RESULT0 is the upper one. Where two or more are
used, exactly the used symbols get lengths, none above the descriptor's limit; the lengths make a complete set, and the codes
are its canonical codes, bit-reversed; the costs are those of the lengths; RESULT0 is the last used symbol. -/
def Obligations.BuildMakesCompleteCodes : Prop :=
  ∀ (desc : BitVec 2) (s : State) (d : Deflate), s.isDeflate d → d.Ok → desc.toNat ≤ 2 →
    let id := treeOf desc
    let freq := Cells.read 0 (d.tree id).freq
    let used := usedBelow id.elems freq
    let pair := codedPair used
    (used.length ≤ 2 →
      ∃ (t : Tree) (tb : TreeScratch),
        t.maxCode = some (pair.2 : Int) ∧
        (∀ n, Cells.find? t.len n =
          if n = pair.1 ∨ n = pair.2 then some 1 else if n ≤ id.elems then some 0 else Cells.find? (d.tree id).len n) ∧
        (∀ n, Cells.find? t.code n =
          if n = pair.1 then some 0 else if n = pair.2 then some 1 else Cells.find? (d.tree id).code n) ∧
        (∀ n, Cells.read 0 t.freq n =
          if n = id.elems then forcedFreq pair freq pair.1 + forcedFreq pair freq pair.2 else forcedFreq pair freq n) ∧
        (∀ n, Cells.find? t.dad n =
          if n = pair.1 ∨ n = pair.2 then some id.elems else Cells.find? (d.tree id).dad n) ∧
        tb.heapLen = some 1 ∧ tb.heapMax = some 570 ∧
        (∀ b < 16, Cells.find? tb.blCount b = some (if b = 1 then 2 else 0)) ∧
        completes (.tbBuild desc) s 0 pair.2 0
          (.deflate
            { d.setTree id t with
              tb := tb
              optLen := d.optLen + pairCost id pair freq
              staticLen := d.staticLen + pairStatic id pair freq })
          s.port.input []) ∧
    (2 ≤ used.length →
      ∃ (t : Tree) (tb : TreeScratch),
        let lens := lensBelow t id.elems
        t.maxCode = some (used.getLastD 0 : Int) ∧ hasLens t id.elems ∧
        (∀ n < id.elems, coded lens n ↔ freq n ≠ 0) ∧ (∀ l ∈ lens, l ≤ id.maxLength) ∧ kraft lens = 2 ^ 15 ∧
        (∀ n, Cells.find? t.code n =
          if n < id.elems ∧ freq n ≠ 0 then some (BitVec.ofNat 16 (canonicalField lens n).1)
          else Cells.find? (d.tree id).code n) ∧
        (∀ n < id.elems, Cells.read 0 t.freq n = freq n) ∧
        (∀ b < 16, Cells.find? tb.blCount b = some (if b = 0 then 0 else (lens.count b : Int))) ∧
        completes (.tbBuild desc) s 0 (used.getLastD 0) 0
          (.deflate
            { d.setTree id t with
              tb := tb
              optLen := d.optLen +
                ((used.map fun n => freq n * (lens.getD n 0 + id.extraBits n)).sum : Nat)
              staticLen := d.staticLen +
                ((used.map fun n => match id.stree n with
                  | none => 0
                  | some l => freq n * (l + id.extraBits n)).sum : Nat) })
          s.port.input [])

/-- R615: GENBITLEN on a heap of nodes. `depth` is the depth of a node: 0 for the root, and one more than its father's for
every later node of the heap. Where no node lies deeper than the descriptor's limit, every node gets its depth, the leaves of
each length are counted, and their costs are added. Where some do, they are first cut to the limit; the counts are repaired, one
round for every two such nodes; and the lengths are given out again by the repaired counts, the longest first, to the
leaves from the end of the heap. -/
def Obligations.GenBitlenGivesDepths : Prop :=
  ∀ (desc : BitVec 2) (s : State) (d : Deflate) (top max : Nat) (node depth : Nat → Nat), s.isDeflate d →
    desc.toNat ≤ 2 →
    let id := treeOf desc
    let t := d.tree id
    let below := List.range' (top + 1) (572 - top)
    let leaves := below.filter fun p => node p ≤ max
    let deep := (below.filter fun p => id.maxLength < depth (node p)).length
    let cut : Nat → Nat := fun p => min (depth (node p)) id.maxLength
    let ends : (Nat → Nat) → (Nat → Int) → Prop := fun final count =>
      ∃ (len : Cells Nat) (blCount : Cells Int),
        (∀ p, top ≤ p → p ≤ 572 → Cells.find? len (node p) = some (final p)) ∧
        (∀ n, (∀ p, top ≤ p → p ≤ 572 → n ≠ node p) → Cells.find? len n = Cells.find? t.len n) ∧
        (∀ b < 16, Cells.find? blCount b = some (count b)) ∧
        completes (.tbGenBitlen desc) s 0 0 0
          (.deflate
            { d.setTree id { t with len := len } with
              tb := { d.tb with blCount := blCount }
              optLen := d.optLen +
                (((leaves.map fun p => Cells.read 0 t.freq (node p) * (final p + id.extraBits (node p))).sum : Nat) : Int)
              staticLen := d.staticLen +
                (((leaves.map fun p =>
                  match id.stree (node p) with
                  | none => 0
                  | some l => Cells.read 0 t.freq (node p) * (l + id.extraBits (node p))).sum : Nat) : Int) })
          s.port.input []
    d.tb.heapMax = some top → top ≤ 572 → t.maxCode = some (max : Int) → max < id.elems →
    (∀ p, top ≤ p → p ≤ 572 → Cells.find? d.tb.heap p = some (node p) ∧ node p < id.nodes) →
    depth (node top) = 0 →
    (∀ p, top < p → p ≤ 572 →
      ∃ q, top ≤ q ∧ q < p ∧ Cells.find? t.dad (node p) = some (node q) ∧ depth (node p) = depth (node q) + 1) →
    let counts : Nat → Int := fun b => ((leaves.filter fun p => cut p = b).length : Nat)
    (deep = 0 → ends (fun p => depth (node p)) counts) ∧
    (∀ c : Nat → Nat, 0 < deep →
      (∀ p q, top ≤ p → p ≤ 572 → top ≤ q → q ≤ 572 → node p = node q → p = q) →
      repairRounds id.maxLength ((deep + 1) / 2) counts = some (fun b => (c b : Int)) →
      ends
        (fun p =>
          if top < p ∧ node p ≤ max then lengthFrom c id.maxLength (leaves.filter fun q => p < q).length else cut p)
        (fun b => (c b : Int)))

/-- R620: GENCODES gives the symbols of each length consecutive codes in symbol order, from the start the counts of the
shorter lengths give, bit-reversed; a symbol of length 0 keeps what it had. -/
def Obligations.GenCodesAreCanonical : Prop :=
  ∀ (desc : BitVec 2) (s : State) (d : Deflate) (max : Nat) (counts lens : Nat → Nat), s.isDeflate d → desc.toNat ≤ 2 →
    let id := treeOf desc
    let t := d.tree id
    t.maxCode = some (max : Int) → max < id.elems →
    (∀ b < 16, Cells.find? d.tb.blCount b = some (counts b : Int)) →
    (∀ n ≤ max, Cells.find? t.len n = some (lens n) ∧ lens n ≤ 15) →
    let start : Nat → Nat := fun l => ((List.range l).map fun k => counts k * 2 ^ (l - k)).sum
    ∃ code : Cells Half,
      (∀ n, Cells.find? code n =
        if n ≤ max ∧ lens n ≠ 0 then
          some (BitVec.ofNat 16
            (bitrev (start (lens n) + ((List.range n).filter fun m => lens m = lens n).length) (lens n)))
        else Cells.find? t.code n) ∧
      completes (.tbGenCodes desc) s 0 0 0 (.deflate (d.setTree id { t with code := code })) s.port.input []

/-- R625, R626: the runs of a sequence of code lengths, read back as the decoder reads bit-length symbols (R488, R490),
give the same code lengths. -/
def Obligations.RunsDecodeToTheLengths : Prop :=
  ∀ lens : List Nat, (∀ l ∈ lens, l ≤ 15) → decodeRuns none (runs lens) = some lens

/-- R625, R626: SCAN counts the bit-length symbols of a descriptor's lengths, and SENDTREE sends those same symbols, each
with its extra bits, with the bit-length codes. -/
def Obligations.ScanCountsWhatSendTreeSends : Prop :=
  ∀ (desc : BitVec 2) (s : State) (d : Deflate) (max : Nat), s.isDeflate d → d.Ok → desc.toNat ≤ 1 →
    let t := d.tree (treeOf desc)
    let lens := lensBelow t (max + 1)
    t.maxCode = some (max : Int) → max < (treeOf desc).elems → hasLens t (max + 1) →
    (∃ freq : Cells Nat, (∀ n, Cells.read 0 freq n = Cells.read 0 d.bd.freq n + (symbolsOf lens).count n) ∧
      completes (.tbScan desc) s 0 0 0 (.deflate { d with bd := { d.bd with freq := freq } }) s.port.input []) ∧
    (writerOk d → (∀ c ∈ symbolsOf lens, hasCode d.bd c) → d.pending.length + 2 * (max + 1) + 4 ≤ 65536 →
      ∃ d', emits d d' ((runs lens).flatMap (runFields (codeField d.bd))) ∧
        completes (.tbSendTree desc) s 0 0 0 (.deflate d') s.port.input [])

/-- R627: BLTREE counts the bit-length symbols of both descriptors, builds the bit-length tree and adds the header cost: it
does what SCAN of both and BUILD of the bit-length descriptor do (BUILD gives every symbol a length: BuildMakesCompleteCodes),
and adds the cost of the header. RESULT0 is the last position of BL_ORDER from 3 up whose symbol has a length, or 2 where none
has. Where at most two bit-length symbols are used, what it leaves is given in full. -/
def Obligations.BlTreeBuildsTheLengthTree : Prop :=
  (∀ (s u : State) (d e : Deflate), s.isDeflate d → chain [.tbScan 0, .tbScan 1, .tbBuild 2] s = some u → u.isDeflate e →
    hasLens e.bd 19 →
    let used := (List.range' 3 16).filter fun k => Cells.find? e.bd.len (tableAt blOrder k) ≠ some 0
    completes .tbBlTree s 0 (used.getLastD 2) 0
      (.deflate { e with optLen := e.optLen + (3 * (used.getLastD 2 + 1) + 14 : Nat) }) s.port.input []) ∧
  (∀ (s : State) (d : Deflate) (lmax dmax : Nat), s.isDeflate d → d.Ok →
    d.ld.maxCode = some (lmax : Int) → lmax < 286 → hasLens d.ld (lmax + 1) →
    d.dd.maxCode = some (dmax : Int) → dmax < 30 → hasLens d.dd (dmax + 1) →
    let freq : Nat → Nat := fun n =>
      Cells.read 0 d.bd.freq n + (symbolsOf (lensBelow d.ld (lmax + 1))).count n +
        (symbolsOf (lensBelow d.dd (dmax + 1))).count n
    let pair := codedPair (usedBelow 19 freq)
    let used := (List.range' 3 16).filter fun k => tableAt blOrder k = pair.1 ∨ tableAt blOrder k = pair.2
    (usedBelow 19 freq).length ≤ 2 →
    ∃ (t : Tree) (tb : TreeScratch),
      t.maxCode = some (pair.2 : Int) ∧
      (∀ n < 19, Cells.find? t.len n = some (if n = pair.1 ∨ n = pair.2 then 1 else 0)) ∧
      (∀ n < 19, Cells.read 0 t.freq n = forcedFreq pair freq n) ∧
      Cells.find? t.code pair.1 = some 0 ∧ Cells.find? t.code pair.2 = some 1 ∧
      completes .tbBlTree s 0 (used.getLastD 2) 0
        (.deflate
          { d with
            bd := t
            tb := tb
            optLen := d.optLen + pairCost .bd pair freq + (3 * (used.getLastD 2 + 1) + 14 : Nat) })
        s.port.input [])

/-- R628: SENDALL sends the three counts, the lengths of the bit-length code in BL_ORDER and the two trees. -/
def Obligations.SendAllSendsTheHeader : Prop :=
  ∀ (lcodes : BitVec 9) (dcodes blcodes : BitVec 5) (s : State) (d : Deflate), s.isDeflate d → writerOk d →
    257 ≤ lcodes.toNat → lcodes.toNat ≤ 286 → 1 ≤ dcodes.toNat → dcodes.toNat ≤ 30 → 4 ≤ blcodes.toNat →
    blcodes.toNat ≤ 19 →
    let llens := lensBelow d.ld lcodes.toNat
    let dlens := lensBelow d.dd dcodes.toNat
    hasLens d.ld lcodes.toNat → hasLens d.dd dcodes.toNat →
    (∀ k ∈ blOrder.take blcodes.toNat, ∃ l, Cells.find? d.bd.len k = some l ∧ l < 8) →
    (∀ c ∈ symbolsOf llens ++ symbolsOf dlens, hasCode d.bd c) →
    d.pending.length + 2 * (lcodes.toNat + dcodes.toNat) + 16 ≤ 65536 →
    ∃ d',
      emits d d'
        ([(lcodes.toNat - 257, 5), (dcodes.toNat - 1, 5), (blcodes.toNat - 4, 4)] ++
          (blOrder.take blcodes.toNat).map (fun k => ((Cells.find? d.bd.len k).getD 0, 3)) ++
          (runs llens).flatMap (runFields (codeField d.bd)) ++ (runs dlens).flatMap (runFields (codeField d.bd))) ∧
      completes (.tbSendAll lcodes dcodes blcodes) s 0 0 0 (.deflate d') s.port.input []

/-- R630, R621: COMPRESS sends the code of every token's symbols with their extra bits, in order, and then END_BLOCK, with
the fixed or the dynamic codes. -/
def Obligations.CompressSendsTheTokens : Prop :=
  ∀ (dynamic : BitVec 1) (s : State) (d : Deflate), s.isDeflate d → d.Ok → writerOk d →
    (∀ k < d.lastLit, ∃ dist lc, Cells.find? d.dBuf k = some dist ∧ Cells.find? d.lBuf k = some lc ∧ dist.toNat ≤ 32768) →
    (dynamic = 1 →
      hasCode d.ld 256 ∧
      ∀ t ∈ tokens d d.lastLit,
        (t.1 = 0 → hasCode d.ld t.2) ∧
        (t.1 ≠ 0 → hasCode d.ld (257 + lengthCode t.2) ∧ hasCode d.dd (distCode (t.1 - 1)))) →
    d.pending.length + 6 * (d.lastLit + 1) + 4 ≤ 65536 →
    let dyn := dynamic == 1
    ∃ d',
      emits d d'
        ((tokens d d.lastLit).flatMap (fun t => tokenFields (llField d dyn) (distField d dyn) t.1 t.2) ++
          [llField d dyn 256]) ∧
      completes (.tbCompress dynamic) s 0 0 0 (.deflate d') s.port.input []

/-- R632: STORED sends the header bits, pads to a byte, and appends the length, its complement and the window bytes; past
the end of the window it is refused. -/
def Obligations.StoredBlockCopiesTheWindow : Prop :=
  ∀ (eof : BitVec 1) (buf len : Half) (s : State) (d : Deflate), s.isDeflate d →
    (buf.toNat + len.toNat ≤ 2 * 2 ^ d.dwbits → writerOk d →
      d.pending.length + (d.bw.biValid + 10) / 8 + 4 + len.toNat ≤ 65536 →
      completes (.tbStored eof buf len) s 0 0 0
        (.deflate
          { d with
            bw := ⟨0, 0⟩
            pending := d.pending ++
              bytesOf (d.bw.biBuf.toNat + 2 ^ d.bw.biValid * eof.toNat) ((d.bw.biValid + 10) / 8) ++
              bytesOf len.toNat 2 ++ bytesOf (65535 - len.toNat) 2 ++ windowBytes d.window buf.toNat len.toNat })
        s.port.input []) ∧
    (2 * 2 ^ d.dwbits < buf.toNat + len.toNat →
      raises (.tbStored eof buf len) s (.stream .badOperand) 0x17 (.deflate d) s.port.input [])

/-- R640, R606: at level 0 FLUSHBLOCK sends the block at hand as a stored block, starts a new block as INITBLOCK does, and
moves `blockStart` to `strstart`. At levels 1 to 9 it builds the three trees and chooses: a stored block where its bytes and 4
more are no more than either estimate and its first byte is still in the window; else a fixed block where the fixed codes are
no longer than the dynamic ones; else a dynamic block. It sends the block as STORED, or as the header bits and COMPRESS, with
SENDALL before COMPRESS in a dynamic block; starts a new block; pads to a byte where the block is the last; and answers
which it chose. -/
def Obligations.FlushBlockChoosesTheBlock : Prop :=
  (∀ (eof : BitVec 1) (s u v : State) (d e f : Deflate) (lmax dmax : Nat), s.isDeflate d → 0 < d.level →
    chain [.tbBuild 0, .tbBuild 1, .tbBlTree] s = some u → u.isDeflate e → e.ld.maxCode = some (lmax : Int) →
    e.dd.maxCode = some (dmax : Int) →
    let storedLen := (d.strstart : Int) - d.blockStart
    let optLenb := (e.optLen + 10) / 8
    let staticLenb := (e.staticLen + 10) / 8
    let kind : BlockType :=
      if storedLen + 4 ≤ min optLenb staticLenb ∧ 0 ≤ d.blockStart then .stored
      else if staticLenb ≤ optLenb then .fixed else .dynamic
    let block : List Instr :=
      match kind with
      | .stored => [.tbStored eof (BitVec.ofInt 16 d.blockStart) (BitVec.ofInt 16 storedLen)]
      | .fixed => [.bcwPut 3 (BitVec.ofNat 16 (2 + eof.toNat)), .tbCompress 0]
      | .dynamic =>
        [.bcwPut 3 (BitVec.ofNat 16 (4 + eof.toNat)),
          .tbSendAll (BitVec.ofNat 9 (lmax + 1)) (BitVec.ofNat 5 (dmax + 1))
            (BitVec.ofNat 5 (u.codec.regs.result0.toNat + 1)),
          .tbCompress 1]
    (kind = .stored → d.blockStart < 65536 ∧ 0 ≤ storedLen ∧ storedLen < 65536) →
    chain (block ++ [.tbInitBlock] ++ if eof = 1 then [.bcwWindup] else []) u = some v → v.isDeflate f →
    completes (.tbFlushBlock eof) s 0 kind.code 0 (.deflate { f with blockStart := d.strstart }) s.port.input []) ∧
  (∀ (eof : BitVec 1) (s : State) (d : Deflate) (start : Nat), s.isDeflate d → writerOk d → d.level = 0 →
    d.blockStart = (start : Int) → start ≤ d.strstart → d.strstart ≤ 2 * 2 ^ d.dwbits → d.strstart - start ≤ 65535 →
    d.pending.length + (d.bw.biValid + 10) / 8 + 4 + (d.strstart - start) ≤ 65536 →
    let len := d.strstart - start
    ∃ e : Deflate,
      completes .tbInitBlock s 0 0 0 (.deflate e) s.port.input [] ∧
      completes (.tbFlushBlock eof) s 0 0 0
        (.deflate
          { e with
            bw := ⟨0, 0⟩
            pending := d.pending ++
              bytesOf (d.bw.biBuf.toNat + 2 ^ d.bw.biValid * eof.toNat) ((d.bw.biValid + 10) / 8) ++
              bytesOf len 2 ++ bytesOf (65535 - len) 2 ++ windowBytes d.window start len
            blockStart := d.strstart })
        s.port.input [])

/-- What the block commands leave unchanged. A tree command touches its own descriptor, the scratch and the costs; a send
command only appends to the FIFO and changes the bit writer; FLUSHBLOCK does both, ends the token buffer and moves
`blockStart`. None moves input or output. -/
def Obligations.BlockCommandsFrame : Prop :=
  ∀ (i : Instr) (s t : State) (d d' : Deflate), s.isDeflate d → exec i s = .next t → t.codec.engine = .deflate d' →
    match i with
    | .tbBuild desc | .tbGenBitlen desc | .tbGenCodes desc =>
      d' = { d.setTree (treeOf desc) (d'.tree (treeOf desc)) with
        tb := d'.tb, optLen := d'.optLen, staticLen := d'.staticLen } ∧
      t.port.input = s.port.input ∧ t.port.output = []
    | .tbBlTree =>
      d' = { d with bd := d'.bd, tb := d'.tb, optLen := d'.optLen, staticLen := d'.staticLen } ∧
      t.port.input = s.port.input ∧ t.port.output = []
    | .tbScan _ => d' = { d with bd := { d.bd with freq := d'.bd.freq } } ∧ t.port.input = s.port.input ∧ t.port.output = []
    | .tbSendTree _ | .tbSendAll _ _ _ | .tbCompress _ | .tbStored _ _ _ =>
      d' = { d with bw := d'.bw, pending := d'.pending } ∧ d.pending <+: d'.pending ∧ t.port.input = s.port.input ∧
        t.port.output = []
    | .tbFlushBlock _ =>
      d' = { d with
        ld := d'.ld
        dd := d'.dd
        bd := d'.bd
        tb := d'.tb
        optLen := 0
        staticLen := 0
        lastLit := 0
        matchCount := 0
        bw := d'.bw
        pending := d'.pending
        blockStart := d.strstart } ∧
      d.pending <+: d'.pending ∧ t.port.input = s.port.input ∧ t.port.output = []
    | _ => True

/-! ## deflate_encoder -/

/-- R680, R232: DEF.STEP's refusals, in the order of the rule: an illegal flush code; a step without Finish after one with
it; input after the stream's end; no output space; nothing to do. The last two are BufError and change nothing, the results
among it; that the raises of this engine command write 0 to the results, and that BufError keeps them, is the model's reading of
R212 beside R765 (log entry 5). -/
def Obligations.StepChecksInOrder : Prop :=
  ∀ (flush : BitVec 3) (s : State) (d : Deflate), s.isDeflate d →
    let bufError := exec (.defStep flush) s =
      .next (after s none 5 s.codec.regs.result0 s.codec.regs.result1 (.deflate d) s.port.input [])
    (flush = 1 ∨ 5 ≤ flush.toNat → fails (.defStep flush) s (.stream .badFlush) 0x27 (.deflate d) s.port.input []) ∧
    (flush = 0 ∨ flush = 2 ∨ flush = 3 ∨ flush = 4 →
      ((d.finishReq = true ∧ flush ≠ 4) ∨ (d.status = .finish ∧ s.port.input ≠ []) →
        fails (.defStep flush) s (.stream .afterFinish) 0x37 (.deflate d) s.port.input []) ∧
      ((d.finishReq = false ∨ flush = 4) → (d.status ≠ .finish ∨ s.port.input = []) →
        (s.port.space = 0 → bufError) ∧
        (d.pending = [] → s.port.input = [] → (flush.toNat : Int) ≤ d.lastFlush → flush ≠ 4 → bufError)))

/-- R680, R684, R686, R694, R700, R710, R390: a step without a flush on a fast or slow instance whose lookahead stays below
MIN_LOOKAHEAD takes its whole slice into the window and waits for more. A SyncFlush, FullFlush or Finish step on an instance with
no lookahead, no input and an empty FIFO ends the block at hand as FLUSHBLOCK does (a slow instance first tallies the byte it
holds), with a marker of an empty stored block after it where the flush is no Finish, and delivers it. FullFlush forgets the hash
chains; Finish ends the stream. A step that fills its output space keeps the rest in the FIFO, sets `lastFlush` to -1 and answers
Ok: where the FIFO's bytes fill it nothing more happens, where the block's fill it no marker is sent, and a Finish that does so
answers StreamEnd in a later step. -/
def Obligations.SmallStepsBufferAndFlush : Prop :=
  (∀ (flush : BitVec 3) (s : State) (d : Deflate), s.isDeflate d → flush = 2 ∨ flush = 3 ∨ flush = 4 →
    (d.finishReq = false ∨ flush = 4) → d.status ≠ .finish → d.pending = [] → s.port.input = [] → s.port.space ≠ 0 →
    d.lookahead = 0 → d.strstart + 262 < 2 * 2 ^ d.dwbits → (flush = 4 ∨ d.lastFlush < flush.toNat) →
    let held := d.kind = .slow ∧ d.matchAvailable = true
    (held → 0 < d.strstart) →
    endsBlock flush s (if held then [.tbTally (Memory.read d.window (d.strstart - 1)) 0] else [])
      { d with
        lastFlush := flush.toNat
        finishReq := d.finishReq || flush == 4
        dictAllowed := false
        status := .busy
        matchAvailable := if held then false else d.matchAvailable }) ∧
  (∀ (flush : BitVec 3) (s : State) (d : Deflate), s.isDeflate d → flush = 0 ∨ flush = 2 ∨ flush = 3 ∨ flush = 4 →
    (d.finishReq = false ∨ flush = 4) → (d.status ≠ .finish ∨ s.port.input = []) → s.port.space ≠ 0 → d.pending ≠ [] →
    s.port.space ≤ d.pending.length →
    completes (.defStep flush) s 0 0 0
      (.deflate
        { d with
          pending := d.pending.drop s.port.space
          lastFlush := -1
          finishReq := d.finishReq || flush == 4
          dictAllowed := false
          status := if d.status = .init then .busy else d.status })
      s.port.input (d.pending.take s.port.space)) ∧
  (∀ (s : State) (d : Deflate), s.isDeflate d → d.Ok → d.kind ≠ .stored → d.finishReq = false → d.status ≠ .finish →
    s.port.space ≠ 0 → d.pending = [] → s.port.input ≠ [] → d.lookahead + s.port.input.length < 262 →
    d.strstart + 262 < 2 * 2 ^ d.dwbits →
    let fill := d.strstart + d.lookahead
    let n := s.port.input.length
    ∃ window,
      (∀ i, Memory.read window i =
        if fill ≤ i ∧ i < fill + n then s.port.input.getD (i - fill) 0 else Memory.read d.window i) ∧
      completes (.defStep 0) s 0 0 0
        (.deflate
          { d with
            window := window
            lookahead := d.lookahead + n
            insH :=
              if 3 ≤ d.lookahead + n then hash2 (Memory.read window d.strstart) (Memory.read window (d.strstart + 1))
              else d.insH
            lastFlush := 0
            dictAllowed := false
            status := .busy })
        [] [])

/-- R680, R710, R640, R690 with R480 to R502: a Finish step on a fresh level-0 instance, given more output space than it
needs, answers StreamEnd with its input in stored blocks: each but the last, which is final, is of MAX_DIST to 65531 bytes, and the
last is shorter than MAX_DIST. A decoder right after reset, given those bytes and enough space, answers StreamEnd with exactly
that input, and consumes them all. R680, R694, R700, R607, R567: at levels 1 to 9, after a reset and any steps without a flush
over at most 8191 bytes in all (no block ends before that), a step without a flush takes its slice, leaves less than MIN_LOOKAHEAD
of it ahead, and has tallied tokens that replay to the bytes passed over; one with a flush has tallied tokens that replay to all
of them, and ends the block with those. -/
def Obligations.LevelZeroStreamDecodes : Prop :=
  (∀ (s : State) (d : Deflate), s.isDeflate d → d.Ok → d.kind = .stored → d.level = 0 → d.status = .init →
    d.finishReq = false → d.pending = [] → d.bw = ⟨0, 0⟩ → d.strstart = 0 → d.lookahead = 0 → d.blockStart = 0 →
    let x := s.port.input
    let maxDist := 2 ^ d.dwbits - 262
    x.length + 5 * (x.length / maxDist + 1) < s.port.space →
    ∃ (t : State) (blocks : List (List Byte)) (last : List Byte),
      exec (.defStep 4) s = .next t ∧ t.codec.err = none ∧ t.codec.regs.status = 1 ∧ t.port.input = [] ∧
      blocks.flatten ++ last = x ∧ (∀ b ∈ blocks, maxDist ≤ b.length ∧ b.length ≤ 65531) ∧ last.length < maxDist ∧
      t.port.output = blocks.flatMap (storedBytes 0) ++ storedBytes 1 last ∧
      ∀ (u : State) (wbits : BitVec 4) (v : State), 8 ≤ wbits.toNat →
        exec (.infReset wbits 0 0) u = .next v → x.length ≤ v.port.space → v.port.input = t.port.output →
        ∃ r : State, exec .infStep v = .next r ∧ r.codec.err = none ∧ r.codec.regs.status = 1 ∧ r.port.input = [] ∧
          r.port.output = x) ∧
  (∀ (flush : BitVec 3) (wbits level : BitVec 4) (u s₀ s₁ : State) (earlier : List (List Byte)) (x : List Byte)
    (space : Nat) (d : Deflate), 1 ≤ level.toNat → (Instr.defReset wbits level 0).wellFormed = true →
    exec (.defReset wbits level 0) u = .next s₀ → (∀ y ∈ earlier, y ≠ []) → feed space earlier s₀ = some s₁ → space ≠ 0 →
    s₁.isDeflate d →
    let s := { s₁ with port := ⟨x, space, []⟩ }
    let all := earlier.flatten ++ x
    all.length ≤ 8191 →
    (x ≠ [] → ∃ e : Deflate, e.lookahead < 262 ∧ e.lastFlush = 0 ∧ e.finishReq = false ∧ tallied d e all ∧
      completes (.defStep 0) s 0 0 0 (.deflate e) [] []) ∧
    (flush = 2 ∨ flush = 3 ∨ flush = 4 → ∃ e : Deflate, e.lookahead = 0 ∧ e.matchAvailable = false ∧
      e.lastFlush = flush.toNat ∧ e.finishReq = (flush == 4) ∧ tallied d e all ∧ endsBlock flush s [] e))

/-- R480, R481, R500 to R520, R776: INF.STEP decodes Huffman blocks: one with the fixed codes from its header on, and one
through tables that hold the canonical codes of two sets from the first token on. It delivers the bytes its tokens append to the
history, literals and matches, and ends the stream, or goes on with the next header where the block is not final. A length of
258 is read from code 284 with extra value 31, too (R264, R512). Once the tokens before it are delivered, a match that reaches
back farther than the history, or than the window keeps, raises DIST_TOO_FAR; the code of symbol 286 or 287 raises
BAD_LITLEN_CODE and, after a match length, that of distance symbol 30 or 31 BAD_DIST_CODE, each without its last level of bits
dropped; so does an invalid entry of a table of two one-bit entries (the empty set's, the one-code set's). The results of an
engine command that raises are 0 by the model's reading (log entry 5). -/
def Obligations.HuffmanBlocksDecode : Prop :=
  ∀ (s : State) (d : Inflate) (toks : List (Nat × Nat)), s.isInflate d → d.bc.Ok → d.sw.Ok → d.sw.undelivered = 0 →
    replayable (2 ^ d.sw.wbits) d.sw.whave toks →
    let out := (replay (historyOf d.sw) toks).drop d.sw.whave
    out.length ≤ s.port.space →
    let decodes : List (Nat × Nat) → Bool → (Nat → Nat × Nat) → (Nat → Nat × Nat) → Nat → Nat → Prop :=
      fun head last llf ddf lroot droot =>
        let before := head ++ toks.flatMap fun t => tokenFields llf ddf t.1 t.2
        blockEnds s d last (head ++ bodyFields llf ddf toks) toks ∧
        (∀ dist, 1 ≤ dist → dist ≤ min (2 ^ d.sw.wbits) (d.sw.whave + out.length) → out.length + 258 ≤ s.port.space →
          (llf 284).2 ≠ 0 → (ddf (distCode (dist - 1))).2 ≠ 0 →
          blockEnds s d last (before ++ [llf 284, (31, 5)] ++ distFields ddf dist ++ [llf 256]) (toks ++ [(dist, 255)])) ∧
        (∀ dist lc,
          let fields := before ++ tokenFields llf ddf dist lc
          lc < 256 → 1 ≤ dist → dist ≤ 32768 → min (2 ^ d.sw.wbits) (d.sw.whave + out.length) < dist →
          (llf (257 + lengthCode lc)).2 ≠ 0 → (ddf (distCode (dist - 1))).2 ≠ 0 → streams d s fields →
          ∃ d' : Inflate, d'.mode = .error ∧ d'.dist = dist ∧ d'.length = lc + 3 ∧ d'.sw.undelivered = 0 ∧
            fails .infStep s (.data .distTooFar) 0xB6 (.inflate d')
              (s.port.input.drop (pullCount d.bc (packedWidth fields))) out) ∧
        (∀ sym, sym = 286 ∨ sym = 287 → (llf sym).2 ≠ 0 → streams d s (before ++ [llf sym]) →
          rejects s d .badLitlenCode (before ++ [llf sym]) (undropped lroot (llf sym).2) out) ∧
        (∀ sym lc, sym = 30 ∨ sym = 31 → lc < 256 → (llf (257 + lengthCode lc)).2 ≠ 0 → (ddf sym).2 ≠ 0 →
          streams d s (before ++ lengthFields llf lc ++ [ddf sym]) →
          rejects s d .badDistCode (before ++ lengthFields llf lc ++ [ddf sym]) (undropped droot (ddf sym).2) out)
    (d.mode = .type → ∀ last : Bool,
      decodes [(if last then 3 else 2, 3)] last fixedLLField fixedDistField 9 5) ∧
    (∀ (ll dd : List Nat) (lref dref : TableRef), d.mode = .len → d.llRef = some lref → d.dRef = some dref →
      laidOut d.ht lref .lens ll → laidOut d.ht dref .dists dd → (∀ l ∈ ll, l ≤ 15) → (∀ l ∈ dd, l ≤ 15) → coded ll 256 →
      (∀ t ∈ toks, tokenCoded ll dd t) → decodes [] d.last (canonicalField ll) (canonicalField dd) lref.root dref.root) ∧
    (∀ (lref : TableRef) (e : Nat → Entry) (bit : Nat), d.mode = .len → d.llRef = some lref → oneBit d.ht lref e →
      bit < 2 → (e bit).op = .invalid → streams d s [(bit, 1)] → rejects s d .badLitlenCode [(bit, 1)] 1 []) ∧
    (∀ (ll : List Nat) (lref dref : TableRef) (e : Nat → Entry) (lc bit : Nat), d.mode = .len → d.llRef = some lref →
      d.dRef = some dref → laidOut d.ht lref .lens ll → (∀ l ∈ ll, l ≤ 15) → oneBit d.ht dref e →
      (∀ t ∈ toks, t.1 = 0 ∧ coded ll t.2) → lc < 256 → coded ll (257 + lengthCode lc) → bit < 2 → (e bit).op = .invalid →
      let fields := toks.map (fun t => canonicalField ll t.2) ++ lengthFields (canonicalField ll) lc ++ [(bit, 1)]
      streams d s fields → rejects s d .badDistCode fields 1 out)
end

