-- ==== Sys2Proof/Laws/Cells.lean ====
section
/-! SUPPORT. The laws of the sparse arrays and of the window memory: a read after a write, and the canonical form, which
every operation keeps. -/

namespace Sys2Proof.Machine

variable {α : Type}

/-! ## Looking up after a change -/

theorem Cells.find?_put (m : Cells α) (i j : Nat) (v : α) :
    Cells.find? (Cells.put m i v) j = if j = i then some v else Cells.find? m j := by
  induction m with
  | nil => simp only [Cells.put, Cells.find?]; split <;> simp
  | cons c rest ih =>
    obtain ⟨k, w⟩ := c
    simp only [Cells.put]
    split
    · simp only [Cells.find?]; grind
    · split
      · simp only [Cells.find?]; grind
      · simp only [Cells.find?, ih]; grind

@[simp] theorem Cells.find?_put_same (m : Cells α) (i : Nat) (v : α) : Cells.find? (Cells.put m i v) i = some v := by
  simp [Cells.find?_put]

theorem Cells.find?_put_ne (m : Cells α) {i j : Nat} (v : α) (h : j ≠ i) :
    Cells.find? (Cells.put m i v) j = Cells.find? m j := by
  simp [Cells.find?_put, h]

/-- Nothing is listed below the first index. -/
theorem Cells.find?_eq_none_of_lt {m : Cells α} {i : Nat} (h : ∀ c ∈ m, i < c.1) : Cells.find? m i = none := by
  cases m with
  | nil => rfl
  | cons c rest =>
    obtain ⟨k, w⟩ := c
    have hk : i < k := h (k, w) (by simp)
    simp only [Cells.find?]
    rw [if_neg (by omega), if_pos hk]

theorem Cells.sorted_cons {k : Nat} {w : α} {rest : Cells α} (h : Cells.sorted ((k, w) :: rest)) :
    (∀ c ∈ rest, k < c.1) ∧ Cells.sorted rest := by
  simpa [Cells.sorted, List.pairwise_cons] using h

theorem Cells.find?_erase {m : Cells α} (hm : Cells.sorted m) (i j : Nat) :
    Cells.find? (Cells.erase m i) j = if j = i then none else Cells.find? m j := by
  induction m with
  | nil => simp [Cells.erase, Cells.find?]
  | cons c rest ih =>
    obtain ⟨k, w⟩ := c
    obtain ⟨hlt, hs⟩ := Cells.sorted_cons hm
    simp only [Cells.erase]
    split
    · simp only [Cells.find?]; grind
    · split
      · next h1 h2 =>
        subst h2
        by_cases hj : j = i
        · subst hj; simp [Cells.find?_eq_none_of_lt hlt]
        · rw [if_neg hj]
          simp only [Cells.find?, hj, if_false]
          split
          · next h => exact Cells.find?_eq_none_of_lt fun c hc => lt_trans h (hlt c hc)
          · rfl
      · simp only [Cells.find?, ih hs]; grind

/-! ## Entries after a change -/

theorem Cells.mem_put {m : Cells α} {i : Nat} {v : α} {c : Nat × α} (h : c ∈ Cells.put m i v) : c = (i, v) ∨ c ∈ m := by
  induction m with
  | nil => simpa [Cells.put] using h
  | cons d rest ih =>
    obtain ⟨k, w⟩ := d
    simp only [Cells.put] at h
    split at h
    · simpa using h
    · split at h
      · simp only [List.mem_cons] at h ⊢; tauto
      · simp only [List.mem_cons] at h ⊢; tauto

theorem Cells.mem_erase {m : Cells α} {i : Nat} {c : Nat × α} (h : c ∈ Cells.erase m i) : c ∈ m := by
  induction m with
  | nil => simp [Cells.erase] at h
  | cons d rest ih =>
    obtain ⟨k, w⟩ := d
    simp only [Cells.erase] at h
    split at h
    · exact h
    · split at h
      · exact List.mem_cons_of_mem _ h
      · simp only [List.mem_cons] at h ⊢; tauto

theorem Cells.mem_write [DecidableEq α] {d : α} {m : Cells α} {i : Nat} {v : α} {c : Nat × α}
    (h : c ∈ Cells.write d m i v) : (c = (i, v) ∧ v ≠ d) ∨ c ∈ m := by
  unfold Cells.write at h
  split at h
  · exact .inr (Cells.mem_erase h)
  · rcases Cells.mem_put h with h | h
    · exact .inl ⟨h, by assumption⟩
    · exact .inr h

/-! ## The canonical form -/

theorem Cells.sorted_put {m : Cells α} (hm : Cells.sorted m) (i : Nat) (v : α) : Cells.sorted (Cells.put m i v) := by
  induction m with
  | nil => simp [Cells.put, Cells.sorted]
  | cons c rest ih =>
    obtain ⟨k, w⟩ := c
    obtain ⟨hlt, hs⟩ := Cells.sorted_cons hm
    simp only [Cells.put]
    split
    · next h =>
      refine List.pairwise_cons.2 ⟨fun c hc => ?_, hm⟩
      rcases List.mem_cons.1 hc with rfl | hc
      · exact h
      · exact lt_trans h (hlt c hc)
    · split
      · next h => subst h; exact List.pairwise_cons.2 ⟨hlt, hs⟩
      · next h1 h2 =>
        refine List.pairwise_cons.2 ⟨fun c hc => ?_, ih hs⟩
        rcases Cells.mem_put hc with rfl | hc
        · show k < i; omega
        · exact hlt c hc

theorem Cells.sorted_erase {m : Cells α} (hm : Cells.sorted m) (i : Nat) : Cells.sorted (Cells.erase m i) := by
  induction m with
  | nil => simp [Cells.erase, Cells.sorted]
  | cons c rest ih =>
    obtain ⟨k, w⟩ := c
    obtain ⟨hlt, hs⟩ := Cells.sorted_cons hm
    simp only [Cells.erase]
    split
    · exact hm
    · split
      · exact hs
      · exact List.pairwise_cons.2 ⟨fun c hc => hlt c (Cells.mem_erase hc), ih hs⟩

@[simp] theorem Cells.wf_nil (d : α) : Cells.wf d ([] : Cells α) := by simp [Cells.wf, Cells.sorted]

theorem Cells.wf_write [DecidableEq α] {d : α} {m : Cells α} (hm : Cells.wf d m) (i : Nat) (v : α) :
    Cells.wf d (Cells.write d m i v) := by
  refine ⟨?_, fun c hc => ?_⟩
  · unfold Cells.write
    split
    · exact Cells.sorted_erase hm.1 i
    · exact Cells.sorted_put hm.1 i v
  · rcases Cells.mem_write hc with ⟨rfl, hv⟩ | hc
    · exact hv
    · exact hm.2 c hc

theorem Cells.wf_erase {d : α} {m : Cells α} (hm : Cells.wf d m) (i : Nat) : Cells.wf d (Cells.erase m i) :=
  ⟨Cells.sorted_erase hm.1 i, fun c hc => hm.2 c (Cells.mem_erase hc)⟩

theorem Cells.wf_filter {d : α} {m : Cells α} (hm : Cells.wf d m) (p : Nat × α → Bool) : Cells.wf d (m.filter p) :=
  ⟨hm.1.sublist List.filter_sublist, fun c hc => hm.2 c (List.mem_filter.1 hc).1⟩

theorem Cells.wf_writeAll [DecidableEq α] {d : α} {m : Cells α} (hm : Cells.wf d m) (i : Nat) (vs : List α) :
    Cells.wf d (Cells.writeAll d m i vs) := by
  induction vs generalizing m i with
  | nil => exact hm
  | cons v vs ih => exact ih (Cells.wf_write hm i v) (i + 1)

theorem Memory.wf_write {m : Memory} (hm : Memory.wf m) (i : Nat) (v : Byte) : Memory.wf (Memory.write m i v) :=
  Cells.wf_write hm i v

/-- Reset memory, with nothing listed, has the canonical form. -/
theorem Memory.wf_nil : Memory.wf [] := Cells.wf_nil 0

/-! ## Reading after a write -/

theorem Cells.read_write [DecidableEq α] {d : α} {m : Cells α} (hm : Cells.sorted m) (i j : Nat) (v : α) :
    Cells.read d (Cells.write d m i v) j = if j = i then v else Cells.read d m j := by
  unfold Cells.read Cells.write
  split
  · next h => rw [Cells.find?_erase hm]; grind
  · rw [Cells.find?_put]; grind

theorem Memory.read_write {m : Memory} (hm : Memory.wf m) (i j : Nat) (v : Byte) :
    Memory.read (Memory.write m i v) j = if j = i then v else Memory.read m j := Cells.read_write hm.1 i j v

@[simp] theorem Memory.read_nil (i : Nat) : Memory.read [] i = 0 := rfl

theorem Cells.read_writeAll [DecidableEq α] {d : α} {m : Cells α} (hm : Cells.wf d m) (i j : Nat) (vs : List α) :
    Cells.read d (Cells.writeAll d m i vs) j =
      if i ≤ j ∧ j < i + vs.length then vs.getD (j - i) d else Cells.read d m j := by
  induction vs generalizing m i with
  | nil => simp only [Cells.writeAll, List.length_nil]; rw [if_neg (by omega)]
  | cons v vs ih =>
    simp only [Cells.writeAll, List.length_cons]
    rw [ih (Cells.wf_write hm i v), Cells.read_write hm.1]
    by_cases h1 : i + 1 ≤ j ∧ j < i + 1 + vs.length
    · rw [if_pos h1, if_pos (by omega)]
      obtain ⟨n, rfl⟩ : ∃ n, j = i + 1 + n := ⟨j - (i + 1), by omega⟩
      rw [show i + 1 + n - i = n + 1 by omega, show i + 1 + n - (i + 1) = n by omega]
      simp
    · rw [if_neg h1]
      by_cases h2 : j = i
      · subst h2; rw [if_pos rfl, if_pos (by omega)]; simp
      · rw [if_neg h2, if_neg (by omega)]

/-! ## Bounds of the listed indices -/

theorem Cells.below_nil (n : Nat) : Cells.below n ([] : Cells α) := by simp [Cells.below]

theorem Cells.below_write [DecidableEq α] {d : α} {m : Cells α} {n i : Nat} {v : α} (hm : Cells.below n m) (hi : i < n) :
    Cells.below n (Cells.write d m i v) := fun c hc => by
  rcases Cells.mem_write hc with ⟨rfl, -⟩ | hc
  · exact hi
  · exact hm c hc

theorem Cells.below_writeAll [DecidableEq α] {d : α} {m : Cells α} {n i : Nat} {vs : List α} (hm : Cells.below n m)
    (hi : i + vs.length ≤ n) : Cells.below n (Cells.writeAll d m i vs) := by
  induction vs generalizing m i with
  | nil => exact hm
  | cons v vs ih =>
    simp only [List.length_cons] at hi
    exact ih (Cells.below_write hm (by omega)) (by omega)

theorem Cells.below_filter {m : Cells α} {n : Nat} (hm : Cells.below n m) (p : Nat × α → Bool) :
    Cells.below n (m.filter p) := fun c hc => hm c (List.mem_filter.1 hc).1

/-! ## Bounded accesses -/

theorem checkIndex_ok {a : ArrayName} {size : Nat} {i : Int} {k : Nat} (h : checkIndex a size i = .ok k) :
    i = k ∧ k < size := by
  unfold checkIndex at h
  split at h
  · next hi => cases h; omega
  · cases h

@[simp] theorem checkIndex_nat {a : ArrayName} {size i : Nat} (h : i < size) : checkIndex a size (i : Int) = .ok i := by
  simp [checkIndex, h]

theorem Cells.load_nat {d : α} {a : ArrayName} {size i : Nat} (m : Cells α) (h : i < size) :
    Cells.load d a size m (i : Int) = .ok (Cells.read d m i) := by
  simp only [Cells.load, checkIndex_nat h]; rfl

theorem Cells.store_nat [DecidableEq α] {d : α} {a : ArrayName} {size i : Nat} (m : Cells α) (v : α) (h : i < size) :
    Cells.store d a size m (i : Int) v = .ok (Cells.write d m i v) := by
  simp only [Cells.store, checkIndex_nat h]; rfl

theorem Cells.get_nat {a : ArrayName} {size i : Nat} {m : Cells α} {v : α} (h : i < size)
    (hv : Cells.find? m i = some v) : Cells.get a size m (i : Int) = .ok v := by
  simp only [Cells.get, checkIndex_nat h, bind, Except.bind, hv]

theorem Cells.set_nat {a : ArrayName} {size i : Nat} (m : Cells α) (v : α) (h : i < size) :
    Cells.set a size m (i : Int) v = .ok (Cells.put m i v) := by
  simp only [Cells.set, checkIndex_nat h]; rfl

theorem Cells.store_ok [DecidableEq α] {d : α} {a : ArrayName} {size : Nat} {m m' : Cells α} {i : Int} {v : α}
    (h : Cells.store d a size m i v = .ok m') : ∃ k : Nat, i = k ∧ k < size ∧ m' = Cells.write d m k v := by
  unfold Cells.store at h
  cases hk : checkIndex a size i with
  | error f => rw [hk] at h; cases h
  | ok k =>
    rw [hk] at h; cases h
    obtain ⟨h1, h2⟩ := checkIndex_ok hk
    exact ⟨k, h1, h2, rfl⟩

theorem Cells.set_ok {a : ArrayName} {size : Nat} {m m' : Cells α} {i : Int} {v : α}
    (h : Cells.set a size m i v = .ok m') : ∃ k : Nat, i = k ∧ k < size ∧ m' = Cells.put m k v := by
  unfold Cells.set at h
  cases hk : checkIndex a size i with
  | error f => rw [hk] at h; cases h
  | ok k =>
    rw [hk] at h; cases h
    obtain ⟨h1, h2⟩ := checkIndex_ok hk
    exact ⟨k, h1, h2, rfl⟩

/-! ## The slide's copies (R552) -/

theorem Cells.find?_some_mem {m : Cells α} {i : Nat} {v : α} (h : Cells.find? m i = some v) : (i, v) ∈ m := by
  induction m with
  | nil => cases h
  | cons c rest ih =>
    obtain ⟨k, w⟩ := c
    simp only [Cells.find?] at h
    split at h
    · next hk => cases h; subst hk; simp
    · split at h
      · cases h
      · exact List.mem_cons_of_mem _ (ih h)

theorem Cells.find?_of_mem {m : Cells α} (hm : Cells.sorted m) {i : Nat} {v : α} (h : (i, v) ∈ m) :
    Cells.find? m i = some v := by
  induction m with
  | nil => cases h
  | cons c rest ih =>
    obtain ⟨k, w⟩ := c
    obtain ⟨hlt, hs⟩ := Cells.sorted_cons hm
    simp only [Cells.find?]
    rcases List.mem_cons.1 h with h | h
    · cases h; simp
    · have := hlt _ h
      rw [if_neg (by simp at this; omega), if_neg (by simp at this; omega)]
      exact ih hs h

theorem Cells.find?_iff_mem {m : Cells α} (hm : Cells.sorted m) {i : Nat} {v : α} :
    Cells.find? m i = some v ↔ (i, v) ∈ m := ⟨Cells.find?_some_mem, Cells.find?_of_mem hm⟩

theorem Cells.wf_rebaseAll {m : Cells Half} (hm : Cells.sorted m) (w : Nat) : Cells.wf 0 (rebaseAll w m) := by
  refine ⟨?_, fun c hc => by simpa [rebaseAll] using (List.mem_filter.1 hc).2⟩
  refine List.Pairwise.sublist List.filter_sublist ?_
  exact (List.pairwise_map.2 (by simpa using hm))

theorem Cells.read_rebaseAll {m : Cells Half} (hm : Cells.sorted m) (w i : Nat) :
    Cells.read 0 (rebaseAll w m) i = rebase w (Cells.read 0 m i) := by
  have h0 : rebase w 0 = 0 := by simp [rebase]
  have key : ∀ v, Cells.find? (rebaseAll w m) i = some v ↔
      ∃ u, Cells.find? m i = some u ∧ rebase w u = v ∧ v ≠ 0 := by
    intro v
    rw [Cells.find?_iff_mem (Cells.wf_rebaseAll hm w).1]
    simp only [rebaseAll, List.mem_filter, List.mem_map, Prod.mk.injEq, decide_eq_true_eq]
    constructor
    · rintro ⟨⟨⟨k, u⟩, hc, rfl, rfl⟩, hv⟩
      exact ⟨u, Cells.find?_of_mem hm hc, rfl, hv⟩
    · rintro ⟨u, hu, rfl, hv⟩
      exact ⟨⟨(i, u), Cells.find?_some_mem hu, rfl, rfl⟩, hv⟩
  unfold Cells.read
  cases hf : Cells.find? m i with
  | none =>
    cases hr : Cells.find? (rebaseAll w m) i with
    | none => simpa using h0.symm
    | some v => obtain ⟨u, hu, -⟩ := (key v).1 hr; rw [hf] at hu; cases hu
  | some u =>
    by_cases hz : rebase w u = 0
    · cases hr : Cells.find? (rebaseAll w m) i with
      | none => simp [hz]
      | some v =>
        obtain ⟨u', hu, rfl, hv⟩ := (key v).1 hr
        rw [hf] at hu; cases hu; exact absurd hz hv
    · rw [(key (rebase w u)).2 ⟨u, hf, rfl, hz⟩]; rfl

theorem Memory.wf_slideDown {m : Memory} {w : Nat} (hm : Memory.wf m) (hb : Cells.below (2 * w) m) :
    Memory.wf (slideDown w m) := by
  have hs : Cells.sorted (m.filter fun c => decide (w ≤ c.1)) := hm.1.sublist List.filter_sublist
  refine ⟨?_, fun c hc => ?_⟩
  · refine List.pairwise_append.2 ⟨List.pairwise_map.2 (hs.imp_of_mem ?_), hs, ?_⟩
    · intro a b ha hb hab
      have := (List.mem_filter.1 ha).2; have := (List.mem_filter.1 hb).2
      simp only [decide_eq_true_eq] at *; omega
    · intro a ha b hb'
      obtain ⟨a', ha', rfl⟩ := List.mem_map.1 ha
      obtain ⟨ha1, ha2⟩ := List.mem_filter.1 ha'
      obtain ⟨hb1, hb2⟩ := List.mem_filter.1 hb'
      have := hb a' ha1
      simp only [decide_eq_true_eq] at *; omega
  · rcases List.mem_append.1 hc with hc | hc
    · obtain ⟨a, ha, rfl⟩ := List.mem_map.1 hc
      exact hm.2 a (List.mem_filter.1 ha).1
    · exact hm.2 c (List.mem_filter.1 hc).1

theorem Cells.below_slideDown {m : Memory} {w n : Nat} (hb : Cells.below n m) : Cells.below n (slideDown w m) :=
  fun c hc => by
    rcases List.mem_append.1 hc with hc | hc
    · obtain ⟨a, ha, rfl⟩ := List.mem_map.1 hc
      have := hb a (List.mem_filter.1 ha).1
      show a.1 - w < n; omega
    · exact hb c (List.mem_filter.1 hc).1

theorem Cells.read_eq_of_find? {d : α} {m m' : Cells α} {i j : Nat}
    (h : ∀ v, Cells.find? m i = some v ↔ Cells.find? m' j = some v) : Cells.read d m i = Cells.read d m' j := by
  have : Cells.find? m i = Cells.find? m' j := Option.ext fun v => by simpa using h v
  simp [Cells.read, this]

theorem Memory.read_slideDown {m : Memory} {w : Nat} (hm : Memory.wf m) (hb : Cells.below (2 * w) m) (i : Nat) :
    Memory.read (slideDown w m) i = if i < w then Memory.read m (i + w) else Memory.read m i := by
  have hs := (Memory.wf_slideDown hm hb).1
  split
  · next hi =>
    refine Cells.read_eq_of_find? fun v => ?_
    rw [Cells.find?_iff_mem hs, Cells.find?_iff_mem hm.1]
    simp only [slideDown, List.mem_append, List.mem_map, List.mem_filter, decide_eq_true_eq]
    constructor
    · rintro (⟨⟨k, u⟩, ⟨h1, h2⟩, h3⟩ | ⟨-, h⟩)
      · simp only [Prod.mk.injEq] at h3
        obtain ⟨rfl, rfl⟩ := h3
        rwa [show k - w + w = k by omega]
      · omega
    · intro h
      exact .inl ⟨(i + w, v), ⟨h, by simp⟩, by simp⟩
  · next hi =>
    refine Cells.read_eq_of_find? fun v => ?_
    rw [Cells.find?_iff_mem hs, Cells.find?_iff_mem hm.1]
    simp only [slideDown, List.mem_append, List.mem_map, List.mem_filter, decide_eq_true_eq]
    constructor
    · rintro (⟨⟨k, u⟩, ⟨h1, h2⟩, h3⟩ | ⟨h, -⟩)
      · simp only [Prod.mk.injEq] at h3
        have := hb _ h1
        simp at this; omega
      · exact h
    · intro h
      exact .inr ⟨h, by omega⟩

end Sys2Proof.Machine
end

