-- ==== Sys2Proof/Laws/State.lean ====
section
/-! SUPPORT. What each update of the state leaves in each field: one lemma a field, true by unfolding, for `simp`. -/

namespace Sys2Proof.Machine

variable (s : State) (st : Status) (r0 r1 : Word) (eng : Engine) (p : Port) (e : Latch) (r : StreamReason)
  (c : Command) (rest : List Command)

/-! ## The register block -/

@[simp] theorem Regs.report_cfgKind (g : Regs) (w : Word) (a b : Nat) : (g.report w a b).cfgKind = g.cfgKind := rfl
@[simp] theorem Regs.report_cfgWbits (g : Regs) (w : Word) (a b : Nat) : (g.report w a b).cfgWbits = g.cfgWbits := rfl
@[simp] theorem Regs.report_cfgLevel (g : Regs) (w : Word) (a b : Nat) : (g.report w a b).cfgLevel = g.cfgLevel := rfl
@[simp] theorem Regs.report_cfgStrategy (g : Regs) (w : Word) (a b : Nat) : (g.report w a b).cfgStrategy = g.cfgStrategy := rfl
@[simp] theorem Regs.report_cfgDict (g : Regs) (w : Word) (a b : Nat) : (g.report w a b).cfgDict = g.cfgDict := rfl
@[simp] theorem Regs.report_cfgDictSum (g : Regs) (w : Word) (a b : Nat) : (g.report w a b).cfgDictSum = g.cfgDictSum := rfl
@[simp] theorem Regs.report_status (g : Regs) (w : Word) (a b : Nat) : (g.report w a b).status = w := rfl
@[simp] theorem Regs.report_inConsumed (g : Regs) (w : Word) (a b : Nat) : (g.report w a b).inConsumed = BitVec.ofNat 32 a := rfl
@[simp] theorem Regs.report_outProduced (g : Regs) (w : Word) (a b : Nat) : (g.report w a b).outProduced = BitVec.ofNat 32 b := rfl
@[simp] theorem Regs.report_totalIn (g : Regs) (w : Word) (a b : Nat) : (g.report w a b).totalIn = g.totalIn + BitVec.ofNat 32 a := rfl
@[simp] theorem Regs.report_totalOut (g : Regs) (w : Word) (a b : Nat) : (g.report w a b).totalOut = g.totalOut + BitVec.ofNat 32 b := rfl
@[simp] theorem Regs.report_result0 (g : Regs) (w : Word) (a b : Nat) : (g.report w a b).result0 = g.result0 := rfl
@[simp] theorem Regs.report_result1 (g : Regs) (w : Word) (a b : Nat) : (g.report w a b).result1 = g.result1 := rfl

/-! ## The register block by offset (R52) -/

@[simp] theorem Regs.readAt_cfgKind (g : Regs) : g.readAt 0 = some g.cfgKind := rfl
@[simp] theorem Regs.readAt_cfgWbits (g : Regs) : g.readAt 4 = some g.cfgWbits := rfl
@[simp] theorem Regs.readAt_cfgLevel (g : Regs) : g.readAt 8 = some g.cfgLevel := rfl
@[simp] theorem Regs.readAt_cfgStrategy (g : Regs) : g.readAt 12 = some g.cfgStrategy := rfl
@[simp] theorem Regs.readAt_cfgDict (g : Regs) : g.readAt 16 = some g.cfgDict := rfl
@[simp] theorem Regs.readAt_cfgDictSum (g : Regs) : g.readAt 20 = some g.cfgDictSum := rfl
@[simp] theorem Regs.readAt_status (g : Regs) : g.readAt 24 = some g.status := rfl
@[simp] theorem Regs.readAt_inConsumed (g : Regs) : g.readAt 28 = some g.inConsumed := rfl
@[simp] theorem Regs.readAt_outProduced (g : Regs) : g.readAt 32 = some g.outProduced := rfl
@[simp] theorem Regs.readAt_totalIn (g : Regs) : g.readAt 36 = some g.totalIn := rfl
@[simp] theorem Regs.readAt_totalOut (g : Regs) : g.readAt 40 = some g.totalOut := rfl
@[simp] theorem Regs.readAt_result0 (g : Regs) : g.readAt 44 = some g.result0 := rfl
@[simp] theorem Regs.readAt_result1 (g : Regs) : g.readAt 48 = some g.result1 := rfl

/-! ## A command that completes -/

@[simp] theorem State.complete_target : (s.complete st r0 r1 eng p).target = s.target := rfl
@[simp] theorem State.complete_parked : (s.complete st r0 r1 eng p).parked = s.parked := rfl
@[simp] theorem State.complete_queue : (s.complete st r0 r1 eng p).queue = s.queue := rfl
@[simp] theorem State.complete_port : (s.complete st r0 r1 eng p).port = p := rfl
@[simp] theorem State.complete_err : (s.complete st r0 r1 eng p).codec.err = s.codec.err := rfl
@[simp] theorem State.complete_engine : (s.complete st r0 r1 eng p).codec.engine = eng := rfl
@[simp] theorem State.complete_cfgKind : (s.complete st r0 r1 eng p).codec.regs.cfgKind = s.codec.regs.cfgKind := rfl
@[simp] theorem State.complete_cfgWbits : (s.complete st r0 r1 eng p).codec.regs.cfgWbits = s.codec.regs.cfgWbits := rfl
@[simp] theorem State.complete_cfgLevel : (s.complete st r0 r1 eng p).codec.regs.cfgLevel = s.codec.regs.cfgLevel := rfl
@[simp] theorem State.complete_cfgStrategy : (s.complete st r0 r1 eng p).codec.regs.cfgStrategy = s.codec.regs.cfgStrategy := rfl
@[simp] theorem State.complete_cfgDict : (s.complete st r0 r1 eng p).codec.regs.cfgDict = s.codec.regs.cfgDict := rfl
@[simp] theorem State.complete_cfgDictSum : (s.complete st r0 r1 eng p).codec.regs.cfgDictSum = s.codec.regs.cfgDictSum := rfl
@[simp] theorem State.complete_status : (s.complete st r0 r1 eng p).codec.regs.status = st.word := rfl
@[simp] theorem State.complete_inConsumed : (s.complete st r0 r1 eng p).codec.regs.inConsumed = BitVec.ofNat 32 (s.consumed p) := rfl
@[simp] theorem State.complete_outProduced : (s.complete st r0 r1 eng p).codec.regs.outProduced = BitVec.ofNat 32 p.output.length := rfl
@[simp] theorem State.complete_totalIn : (s.complete st r0 r1 eng p).codec.regs.totalIn = s.codec.regs.totalIn + BitVec.ofNat 32 (s.consumed p) := rfl
@[simp] theorem State.complete_totalOut : (s.complete st r0 r1 eng p).codec.regs.totalOut = s.codec.regs.totalOut + BitVec.ofNat 32 p.output.length := rfl
@[simp] theorem State.complete_result0 : (s.complete st r0 r1 eng p).codec.regs.result0 = r0 := rfl
@[simp] theorem State.complete_result1 : (s.complete st r0 r1 eng p).codec.regs.result1 = r1 := rfl

/-! ## A transient status -/

@[simp] theorem State.transient_target : (s.transient st).target = s.target := rfl
@[simp] theorem State.transient_parked : (s.transient st).parked = s.parked := rfl
@[simp] theorem State.transient_queue : (s.transient st).queue = s.queue := rfl
@[simp] theorem State.transient_port : (s.transient st).port = s.startPort := rfl
@[simp] theorem State.transient_err : (s.transient st).codec.err = s.codec.err := rfl
@[simp] theorem State.transient_engine : (s.transient st).codec.engine = s.codec.engine := rfl
@[simp] theorem State.transient_cfgKind : (s.transient st).codec.regs.cfgKind = s.codec.regs.cfgKind := rfl
@[simp] theorem State.transient_cfgWbits : (s.transient st).codec.regs.cfgWbits = s.codec.regs.cfgWbits := rfl
@[simp] theorem State.transient_cfgLevel : (s.transient st).codec.regs.cfgLevel = s.codec.regs.cfgLevel := rfl
@[simp] theorem State.transient_cfgStrategy : (s.transient st).codec.regs.cfgStrategy = s.codec.regs.cfgStrategy := rfl
@[simp] theorem State.transient_cfgDict : (s.transient st).codec.regs.cfgDict = s.codec.regs.cfgDict := rfl
@[simp] theorem State.transient_cfgDictSum : (s.transient st).codec.regs.cfgDictSum = s.codec.regs.cfgDictSum := rfl
@[simp] theorem State.transient_status : (s.transient st).codec.regs.status = st.word := rfl
@[simp] theorem State.transient_inConsumed : (s.transient st).codec.regs.inConsumed = BitVec.ofNat 32 0 := rfl
@[simp] theorem State.transient_outProduced : (s.transient st).codec.regs.outProduced = BitVec.ofNat 32 0 := rfl
@[simp] theorem State.transient_totalIn : (s.transient st).codec.regs.totalIn = s.codec.regs.totalIn + BitVec.ofNat 32 0 := rfl
@[simp] theorem State.transient_totalOut : (s.transient st).codec.regs.totalOut = s.codec.regs.totalOut + BitVec.ofNat 32 0 := rfl
@[simp] theorem State.transient_result0 : (s.transient st).codec.regs.result0 = s.codec.regs.result0 := rfl
@[simp] theorem State.transient_result1 : (s.transient st).codec.regs.result1 = s.codec.regs.result1 := rfl

/-! ## A raise -/

@[simp] theorem State.raise_target : (s.raise e eng p).target = s.target := rfl
@[simp] theorem State.raise_parked : (s.raise e eng p).parked = s.parked := rfl
@[simp] theorem State.raise_queue : (s.raise e eng p).queue = s.queue := rfl
@[simp] theorem State.raise_port : (s.raise e eng p).port = p := rfl
@[simp] theorem State.raise_err : (s.raise e eng p).codec.err = some e := rfl
@[simp] theorem State.raise_engine : (s.raise e eng p).codec.engine = eng.failed := rfl
@[simp] theorem State.raise_cfgKind : (s.raise e eng p).codec.regs.cfgKind = s.codec.regs.cfgKind := rfl
@[simp] theorem State.raise_cfgWbits : (s.raise e eng p).codec.regs.cfgWbits = s.codec.regs.cfgWbits := rfl
@[simp] theorem State.raise_cfgLevel : (s.raise e eng p).codec.regs.cfgLevel = s.codec.regs.cfgLevel := rfl
@[simp] theorem State.raise_cfgStrategy : (s.raise e eng p).codec.regs.cfgStrategy = s.codec.regs.cfgStrategy := rfl
@[simp] theorem State.raise_cfgDict : (s.raise e eng p).codec.regs.cfgDict = s.codec.regs.cfgDict := rfl
@[simp] theorem State.raise_cfgDictSum : (s.raise e eng p).codec.regs.cfgDictSum = s.codec.regs.cfgDictSum := rfl
@[simp] theorem State.raise_status : (s.raise e eng p).codec.regs.status = e.word := rfl
@[simp] theorem State.raise_inConsumed : (s.raise e eng p).codec.regs.inConsumed = BitVec.ofNat 32 (s.consumed p) := rfl
@[simp] theorem State.raise_outProduced : (s.raise e eng p).codec.regs.outProduced = BitVec.ofNat 32 p.output.length := rfl
@[simp] theorem State.raise_totalIn : (s.raise e eng p).codec.regs.totalIn = s.codec.regs.totalIn + BitVec.ofNat 32 (s.consumed p) := rfl
@[simp] theorem State.raise_totalOut : (s.raise e eng p).codec.regs.totalOut = s.codec.regs.totalOut + BitVec.ofNat 32 p.output.length := rfl
@[simp] theorem State.raise_result0 : (s.raise e eng p).codec.regs.result0 = s.codec.regs.result0 := rfl
@[simp] theorem State.raise_result1 : (s.raise e eng p).codec.regs.result1 = s.codec.regs.result1 := rfl

/-! ## The raise of an engine command -/

@[simp] theorem State.raiseEngine_target : (s.raiseEngine e eng p).target = s.target := rfl
@[simp] theorem State.raiseEngine_parked : (s.raiseEngine e eng p).parked = s.parked := rfl
@[simp] theorem State.raiseEngine_queue : (s.raiseEngine e eng p).queue = s.queue := rfl
@[simp] theorem State.raiseEngine_port : (s.raiseEngine e eng p).port = p := rfl
@[simp] theorem State.raiseEngine_err : (s.raiseEngine e eng p).codec.err = some e := rfl
@[simp] theorem State.raiseEngine_engine : (s.raiseEngine e eng p).codec.engine = eng.failed := rfl
@[simp] theorem State.raiseEngine_cfgKind : (s.raiseEngine e eng p).codec.regs.cfgKind = s.codec.regs.cfgKind := rfl
@[simp] theorem State.raiseEngine_cfgWbits : (s.raiseEngine e eng p).codec.regs.cfgWbits = s.codec.regs.cfgWbits := rfl
@[simp] theorem State.raiseEngine_cfgLevel : (s.raiseEngine e eng p).codec.regs.cfgLevel = s.codec.regs.cfgLevel := rfl
@[simp] theorem State.raiseEngine_cfgStrategy : (s.raiseEngine e eng p).codec.regs.cfgStrategy = s.codec.regs.cfgStrategy := rfl
@[simp] theorem State.raiseEngine_cfgDict : (s.raiseEngine e eng p).codec.regs.cfgDict = s.codec.regs.cfgDict := rfl
@[simp] theorem State.raiseEngine_cfgDictSum : (s.raiseEngine e eng p).codec.regs.cfgDictSum = s.codec.regs.cfgDictSum := rfl
@[simp] theorem State.raiseEngine_status : (s.raiseEngine e eng p).codec.regs.status = e.word := rfl
@[simp] theorem State.raiseEngine_inConsumed : (s.raiseEngine e eng p).codec.regs.inConsumed = BitVec.ofNat 32 (s.consumed p) := rfl
@[simp] theorem State.raiseEngine_outProduced : (s.raiseEngine e eng p).codec.regs.outProduced = BitVec.ofNat 32 p.output.length := rfl
@[simp] theorem State.raiseEngine_totalIn : (s.raiseEngine e eng p).codec.regs.totalIn = s.codec.regs.totalIn + BitVec.ofNat 32 (s.consumed p) := rfl
@[simp] theorem State.raiseEngine_totalOut : (s.raiseEngine e eng p).codec.regs.totalOut = s.codec.regs.totalOut + BitVec.ofNat 32 p.output.length := rfl
@[simp] theorem State.raiseEngine_result0 : (s.raiseEngine e eng p).codec.regs.result0 = 0 := rfl
@[simp] theorem State.raiseEngine_result1 : (s.raiseEngine e eng p).codec.regs.result1 = 0 := rfl

/-! ## The answer of a latched instance -/

@[simp] theorem State.answerLatched_target : (s.answerLatched e).target = s.target := rfl
@[simp] theorem State.answerLatched_parked : (s.answerLatched e).parked = s.parked := rfl
@[simp] theorem State.answerLatched_queue : (s.answerLatched e).queue = s.queue := rfl
@[simp] theorem State.answerLatched_port : (s.answerLatched e).port = s.startPort := rfl
@[simp] theorem State.answerLatched_err : (s.answerLatched e).codec.err = s.codec.err := rfl
@[simp] theorem State.answerLatched_engine : (s.answerLatched e).codec.engine = s.codec.engine := rfl
@[simp] theorem State.answerLatched_cfgKind : (s.answerLatched e).codec.regs.cfgKind = s.codec.regs.cfgKind := rfl
@[simp] theorem State.answerLatched_cfgWbits : (s.answerLatched e).codec.regs.cfgWbits = s.codec.regs.cfgWbits := rfl
@[simp] theorem State.answerLatched_cfgLevel : (s.answerLatched e).codec.regs.cfgLevel = s.codec.regs.cfgLevel := rfl
@[simp] theorem State.answerLatched_cfgStrategy : (s.answerLatched e).codec.regs.cfgStrategy = s.codec.regs.cfgStrategy := rfl
@[simp] theorem State.answerLatched_cfgDict : (s.answerLatched e).codec.regs.cfgDict = s.codec.regs.cfgDict := rfl
@[simp] theorem State.answerLatched_cfgDictSum : (s.answerLatched e).codec.regs.cfgDictSum = s.codec.regs.cfgDictSum := rfl
@[simp] theorem State.answerLatched_status : (s.answerLatched e).codec.regs.status = e.word := rfl
@[simp] theorem State.answerLatched_inConsumed : (s.answerLatched e).codec.regs.inConsumed = BitVec.ofNat 32 0 := rfl
@[simp] theorem State.answerLatched_outProduced : (s.answerLatched e).codec.regs.outProduced = BitVec.ofNat 32 0 := rfl
@[simp] theorem State.answerLatched_totalIn : (s.answerLatched e).codec.regs.totalIn = s.codec.regs.totalIn + BitVec.ofNat 32 0 := rfl
@[simp] theorem State.answerLatched_totalOut : (s.answerLatched e).codec.regs.totalOut = s.codec.regs.totalOut + BitVec.ofNat 32 0 := rfl
@[simp] theorem State.answerLatched_result0 : (s.answerLatched e).codec.regs.result0 = s.codec.regs.result0 := rfl
@[simp] theorem State.answerLatched_result1 : (s.answerLatched e).codec.regs.result1 = s.codec.regs.result1 := rfl

/-! ## A refused reset -/

@[simp] theorem State.refuseReset_target : s.refuseReset.target = s.target := rfl
@[simp] theorem State.refuseReset_parked : s.refuseReset.parked = s.parked := rfl
@[simp] theorem State.refuseReset_queue : s.refuseReset.queue = s.queue := rfl
@[simp] theorem State.refuseReset_port : s.refuseReset.port = s.startPort := rfl
@[simp] theorem State.refuseReset_err : s.refuseReset.codec.err = some (.stream .badOperand) := rfl
@[simp] theorem State.refuseReset_engine : s.refuseReset.codec.engine = s.codec.engine := rfl
@[simp] theorem State.refuseReset_cfgKind : s.refuseReset.codec.regs.cfgKind = s.codec.regs.cfgKind := rfl
@[simp] theorem State.refuseReset_cfgWbits : s.refuseReset.codec.regs.cfgWbits = s.codec.regs.cfgWbits := rfl
@[simp] theorem State.refuseReset_cfgLevel : s.refuseReset.codec.regs.cfgLevel = s.codec.regs.cfgLevel := rfl
@[simp] theorem State.refuseReset_cfgStrategy : s.refuseReset.codec.regs.cfgStrategy = s.codec.regs.cfgStrategy := rfl
@[simp] theorem State.refuseReset_cfgDict : s.refuseReset.codec.regs.cfgDict = s.codec.regs.cfgDict := rfl
@[simp] theorem State.refuseReset_cfgDictSum : s.refuseReset.codec.regs.cfgDictSum = s.codec.regs.cfgDictSum := rfl
@[simp] theorem State.refuseReset_status : s.refuseReset.codec.regs.status = (Latch.stream .badOperand).word := rfl
@[simp] theorem State.refuseReset_inConsumed : s.refuseReset.codec.regs.inConsumed = BitVec.ofNat 32 0 := rfl
@[simp] theorem State.refuseReset_outProduced : s.refuseReset.codec.regs.outProduced = BitVec.ofNat 32 0 := rfl
@[simp] theorem State.refuseReset_totalIn : s.refuseReset.codec.regs.totalIn = s.codec.regs.totalIn + BitVec.ofNat 32 0 := rfl
@[simp] theorem State.refuseReset_totalOut : s.refuseReset.codec.regs.totalOut = s.codec.regs.totalOut + BitVec.ofNat 32 0 := rfl
@[simp] theorem State.refuseReset_result0 : s.refuseReset.codec.regs.result0 = s.codec.regs.result0 := rfl
@[simp] theorem State.refuseReset_result1 : s.refuseReset.codec.regs.result1 = s.codec.regs.result1 := rfl

/-! ## Taking a command -/

@[simp] theorem State.present_port : (s.present c rest).port = ⟨c.input, c.space, []⟩ := rfl
@[simp] theorem State.present_queue : (s.present c rest).queue = rest := rfl
@[simp] theorem State.present_target : (s.present c rest).target = c.target := by
  simp only [State.present, State.select]; split <;> simp_all
@[simp] theorem State.present_codec : (s.present c rest).codec = s.codecAt c.target := by
  simp only [State.present, State.select, State.codecAt]; split <;> rfl
@[simp] theorem State.startPort_input : s.startPort.input = s.port.input := rfl
@[simp] theorem State.startPort_space : s.startPort.space = s.port.space := rfl
@[simp] theorem State.startPort_output : s.startPort.output = [] := rfl
@[simp] theorem State.codecAt_target : s.codecAt s.target = s.codec := by simp [State.codecAt]

/-! ## The port -/

@[simp] theorem Port.emit_input (bs : List Byte) : (p.emit bs).input = p.input := rfl
@[simp] theorem Port.emit_space (bs : List Byte) : (p.emit bs).space = p.space - bs.length := rfl
@[simp] theorem Port.emit_output (bs : List Byte) : (p.emit bs).output = p.output ++ bs := rfl

/-! ## The descriptors of a deflate instance -/

@[simp] theorem Deflate.tree_setTree (d : Deflate) (id : TreeId) (t : Tree) : (d.setTree id t).tree id = t := by
  cases id <;> rfl
theorem Deflate.setTree_tree (d : Deflate) (id : TreeId) : d.setTree id (d.tree id) = d := by cases id <;> rfl
@[simp] theorem Deflate.plant_forest (d : Deflate) (id : TreeId) : d.plant id (d.forest id) = d := by cases id <;> rfl

/-! ## Other instances -/

/-- Presenting a command changes no other instance, in a state whose list of the others is in canonical form. -/
theorem State.codecAt_present (hs : Cells.sorted s.parked) (k : Nat) (hk : k ≠ c.target) :
    (s.present c rest).codecAt k = s.codecAt k := by
  by_cases hc : c.target = s.target
  · simp [State.present, State.select, State.codecAt, hc]
  · have he : Cells.sorted (Cells.erase s.parked c.target) := Cells.sorted_erase hs _
    simp only [State.present, State.select, State.codecAt, if_neg hc]
    rw [if_neg hk, Cells.read_write he]
    by_cases h : k = s.target
    · simp [h]
    · simp [h, Cells.read, Cells.find?_erase hs, hk]

end Sys2Proof.Machine
end

