-- ==== Sys2Proof/Laws/Command.lean ====
section
/-! SUPPORT. What the frame of a command can do, said once: every command but a reset is a body inside
`inflateCommand` or `deflateCommand`, and these end in one of seven ways. -/

namespace Sys2Proof.Machine

variable {s t : State} {σ : Type}

/-! ## Every command is a body in its frame -/

/-- A command that only an inflate instance has, as a body. -/
theorem exec_inflate (i : Instr) (h : owner i = .inflate) :
    ∃ body, ∀ s, exec i s = s.inflateCommand (operandsLegal i) body := by
  cases i <;> first
  | (cases h; done)
  | (
    simp only [exec, execInfStep, execInfSetDict, execBcrNeed, execBcrPeek, execBcrDrop, execBcrGet, execBcrAlign,
      execBcrByte, execSwbPut, execSwbCopy, execSwbDrain, execSwbSeed, execHdtBuild, execHdtFixed, execHdtDecode]
    exact ⟨_, fun _ => rfl⟩)

/-- A command that only a deflate instance has, as a body. -/
theorem exec_deflate (i : Instr) (h : owner i = .deflate) :
    ∃ body, ∀ s, exec i s = s.deflateCommand (operandsLegal i) body := by
  cases i <;> first
  | (cases h; done)
  | (
    simp only [exec, execDefStep, execDefSetDict, execBcwPut, execBcwPutByte, execBcwPutShort, execBcwWindup,
      execBcwFlush, execBcwDrain, execSwbFill, execSwbSlide, execSwbDseed, execMfHashInit, execMfInsert,
      execMfLongest, execTbInitBlock, execTbTally, execTbBuild, execTbGenBitlen, execTbGenCodes, execTbScan,
      execTbBlTree, execTbSendTree, execTbSendAll, execTbCompress, execTbStored, execTbFlushBlock]
    exact ⟨_, fun _ => rfl⟩)

/-- A reset command, as the instance it installs. -/
theorem exec_reset (i : Instr) (h : owner i = .reset) :
    ∃ fresh, ∀ s, exec i s = s.resetCommand (operandsLegal i) fresh := by
  cases i <;> first
  | (cases h; done)
  | (
    simp only [exec, execInfReset, execDefReset]
    exact ⟨_, fun _ => rfl⟩)

/-! ## The frame on an instance of the right kind -/

theorem State.inflateCommand_of {d : Inflate} (h : s.isInflate d) (body : Inflate → Port → Reply Inflate) :
    s.inflateCommand true body = s.commit .inflate (body d s.startPort) := by
  simp [State.inflateCommand, h.1, h.2]

theorem State.deflateCommand_of {d : Deflate} (h : s.isDeflate d) (body : Deflate → Port → Reply Deflate) :
    s.deflateCommand true body = s.commit .deflate (body d s.startPort) := by
  simp [State.deflateCommand, h.1, h.2]

theorem State.inflateCommand_illegal {d : Inflate} (h : s.isInflate d) (body : Inflate → Port → Reply Inflate) :
    s.inflateCommand false body = .next (s.raiseAtOnce .badOperand) := by
  simp [State.inflateCommand, h.1, h.2]

theorem State.deflateCommand_illegal {d : Deflate} (h : s.isDeflate d) (body : Deflate → Port → Reply Deflate) :
    s.deflateCommand false body = .next (s.raiseAtOnce .badOperand) := by
  simp [State.deflateCommand, h.1, h.2]

theorem State.inflateCommand_latched {e : Latch} (h : s.codec.err = some e) (legal : Bool)
    (body : Inflate → Port → Reply Inflate) : s.inflateCommand legal body = .next (s.answerLatched e) := by
  simp [State.inflateCommand, h]

theorem State.deflateCommand_latched {e : Latch} (h : s.codec.err = some e) (legal : Bool)
    (body : Deflate → Port → Reply Deflate) : s.deflateCommand legal body = .next (s.answerLatched e) := by
  simp [State.deflateCommand, h]

theorem State.inflateCommand_wrongKind (h : s.codec.err = none) (hk : ∀ d, s.codec.engine ≠ .inflate d) (legal : Bool)
    (body : Inflate → Port → Reply Inflate) : s.inflateCommand legal body = .next (s.raiseAtOnce .wrongKind) := by
  unfold State.inflateCommand
  rw [h]
  split
  · cases ‹none = some _›
  · cases he : s.codec.engine with
    | inflate d => exact absurd he (hk d)
    | deflate d => rfl
    | unset => rfl

theorem State.deflateCommand_wrongKind (h : s.codec.err = none) (hk : ∀ d, s.codec.engine ≠ .deflate d) (legal : Bool)
    (body : Deflate → Port → Reply Deflate) : s.deflateCommand legal body = .next (s.raiseAtOnce .wrongKind) := by
  unfold State.deflateCommand
  rw [h]
  split
  · cases ‹none = some _›
  · cases he : s.codec.engine with
    | inflate d => rfl
    | deflate d => exact absurd he (hk d)
    | unset => rfl

/-! ## The ways a command ends -/

/-- The ends of a command's body that are a next state. -/
theorem State.commit_next {wrap : σ → Engine} {reply : Reply σ} (h : s.commit wrap reply = .next t) :
    (∃ st r0 r1 u p, reply = .done st r0 r1 u p ∧ t = s.complete st r0 r1 (wrap u) p) ∨
    (∃ st, reply = .transient st ∧ t = s.transient st) ∨
    (∃ e u p, reply = .raised e u p ∧ t = s.raise e (wrap u) p) ∨
    (∃ e u p, reply = .failed e u p ∧ t = s.raiseEngine e (wrap u) p) := by
  cases reply with
  | done st r0 r1 u p => cases h; exact .inl ⟨_, _, _, _, _, rfl, rfl⟩
  | transient st => cases h; exact .inr (.inl ⟨_, rfl, rfl⟩)
  | raised e u p => cases h; exact .inr (.inr (.inl ⟨_, _, _, rfl, rfl⟩))
  | failed e u p => cases h; exact .inr (.inr (.inr ⟨_, _, _, rfl, rfl⟩))
  | fault f => cases h

theorem State.commit_ne_refused {wrap : σ → Engine} (reply : Reply σ) (r : Refusal) : s.commit wrap reply ≠ .refused r := by
  cases reply <;> simp [State.commit]

/-- How a command that only an inflate instance has ends. -/
theorem State.inflateCommand_next {legal : Bool} {body : Inflate → Port → Reply Inflate}
    (h : s.inflateCommand legal body = .next t) :
    (∃ e, s.codec.err = some e ∧ t = s.answerLatched e) ∨
    (s.codec.err = none ∧ (∀ d, s.codec.engine ≠ .inflate d) ∧ t = s.raiseAtOnce .wrongKind) ∨
    (∃ d, s.isInflate d ∧ legal = false ∧ t = s.raiseAtOnce .badOperand) ∨
    (∃ d, s.isInflate d ∧ legal = true ∧ s.commit .inflate (body d s.startPort) = .next t) := by
  cases he : s.codec.err with
  | some e => rw [State.inflateCommand_latched he] at h; cases h; exact .inl ⟨e, rfl, rfl⟩
  | none =>
    by_cases hk : ∃ d, s.codec.engine = .inflate d
    · obtain ⟨d, hd⟩ := hk
      cases legal with
      | true => exact .inr (.inr (.inr ⟨d, ⟨he, hd⟩, rfl, by rwa [State.inflateCommand_of ⟨he, hd⟩] at h⟩))
      | false =>
        rw [State.inflateCommand_illegal ⟨he, hd⟩] at h
        cases h
        exact .inr (.inr (.inl ⟨d, ⟨he, hd⟩, rfl, rfl⟩))
    · have hk' : ∀ d, s.codec.engine ≠ .inflate d := fun d hd => hk ⟨d, hd⟩
      rw [State.inflateCommand_wrongKind he hk'] at h
      cases h
      exact .inr (.inl ⟨rfl, hk', rfl⟩)

/-- How a command that only a deflate instance has ends. -/
theorem State.deflateCommand_next {legal : Bool} {body : Deflate → Port → Reply Deflate}
    (h : s.deflateCommand legal body = .next t) :
    (∃ e, s.codec.err = some e ∧ t = s.answerLatched e) ∨
    (s.codec.err = none ∧ (∀ d, s.codec.engine ≠ .deflate d) ∧ t = s.raiseAtOnce .wrongKind) ∨
    (∃ d, s.isDeflate d ∧ legal = false ∧ t = s.raiseAtOnce .badOperand) ∨
    (∃ d, s.isDeflate d ∧ legal = true ∧ s.commit .deflate (body d s.startPort) = .next t) := by
  cases he : s.codec.err with
  | some e => rw [State.deflateCommand_latched he] at h; cases h; exact .inl ⟨e, rfl, rfl⟩
  | none =>
    by_cases hk : ∃ d, s.codec.engine = .deflate d
    · obtain ⟨d, hd⟩ := hk
      cases legal with
      | true => exact .inr (.inr (.inr ⟨d, ⟨he, hd⟩, rfl, by rwa [State.deflateCommand_of ⟨he, hd⟩] at h⟩))
      | false =>
        rw [State.deflateCommand_illegal ⟨he, hd⟩] at h
        cases h
        exact .inr (.inr (.inl ⟨d, ⟨he, hd⟩, rfl, rfl⟩))
    · have hk' : ∀ d, s.codec.engine ≠ .deflate d := fun d hd => hk ⟨d, hd⟩
      rw [State.deflateCommand_wrongKind he hk'] at h
      cases h
      exact .inr (.inl ⟨rfl, hk', rfl⟩)

/-- How a reset command ends. -/
theorem State.resetCommand_next {legal : Bool} {fresh : Codec} (h : s.resetCommand legal fresh = .next t) :
    (legal = true ∧ t = { s with codec := fresh, port := s.startPort }) ∨ (legal = false ∧ t = s.refuseReset) := by
  cases legal <;> · simp [State.resetCommand] at h; simp [h]

/-- A model fault carried out of a computation. -/
theorem Reply.ofExcept_eq {α : Type} {x : Except Fault α} {k : α → Reply σ} {r : Reply σ} (h : Reply.ofExcept x k = r) :
    (∃ a, x = .ok a ∧ k a = r) ∨ (∃ f, x = .error f ∧ r = .fault f) := by
  cases x with
  | ok a => exact .inl ⟨a, rfl, h⟩
  | error f => exact .inr ⟨f, rfl, h.symm⟩

@[simp] theorem Reply.ofExcept_ok {α : Type} (a : α) (k : α → Reply σ) : Reply.ofExcept (.ok a) k = k a := rfl

/-- One link of a computation that may fault. -/
theorem Except.bind_ok {ε α β : Type} {x : Except ε α} {f : α → Except ε β} {b : β} :
    (x >>= f) = .ok b ↔ ∃ a, x = .ok a ∧ f a = .ok b := by
  cases x <;> simp [bind, Except.bind]

@[simp] theorem Except.ok_bind {ε α β : Type} (a : α) (f : α → Except ε β) : (Except.ok a >>= f) = f a := rfl

/-! ## A command's end as the statements write it -/

/-- The end of a command that completes, with every field written out. -/
theorem State.complete_eq_after {st : Status} {r0 r1 : Word} {eng : Engine} {p : Port} (he : s.codec.err = none)
    (hp : p.space = s.port.space - p.output.length) :
    s.complete st r0 r1 eng p = Claim.after s none st.code r0 r1 eng p.input p.output := by
  obtain ⟨input, space, output⟩ := p
  obtain ⟨target, ⟨regs, err, engine⟩, parked, port, queue⟩ := s
  cases he
  simp only at hp
  subst hp
  rfl

/-- The end of a command that raises, with every field written out. -/
theorem State.raise_eq_after {e : Latch} {eng : Engine} {p : Port} (hp : p.space = s.port.space - p.output.length) :
    s.raise e eng p =
      Claim.after s (some e) (e.reason * 16 + e.status.code) s.codec.regs.result0 s.codec.regs.result1 eng.failed p.input
        p.output := by
  obtain ⟨input, space, output⟩ := p
  simp only at hp
  subst hp
  rfl

/-- The end of an engine command that raises in its body, with every field written out. -/
theorem State.raiseEngine_eq_after {e : Latch} {eng : Engine} {p : Port} (hp : p.space = s.port.space - p.output.length) :
    s.raiseEngine e eng p =
      Claim.after s (some e) (e.reason * 16 + e.status.code) 0 0 eng.failed p.input p.output := by
  obtain ⟨input, space, output⟩ := p
  simp only at hp
  subst hp
  rfl

theorem Engine.failed_eq_stopped (eng : Engine) : eng.failed = Claim.stopped eng := by cases eng <;> rfl

/-- A refusal before anything happened, with every field written out. -/
theorem State.raiseAtOnce_eq_after (r : StreamReason) :
    s.raiseAtOnce r =
      Claim.after s (some (.stream r)) (r.code * 16 + 7) s.codec.regs.result0 s.codec.regs.result1
        (Claim.stopped s.codec.engine) s.port.input [] := by
  rw [← Engine.failed_eq_stopped]
  exact State.raise_eq_after (by simp)

/-- A transient status, with every field written out. -/
theorem State.transient_eq_after {st : Status} (he : s.codec.err = none) :
    s.transient st =
      Claim.after s none st.code s.codec.regs.result0 s.codec.regs.result1 s.codec.engine s.port.input [] := by
  obtain ⟨target, ⟨regs, err, engine⟩, parked, port, queue⟩ := s
  cases he
  simp [State.transient, Claim.after, Regs.report, State.startPort, Status.word]

/-- The answer of a latched instance, with every field written out. -/
theorem State.answerLatched_eq_after {e : Latch} (he : s.codec.err = some e) :
    s.answerLatched e =
      Claim.after s (some e) (e.reason * 16 + e.status.code) s.codec.regs.result0 s.codec.regs.result1 s.codec.engine
        s.port.input [] := by
  obtain ⟨target, ⟨regs, err, engine⟩, parked, port, queue⟩ := s
  cases he
  simp [State.answerLatched, Claim.after, Regs.report, State.startPort, Latch.word]

/-- An inflate command whose body completes, as the statements write it. -/
theorem completes_of_inflate {i : Instr} {d : Inflate} {body : Inflate → Port → Reply Inflate} {st : Status} {r0 r1 : Nat}
    {u : Inflate} {p : Port} (h : s.isInflate d) (hx : exec i s = s.inflateCommand true body)
    (hb : body d s.startPort = .done st (BitVec.ofNat 32 r0) (BitVec.ofNat 32 r1) u p)
    (hp : p.space = s.port.space - p.output.length) :
    Claim.completes i s st.code r0 r1 (.inflate u) p.input p.output := by
  rw [Claim.completes, hx, State.inflateCommand_of h, hb, State.commit, State.complete_eq_after h.1 hp]

/-- A deflate command whose body completes, as the statements write it. -/
theorem completes_of_deflate {i : Instr} {d : Deflate} {body : Deflate → Port → Reply Deflate} {st : Status} {r0 r1 : Nat}
    {u : Deflate} {p : Port} (h : s.isDeflate d) (hx : exec i s = s.deflateCommand true body)
    (hb : body d s.startPort = .done st (BitVec.ofNat 32 r0) (BitVec.ofNat 32 r1) u p)
    (hp : p.space = s.port.space - p.output.length) :
    Claim.completes i s st.code r0 r1 (.deflate u) p.input p.output := by
  rw [Claim.completes, hx, State.deflateCommand_of h, hb, State.commit, State.complete_eq_after h.1 hp]

/-! ## What no command changes -/

/-- No command addresses another instance, changes one that it does not address, or takes a second command. -/
theorem exec_frame {i : Instr} (h : exec i s = .next t) : t.target = s.target ∧ t.parked = s.parked ∧ t.queue = s.queue := by
  cases ho : owner i with
  | reset =>
    obtain ⟨fresh, hx⟩ := exec_reset i ho
    rw [hx] at h
    rcases State.resetCommand_next h with ⟨-, rfl⟩ | ⟨-, rfl⟩ <;> simp
  | inflate =>
    obtain ⟨body, hx⟩ := exec_inflate i ho
    rw [hx] at h
    rcases State.inflateCommand_next h with ⟨e, -, rfl⟩ | ⟨-, -, rfl⟩ | ⟨d, -, -, rfl⟩ | ⟨d, -, -, hc⟩
    · simp
    · simp [State.raiseAtOnce]
    · simp [State.raiseAtOnce]
    · rcases State.commit_next hc with ⟨_, _, _, _, _, -, rfl⟩ | ⟨_, -, rfl⟩ | ⟨_, _, _, -, rfl⟩ | ⟨_, _, _, -, rfl⟩ <;> simp
  | deflate =>
    obtain ⟨body, hx⟩ := exec_deflate i ho
    rw [hx] at h
    rcases State.deflateCommand_next h with ⟨e, -, rfl⟩ | ⟨-, -, rfl⟩ | ⟨d, -, -, rfl⟩ | ⟨d, -, -, hc⟩
    · simp
    · simp [State.raiseAtOnce]
    · simp [State.raiseAtOnce]
    · rcases State.commit_next hc with ⟨_, _, _, _, _, -, rfl⟩ | ⟨_, -, rfl⟩ | ⟨_, _, _, -, rfl⟩ | ⟨_, _, _, -, rfl⟩ <;> simp

end Sys2Proof.Machine
end

