-- ==== Sys2Proof/Laws/PerInstr.lean ====
section
/-! SUPPORT. One law per command: the top byte of its first word, UNIT and OP, is its row's (spec/30_encoding.md R200,
R202..R210), whatever its operands, and a command without an operand word has W1 = 0. -/

namespace Sys2Proof.Laws.Opcode

/-- UNIT and OP of a command as the rows of spec/opcode_table.json have them, and whether W1 is an operand. -/
def row : Instr → Nat × Bool
  | .infReset _ _ _ => (0x10, true)
  | .infStep => (0x11, false)
  | .infSetDict => (0x12, false)
  | .defReset _ _ _ => (0x20, false)
  | .defStep _ => (0x21, false)
  | .defSetDict => (0x22, false)
  | .bcrNeed _ => (0x30, false)
  | .bcrPeek _ => (0x31, false)
  | .bcrDrop _ => (0x32, false)
  | .bcrGet _ => (0x33, false)
  | .bcrAlign => (0x34, false)
  | .bcrByte => (0x35, false)
  | .bcwPut _ _ => (0x40, false)
  | .bcwPutByte _ => (0x41, false)
  | .bcwPutShort _ => (0x42, false)
  | .bcwWindup => (0x43, false)
  | .bcwFlush => (0x44, false)
  | .bcwDrain => (0x45, false)
  | .swbPut _ => (0x50, false)
  | .swbCopy _ _ => (0x51, true)
  | .swbDrain => (0x52, false)
  | .swbSeed => (0x53, false)
  | .swbFill => (0x54, false)
  | .swbSlide => (0x55, false)
  | .swbDseed => (0x56, false)
  | .hdtBuild _ _ => (0x60, false)
  | .hdtFixed => (0x61, false)
  | .hdtDecode _ => (0x62, false)
  | .mfHashInit => (0x70, false)
  | .mfInsert _ => (0x71, true)
  | .mfLongest _ => (0x72, true)
  | .tbInitBlock => (0x80, false)
  | .tbTally _ _ => (0x81, true)
  | .tbBuild _ => (0x82, false)
  | .tbGenBitlen _ => (0x83, false)
  | .tbGenCodes _ => (0x84, false)
  | .tbScan _ => (0x85, false)
  | .tbBlTree => (0x86, false)
  | .tbSendTree _ => (0x87, false)
  | .tbSendAll _ _ _ => (0x88, false)
  | .tbCompress _ => (0x89, false)
  | .tbStored _ _ _ => (0x8A, true)
  | .tbFlushBlock _ => (0x8B, false)

/-- The first word carries the row's UNIT and OP, and the second is 0 where it is no operand. -/
def Statement (i : Instr) : Prop := (encode i).1.toNat / 2 ^ 24 = (row i).1 ∧ ((row i).2 = false → (encode i).2 = 0)

/-- The top byte of a command word. -/
theorem word0_top (b : Byte) (imm : BitVec 24) : (word0 b imm).toNat / 2 ^ 24 = b.toNat := by
  have h := imm.isLt
  rw [word0, BitVec.toNat_append, ← Nat.shiftLeft_add_eq_or_of_lt h, Nat.shiftLeft_eq, Nat.mul_comm,
    Nat.mul_add_div (by decide), Nat.div_eq_of_lt h, Nat.add_zero]

theorem infReset (wbits : BitVec 4) (hasDict : BitVec 1) (dictSum : Word) : Statement (.infReset wbits hasDict dictSum) := ⟨word0_top _ _, fun h => by cases h⟩
theorem infStep : Statement .infStep := ⟨word0_top _ _, fun _ => rfl⟩
theorem infSetDict : Statement .infSetDict := ⟨word0_top _ _, fun _ => rfl⟩
theorem defReset (wbits : BitVec 4) (level : BitVec 4) (strategy : BitVec 2) : Statement (.defReset wbits level strategy) := ⟨word0_top _ _, fun _ => rfl⟩
theorem defStep (flush : BitVec 3) : Statement (.defStep flush) := ⟨word0_top _ _, fun _ => rfl⟩
theorem defSetDict : Statement .defSetDict := ⟨word0_top _ _, fun _ => rfl⟩
theorem bcrNeed (n : BitVec 5) : Statement (.bcrNeed n) := ⟨word0_top _ _, fun _ => rfl⟩
theorem bcrPeek (n : BitVec 5) : Statement (.bcrPeek n) := ⟨word0_top _ _, fun _ => rfl⟩
theorem bcrDrop (n : BitVec 5) : Statement (.bcrDrop n) := ⟨word0_top _ _, fun _ => rfl⟩
theorem bcrGet (n : BitVec 5) : Statement (.bcrGet n) := ⟨word0_top _ _, fun _ => rfl⟩
theorem bcrAlign : Statement .bcrAlign := ⟨word0_top _ _, fun _ => rfl⟩
theorem bcrByte : Statement .bcrByte := ⟨word0_top _ _, fun _ => rfl⟩
theorem bcwPut (n : BitVec 5) (value : Half) : Statement (.bcwPut n value) := ⟨word0_top _ _, fun _ => rfl⟩
theorem bcwPutByte (b : Byte) : Statement (.bcwPutByte b) := ⟨word0_top _ _, fun _ => rfl⟩
theorem bcwPutShort (w : Half) : Statement (.bcwPutShort w) := ⟨word0_top _ _, fun _ => rfl⟩
theorem bcwWindup : Statement .bcwWindup := ⟨word0_top _ _, fun _ => rfl⟩
theorem bcwFlush : Statement .bcwFlush := ⟨word0_top _ _, fun _ => rfl⟩
theorem bcwDrain : Statement .bcwDrain := ⟨word0_top _ _, fun _ => rfl⟩
theorem swbPut (b : Byte) : Statement (.swbPut b) := ⟨word0_top _ _, fun _ => rfl⟩
theorem swbCopy (len : BitVec 9) (dist : Word) : Statement (.swbCopy len dist) := ⟨word0_top _ _, fun h => by cases h⟩
theorem swbDrain : Statement .swbDrain := ⟨word0_top _ _, fun _ => rfl⟩
theorem swbSeed : Statement .swbSeed := ⟨word0_top _ _, fun _ => rfl⟩
theorem swbFill : Statement .swbFill := ⟨word0_top _ _, fun _ => rfl⟩
theorem swbSlide : Statement .swbSlide := ⟨word0_top _ _, fun _ => rfl⟩
theorem swbDseed : Statement .swbDseed := ⟨word0_top _ _, fun _ => rfl⟩
theorem hdtBuild (kind : BitVec 2) (n : BitVec 9) : Statement (.hdtBuild kind n) := ⟨word0_top _ _, fun _ => rfl⟩
theorem hdtFixed : Statement .hdtFixed := ⟨word0_top _ _, fun _ => rfl⟩
theorem hdtDecode (table : BitVec 2) : Statement (.hdtDecode table) := ⟨word0_top _ _, fun _ => rfl⟩
theorem mfHashInit : Statement .mfHashInit := ⟨word0_top _ _, fun _ => rfl⟩
theorem mfInsert (pos : Word) : Statement (.mfInsert pos) := ⟨word0_top _ _, fun h => by cases h⟩
theorem mfLongest (curMatch : Word) : Statement (.mfLongest curMatch) := ⟨word0_top _ _, fun h => by cases h⟩
theorem tbInitBlock : Statement .tbInitBlock := ⟨word0_top _ _, fun _ => rfl⟩
theorem tbTally (lc : Byte) (dist : Word) : Statement (.tbTally lc dist) := ⟨word0_top _ _, fun h => by cases h⟩
theorem tbBuild (desc : BitVec 2) : Statement (.tbBuild desc) := ⟨word0_top _ _, fun _ => rfl⟩
theorem tbGenBitlen (desc : BitVec 2) : Statement (.tbGenBitlen desc) := ⟨word0_top _ _, fun _ => rfl⟩
theorem tbGenCodes (desc : BitVec 2) : Statement (.tbGenCodes desc) := ⟨word0_top _ _, fun _ => rfl⟩
theorem tbScan (desc : BitVec 2) : Statement (.tbScan desc) := ⟨word0_top _ _, fun _ => rfl⟩
theorem tbBlTree : Statement .tbBlTree := ⟨word0_top _ _, fun _ => rfl⟩
theorem tbSendTree (desc : BitVec 2) : Statement (.tbSendTree desc) := ⟨word0_top _ _, fun _ => rfl⟩
theorem tbSendAll (lcodes : BitVec 9) (dcodes : BitVec 5) (blcodes : BitVec 5) : Statement (.tbSendAll lcodes dcodes blcodes) := ⟨word0_top _ _, fun _ => rfl⟩
theorem tbCompress (dynamic : BitVec 1) : Statement (.tbCompress dynamic) := ⟨word0_top _ _, fun _ => rfl⟩
theorem tbStored (eof : BitVec 1) (buf : Half) (len : Half) : Statement (.tbStored eof buf len) := ⟨word0_top _ _, fun h => by cases h⟩
theorem tbFlushBlock (eof : BitVec 1) : Statement (.tbFlushBlock eof) := ⟨word0_top _ _, fun _ => rfl⟩

end Sys2Proof.Laws.Opcode
end

