-- ==== Sys2Proof/Laws/Units.lean ====
section
/-! SUPPORT. What the shared operations of the units can do, one lemma each: pulling bits, sending bits, the decoder's
window, and the encoder's window and hash chains. -/

namespace Sys2Proof.Machine

/-! ## The bit cursor (R300, R302) -/

theorem BitCursor.push_value {bc : BitCursor} (h : bc.Ok) (hc : bc.bitCount ≤ 24) (b : Byte) :
    (bc.push b).bitBuffer.toNat = bc.bitBuffer.toNat + 2 ^ bc.bitCount * b.toNat := by
  have hb := b.isLt
  have hlt : 2 ^ bc.bitCount * b.toNat < 2 ^ 32 :=
    calc 2 ^ bc.bitCount * b.toNat < 2 ^ bc.bitCount * 2 ^ 8 := by gcongr
      _ = 2 ^ (bc.bitCount + 8) := by rw [← Nat.pow_add]
      _ ≤ 2 ^ 32 := Nat.pow_le_pow_right (by decide) (by omega)
  have h8 : b.toNat % 2 ^ 32 = b.toNat := Nat.mod_eq_of_lt (by omega)
  simp only [BitCursor.push, BitVec.toNat_or, BitVec.toNat_shiftLeft, BitVec.toNat_setWidth, h8, Nat.shiftLeft_eq]
  rw [Nat.mul_comm b.toNat, Nat.mod_eq_of_lt hlt, Nat.or_comm, Nat.add_comm]
  exact (Nat.two_pow_add_eq_or_of_lt h _).symm

theorem BitCursor.push_ok {bc : BitCursor} (h : bc.Ok) (b : Byte) : (bc.push b).Ok := by
  unfold BitCursor.Ok
  by_cases hc : bc.bitCount ≤ 24
  · rw [BitCursor.push_value h hc]
    show _ < 2 ^ (bc.bitCount + 8)
    have hb := b.isLt
    calc bc.bitBuffer.toNat + 2 ^ bc.bitCount * b.toNat < 2 ^ bc.bitCount + 2 ^ bc.bitCount * b.toNat :=
          Nat.add_lt_add_right h _
      _ = 2 ^ bc.bitCount * (b.toNat + 1) := by ring
      _ ≤ 2 ^ bc.bitCount * 2 ^ 8 := by gcongr; omega
      _ = 2 ^ (bc.bitCount + 8) := by rw [← Nat.pow_add]
  · have := (bc.push b).bitBuffer.isLt
    exact lt_of_lt_of_le this (Nat.pow_le_pow_right (by decide) (by show 32 ≤ bc.bitCount + 8; omega))

theorem BitCursor.drop_ok {bc : BitCursor} (h : bc.Ok) (n : Nat) : (bc.drop n).Ok := by
  unfold BitCursor.Ok at *
  simp only [BitCursor.drop, BitVec.toNat_ushiftRight, Nat.shiftRight_eq_div_pow]
  rw [Nat.div_lt_iff_lt_mul (by positivity), ← Nat.pow_add]
  exact lt_of_lt_of_le h (Nat.pow_le_pow_right (by decide) (by omega))

theorem BitCursor.pull_ok (n : Nat) {bc : BitCursor} (h : bc.Ok) (input : List Byte) : (bc.pull n input).1.Ok := by
  induction input generalizing bc with
  | nil => exact h
  | cons b rest ih =>
    simp only [BitCursor.pull]
    split
    · exact ih (BitCursor.push_ok h b)
    · exact h

/-- What a pull leaves is a suffix of the slice. -/
theorem BitCursor.pull_suffix (n : Nat) (bc : BitCursor) (input : List Byte) :
    ∃ got, input = got ++ (bc.pull n input).2 := by
  induction input generalizing bc with
  | nil => exact ⟨[], rfl⟩
  | cons b rest ih =>
    simp only [BitCursor.pull]
    split
    · obtain ⟨got, h⟩ := ih (bc.push b); exact ⟨b :: got, by rw [List.cons_append, ← h]⟩
    · exact ⟨[], rfl⟩

theorem Claim.cursorAfter_cons {bc : BitCursor} (h : bc.Ok) (hc : bc.bitCount ≤ 24) (b : Byte) (bs : List Byte) (n : Nat) :
    Claim.cursorAfter (bc.push b) bs n = Claim.cursorAfter bc (b :: bs) n := by
  have hv := BitCursor.push_value h hc b
  have hbits : Claim.bitsOf (bc.push b) bs = Claim.bitsOf bc (b :: bs) := by
    unfold Claim.bitsOf
    rw [hv, Claim.streamValue]
    show _ + 2 ^ (bc.bitCount + 8) * _ = _
    rw [Nat.pow_add]; ring
  simp only [Claim.cursorAfter, hbits, List.length_cons]
  show (⟨_, bc.bitCount + 8 + 8 * bs.length - n, bc.bytePosition + 1 + bs.length⟩ : BitCursor) = _
  congr 1 <;> omega

/-- `Need(n)` with n at most 25 pulls the bytes it needs, or every byte there is (R300). -/
theorem BitCursor.pull_eq {n : Nat} (hn : n ≤ 25) {bc : BitCursor} (h : bc.Ok) (input : List Byte) :
    bc.pull n input =
      (Claim.cursorAfter bc (input.take (Claim.pullCount bc n)) 0, input.drop (Claim.pullCount bc n)) := by
  have h0 (bc : BitCursor) : Claim.cursorAfter bc [] 0 = bc := by
    simp [Claim.cursorAfter, Claim.bitsOf, Claim.streamValue]
  induction input generalizing bc with
  | nil => simp [BitCursor.pull, h0]
  | cons b rest ih =>
    simp only [BitCursor.pull]
    split
    · next hlt =>
      rw [ih (BitCursor.push_ok h b)]
      have hk : Claim.pullCount bc n = Claim.pullCount (bc.push b) n + 1 := by
        simp only [Claim.pullCount, BitCursor.push]; omega
      rw [hk, List.take_succ_cons, List.drop_succ_cons, Claim.cursorAfter_cons h hlt.2]
    · next hlt =>
      have hk : Claim.pullCount bc n = 0 := by simp only [Claim.pullCount]; omega
      simp [hk, h0]

/-! ## The bit packer (R340, R341) -/

theorem Deflate.putBytes_ok {d : Deflate} {bs : List Byte} (h : d.pending.length + bs.length ≤ 65536) :
    d.putBytes bs = .ok { d with pending := d.pending ++ bs } := if_pos h

theorem Deflate.putBytes_eq {d d' : Deflate} {bs : List Byte} (h : d.putBytes bs = .ok d') :
    d.pending.length + bs.length ≤ 65536 ∧ d' = { d with pending := d.pending ++ bs } := by
  unfold Deflate.putBytes at h
  split at h
  · next hle => exact ⟨hle, by cases h; rfl⟩
  · cases h

/-- `SendBits` with the chunk width written out. -/
theorem Deflate.sendBits_def (d : Deflate) (v : Half) (n : Nat) :
    d.sendBits v n =
      if d.bw.biValid + n > 16 then do
        let d' ← d.putShort (d.bw.biBuf ||| (v <<< d.bw.biValid))
        .ok { d' with bw := ⟨v >>> (16 - d'.bw.biValid), d'.bw.biValid + n - 16⟩ }
      else .ok { d with bw := ⟨d.bw.biBuf ||| (v <<< d.bw.biValid), d.bw.biValid + n⟩ } := rfl

/-- What `SendBits` changes, whatever its operands. -/
theorem Deflate.sendBits_eq {d d' : Deflate} {v : Half} {n : Nat} (h : d.sendBits v n = .ok d') :
    d' = { d with bw := d'.bw, pending := d'.pending } ∧ d.pending <+: d'.pending ∧ d'.pending.length ≤ max d.pending.length 65536 ∧
      (d.bw.biValid ≤ 16 → n ≤ 16 → d'.bw.biValid ≤ 16) := by
  rw [Deflate.sendBits_def] at h
  split at h
  · obtain ⟨e, he, h⟩ := Except.bind_ok.1 h
    obtain ⟨hle, rfl⟩ := Deflate.putBytes_eq he
    cases h
    refine ⟨rfl, List.prefix_append _ _, ?_, fun h1 h2 => ?_⟩
    · simp at hle ⊢; omega
    · simp; omega
  · cases h
    exact ⟨rfl, List.prefix_refl _, by simp, fun h1 h2 => by simp; omega⟩

/-- Fields sent one after another are the fields sent together. -/
theorem Claim.emits_trans {d d' d'' : Deflate} {fs gs : List (Nat × Nat)} (h : Claim.emits d d' fs)
    (h' : Claim.emits d' d'' gs) : Claim.emits d d'' (fs ++ gs) := by
  obtain ⟨m, e, -, w, v⟩ := h
  obtain ⟨m', e', l', w', v'⟩ := h'
  have hp : d'.pending = d.pending ++ m := by rw [e]
  have hw : ∀ fs gs : List (Nat × Nat), Claim.packedWidth (fs ++ gs) = Claim.packedWidth fs + Claim.packedWidth gs := by
    intro fs gs; induction fs with
    | nil => simp [Claim.packedWidth]
    | cons f fs ih => simp [Claim.packedWidth, ih, Nat.add_assoc]
  have hv : ∀ fs gs : List (Nat × Nat), Claim.packedValue (fs ++ gs) =
      Claim.packedValue fs + 2 ^ Claim.packedWidth fs * Claim.packedValue gs := by
    intro fs gs; induction fs with
    | nil => simp [Claim.packedValue, Claim.packedWidth]
    | cons f fs ih => simp only [List.cons_append, Claim.packedValue, Claim.packedWidth, ih, Nat.pow_add]; ring
  have hs : ∀ a b : List Byte, Claim.streamValue (a ++ b) =
      Claim.streamValue a + 2 ^ (8 * a.length) * Claim.streamValue b := by
    intro a b; induction a with
    | nil => simp [Claim.streamValue]
    | cons x a ih =>
      simp only [List.cons_append, Claim.streamValue, ih, List.length_cons, Nat.mul_add, Nat.pow_add]; ring
  refine ⟨m ++ m', ?_, l', ?_, ?_⟩
  · rw [e', e]; simp [List.append_assoc]
  · rw [hw, List.length_append]; omega
  · rw [hs, hv, List.length_append, Nat.mul_add, Nat.pow_add]
    have h1 : 2 ^ (8 * m.length) * 2 ^ d'.bw.biValid = 2 ^ d.bw.biValid * 2 ^ Claim.packedWidth fs := by
      rw [← Nat.pow_add, ← Nat.pow_add, w]
    calc _ = Claim.streamValue m +
              2 ^ (8 * m.length) * (Claim.streamValue m' + 2 ^ (8 * m'.length) * d''.bw.biBuf.toNat) := by ring
      _ = Claim.streamValue m + 2 ^ (8 * m.length) * d'.bw.biBuf.toNat +
            2 ^ (8 * m.length) * 2 ^ d'.bw.biValid * Claim.packedValue gs := by rw [v']; ring
      _ = _ := by rw [v, h1]; ring

theorem Claim.emits_nil {d : Deflate} (h : d.bw.biValid ≤ 16) : Claim.emits d d [] :=
  ⟨[], by simp, h, by simp [Claim.packedWidth], by simp [Claim.packedValue, Claim.streamValue]⟩

/-- `SendBits` appends its field above the bits held (R340). -/
theorem Deflate.sendBits_emits {d : Deflate} {v : Half} {n : Nat} (hw : Claim.writerOk d) (hn : n ≤ 16)
    (hv : v.toNat < 2 ^ n) (hp : d.pending.length + 2 ≤ 65536) :
    ∃ d', d.sendBits v n = .ok d' ∧ Claim.emits d d' [(v.toNat, n)] ∧ Claim.writerOk d' := by
  obtain ⟨hb, hlt⟩ := hw
  have hor : (d.bw.biBuf ||| (v <<< d.bw.biValid)).toNat =
      (d.bw.biBuf.toNat + 2 ^ d.bw.biValid * v.toNat) % 2 ^ 16 := by
    rw [BitVec.toNat_or, BitVec.toNat_shiftLeft, Nat.shiftLeft_eq, Nat.mul_comm v.toNat]
    have h16 : d.bw.biBuf.toNat = d.bw.biBuf.toNat % 2 ^ 16 := (Nat.mod_eq_of_lt d.bw.biBuf.isLt).symm
    rw [h16, ← Nat.or_mod_two_pow, ← h16, Nat.or_comm, ← Nat.two_pow_add_eq_or_of_lt hlt, Nat.add_comm]
  rw [Deflate.sendBits_def]
  split
  · next hgt =>
    have hbytes : ∀ b : Half, Claim.streamValue [b.extractLsb' 0 8, b.extractLsb' 8 8] = b.toNat := by
      intro b
      have hbl := b.isLt
      simp only [Claim.streamValue, BitVec.extractLsb'_toNat, Nat.shiftRight_eq_div_pow]
      omega
    refine ⟨_, by rw [Deflate.putShort, Deflate.putBytes_ok (by simpa using hp)]; rfl, ⟨[_, _], rfl, ?_, ?_, ?_⟩, ?_, ?_⟩
    · simp; omega
    · simp [Claim.packedWidth]; omega
    · rw [hbytes, hor]
      simp only [List.length_cons, List.length_nil, Claim.packedValue, BitVec.toNat_ushiftRight,
        Nat.shiftRight_eq_div_pow, Nat.mul_zero, Nat.add_zero]
      have key : v.toNat / 2 ^ (16 - d.bw.biValid) = (d.bw.biBuf.toNat + 2 ^ d.bw.biValid * v.toNat) / 2 ^ 16 := by
        have h16 : 2 ^ 16 = 2 ^ d.bw.biValid * 2 ^ (16 - d.bw.biValid) := by rw [← Nat.pow_add]; congr 1; omega
        rw [h16, ← Nat.div_div_eq_div_mul, Nat.add_mul_div_left _ _ (by positivity), Nat.div_eq_of_lt hlt, Nat.zero_add]
      rw [key]
      exact Nat.mod_add_div _ _
    · simp; omega
    · simp only [BitVec.toNat_ushiftRight, Nat.shiftRight_eq_div_pow]
      rw [Nat.div_lt_iff_lt_mul (by positivity), ← Nat.pow_add]
      exact lt_of_lt_of_le hv (Nat.pow_le_pow_right (by decide) (by omega))
  · next hle =>
    have hsum : d.bw.biBuf.toNat + 2 ^ d.bw.biValid * v.toNat < 2 ^ (d.bw.biValid + n) := by
      calc d.bw.biBuf.toNat + 2 ^ d.bw.biValid * v.toNat < 2 ^ d.bw.biValid + 2 ^ d.bw.biValid * v.toNat :=
            Nat.add_lt_add_right hlt _
        _ = 2 ^ d.bw.biValid * (v.toNat + 1) := by ring
        _ ≤ 2 ^ d.bw.biValid * 2 ^ n := by gcongr; omega
        _ = _ := by rw [← Nat.pow_add]
    have hval : (d.bw.biBuf ||| (v <<< d.bw.biValid)).toNat = d.bw.biBuf.toNat + 2 ^ d.bw.biValid * v.toNat := by
      rw [hor, Nat.mod_eq_of_lt (lt_of_lt_of_le hsum (Nat.pow_le_pow_right (by decide) (by omega)))]
    refine ⟨_, rfl, ⟨[], by simp, ?_, ?_, ?_⟩, ?_, ?_⟩
    · simp; omega
    · simp [Claim.packedWidth]
    · simp only [Claim.streamValue, List.length_nil, Claim.packedValue, hval]; simp
    · simp; omega
    · rw [hval]; exact hsum

/-! ## Tokens (R600, R607) -/

/-- The distance symbol of a match at a distance of 1 to 32768. -/
theorem distSymbol_pred {n : Nat} (h : n ≠ 0) (h' : n ≤ 32768) : distSymbol ((n : Int) - 1) = distCode (n - 1) := by
  rw [distSymbol, if_pos (by omega), show ((n : Int) - 1).toNat = n - 1 by omega]

theorem distCode_lt (d : Nat) : distCode d < 30 := by
  have : (distBase.filter fun b => b ≤ d + 1).length ≤ 30 := List.length_filter_le _ _
  unfold distCode largestBase
  omega

/-- Any distance counts as one of the 30 symbols. -/
theorem distSymbol_lt (d : Int) : distSymbol d < 30 := by
  unfold distSymbol
  split
  · exact distCode_lt _
  · exact (Config.distSymbolOutside d).isLt

/-! ## Table references and entries (R76, R208, R430, R514) -/

@[simp] theorem Dec.decodeVia_some (c : Dec) (k : CodeKind) (r : TableRef) : c.decodeVia k (some r) = c.decodeSym r := rfl

/-- HDT.DECODE answers the code of R208 for every operation that has one. -/
theorem EntryOp.code_of_resultCode {op : EntryOp} {k : Nat} (h : op.resultCode = some k) : op.code = k := by
  simp [EntryOp.code, h]

@[simp] theorem Entry.distExtra_dist (x bits val : Nat) : Entry.distExtra ⟨.dist x, bits, val⟩ = x := rfl

/-! ## The decoder's window (R380, R386) -/

theorem SlidingWindow.capacity_pos (w : SlidingWindow) : 0 < w.capacity := Nat.two_pow_pos _

@[simp] theorem SlidingWindow.put_wbits (w : SlidingWindow) (b : Byte) : (w.put b).wbits = w.wbits := rfl

theorem SlidingWindow.put_ok {w : SlidingWindow} (h : w.Ok) (hf : w.full = false) (b : Byte) : (w.put b).Ok := by
  have hu : w.undelivered < w.capacity := by simpa [SlidingWindow.full] using hf
  exact
    { wbits_low := h.wbits_low
      wbits_high := h.wbits_high
      cursor := Nat.mod_lt _ w.capacity_pos
      undelivered := by
        have := h.undelivered
        show w.undelivered + 1 ≤ min w.capacity (w.whave + 1)
        omega
      whave := Nat.min_le_left _ _
      canonical := Memory.wf_write h.canonical _ _
      inside := Cells.below_write h.inside h.cursor }

/-- What a byte put leaves at every index of the buffer (R380). -/
theorem SlidingWindow.read_put {w : SlidingWindow} (h : w.Ok) (b : Byte) (k : Nat) :
    Memory.read (w.put b).buffer k = if k = w.writeCursor then b else Memory.read w.buffer k :=
  Memory.read_write h.canonical _ _ _

theorem SlidingWindow.copy_ok (dist : Nat) : ∀ (len : Nat) {w : SlidingWindow}, w.Ok →
    (SlidingWindow.copy dist len w).2.Ok ∧ (SlidingWindow.copy dist len w).2.wbits = w.wbits
  | 0, _, h => ⟨h, rfl⟩
  | len + 1, w, h => by
    simp only [SlidingWindow.copy]
    split
    · exact ⟨h, rfl⟩
    · next hf => exact SlidingWindow.copy_ok dist len (SlidingWindow.put_ok h (by simpa using hf) _)

theorem SlidingWindow.history_ok : ∀ (bs : List Byte) {w : SlidingWindow}, w.Ok →
    (w.history bs).Ok ∧ (w.history bs).wbits = w.wbits ∧ (w.history bs).undelivered = w.undelivered ∧
      (w.history bs).whave = w.whave
  | [], _, h => ⟨h, rfl, rfl, rfl⟩
  | b :: bs, w, h => by
    have h' : SlidingWindow.Ok
        { w with buffer := Memory.write w.buffer w.writeCursor b, writeCursor := (w.writeCursor + 1) % w.capacity } :=
      { h with
        cursor := Nat.mod_lt _ w.capacity_pos
        canonical := Memory.wf_write h.canonical _ _
        inside := Cells.below_write h.inside h.cursor }
    exact SlidingWindow.history_ok bs h'

theorem SlidingWindow.seed_ok {w : SlidingWindow} (h : w.Ok) (dict : List Byte) : (w.seed dict).Ok := by
  obtain ⟨hh, hw, hu, hv⟩ := SlidingWindow.history_ok (dict.drop (dict.length - w.seedKept dict)) h
  have hcap : (w.history (dict.drop (dict.length - w.seedKept dict))).capacity = w.capacity := by
    simp [SlidingWindow.capacity, hw]
  exact
    { hh with
      undelivered := by
        have := h.undelivered
        have := h.whave
        show (w.history _).undelivered ≤ min w.capacity (w.whave + w.seedKept dict)
        rw [hu]; omega
      whave := by
        show min w.capacity (w.whave + w.seedKept dict) ≤ (w.history _).capacity
        rw [hcap]; exact Nat.min_le_left _ _ }

/-! ## The encoder's window and chains (R550, R561) -/

theorem Deflate.windowAt_nat {d : Deflate} {i : Nat} (h : i < d.windowSize) :
    d.windowAt (i : Int) = .ok (Memory.read d.window i) := Cells.load_nat _ h

theorem Deflate.sameByte_nat {d : Deflate} {i j : Nat} (hi : i < d.windowSize) (hj : j < d.windowSize) :
    d.sameByte (i : Int) (j : Int) = .ok (Memory.read d.window i == Memory.read d.window j) := by
  simp only [Deflate.sameByte, Deflate.windowAt_nat hi, Deflate.windowAt_nat hj, Except.ok_bind]

theorem updateHash_two (a b : Byte) : updateHash (a.setWidth 15) b = Claim.hash2 a b := rfl

theorem Deflate.hashInitAt_nat {d : Deflate} {i : Nat} (h : i + 1 < d.windowSize) :
    d.hashInitAt i =
      .ok { d with insH := Claim.hash2 (Memory.read d.window i) (Memory.read d.window (i + 1)) } := by
  have h1 : ((i : Int) + 1) = ((i + 1 : Nat) : Int) := by simp
  simp only [Deflate.hashInitAt, h1, Deflate.windowAt_nat (show i < d.windowSize by omega), Deflate.windowAt_nat h,
    Except.ok_bind, updateHash_two]

/-- `InsertString` answers the old head of the chain and links the position in front of it (R561). -/
theorem Deflate.insertString_nat {d : Deflate} {s : Nat} (h : s + 2 < d.windowSize) :
    d.insertString s =
      let hash := updateHash d.insH (Memory.read d.window (s + 2))
      let old := Cells.read 0 d.head hash.toNat
      .ok (old,
        { d with
          insH := hash
          prev := Cells.write 0 d.prev (s % d.wSize) old
          head := Cells.write 0 d.head hash.toNat (BitVec.ofNat 16 s) }) := by
  have h2 : ((s : Int) + (Config.minMatch : Nat) - 1) = ((s + 2 : Nat) : Int) := by simp [Config.minMatch]; omega
  simp only [Deflate.insertString, h2, Deflate.windowAt_nat h, Except.ok_bind]

/-- What `InsertString` changes. -/
theorem Deflate.insertString_eq {d d' : Deflate} {s : Nat} {old : Half} (h : d.insertString s = .ok (old, d')) :
    d' = { d with insH := d'.insH, prev := d'.prev, head := d'.head } ∧
      (Cells.wf 0 d.prev → Cells.wf 0 d'.prev) ∧ (Cells.wf 0 d.head → Cells.wf 0 d'.head) := by
  unfold Deflate.insertString at h
  obtain ⟨c, -, h⟩ := Except.bind_ok.1 h
  cases h
  exact ⟨rfl, fun hp => Cells.wf_write hp _ _, fun hh => Cells.wf_write hh _ _⟩

/-- The bounds a slide keeps (R552). -/
theorem Deflate.slide_ok {d : Deflate} (h : d.Ok) : d.slide.Ok :=
  { wbits_low := h.wbits_low
    wbits_high := h.wbits_high
    writer := h.writer
    pending := h.pending
    window := Memory.wf_slideDown h.window h.inside
    inside := Cells.below_slideDown h.inside
    head := Cells.wf_rebaseAll h.head.1 _
    prev := Cells.wf_rebaseAll h.prev.1 _
    tokens := h.tokens
    lBuf := h.lBuf
    dBuf := h.dBuf
    ld := h.ld
    dd := h.dd
    bd := h.bd
    tb := h.tb
    nice := h.nice }

/-- The canonical form `InitBlock` keeps (R606). -/
theorem Deflate.initBlock_ok {d : Deflate} (h : d.Ok) : d.initBlock.Ok :=
  { wbits_low := h.wbits_low
    wbits_high := h.wbits_high
    writer := h.writer
    pending := h.pending
    window := h.window
    inside := h.inside
    head := h.head
    prev := h.prev
    tokens := by show (0 : Nat) ≤ _; omega
    lBuf := h.lBuf
    dBuf := h.dBuf
    ld :=
      { h.ld with
        freq := by
          show Cells.wf 0 (Cells.write 0 (clearLeaves .ld d.ld.freq) 256 1)
          exact Cells.wf_write (Cells.wf_filter h.ld.freq _) _ _ }
    dd := { h.dd with freq := Cells.wf_filter h.dd.freq _ }
    bd := { h.bd with freq := Cells.wf_filter h.bd.freq _ }
    tb := h.tb
    nice := h.nice }

end Sys2Proof.Machine
end

