-- ==== Sys2Proof/Tests/Slice0.lean ====
section
/-! SUPPORT. The model's own tests: an ill-formed term for each operand check, each command's words written out from
spec/30_encoding.md, one step on a small state for the commands (expected results from spec/95_test_vectors.md), and a
witness for the hypotheses of each statement. -/

namespace Sys2Proof.Tests

open Sys2Proof.Machine Sys2Proof.Claim

/-! ## Ill-formed terms (R202..R210, R340) -/

theorem test_wellFormed_resets :
    [Instr.infReset 7 0 0, .infReset 8 0 1, .defReset 8 6 0, .defReset 9 10 0, .defReset 9 6 1].map Instr.wellFormed =
      List.replicate 5 false := by decide

theorem test_wellFormed_bit_counts :
    [Instr.bcrNeed 17, .bcrPeek 17, .bcrDrop 17, .bcrGet 17, .bcwPut 0 0, .bcwPut 17 0, .bcwPut 3 8].map
      Instr.wellFormed = List.replicate 7 false := by decide

theorem test_wellFormed_copies :
    [Instr.swbCopy 2 1, .swbCopy 259 1, .swbCopy 3 32769, .tbTally 0 32769].map Instr.wellFormed =
      List.replicate 4 false := by decide

theorem test_wellFormed_tables :
    [Instr.hdtBuild 0 18, .hdtBuild 0 20, .hdtBuild 1 256, .hdtBuild 1 287, .hdtBuild 2 0, .hdtBuild 2 31,
      .hdtBuild 3 19, .hdtDecode 3].map Instr.wellFormed = List.replicate 8 false := by decide

theorem test_wellFormed_trees :
    [Instr.tbBuild 3, .tbGenBitlen 3, .tbGenCodes 3, .tbScan 2, .tbSendTree 2, .tbSendAll 256 1 4, .tbSendAll 287 1 4,
      .tbSendAll 257 0 4, .tbSendAll 257 31 4, .tbSendAll 257 1 3, .tbSendAll 257 1 20].map Instr.wellFormed =
      List.replicate 11 false := by decide

theorem test_wellFormed_bounds_are_legal :
    [Instr.infReset 8 1 5, .infReset 15 0 0, .defReset 9 0 0, .defReset 15 9 0, .bcrNeed 0, .bcrGet 16, .bcwPut 16 0xFFFF,
      .swbCopy 3 0, .swbCopy 258 32768, .hdtBuild 0 19, .hdtBuild 1 257, .hdtBuild 1 286, .hdtBuild 2 1, .hdtBuild 2 30,
      .hdtDecode 2, .tbTally 255 32768, .tbScan 1, .tbSendAll 257 1 4, .tbSendAll 286 30 19].map Instr.wellFormed =
      List.replicate 19 true := by decide

/-! ## Words written out from the encoding tables -/

/-- R202, R203: UNIT 1 and 2. `INF.RESET` wbits 9, hasDict 1; `DEF.RESET` wbits 15, level 6; `DEF.STEP` Finish. -/
theorem test_decode_engines :
    decode 0b0001_0000_0000000000000000000_1_1001#32 0xDEADBEEF = .ok (.infReset 9 1 0xDEADBEEF) ∧
    decode 0b0001_0001_000000000000000000000000#32 0 = .ok .infStep ∧
    decode 0b0001_0010_000000000000000000000000#32 0 = .ok .infSetDict ∧
    decode 0b0010_0000_00000000000000_00_0110_1111#32 0 = .ok (.defReset 15 6 0) ∧
    decode 0b0010_0001_000000000000000000000_100#32 0 = .ok (.defStep 4) ∧
    decode 0b0010_0010_000000000000000000000000#32 0 = .ok .defSetDict := by decide

/-- R205: UNIT 3. -/
theorem test_decode_bcr :
    decode 0b0011_0000_0000000000000000000_00011#32 0 = .ok (.bcrNeed 3) ∧
    decode 0b0011_0001_0000000000000000000_00111#32 0 = .ok (.bcrPeek 7) ∧
    decode 0b0011_0010_0000000000000000000_00111#32 0 = .ok (.bcrDrop 7) ∧
    decode 0b0011_0011_0000000000000000000_10000#32 0 = .ok (.bcrGet 16) ∧
    decode 0b0011_0100_000000000000000000000000#32 0 = .ok .bcrAlign ∧
    decode 0b0011_0101_000000000000000000000000#32 0 = .ok .bcrByte := by decide

/-- R206: UNIT 4. -/
theorem test_decode_bcw :
    decode 0b0100_0000_0001111111111111_000_01101#32 0 = .ok (.bcwPut 13 0x1FFF) ∧
    decode 0b0100_0001_0000000000000000_10101011#32 0 = .ok (.bcwPutByte 0xAB) ∧
    decode 0b0100_0010_0001001000110100_00000000#32 0 = .ok (.bcwPutShort 0x1234) ∧
    decode 0b0100_0011_000000000000000000000000#32 0 = .ok .bcwWindup ∧
    decode 0b0100_0100_000000000000000000000000#32 0 = .ok .bcwFlush ∧
    decode 0b0100_0101_000000000000000000000000#32 0 = .ok .bcwDrain := by decide

/-- R207: UNIT 5. -/
theorem test_decode_swb :
    decode 0b0101_0000_0000000000000000_01000001#32 0 = .ok (.swbPut 0x41) ∧
    decode 0b0101_0001_000000000000000_100000010#32 0x8000 = .ok (.swbCopy 258 0x8000) ∧
    decode 0b0101_0010_000000000000000000000000#32 0 = .ok .swbDrain ∧
    decode 0b0101_0011_000000000000000000000000#32 0 = .ok .swbSeed ∧
    decode 0b0101_0100_000000000000000000000000#32 0 = .ok .swbFill ∧
    decode 0b0101_0101_000000000000000000000000#32 0 = .ok .swbSlide ∧
    decode 0b0101_0110_000000000000000000000000#32 0 = .ok .swbDseed := by decide

/-- R208, R209: UNIT 6 and 7. -/
theorem test_decode_hdt_mf :
    decode 0b0110_0000_0000000_100000001_000000_01#32 0 = .ok (.hdtBuild 1 257) ∧
    decode 0b0110_0001_000000000000000000000000#32 0 = .ok .hdtFixed ∧
    decode 0b0110_0010_0000000000000000000000_10#32 0 = .ok (.hdtDecode 2) ∧
    decode 0b0111_0000_000000000000000000000000#32 0 = .ok .mfHashInit ∧
    decode 0b0111_0001_000000000000000000000000#32 4 = .ok (.mfInsert 4) ∧
    decode 0b0111_0010_000000000000000000000000#32 1 = .ok (.mfLongest 1) := by decide

/-- R210: UNIT 8. -/
theorem test_decode_tb :
    decode 0b1000_0000_000000000000000000000000#32 0 = .ok .tbInitBlock ∧
    decode 0b1000_0001_0000000000000000_00001111#32 1 = .ok (.tbTally 15 1) ∧
    decode 0b1000_0010_0000000000000000000000_10#32 0 = .ok (.tbBuild 2) ∧
    decode 0b1000_0011_0000000000000000000000_01#32 0 = .ok (.tbGenBitlen 1) ∧
    decode 0b1000_0100_0000000000000000000000_01#32 0 = .ok (.tbGenCodes 1) ∧
    decode 0b1000_0101_0000000000000000000000_01#32 0 = .ok (.tbScan 1) ∧
    decode 0b1000_0110_000000000000000000000000#32 0 = .ok .tbBlTree ∧
    decode 0b1000_0111_0000000000000000000000_01#32 0 = .ok (.tbSendTree 1) ∧
    decode 0b1000_1000_00000_10001_00010_100000001#32 0 = .ok (.tbSendAll 257 2 17) ∧
    decode 0b1000_1001_00000000000000000000000_1#32 0 = .ok (.tbCompress 1) ∧
    decode 0b1000_1010_00000000000000000000000_1#32 0b0000000000000011_0000000000000010#32 = .ok (.tbStored 1 2 3) ∧
    decode 0b1000_1011_00000000000000000000000_1#32 0 = .ok (.tbFlushBlock 1) := by decide

/-- R200, R211, R215: an unassigned UNIT or OP, a reserved bit, an unused W1 that is not 0. -/
theorem test_decode_refuses :
    decode 0x00000000 0 = .error .unknown ∧ decode 0x90000000 0 = .error .unknown ∧
    decode 0x13000000 0 = .error .unknown ∧ decode 0x8C000000 0 = .error .unknown ∧
    decode 0x11000001 0 = .error (.reserved .infStep) ∧ decode 0x11000000 1 = .error (.reserved .infStep) ∧
    decode 0x40000023 0 = .error (.reserved (.bcwPut 3 0)) := by decide

/-! ## States for the tests -/

/-- A machine whose addressed instance has the units `eng`, with an input slice and output space. -/
def machine (eng : Engine) (input : List Byte) (space : Nat) : State :=
  { State.reset with codec := ⟨Regs.zero, none, eng⟩, port := ⟨input, space, []⟩ }

/-- An inflate instance right after `INF.RESET wbits=8`. -/
def inf8 : Inflate := Inflate.fresh 8 false 0
/-- A deflate instance right after `DEF.RESET wbits=9 level=6`. -/
def def9 : Deflate := (Deflate.blank 9 6).initBlock
/-- The window `Y a b c a b c a b c X` of spec/95_test_vectors.md §4.5, which lists only what it writes. -/
def mfWindow : Memory :=
  [(0, 0x59), (1, 0x61), (2, 0x62), (3, 0x63), (4, 0x61), (5, 0x62), (6, 0x63), (7, 0x61), (8, 0x62), (9, 0x63), (10, 0x58)]

/-- STATUS, RESULT0, RESULT1, IN_CONSUMED and the output of a command that answers. -/
structure Seen where
  status : Nat
  result0 : Nat
  result1 : Nat
  inConsumed : Nat
  output : List Byte
  deriving DecidableEq, Repr

/-- What the host sees of a command that answers. -/
def seen (o : Host.Outcome State Fault Refusal) : Option Seen :=
  match o with
  | .next t =>
    some ⟨t.codec.regs.status.toNat, t.codec.regs.result0.toNat, t.codec.regs.result1.toNat,
      t.codec.regs.inConsumed.toNat, t.port.output⟩
  | _ => none

/-- What `f` reads of the decoder's units after a command. -/
def inflateAfter {α : Type} (f : Inflate → α) (o : Host.Outcome State Fault Refusal) : Option α :=
  match o with
  | .next t =>
    match t.codec.engine with
    | .inflate d => some (f d)
    | _ => none
  | _ => none

/-- What `f` reads of the encoder's units after a command. -/
def deflateAfter {α : Type} (f : Deflate → α) (o : Host.Outcome State Fault Refusal) : Option α :=
  match o with
  | .next t =>
    match t.codec.engine with
    | .deflate d => some (f d)
    | _ => none
  | _ => none

/-! ## Steps (spec/95_test_vectors.md; the id of the vector stands in the name) -/

theorem test_bcrNeed_R1 :
    seen (exec (.bcrNeed 3) (machine (.inflate inf8) [3, 0] 0)) = some ⟨0, 1, 0, 1, []⟩ ∧
    inflateAfter (·.bc) (exec (.bcrNeed 3) (machine (.inflate inf8) [3, 0] 0)) = some ⟨3, 8, 1⟩ := by decide

theorem test_bcrPeek_R4 :
    seen (exec (.bcrPeek 7) (machine (.inflate { inf8 with bc := ⟨0, 5, 1⟩ }) [0, 0xFF] 0)) = some ⟨0, 0, 0, 1, []⟩ := by
  decide

theorem test_bcrDrop_R5 :
    inflateAfter (·.bc) (exec (.bcrDrop 7) (machine (.inflate { inf8 with bc := ⟨0, 13, 2⟩ }) [] 0)) = some ⟨0, 6, 2⟩ := by
  decide

theorem test_bcrGet_R10 :
    seen (exec (.bcrGet 16) (machine (.inflate inf8) [0x34, 0x12] 0)) = some ⟨0, 0x1234, 0, 2, []⟩ := by decide

theorem test_bcrGet_R11 :
    seen (exec (.bcrGet 9) (machine (.inflate inf8) [0xFF] 0)) = some ⟨3, 0, 0, 1, []⟩ ∧
    inflateAfter (·.bc) (exec (.bcrGet 9) (machine (.inflate inf8) [0xFF] 0)) = some ⟨0xFF, 8, 1⟩ := by decide

theorem test_bcrAlign_R6 :
    seen (exec .bcrAlign (machine (.inflate { inf8 with bc := ⟨0, 6, 2⟩ }) [] 0)) = some ⟨0, 6, 0, 0, []⟩ := by decide

theorem test_bcrByte_R8 :
    seen (exec .bcrByte (machine (.inflate inf8) [0xAB] 0)) = some ⟨0, 0xAB, 1, 1, []⟩ ∧
    seen (exec .bcrByte (machine (.inflate inf8) [] 0)) = some ⟨3, 0, 0, 0, []⟩ := by decide

theorem test_bcwPut_W2_W3 :
    deflateAfter (·.bw) (exec (.bcwPut 13 0x1FFF) (machine (.deflate { def9 with bw := ⟨5, 3⟩ }) [] 0)) =
      some ⟨0xFFFD, 16⟩ ∧
    deflateAfter (fun d => (d.bw, d.pending)) (exec (.bcwPut 1 1) (machine (.deflate { def9 with bw := ⟨0xFFFD, 16⟩ }) [] 0)) =
      some (⟨1, 1⟩, [0xFD, 0xFF]) := by decide

theorem test_bcwPut_W4 :
    deflateAfter (fun d => (d.bw, d.pending)) (exec (.bcwPut 12 0xABC) (machine (.deflate { def9 with bw := ⟨0x3FF, 10⟩ }) [] 0)) =
      some (⟨0x2A, 6⟩, [0xFF, 0xF3]) := by decide

theorem test_bcwPutByte :
    deflateAfter (·.pending) (exec (.bcwPutByte 7) (machine (.deflate { def9 with pending := [1] }) [] 0)) = some [1, 7] := by
  decide

theorem test_bcwPutShort_W7 :
    deflateAfter (·.pending) (exec (.bcwPutShort 0x1234) (machine (.deflate def9) [] 0)) = some [0x34, 0x12] := by decide

theorem test_bcwWindup_W5 :
    deflateAfter (fun d => (d.bw, d.pending)) (exec .bcwWindup (machine (.deflate { def9 with bw := ⟨0x2A, 6⟩ }) [] 0)) =
      some (⟨0, 0⟩, [0x2A]) := by decide

theorem test_bcwFlush_W6 :
    deflateAfter (fun d => (d.bw, d.pending)) (exec .bcwFlush (machine (.deflate { def9 with bw := ⟨3, 10⟩ }) [] 0)) =
      some (⟨0, 2⟩, [3]) := by decide

theorem test_bcwDrain_W11 :
    seen (exec .bcwDrain (machine (.deflate { def9 with pending := [3, 0] }) [] 1)) = some ⟨4, 1, 0, 0, [3]⟩ := by decide

theorem test_swbPut_S1_S13 :
    seen (exec (.swbPut 0x41) (machine (.inflate inf8) [] 0)) = some ⟨0, 1, 0, 0, []⟩ ∧
    seen (exec (.swbPut 1) (machine (.inflate { inf8 with sw := ⟨8, [], 0, 256, 256⟩ }) [] 0)) = some ⟨4, 0, 0, 0, []⟩ := by
  decide

theorem test_swbCopy_S4 :
    inflateAfter (·.sw) (exec (.swbCopy 5 3)
      (machine (.inflate { inf8 with sw := ⟨8, [(0, 0x41), (1, 0x42), (2, 0x43)], 3, 3, 3⟩ }) [] 0)) =
      some ⟨8, [(0, 0x41), (1, 0x42), (2, 0x43), (3, 0x41), (4, 0x42), (5, 0x43), (6, 0x41), (7, 0x42)], 8, 8, 8⟩ := by
  decide

theorem test_swbCopy_S7_wraps :
    seen (exec (.swbCopy 3 9) (machine (.inflate { inf8 with sw := ⟨8, [], 8, 0, 8⟩ }) [] 0)) = some ⟨0, 0, 1, 0, []⟩ ∧
    inflateAfter (·.sw.buffer) (exec (.swbCopy 3 4)
      (machine (.inflate { inf8 with sw := ⟨8, [(254, 7), (255, 8)], 2, 0, 256⟩ }) [] 0)) =
      some [(2, 7), (3, 8), (254, 7), (255, 8)] := by decide

theorem test_swbDrain_S5 :
    seen (exec .swbDrain (machine (.inflate { inf8 with sw := ⟨8, [(0, 0x41), (1, 0x42), (2, 0x43)], 3, 3, 3⟩ }) [] 2)) =
      some ⟨4, 2, 0, 0, [0x41, 0x42]⟩ := by decide

theorem test_swbSeed_S10_S12 :
    inflateAfter (·.sw) (exec .swbSeed (machine (.inflate inf8) [0x61, 0x62, 0x63] 0)) =
      some ⟨8, [(0, 0x61), (1, 0x62), (2, 0x63)], 3, 0, 3⟩ ∧
    seen (exec .swbSeed (machine (.inflate { inf8 with sw := ⟨8, [], 1, 1, 1⟩ }) [0x61] 0)) = some ⟨0x17, 0, 0, 0, []⟩ := by
  decide

theorem test_swbFill_F1 :
    deflateAfter (fun d => (d.window, d.lookahead, d.insH)) (exec .swbFill (machine (.deflate def9) [0, 1, 2, 3] 0)) =
      some ([(1, 1), (2, 2), (3, 3)], 4, 1) := by decide

theorem test_swbSlide_F3 :
    seen (exec .swbSlide (machine (.deflate def9) [] 0)) = some ⟨0x17, 0, 0, 0, []⟩ ∧
    deflateAfter (fun d => (d.window, d.strstart, d.blockStart)) (exec .swbSlide (machine (.deflate
      { def9 with window := [(1, 9), (513, 7)], strstart := 600, blockStart := 10 }) [] 0)) =
      some ([(1, 7), (513, 7)], 88, -502) ∧
    deflateAfter (·.head) (exec .swbSlide (machine (.deflate
      { def9 with strstart := 600, head := [(5, 600), (6, 512), (7, 3)] }) [] 0)) = some [(5, 88)] := by decide

theorem test_swbDseed_F6 :
    deflateAfter (fun d => (d.strstart, d.blockStart, d.insH)) (exec .swbDseed
      (machine (.deflate def9) [0x61, 0x62, 0x63, 0x61, 0x62, 0x63] 0)) = some (6, 6, 0x0823) ∧
    deflateAfter (fun d => (d.head, d.prev)) (exec .swbDseed
      (machine (.deflate def9) [0x61, 0x62, 0x63, 0x61, 0x62, 0x63] 0)) =
      some ([(0x0042, 2), (0x0401, 1), (0x0823, 3)], []) := by decide

theorem test_hdtBuild_H1_H7 :
    seen (exec (.hdtBuild 0 19) (machine (.inflate inf8) ([2, 1, 3, 3] ++ List.replicate 15 0) 0)) =
      some ⟨0, 0, 3, 19, []⟩ ∧
    seen (exec (.hdtBuild 0 19) (machine (.inflate inf8) ([1] ++ List.replicate 18 0) 0)) = some ⟨0, 3, 0, 19, []⟩ := by
  decide +kernel

theorem test_hdtBuild_H3_H4 :
    seen (exec (.hdtBuild 2 1) (machine (.inflate inf8) [1] 0)) = some ⟨0, 4, 1, 1, []⟩ ∧
    seen (exec (.hdtBuild 2 1) (machine (.inflate inf8) [0] 0)) = some ⟨0, 1, 1, 1, []⟩ := by decide +kernel

theorem test_hdtFixed :
    inflateAfter (fun d => (d.llRef, d.dRef)) (exec .hdtFixed (machine (.inflate inf8) [] 0)) =
      some (some ⟨.fixedLL, 0, 9⟩, some ⟨.fixedD, 0, 5⟩) := by decide

theorem test_hdtDecode_H21_H24 :
    seen (exec (.hdtDecode 1) (machine (.inflate { inf8 with llRef := some fixedLLRef }) [0x8E] 0)) =
      some ⟨0, 0x00410000, 8, 1, []⟩ ∧
    seen (exec (.hdtDecode 1) (machine (.inflate { inf8 with llRef := some fixedLLRef }) [0x40] 0)) =
      some ⟨0, 0x00030001, 7, 1, []⟩ := by decide

theorem test_hdtDecode_H26_H27 :
    seen (exec (.hdtDecode 2) (machine (.inflate { inf8 with dRef := some fixedDRef, bc := ⟨0, 1, 1⟩ }) [0x1F] 0)) =
      some ⟨0, 0x00C10062, 5, 1, []⟩ ∧
    seen (exec (.hdtDecode 2) (machine (.inflate { inf8 with dRef := some fixedDRef }) [0x1F] 0)) =
      some ⟨0, 5, 0, 1, []⟩ := by decide

theorem test_infStep_A7 :
    seen (exec .infStep (machine (.inflate inf8) [0x4B, 0x04, 0x03, 0x00] 64)) =
      some ⟨1, 0, 0, 4, List.replicate 6 0x61⟩ := by decide +kernel

theorem test_infStep_B4 :
    seen (exec .infStep (machine (.inflate inf8) [0x4B, 0x04, 0x42, 0x00] 64)) = some ⟨0xB6, 0, 0, 3, [0x61]⟩ := by
  decide +kernel

/-- R7: the Adler-32 of `abc` is 024D0127. -/
theorem test_infSetDict :
    seen (exec .infSetDict (machine (.inflate (Inflate.fresh 8 true 0x024D0127)) [0x61, 0x62, 0x63] 0)) =
      some ⟨0, 0, 0, 3, []⟩ ∧
    seen (exec .infSetDict (machine (.inflate (Inflate.fresh 8 true 0x024D0128)) [0x61, 0x62, 0x63] 0)) =
      some ⟨0xC6, 0, 0, 3, []⟩ := by decide

/-- R212, R532: an engine command that raises writes 0 to its results (log entry 5). -/
theorem test_infSetDict_raise_clears_results :
    (match exec .infSetDict { machine (.inflate inf8) [] 0 with
        codec := ⟨⟨0, 8, 0, 0, 0, 0, 0, 0, 0, 0, 0, 7, 9⟩, none, .inflate inf8⟩ } with
      | .next t => t.codec.regs == ⟨0, 8, 0, 0, 0, 0, 0x47, 0, 0, 0, 0, 0, 0⟩
      | _ => false) = true := by decide

/-- R52: STATUS and RESULT0 at their offsets; 0x34 lists no register (log entry 24). -/
theorem test_hostRead :
    (⟨0, 8, 0, 0, 0, 0, 0x47, 0, 0, 0, 0, 7, 9⟩ : Regs).readAt 0x18 = some 0x47 ∧
    (⟨0, 8, 0, 0, 0, 0, 0x47, 0, 0, 0, 0, 7, 9⟩ : Regs).readAt 0x2C = some 7 ∧
    (⟨0, 8, 0, 0, 0, 0, 0x47, 0, 0, 0, 0, 7, 9⟩ : Regs).readAt 0x34 = none := by decide

theorem test_mfHashInit_M1 :
    seen (exec .mfHashInit (machine (.deflate { def9 with window := mfWindow }) [] 0)) = some ⟨0, 0x0B41, 0, 0, []⟩ := by
  decide

theorem test_mfInsert_M3 :
    seen (exec (.mfInsert 4) (machine (.deflate { def9 with
      window := mfWindow, insH := 0x0042, head := [(0x0042, 3), (0x0401, 2), (0x0823, 1)] }) [] 0)) =
      some ⟨0, 1, 0, 0, []⟩ ∧
    deflateAfter (fun d => (d.insH, d.head, d.prev)) (exec (.mfInsert 4) (machine (.deflate { def9 with
      window := mfWindow, insH := 0x0042, head := [(0x0042, 3), (0x0401, 2), (0x0823, 1)] }) [] 0)) =
      some (0x0823, [(0x0042, 3), (0x0401, 2), (0x0823, 4)], [(4, 1)]) := by decide

theorem test_mfLongest_M4 :
    seen (exec (.mfLongest 1) (machine (.deflate { def9 with window := mfWindow, strstart := 4, lookahead := 7 }) [] 0)) =
      some ⟨0, 6, 1, 0, []⟩ := by decide +kernel

theorem test_tbInitBlock :
    deflateAfter (fun d => (d.ld.freq, d.lastLit, d.optLen)) (exec .tbInitBlock
      (machine (.deflate { def9 with ld := { def9.ld with freq := [(97, 4), (256, 3), (300, 2)] }, lastLit := 4, optLen := 9 })
        [] 0)) = some ([(256, 1), (300, 2)], 0, 0) := by decide

theorem test_tbTally_T6 :
    deflateAfter (fun d => (d.ld.freq, d.dd.freq, d.matchCount)) (exec (.tbTally 15 1) (machine (.deflate def9) [] 0)) =
      some ([(256, 1), (268, 1)], [(0, 1)], 1) ∧
    deflateAfter (fun d => (d.lBuf, d.dBuf)) (exec (.tbTally 15 1) (machine (.deflate def9) [] 0)) =
      some ([(0, 15)], [(0, 1)]) := by decide +kernel

/-- R607, R600: a distance outside 1..32768, which only sub-block commands bring about, is a match token, whichever symbol its
free value is. -/
theorem test_tally_free_symbol :
    (def9.tally (-1) 0).toOption.any (fun r => decide ((r.1, r.2.lastLit, r.2.matchCount, r.2.dBuf) = (false, 1, 1, [(0, 0xFFFF)]))) =
      true := by
  unfold Deflate.tally
  generalize hc : (⟨distSymbol (-1 - 1), distSymbol_lt _⟩ : Fin 30) = c
  rw [show distSymbol (-1 - 1) = c.val from congrArg Fin.val hc]
  clear hc
  revert c
  decide +kernel

theorem test_tbBuild_T3 :
    seen (exec (.tbBuild 1) (machine (.deflate def9) [] 0)) = some ⟨0, 1, 0, 0, []⟩ ∧
    deflateAfter (fun d => (d.dd.code, d.optLen, d.staticLen)) (exec (.tbBuild 1) (machine (.deflate def9) [] 0)) =
      some ([(0, 0), (1, 1)], 0, 0) := by decide +kernel

/-- R615, by hand: a root (node 30) over the leaves 0 and 1, each of depth 1. -/
theorem test_tbGenBitlen :
    deflateAfter (fun d => (d.dd.len, d.tb.blCount.map Prod.snd)) (exec (.tbGenBitlen 1) (machine (.deflate { def9 with
      dd := ⟨[(0, 1), (1, 1)], [], [], [(0, 30), (1, 30)], some 1⟩
      tb := { def9.tb with heap := [(570, 30), (571, 0), (572, 1)], heapMax := some 570 } }) [] 0)) =
      some ([(0, 1), (1, 1), (30, 0)], [0, 2, 0, 0, 0, 0, 0, 0, 0, 0, 0, 0, 0, 0, 0, 0]) := by decide +kernel

/-- R615: on a heap that another descriptor's build left, the root is a node this one does not have; `maxCode`, which no
command has written, is not read before it. -/
theorem test_tbGenBitlen_other_heap :
    exec (.tbGenBitlen 2) (machine (.deflate { def9 with
      tb := { def9.tb with heap := [(571, 0), (572, 39)], heapMax := some 572 } }) [] 0) =
      .fault (.indexFault .len 39) := by rfl

/-- R620, by hand: lengths 2, 1, 2 get the codes 10, 0, 11, stored reversed. -/
theorem test_tbGenCodes :
    deflateAfter (fun d => d.dd.code) (exec (.tbGenCodes 1) (machine (.deflate { def9 with
      dd := ⟨[], [(0, 2), (1, 1), (2, 2)], [], [], some 2⟩
      tb := { def9.tb with blCount := (List.range 16).map fun b => (b, if b = 1 then 1 else if b = 2 then 2 else 0) } })
      [] 0)) = some [(0, 1), (1, 0), (2, 3)] := by decide +kernel

/-- R625, by hand: lengths 5, 5, 5, 5, 5, 0, 0, 0 are symbol 5, symbol 16 (4 copies) and symbol 17 (3 zeros). -/
theorem test_tbScan :
    deflateAfter (fun d => d.bd.freq) (exec (.tbScan 1) (machine (.deflate { def9 with
      dd := ⟨[], [(0, 5), (1, 5), (2, 5), (3, 5), (4, 5), (5, 0), (6, 0), (7, 0)], [], [], some 7⟩ }) [] 0)) =
      some [(5, 1), (16, 1), (17, 1)] := by decide +kernel

/-- R626, by hand: symbol 17 with code 1 of length 1, and 3 - 3 = 0 in 3 bits. -/
theorem test_tbSendTree :
    deflateAfter (fun d => d.bw) (exec (.tbSendTree 1) (machine (.deflate { def9 with
      dd := ⟨[], [(0, 0), (1, 0), (2, 0)], [], [], some 2⟩, bd := ⟨[], [(17, 1)], [(17, 1)], [], none⟩ }) [] 0)) =
      some ⟨1, 4⟩ := by decide +kernel

/-- R630, R621: the literal `a` and END_BLOCK with the fixed codes, after the 3 header bits of a final fixed block: the
bytes `4B 04 00` of vector E-3. -/
theorem test_tbCompress_E3 :
    deflateAfter (fun d => (d.pending, d.bw)) (exec (.tbCompress 0) (machine (.deflate { def9 with
      lastLit := 1, dBuf := [(0, 0)], lBuf := [(0, 0x61)], bw := ⟨3, 3⟩ }) [] 0)) = some ([0x4B, 0x04], ⟨0, 2⟩) := by
  decide +kernel

theorem test_tbStored_T8 :
    deflateAfter (·.pending) (exec (.tbStored 1 0 3)
      (machine (.deflate { def9 with window := [(0, 0x78), (1, 0x79), (2, 0x7A)] }) [] 0)) =
      some [0x01, 0x03, 0x00, 0xFC, 0xFF, 0x78, 0x79, 0x7A] := by decide +kernel

theorem test_tbFlushBlock_level0 :
    deflateAfter (·.pending) (exec (.tbFlushBlock 1) (machine (.deflate (Deflate.blank 9 0).initBlock) [] 0)) =
      some [0x01, 0x00, 0x00, 0xFF, 0xFF] := by decide +kernel

theorem test_defStep_E2 :
    seen (exec (.defStep 4) (machine (.deflate (Deflate.blank 15 0).initBlock) [0x61, 0x62] 64)) =
      some ⟨1, 0, 0, 2, [0x01, 0x02, 0x00, 0xFD, 0xFF, 0x61, 0x62]⟩ := by decide +kernel

theorem test_defStep_bufError :
    seen (exec (.defStep 4) (machine (.deflate def9) [0x61] 0)) = some ⟨5, 0, 0, 0, []⟩ ∧
    seen (exec (.defStep 1) (machine (.deflate def9) [0x61] 0)) = some ⟨0x27, 0, 0, 0, []⟩ := by decide

theorem test_defSetDict :
    deflateAfter (fun d => (d.strstart, d.dictAllowed)) (exec .defSetDict (machine (.deflate def9) [1, 2, 3] 0)) =
      some (3, false) := by decide

/-- R764: a latched instance answers the latched status and does nothing. -/
theorem test_latched :
    seen (exec .infStep { machine (.inflate inf8) [3, 0] 9 with
      codec := ⟨Regs.zero, some (.data .badBlockType), .inflate inf8⟩ }) = some ⟨0x16, 0, 0, 0, []⟩ := by decide

/-- R805, R800: a command before the first reset is refused, and a reset after it is accepted. -/
theorem test_power_on :
    seen (step (State.reset.withFetchWord 32 0x11000000)) = some ⟨0x67, 0, 0, 0, []⟩ ∧
    seen (step (State.reset.withFetchWord 32 0x1000000F)) = some ⟨0, 0, 0, 0, []⟩ := by decide

/-! ## Witnesses: for each statement with hypotheses, states and operands that meet them together -/

/-- The bounds of a deflate instance, as one closed check. -/
theorem Deflate.ok_of {d : Deflate} (h1 : 9 ≤ d.dwbits ∧ d.dwbits ≤ 15 ∧ d.bw.biValid ≤ 16 ∧ d.pending.length ≤ 65536 ∧
      d.niceMatch ≤ 258)
    (h2 : Memory.wf d.window ∧ (∀ c ∈ d.window, c.1 < 2 * 2 ^ d.dwbits) ∧ Cells.wf 0 d.head ∧ Cells.wf 0 d.prev)
    (h3 : d.lastLit ≤ 16384 ∧ (∀ c ∈ d.ld.len, c.2 ≤ 15) ∧ (∀ c ∈ d.dd.len, c.2 ≤ 15) ∧ (∀ c ∈ d.bd.len, c.2 ≤ 15))
    (h4 : Cells.wf 0 d.ld.freq ∧ Cells.wf 0 d.dd.freq ∧ Cells.wf 0 d.bd.freq)
    (h5 : (Cells.sorted d.lBuf ∧ Cells.sorted d.dBuf) ∧
      (Cells.sorted d.ld.len ∧ Cells.sorted d.ld.code ∧ Cells.sorted d.ld.dad) ∧
      (Cells.sorted d.dd.len ∧ Cells.sorted d.dd.code ∧ Cells.sorted d.dd.dad) ∧
      (Cells.sorted d.bd.len ∧ Cells.sorted d.bd.code ∧ Cells.sorted d.bd.dad) ∧
      Cells.sorted d.tb.heap ∧ Cells.sorted d.tb.depth ∧ Cells.sorted d.tb.blCount) : d.Ok :=
  have ⟨⟨hl, hd⟩, ⟨a, b, c⟩, ⟨e, f, g⟩, ⟨i, j, k⟩, hh, hp, hc⟩ := h5
  ⟨h1.1, h1.2.1, h1.2.2.1, h1.2.2.2.1, h2.1, h2.2.1, h2.2.2.1, h2.2.2.2, h3.1, hl, hd, ⟨h3.2.1, h4.1, a, b, c⟩,
    ⟨h3.2.2.1, h4.2.1, e, f, g⟩, ⟨h3.2.2.2, h4.2.2, i, j, k⟩, ⟨hh, hp, hc⟩, h1.2.2.2.2⟩

/-- The bounds of a decoder window, as one closed check. -/
theorem SlidingWindow.ok_of {w : SlidingWindow} (h : 8 ≤ w.wbits ∧ w.wbits ≤ 15 ∧ w.writeCursor < 2 ^ w.wbits ∧
    w.undelivered ≤ w.whave ∧ w.whave ≤ 2 ^ w.wbits ∧ Memory.wf w.buffer ∧ ∀ c ∈ w.buffer, c.1 < 2 ^ w.wbits) : w.Ok :=
  ⟨h.1, h.2.1, h.2.2.1, h.2.2.2.1, h.2.2.2.2.1, h.2.2.2.2.2.1, h.2.2.2.2.2.2⟩

/-- Code lengths for the symbols below `n`, as one closed check. -/
theorem hasLens_of {t : Tree} {n : Nat} (h : ∀ k < n, (Cells.find? t.len k).any (fun l => decide (l ≤ 15)) = true) :
    hasLens t n := fun k hk => by
  have := h k hk
  cases hf : Cells.find? t.len k with
  | none => rw [hf] at this; cases this
  | some l => rw [hf] at this; exact ⟨l, rfl, by simpa using this⟩

/-- Commands that leave a deflate instance without a latched error, and `P` of what they leave, as one closed check. -/
def leaves (is : List Instr) (s : State) (P : State → Deflate → Bool) : Bool :=
  match chain is s with
  | some t => (match t.codec.engine with | .deflate d => t.codec.err.isNone && P t d | _ => false)
  | none => false

theorem leaves_spec {is : List Instr} {s : State} {P : State → Deflate → Bool} (h : leaves is s P = true) :
    ∃ t d, chain is s = some t ∧ t.isDeflate d ∧ P t d = true := by
  unfold leaves at h
  split at h
  · rename_i t ht
    split at h
    · rename_i d hd
      rw [Bool.and_eq_true, Option.isNone_iff_eq_none] at h
      exact ⟨t, d, ht, ⟨h.1, hd⟩, h.2⟩
    · cases h
  · cases h

/-- A command that answers a next state, as one closed check. -/
theorem answers_of_check {o : Host.Outcome State Fault Refusal} (h : (match o with | .next _ => true | _ => false) = true) :
    answers o := by
  cases o with
  | next t => exact ⟨t, rfl⟩
  | fault f => cases h
  | refused r => cases h

theorem inf8_ok : inf8.Ok :=
  ⟨by unfold BitCursor.Ok; decide, SlidingWindow.ok_of (by decide), ⟨by decide, by decide, by decide, by decide, by decide⟩,
    by decide, by decide⟩

theorem def9_ok : def9.Ok := Deflate.ok_of (by decide) (by decide) (by decide) (by decide) (by decide)

/-- The machine at power-on with one command waiting. -/
def waiting (w0 w1 : Word) : State := { State.reset with queue := [⟨0, w0, w1, [3, 0], 9⟩] }

theorem powerOn_ok : Codec.powerOn.Ok := ⟨by decide, rfl, rfl, rfl⟩

theorem waiting_inv (w0 w1 : Word) : (waiting w0 w1).Inv :=
  ⟨powerOn_ok, fun p hp => (by cases hp), Cells.wf_nil _, rfl⟩

theorem witness_StepRunsDecodedCommand :
    State.reset.queue = [] ∧
    ((waiting 0x1000000F 0).queue = [⟨0, 0x1000000F, 0, [3, 0], 9⟩] ∧ decode 0x1000000F 0 = .ok (.infReset 15 0 0)) ∧
    decodeTableWord 32 0x1000000F = some (.infReset 15 0 0) := ⟨rfl, ⟨rfl, by decide⟩, by decide⟩

theorem witness_StepKeepsInvariant : ∃ s t : State, s.Inv ∧ s.queue ≠ [] ∧ step s = .next t :=
  ⟨waiting 0x1000000F 0, _, waiting_inv _ _, by decide, rfl⟩

theorem witness_OtherInstancesUntouched : ∃ (s t : State) (c : Command) (rest : List Command),
    s.Inv ∧ s.queue = c :: rest ∧ step s = .next t := ⟨waiting 0x1000000F 0, _, _, _, waiting_inv _ _, rfl, rfl⟩

theorem witness_OtherInstancesUnread : ∃ (s₁ s₂ t₁ : State) (c : Command) (rest₁ rest₂ : List Command),
    s₁.queue = c :: rest₁ ∧ s₂.queue = c :: rest₂ ∧ s₁.codecAt c.target = s₂.codecAt c.target ∧ step s₁ = .next t₁ :=
  ⟨waiting 0x1000000F 0, { waiting 0x1000000F 0 with parked := [(4, ⟨Regs.zero, none, .inflate inf8⟩)] }, _, _, _, _,
    rfl, rfl, rfl, rfl⟩

theorem witness_OnlyResetsConfigure : ∃ t, owner .bcrAlign ≠ .reset ∧ exec .bcrAlign (machine (.inflate inf8) [] 0) = .next t :=
  ⟨_, by decide, rfl⟩

theorem witness_CountsReportTheTransfer : ∃ t,
    owner .swbDrain ≠ .reset ∧ exec .swbDrain (machine (.inflate { inf8 with sw := ⟨8, [], 3, 3, 3⟩ }) [7] 2) = .next t :=
  ⟨_, by decide, rfl⟩

theorem witness_StatusReportsTheLatch : ∃ t u,
    exec .swbSlide (machine (.deflate def9) [] 0) = .next t ∧ t.codec.err = some (.stream .badOperand) ∧
    exec .tbInitBlock (machine (.deflate def9) [] 0) = .next u ∧ u.codec.err = none := ⟨_, _, rfl, rfl, rfl, rfl⟩

theorem witness_LatchAnswersEveryCommand :
    (∃ (s : State) (c : Command) (e : Latch), s.queue = [c] ∧ (s.codecAt c.target).err = some e ∧
      decode c.w0 c.w1 = .ok .infStep ∧ owner .infStep ≠ .reset) ∧
    (∃ (s : State) (c : Command) (e : Latch), s.queue = [c] ∧ (s.codecAt c.target).err = some e ∧
      decode c.w0 c.w1 = .error .unknown) ∧
    owner (.defReset 9 0 0) = .reset ∧ (Instr.defReset 9 0 0).wellFormed = true :=
  ⟨⟨{ waiting 0x11000000 0 with codec := ⟨Regs.zero, some (.data .badRepeat), .inflate inf8⟩ }, _, _, rfl, rfl, by decide,
      by decide⟩,
    ⟨{ waiting 0 0 with codec := ⟨Regs.zero, some (.data .badRepeat), .inflate inf8⟩ }, _, _, rfl, rfl, by decide⟩,
    by decide, by decide⟩

/-- A command that answers a state with status `st`, from one closed check. -/
theorem answers_of {o : Host.Outcome State Fault Refusal} {st : Word}
    (h : (match o with | .next t => t.codec.regs.status == st | _ => false) = true) :
    ∃ t, o = .next t ∧ t.codec.regs.status = st := by
  cases o with
  | next t => exact ⟨t, rfl, by simpa using h⟩
  | fault f => cases h
  | refused r => cases h

theorem witness_TransientStatusChangesNothing :
    (∃ t, exec (.defStep 0) (machine (.deflate def9) [1] 0) = .next t ∧ t.codec.regs.status = 5) ∧
    (∃ t, exec .infStep (machine (.inflate inf8) [] 0) = .next t ∧ t.codec.regs.status = 3) ∧
    (∃ t, exec .infStep (machine (.inflate { inf8 with mode := .drain, sw := ⟨8, [], 1, 1, 1⟩ }) [] 0) = .next t ∧
      t.codec.regs.status = 4) :=
  ⟨answers_of (by decide +kernel), answers_of (by decide +kernel), answers_of (by decide +kernel)⟩

theorem witness_WrongKindRaises :
    ((machine (.deflate def9) [] 0).codec.err = none ∧ owner .infStep = .inflate ∧
      ∀ d, (machine (.deflate def9) [] 0).codec.engine ≠ .inflate d) ∧
    ((machine .unset [] 0).codec.err = none ∧ owner .tbBlTree = .deflate ∧
      ∀ d, (machine .unset [] 0).codec.engine ≠ .deflate d) ∧
    (decode 0x11000000 1 = .error (.reserved .infStep) ∧ decode 0x80000001 0 = .error (.reserved .tbInitBlock) ∧
      ∃ (s : State) (c : Command), s.queue = [c] ∧ decode c.w0 c.w1 = .error (.reserved (.tbBuild 0)) ∧
        (s.codecAt c.target).err = none ∧ ∀ d, (s.codecAt c.target).engine ≠ .deflate d) :=
  ⟨⟨rfl, rfl, fun _ h => by cases h⟩, ⟨rfl, rfl, fun _ h => by cases h⟩, by decide, by decide, waiting 0x82000000 1, _, rfl,
    by decide, rfl, fun _ h => by cases h⟩

theorem witness_BadOperandRaises :
    ((Instr.bcrNeed 17).wellFormed = false ∧ owner (.bcrNeed 17) = .inflate ∧
      (machine (.inflate inf8) [] 0).isInflate inf8) ∧
    ((Instr.tbBuild 3).wellFormed = false ∧ owner (.tbBuild 3) = .deflate ∧
      (machine (.deflate def9) [] 0).isDeflate def9) ∧
    (decode 0x30000020 0 = .error (.reserved (.bcrNeed 0)) ∧ decode 0x82000000 1 = .error (.reserved (.tbBuild 0))) := by
  exact ⟨⟨by decide, rfl, rfl, rfl⟩, ⟨by decide, rfl, rfl, rfl⟩, by decide⟩

theorem witness_UnassignedEncodingsRefused : ∃ (s : State) (c : Command),
    s.queue = [c] ∧ decode c.w0 c.w1 = .error .unknown ∧ (s.codecAt c.target).err = none :=
  ⟨waiting 0x8C000000 0, _, rfl, by decide, rfl⟩

theorem witness_EncodeOfDecode : decode 0x51000102 0x8000 = .ok (.swbCopy 258 0x8000) := by decide

theorem witness_InfResetInstalls :
    (8 ≤ (8#4).toNat ∧ ((0#1) = 0 → (0#32) = 0)) ∧ (8 ≤ (15#4).toNat ∧ ((1#1) = 0 → (5#32) = 0)) := by decide

theorem witness_DefResetInstalls :
    (9 ≤ (9#4).toNat ∧ (0#4).toNat ≤ 9) ∧ (9 ≤ (15#4).toNat ∧ (9#4).toNat ≤ 9) := by decide

theorem witness_RefusedResetKeepsTheInstance :
    (owner (.infReset 7 0 0) = .reset ∧ (Instr.infReset 7 0 0).wellFormed = false) ∧
    (owner (.defReset 15 6 0) = .reset ∧ decode 0x2000046F 0 = .error (.reserved (.defReset 15 6 0))) := by decide

theorem witness_BitFieldsInStreamOrder :
    (machine (.inflate inf8) [1, 2] 0).isInflate inf8 ∧ inf8.bc.Ok ∧
    (16#5).toNat ≤ inf8.bc.bitCount + 8 * [1, 2].length ∧ inf8.bc.bitCount + 8 * [1].length < (9#5).toNat :=
  ⟨⟨rfl, rfl⟩, inf8_ok.cursor, by decide, by decide⟩

theorem witness_AlignAndByte :
    (machine (.inflate inf8) [1] 0).isInflate inf8 ∧ inf8.bc.Ok ∧ 8 ≤ inf8.bc.bitCount + 8 * [1].length ∧
    inf8.bc.bitCount + 8 * ([] : List Byte).length < 8 := ⟨⟨rfl, rfl⟩, inf8_ok.cursor, by decide, by decide⟩

theorem witness_PutAppendsField :
    (machine (.deflate { def9 with bw := ⟨0xFFFD, 16⟩ }) [] 0).isDeflate { def9 with bw := ⟨0xFFFD, 16⟩ } ∧
    writerOk { def9 with bw := ⟨0xFFFD, 16⟩ } ∧ 1 ≤ (16#5).toNat ∧ (16#5).toNat ≤ 16 ∧
    (0xFFFF#16).toNat < 2 ^ (16#5).toNat ∧ def9.pending.length + 2 ≤ 65536 :=
  ⟨⟨rfl, rfl⟩, ⟨by decide, by decide⟩, by decide, by decide, by decide, by decide⟩

theorem replicate_length (n : Nat) : (List.replicate n (0 : Byte)).length = n := List.length_replicate

theorem witness_PutBytesAppend :
    (machine (.deflate def9) [] 0).isDeflate def9 ∧ def9.pending.length + 2 ≤ 65536 ∧
    ∀ n, ∃ d : Deflate, (machine (.deflate d) [] 0).isDeflate d ∧ d.pending.length = n :=
  ⟨⟨rfl, rfl⟩, by decide, fun n => ⟨{ def9 with pending := List.replicate n 0 }, ⟨rfl, rfl⟩, replicate_length n⟩⟩

theorem witness_WindupAndFlush :
    (machine (.deflate { def9 with bw := ⟨0x3FF, 10⟩ }) [] 0).isDeflate { def9 with bw := ⟨0x3FF, 10⟩ } ∧
    writerOk { def9 with bw := ⟨0x3FF, 10⟩ } ∧ def9.pending.length + 2 ≤ 65536 :=
  ⟨⟨rfl, rfl⟩, ⟨by decide, by decide⟩, by decide⟩

theorem witness_DrainMovesPendingBytes : (machine (.deflate def9) [] 3).isDeflate def9 := ⟨rfl, rfl⟩

/-- A decoder window full of undelivered bytes. -/
def full8 : Inflate := { inf8 with sw := ⟨8, [], 0, 256, 256⟩ }

theorem witness_WindowPutAndDrain :
    ((machine (.inflate inf8) [] 3).isInflate inf8 ∧ inf8.sw.Ok ∧ inf8.sw.undelivered < 2 ^ inf8.sw.wbits) ∧
    ((machine (.inflate full8) [] 3).isInflate full8 ∧ full8.sw.Ok ∧ full8.sw.undelivered = 2 ^ full8.sw.wbits) :=
  ⟨⟨⟨rfl, rfl⟩, inf8_ok.window, by decide⟩, ⟨rfl, rfl⟩, SlidingWindow.ok_of (by decide), by decide⟩

/-- A decoder window with its whole history delivered. -/
def history8 : Inflate := { inf8 with sw := ⟨8, [], 2, 0, 256⟩ }

theorem witness_WindowCopyRepeatsHistory :
    (machine (.inflate history8) [] 0).isInflate history8 ∧ history8.sw.Ok ∧ 3 ≤ (258#9).toNat ∧ (258#9).toNat ≤ 258 ∧
    (1 ≤ (256#32).toNat ∧ (256#32).toNat ≤ history8.sw.whave) ∧ (history8.sw.whave < (257#32).toNat) ∧ (0#32).toNat = 0 :=
  ⟨⟨rfl, rfl⟩, SlidingWindow.ok_of (by decide), by decide, by decide, by decide, by decide, by decide⟩

theorem witness_WindowSeedInstallsHistory :
    ((machine (.inflate history8) [1] 0).isInflate history8 ∧ history8.sw.Ok ∧ history8.sw.undelivered = 0) ∧
    ((machine (.inflate full8) [1] 0).isInflate full8 ∧ full8.sw.Ok ∧ full8.sw.undelivered ≠ 0) :=
  ⟨⟨⟨rfl, rfl⟩, SlidingWindow.ok_of (by decide), rfl⟩, ⟨rfl, rfl⟩, SlidingWindow.ok_of (by decide), by decide⟩

theorem witness_BuildJudgesTheSet :
    (machine (.inflate inf8) [] 0).isInflate inf8 ∧
    ((Instr.hdtBuild 2 1).wellFormed = true ∧ ([] : List Byte).length < (1#9).toNat) ∧
    (∃ l ∈ ([16] : List Byte).map BitVec.toNat, 15 < l) ∧
    ((Instr.hdtBuild 2 3).wellFormed = true ∧ 2 ^ 15 < kraft [1, 1, 1] ∧ ∀ l ∈ [1, 1, 1], l ≤ 15) ∧
    (0 < kraft [2] ∧ kraft [2] < 2 ^ 15 ∧ ∃ l ∈ [2], 2 ≤ l) ∧ kraft [0] = 0 ∧
    (0 < kraft [0, 1] ∧ kraft [0, 1] < 2 ^ 15 ∧ codeKindOf 2 ≠ .codes ∧ (∀ l ∈ [0, 1], l ≤ 1) ∧
      (Instr.hdtBuild 2 2).wellFormed = true) := by
  exact ⟨⟨rfl, rfl⟩, by decide, by decide, by decide, by decide, by decide, by decide⟩

theorem witness_BuildLaysOutCanonicalCodes :
    ((machine (.inflate inf8) [1, 2, 2] 0).isInflate inf8 ∧ (Instr.hdtBuild 2 3).wellFormed = true ∧
      (3#9).toNat ≤ ([1, 2, 2] : List Byte).length ∧ (∀ b ∈ ([1, 2, 2] : List Byte), b.toNat ≤ 15) ∧
      kraft [1, 2, 2] = 2 ^ 15 ∧ ∀ l ∈ [1, 2, 2], l ≤ (codeKindOf 2).rootReq) ∧
    (kraft [1, 2, 3, 4, 5, 6, 7, 7] = 2 ^ 15 ∧ (codeKindOf 2).rootReq < 7 ∧
      answers (exec (.hdtBuild 2 8) (machine (.inflate inf8) [1, 2, 3, 4, 5, 6, 7, 7] 0))) :=
  ⟨⟨⟨rfl, rfl⟩, by decide, by decide, by decide, by decide, by decide⟩, by decide, by decide,
    answers_of_check (by decide +kernel)⟩

/-- A decoder with the fixed tables. -/
def fixed8 : Inflate := { inf8 with llRef := some fixedLLRef, dRef := some fixedDRef }

/-- A decoder with a distance table of root width 1 for the lengths 1, 2, 2: a code, and a sub-table of two; and a
literal/length table for the literal `a` and END_BLOCK, with codes of length 1. -/
def tables8 : Inflate :=
  { inf8 with
    mode := .len
    last := true
    ht := { inf8.ht with
      arena := [(0, ⟨.lit, 1, 97⟩), (1, ⟨.eob, 1, 0⟩), (852, ⟨.dist 0, 1, 1⟩), (853, ⟨.link 1, 1, 854⟩), (854, ⟨.dist 0, 1, 2⟩),
        (855, ⟨.dist 0, 1, 3⟩)] }
    llRef := some ⟨.arena, 0, 1⟩
    dRef := some ⟨.arena, 852, 1⟩ }

theorem tables8_dists : laidOut tables8.ht ⟨.arena, 852, 1⟩ .dists [1, 2, 2] := by
  intro v
  have hstart : ∀ k, startsWith [1, 2, 2] k v ↔ (k = 0 ∧ v % 2 = 0) ∨ (k = 1 ∧ v % 4 = 1) ∨ (k = 2 ∧ v % 4 = 3) := by
    intro k
    match k with
    | 0 => simp [startsWith, coded, show canonicalField [1, 2, 2] 0 = (0, 1) by decide]
    | 1 => simp [startsWith, coded, show canonicalField [1, 2, 2] 1 = (1, 2) by decide]
    | 2 => simp [startsWith, coded, show canonicalField [1, 2, 2] 2 = (3, 2) by decide]
    | k + 3 => simp [startsWith, coded]
  obtain h | h | h | h : v % 4 = 0 ∨ v % 4 = 1 ∨ v % 4 = 2 ∨ v % 4 = 3 := by omega
  · have h2 : v % 2 = 0 := by omega
    refine ⟨0, (hstart 0).2 (by omega), fun o ho => by have := (hstart o).1 ho; omega, fun _ => ?_, fun hl => absurd hl (by decide)⟩
    simp only [pow_one, h2]; rfl
  · have h2 : v % 2 = 1 := by omega
    refine ⟨1, (hstart 1).2 (by omega), fun o ho => by have := (hstart o).1 ho; omega, fun hl => absurd hl (by decide),
      fun _ => ⟨1, 854, ?_, ?_⟩⟩
    · simp only [pow_one, h2]; rfl
    · simp only [pow_one, show v % 2 ^ (1 + 1) = 1 from h]; rfl
  · have h2 : v % 2 = 0 := by omega
    refine ⟨0, (hstart 0).2 (by omega), fun o ho => by have := (hstart o).1 ho; omega, fun _ => ?_, fun hl => absurd hl (by decide)⟩
    simp only [pow_one, h2]; rfl
  · have h2 : v % 2 = 1 := by omega
    refine ⟨2, (hstart 2).2 (by omega), fun o ho => by have := (hstart o).1 ho; omega, fun hl => absurd hl (by decide),
      fun _ => ⟨1, 854, ?_, ?_⟩⟩
    · simp only [pow_one, h2]; rfl
    · simp only [pow_one, show v % 2 ^ (1 + 1) = 3 from h]; rfl

/-- The lengths of an alphabet of 257 symbols with codes for `a` and END_BLOCK only. -/
def twoLens : List Nat := List.replicate 97 0 ++ [1] ++ List.replicate 158 0 ++ [1]

/-- A table of two entries holds the codes of two symbols of length 1. -/
theorem laidOut_two {t : DecodeTables} {r : TableRef} {k : CodeKind} {lens : List Nat} {a b : Nat} (hr : r.root = 1)
    (hc : ∀ n < lens.length, lens.getD n 0 ≠ 0 → n = a ∨ n = b) (ha : canonicalField lens a = (0, 1))
    (hb : canonicalField lens b = (1, 1)) (h0 : t.entry r.store (r.start + 0) = .ok (symbolEntry k a 1))
    (h1 : t.entry r.store (r.start + 1) = .ok (symbolEntry k b 1)) : laidOut t r k lens := by
  intro v
  have la : lens.getD a 0 = 1 := congrArg Prod.snd ha
  have lb : lens.getD b 0 = 1 := congrArg Prod.snd hb
  have hstart : ∀ n, startsWith lens n v ↔ (n = a ∧ v % 2 = 0) ∨ (n = b ∧ v % 2 = 1) := by
    intro n
    constructor
    · rintro ⟨hn, hv⟩
      have hlt : n < lens.length := by
        by_contra hge
        exact hn (List.getD_eq_default _ _ (by omega))
      rcases hc n hlt hn with rfl | rfl
      · rw [la, ha] at hv; exact .inl ⟨rfl, hv⟩
      · rw [lb, hb] at hv; exact .inr ⟨rfl, hv⟩
    · rintro (⟨rfl, hv⟩ | ⟨rfl, hv⟩)
      · exact ⟨by rw [coded, la]; decide, by rw [la, ha]; exact hv⟩
      · exact ⟨by rw [coded, lb]; decide, by rw [lb, hb]; exact hv⟩
  obtain h | h : v % 2 = 0 ∨ v % 2 = 1 := by omega
  · refine ⟨a, (hstart a).2 (by omega), fun o ho => by have := (hstart o).1 ho; omega, fun _ => ?_,
      fun hl => absurd hl (by rw [la]; omega)⟩
    rw [la, hr, pow_one, h]; exact h0
  · refine ⟨b, (hstart b).2 (by omega), fun o ho => by have := (hstart o).1 ho; omega, fun _ => ?_,
      fun hl => absurd hl (by rw [lb]; omega)⟩
    rw [lb, hr, pow_one, h]; exact h1

theorem tables8_lens : laidOut tables8.ht ⟨.arena, 0, 1⟩ .lens twoLens :=
  laidOut_two (a := 97) (b := 256) rfl (by decide +kernel) (by decide +kernel) (by decide +kernel) rfl rfl

/-- A decoder with the codes of END_BLOCK and of a length of 3, and of distance 1 and of the invalid distance symbol 30, each of
one bit. -/
def lengths8 : Inflate :=
  { tables8 with
    ht := { inf8.ht with
      arena := [(0, ⟨.eob, 1, 0⟩), (1, ⟨.len 0, 1, 3⟩), (852, ⟨.dist 0, 1, 1⟩), (853, ⟨.invalid, 1, 0⟩)] } }

/-- The lengths of its literal/length alphabet, and of its distance alphabet. -/
def lengthsLL : List Nat := List.replicate 256 0 ++ [1, 1]
def lengthsDD : List Nat := [1] ++ List.replicate 29 0 ++ [1]

theorem lengths8_lens : laidOut lengths8.ht ⟨.arena, 0, 1⟩ .lens lengthsLL :=
  laidOut_two (a := 256) (b := 257) rfl (by decide +kernel) (by decide +kernel) (by decide +kernel) rfl rfl

theorem lengths8_dists : laidOut lengths8.ht ⟨.arena, 852, 1⟩ .dists lengthsDD :=
  laidOut_two (a := 0) (b := 30) rfl (by decide +kernel) (by decide +kernel) (by decide +kernel) rfl rfl

/-- A decoder whose two literal/length codes are END_BLOCK's and the invalid symbol 286's, and whose distance table is the empty
set's. -/
def invalid8 : Inflate :=
  { tables8 with
    ht := { inf8.ht with
      arena := [(0, ⟨.eob, 1, 0⟩), (1, ⟨.invalid, 1, 0⟩), (852, ⟨.invalid, 1, 0⟩), (853, ⟨.invalid, 1, 0⟩)] } }

/-- The lengths of its literal/length alphabet. -/
def invalidLL : List Nat := List.replicate 256 0 ++ [1] ++ List.replicate 29 0 ++ [1]

theorem invalid8_lens : laidOut invalid8.ht ⟨.arena, 0, 1⟩ .lens invalidLL :=
  laidOut_two (a := 256) (b := 286) rfl (by decide +kernel) (by decide +kernel) (by decide +kernel) rfl rfl

theorem tables8_cursor : tables8.bc.Ok := by unfold BitCursor.Ok; decide

/-- The fixed tables: a code that is complete, one that is not, an invalid one; and a reference that is NONE. -/
theorem witness_DecodeReadsOneCode_fixed :
    ((machine (.inflate fixed8) [0] 0).isInflate fixed8 ∧ fixed8.bc.Ok ∧ fixed8.llRef = some ⟨.fixedLL, 0, 9⟩ ∧
      fixed8.dRef = some ⟨.fixedD, 0, 5⟩) ∧
    fixed8.bc.bitCount + 8 * ([] : List Byte).length < (fixedLLEntry (bitsOf fixed8.bc [] % 512)).bits ∧
    (fixedLLEntry (bitsOf fixed8.bc [0] % 512)).bits ≤ fixed8.bc.bitCount + 8 * ([0] : List Byte).length ∧
    (fixedLLEntry (bitsOf fixed8.bc [0] % 512)).op ≠ .invalid ∧
    (fixedDEntry (bitsOf fixed8.bc [0x1F] % 32)).op = .invalid ∧
    ((machine (.inflate inf8) [] 0).isInflate inf8 ∧ (0#2).toNat ≤ 2 ∧ inf8.refOf (codeKindOf 0) = none) :=
  ⟨⟨⟨rfl, rfl⟩, inf8_ok.cursor, rfl, rfl⟩, by decide, by decide, by decide, by decide, ⟨rfl, rfl⟩, by decide, rfl⟩

/-- A table with a sub-table, and a code in it; the table of the empty set. -/
theorem witness_DecodeReadsOneCode_built :
    ((machine (.inflate tables8) [3] 0).isInflate tables8 ∧ tables8.bc.Ok ∧
      tables8.refOf (codeKindOf 2) = some ⟨.arena, 852, 1⟩ ∧ laidOut tables8.ht ⟨.arena, 852, 1⟩ .dists [1, 2, 2] ∧
      (∀ l ∈ [1, 2, 2], l ≤ 15) ∧ startsWith [1, 2, 2] 2 (bitsOf tables8.bc [3])) ∧
    ∃ d : Inflate, (machine (.inflate d) [1] 0).isInflate d ∧ d.bc.Ok ∧ d.refOf (codeKindOf 2) = some ⟨.arena, 852, 1⟩ ∧
      ∀ i < 2, d.ht.entry .arena (852 + i) = .ok ⟨.invalid, 1, 0⟩ :=
  ⟨⟨⟨rfl, rfl⟩, tables8_cursor, rfl, tables8_dists, by decide, by unfold startsWith coded; decide⟩,
    { tables8 with ht := { inf8.ht with arena := [(852, ⟨.invalid, 1, 0⟩), (853, ⟨.invalid, 1, 0⟩)] } }, ⟨rfl, rfl⟩,
    tables8_cursor, rfl, fun i hi => by
      obtain rfl | rfl : i = 0 ∨ i = 1 := by omega
      all_goals rfl⟩

theorem witness_FinishedAndWaitingDecoders :
    (∃ d : Inflate, (machine (.inflate d) [1] 0).isInflate d ∧ d.mode = .done) ∧
    (∃ d : Inflate, (machine (.inflate d) [1] 0).isInflate d ∧ d.mode = .needDict) :=
  ⟨⟨{ inf8 with mode := .done }, ⟨rfl, rfl⟩, rfl⟩, Inflate.fresh 8 true 5, ⟨rfl, rfl⟩, rfl⟩

/-- A block that is not final, its padding bits set, before a final one; and only the first. -/
theorem witness_StoredStreamDecodes :
    ((machine (.inflate inf8) [0xF8, 1, 0, 0xFE, 0xFF, 7, 1, 2, 0, 0xFD, 0xFF, 8, 9, 5] 3).isInflate inf8 ∧ inf8.sw.Ok ∧
      inf8.mode = .type ∧ inf8.bc.bitBuffer = 0 ∧ inf8.bc.bitCount = 0 ∧ inf8.sw.undelivered = 0) ∧
    ((0xF8#8).toNat % 8 = 0 ∧ (1#8).toNat % 8 = 1 ∧ ([0xF8, 1, 0, 0xFE, 0xFF, 7, 1, 2, 0, 0xFD, 0xFF, 8, 9, 5] : List Byte) =
      [((0xF8 : Byte), ([7] : List Byte))].flatMap (fun b => storedBytes b.1 b.2) ++ storedBytes 1 [8, 9] ++ [5]) ∧
    ([0xF8, 1, 0, 0xFE, 0xFF, 7] : List Byte) =
      [((0xF8 : Byte), ([7] : List Byte))].flatMap (fun b => storedBytes b.1 b.2) :=
  ⟨⟨⟨rfl, rfl⟩, inf8_ok.window, rfl, rfl, rfl, rfl⟩, by decide, by decide⟩

/-- A stored block of 5 bytes: a full window with no output space; no input; and 2 bytes of input with space for one. -/
theorem witness_StoredStreamDecodes_copy :
    (∃ d : Inflate, (machine (.inflate d) [1] 0).isInflate d ∧ d.sw.Ok ∧ d.mode = .storedCopy ∧ d.bc.bitBuffer = 0 ∧
      d.bc.bitCount = 0 ∧ d.sw.undelivered = 2 ^ d.sw.wbits ∧ min 1 (2 ^ d.sw.wbits + 0 - d.sw.undelivered) = 0 ∧
      0 < d.length) ∧
    (∃ d : Inflate, (machine (.inflate d) [] 1).isInflate d ∧ d.sw.Ok ∧ d.mode = .storedCopy ∧ d.sw.undelivered = 0 ∧
      0 < d.length) ∧
    (∃ d : Inflate, (machine (.inflate d) [1, 2] 1).isInflate d ∧ d.sw.Ok ∧ d.mode = .storedCopy ∧
      min 2 (2 ^ d.sw.wbits + 1 - d.sw.undelivered) = 2 ∧ 2 < d.length) :=
  ⟨⟨{ inf8 with mode := .storedCopy, length := 5, sw := ⟨8, [], 0, 256, 256⟩ }, ⟨rfl, rfl⟩, SlidingWindow.ok_of (by decide),
      rfl, rfl, rfl, by decide, by decide, by decide⟩,
    ⟨{ inf8 with mode := .storedCopy, length := 5 }, ⟨rfl, rfl⟩, inf8_ok.window, rfl, rfl, by decide⟩,
    { inf8 with mode := .storedCopy, length := 5 }, ⟨rfl, rfl⟩, inf8_ok.window, rfl, by decide, by decide⟩

/-- A header of type 3; dynamic ones that declare 287 literal/length symbols and 31 distance symbols; and a stored block with
the lengths of R482's example. -/
theorem witness_BlockHeadersAreRead :
    ((machine (.inflate inf8) [7] 0).isInflate inf8 ∧ inf8.bc.Ok ∧ inf8.sw.Ok ∧ inf8.mode = .type ∧
      inf8.sw.undelivered = 0) ∧
    (3 ≤ inf8.bc.bitCount + 8 * ([7] : List Byte).length ∧ bitsOf inf8.bc [7] / 2 % 4 = 3) ∧
    (17 ≤ inf8.bc.bitCount + 8 * ([0xF5, 0, 0] : List Byte).length ∧ bitsOf inf8.bc [0xF5, 0, 0] / 2 % 4 = 2 ∧
      bitsOf inf8.bc [0xF5, 0, 0] / 8 % 32 + 257 = 287 ∧ bitsOf inf8.bc [0xF5, 0, 0] / 256 % 32 + 1 = 1) ∧
    (bitsOf inf8.bc [5, 30, 0] / 2 % 4 = 2 ∧ bitsOf inf8.bc [5, 30, 0] / 8 % 32 + 257 = 257 ∧
      bitsOf inf8.bc [5, 30, 0] / 256 % 32 + 1 = 31) ∧
    (5 + 0xFEFA ≠ 65535 ∧ streams inf8 (machine (.inflate inf8) [1, 5, 0, 0xFA, 0xFE] 0)
      [(1, 3), (0, (inf8.bc.bitCount + 5) % 8), (5, 16), (0xFEFA, 16)]) := by
  refine ⟨⟨⟨rfl, rfl⟩, inf8_ok.cursor, inf8_ok.window, rfl, rfl⟩, by decide, by decide, by decide, by decide, ?_⟩
  unfold streams; decide

/-- The bit-length code of a small dynamic block: codes of length 1 for 1 and 18. -/
def smallBl : List Nat := [0, 1] ++ List.replicate 16 0 ++ [1]

/-- Its runs: 97 zeros, 1, 158 zeros, 1; and one distance code of length 1. -/
def smallRuns : List Run := [.zeros18 97, .single 1 1, .zeros18 138, .zeros18 20, .single 1 1, .single 1 1]

/-- The header fields of a last dynamic block that declares 257 and `ndist` symbols and sends `ncode` lengths of `bl`, and the
fields of the runs `rs`. -/
def declare (ndist ncode : Nat) (bl : List Nat) (rs : List Run) : List (Nat × Nat) :=
  [(4 + 1, 3), (257 - 257, 5), (ndist - 1, 5), (ncode - 4, 4)] ++ (blOrder.take ncode).map (fun k => (bl.getD k 0, 3)) ++
    rs.flatMap (runFields (canonicalField bl))

/-- A decoder right after reset, given the bytes of the fields `fs`. -/
def given (fs : List (Nat × Nat)) (space : Nat) : State :=
  machine (.inflate inf8) (bytesOf (packedValue fs) ((packedWidth fs + 7) / 8)) space

/-- A code-length code that is not complete: one code of length 1. -/
theorem witness_BlockHeadersAreRead_codeLengths :
    (∀ k ∈ blOrder.drop 4, ([1] ++ List.replicate 18 0).getD k 0 = 0) ∧
    (∀ l ∈ [1] ++ List.replicate 18 0, l ≤ 7) ∧ kraft ([1] ++ List.replicate 18 0) ≠ 2 ^ 15 ∧
    streams inf8 (given (declare 1 4 ([1] ++ List.replicate 18 0) []) 0) (declare 1 4 ([1] ++ List.replicate 18 0) []) := by
  refine ⟨by decide, by decide, by decide, ?_⟩
  unfold streams; decide +kernel

/-- A first symbol 16; and a symbol 18 that repeats one past the 258 lengths declared. -/
theorem witness_BlockHeadersAreRead_repeats :
    (kraft ([1] ++ List.replicate 15 0 ++ [1, 0, 0]) = 2 ^ 15 ∧ decodeRuns none [] = some [] ∧
      ([1] ++ List.replicate 15 0 ++ [1, 0, 0]).getD 16 0 ≠ 0 ∧
      streams inf8 (given (declare 1 4 ([1] ++ List.replicate 15 0 ++ [1, 0, 0]) [] ++ [(1, 1), (0, 2)]) 0)
        (declare 1 4 ([1] ++ List.replicate 15 0 ++ [1, 0, 0]) [] ++
          [canonicalField ([1] ++ List.replicate 15 0 ++ [1, 0, 0]) 16, (0, tableAt blExtra 16)])) ∧
    (kraft smallBl = 2 ^ 15 ∧ decodeRuns none [.zeros18 138] = some (List.replicate 138 0) ∧
      257 + 1 < (List.replicate 138 0).length + 110 + 11 ∧
      streams inf8 (given (declare 1 18 smallBl [.zeros18 138] ++ [(1, 1), (110, 7)]) 0)
        (declare 1 18 smallBl [.zeros18 138] ++ [canonicalField smallBl 18, (110, tableAt blExtra 18)])) := by
  refine ⟨⟨by decide, rfl, by decide +kernel, ?_⟩, by decide, by decide +kernel, by decide +kernel, ?_⟩
  all_goals unfold streams; decide +kernel

/-- No code for symbol 256; three literal/length codes of length 1; three distance codes of length 1. -/
theorem witness_BlockHeadersAreRead_sets :
    (decodeRuns none [.zeros18 138, .zeros18 119, .single 1 1] = some (List.replicate 257 0 ++ [1]) ∧
      (List.replicate 257 0).getD 256 0 = 0 ∧
      streams inf8 (given (declare 1 18 smallBl [.zeros18 138, .zeros18 119, .single 1 1]) 0)
        (declare 1 18 smallBl [.zeros18 138, .zeros18 119, .single 1 1])) ∧
    (decodeRuns none [.single 1 2, .zeros18 138, .zeros18 116, .single 1 2] =
        some (([1, 1] ++ List.replicate 254 0 ++ [1]) ++ [1]) ∧ coded ([1, 1] ++ List.replicate 254 0 ++ [1]) 256 ∧
      ¬ acceptable ([1, 1] ++ List.replicate 254 0 ++ [1]) ∧
      streams inf8 (given (declare 1 18 smallBl [.single 1 2, .zeros18 138, .zeros18 116, .single 1 2]) 0)
        (declare 1 18 smallBl [.single 1 2, .zeros18 138, .zeros18 116, .single 1 2])) ∧
    (decodeRuns none (smallRuns ++ [.single 1 2]) = some (twoLens ++ [1, 1, 1]) ∧ coded twoLens 256 ∧ acceptable twoLens ∧
      ¬ acceptable [1, 1, 1] ∧ (∀ l ∈ twoLens, l ≤ 9) ∧
      streams inf8 (given (declare 3 18 smallBl (smallRuns ++ [.single 1 2])) 0)
        (declare 3 18 smallBl (smallRuns ++ [.single 1 2]))) := by
  refine ⟨⟨by decide +kernel, by decide +kernel, ?_⟩, ⟨by decide +kernel, ?_, ?_, ?_⟩, by decide +kernel, ?_, ?_, ?_,
    by decide +kernel, ?_⟩
  all_goals first | unfold streams; decide +kernel | unfold coded; decide +kernel | unfold acceptable; decide +kernel

/-- Its bit fields, with the literal `a` as its only token. -/
def smallFields : List (Nat × Nat) :=
  declare 1 18 smallBl smallRuns ++ bodyFields (canonicalField twoLens) (canonicalField [1]) [(0, 97)]

/-- A dynamic block; its code lengths fit the root widths. -/
theorem witness_BlockHeadersAreRead_dynamic :
    (twoLens.length = 257 ∧ twoLens.getD 256 0 ≠ 0 ∧ kraft twoLens = 2 ^ 15 ∧
      kraft [1] ≤ 2 ^ 15 ∧ (∀ l ∈ [1], l ≤ 1) ∧ smallBl.length = 19 ∧ (∀ k ∈ blOrder.drop 18, smallBl.getD k 0 = 0) ∧
      (∀ l ∈ smallBl, l ≤ 7) ∧ kraft smallBl = 2 ^ 15) ∧
    decodeRuns none smallRuns = some (twoLens ++ [1]) ∧ (∀ c ∈ smallRuns.flatMap runSymbols, smallBl.getD c 0 ≠ 0) ∧
    (∀ t ∈ [(0, 97)], tokenCoded twoLens [1] t) ∧ replayable (2 ^ inf8.sw.wbits) inf8.sw.whave [(0, 97)] ∧
    (replay (historyOf inf8.sw) [(0, 97)]).length - inf8.sw.whave ≤ 1 ∧
    streams inf8 (given smallFields 1) smallFields ∧
    ((∀ l ∈ twoLens, l ≤ 9) ∧ ∀ l ∈ [1], l ≤ 6) := by
  refine ⟨by decide +kernel, by decide +kernel, by decide +kernel, ?_, ⟨by decide, trivial⟩, by decide, ?_, by decide +kernel⟩
  · intro t ht
    obtain rfl : t = (0, 97) := by simpa using ht
    exact ⟨fun _ => by unfold coded; decide +kernel, fun h => absurd rfl h⟩
  · unfold streams; decide +kernel

/-- The same block, not final, before a final one with the fixed codes and no token. -/
theorem witness_BlockHeadersAreRead_goesOn :
    let all := [(4, 3)] ++ smallFields.drop 1 ++ [(3, 3)] ++ bodyFields fixedLLField fixedDistField []
    smallFields.head? = some (4 + 1, 3) ∧ streams inf8 (given all 1) all ∧
    replayable (2 ^ inf8.sw.wbits) inf8.sw.whave ([(0, 97)] ++ []) := by
  refine ⟨rfl, ?_, ⟨by decide, trivial⟩⟩
  unfold streams; decide +kernel

/-- A decoder that waits for the dictionary `abc`. -/
def dict8 : Inflate := Inflate.fresh 8 true 0x024D0127

theorem witness_SetDictChecksTheSum :
    ((machine (.inflate inf8) [] 0).isInflate inf8 ∧ inf8.sw.Ok ∧ inf8.mode ≠ .needDict) ∧
    ((machine (.inflate dict8) [0x61] 0).isInflate dict8 ∧ dict8.sw.Ok ∧ dict8.mode = .needDict ∧
      dict8.dictSum.toNat ≠ adlerB [0x61] * 65536 + adlerA [0x61]) ∧
    dict8.dictSum.toNat = adlerB [0x61, 0x62, 0x63] * 65536 + adlerA [0x61, 0x62, 0x63] :=
  ⟨⟨⟨rfl, rfl⟩, inf8_ok.window, by decide⟩, ⟨⟨rfl, rfl⟩, SlidingWindow.ok_of (by decide), rfl, by decide⟩, by decide⟩

theorem witness_HashInitPrimesTheHash :
    (machine (.deflate { def9 with strstart := 1022 }) [] 0).isDeflate { def9 with strstart := 1022 } ∧
    1022 + 1 < 2 * 2 ^ def9.dwbits := ⟨⟨rfl, rfl⟩, by decide⟩

theorem witness_InsertLinksTheChain :
    (machine (.deflate def9) [] 0).isDeflate def9 ∧ def9.Ok ∧ (1021#32).toNat + 3 ≤ 2 * 2 ^ def9.dwbits ∧
    2 * 2 ^ def9.dwbits < (1022#32).toNat + 3 := ⟨⟨rfl, rfl⟩, def9_ok, by decide, by decide⟩

/-- The encoder state of vector M-4 of spec/95_test_vectors.md §4.5. -/
def search9 : Deflate := { def9 with window := mfWindow, strstart := 4, lookahead := 7 }

theorem witness_LongestFindsTrueMatches :
    (machine (.deflate search9) [] 0).isDeflate search9 ∧ (3#32).toNat < search9.strstart ∧ search9.niceMatch ≤ 258 ∧
    search9.strstart + max 258 (search9.prevLength + 1) ≤ 2 * 2 ^ search9.dwbits ∧ search9.prevLength ≤ 258 ∧
    1 ≤ search9.prevLength + (3#32).toNat ∧ (∀ k, (Cells.read 0 search9.prev k).toNat ≤ search9.strstart) ∧
    4 ≤ search9.maxChain ∧ search9.strstart ≤ (4#32).toNat :=
  ⟨⟨rfl, rfl⟩, by decide, by decide, by decide, by decide, by decide, fun k => by show 0 ≤ _; omega, by decide, by decide⟩

/-- The first candidate of vector M-4 agrees for 6 bytes; and, in a window of zeros, one agrees for all 258. -/
theorem witness_LongestFindsTrueMatches_candidate :
    (max 1 search9.prevLength < 6 ∧ ∀ j < 6, Memory.read search9.window ((1#32).toNat + j) =
      Memory.read search9.window (search9.strstart + j)) ∧
    (max 1 def9.prevLength < 258 ∧ ∀ j < 258, Memory.read def9.window ((1#32).toNat + j) = Memory.read def9.window (4 + j)) :=
  ⟨by decide, by decide, fun _ _ => rfl⟩

/-- Level 0, with the lengths 0 and 258 to search from, the latter at the last position it may have. -/
theorem witness_LongestFindsTrueMatches_bounds :
    (∃ d : Deflate, (machine (.deflate d) [] 0).isDeflate d ∧ d.prevLength = 0 ∧ d.maxChain = 0 ∧ d.niceMatch ≤ 258 ∧
      (1#32).toNat < d.strstart ∧ 1 ≤ d.prevLength + (1#32).toNat ∧
      d.strstart + max 258 (d.prevLength + 1) ≤ 2 * 2 ^ d.dwbits ∧
      ∀ m, 0 < m → m ≤ d.strstart → (Cells.read 0 d.prev (m % 2 ^ d.dwbits)).toNat < m) ∧
    (∃ d : Deflate, (machine (.deflate d) [] 0).isDeflate d ∧ d.prevLength = 258 ∧
      d.strstart + max 258 (d.prevLength + 1) = 2 * 2 ^ d.dwbits) :=
  ⟨⟨{ (Deflate.blank 9 0).initBlock with prevLength := 0, strstart := 4 }, ⟨rfl, rfl⟩, rfl, rfl, by decide, by decide, by decide,
      by decide, fun m hm _ => hm⟩,
    { def9 with prevLength := 258, strstart := 765 }, ⟨rfl, rfl⟩, rfl, by decide⟩

/-- An encoder whose position has reached the upper half of the window. -/
def late9 : Deflate := { def9 with window := [(600, 7)], strstart := 762, lookahead := 5, head := [(5, 600)] }

theorem late9_ok : late9.Ok := Deflate.ok_of (by decide) (by decide) (by decide) (by decide) (by decide)

theorem witness_SlideRebasesEverything :
    ((machine (.deflate late9) [] 0).isDeflate late9 ∧ late9.Ok ∧ 2 ^ late9.dwbits ≤ late9.strstart) ∧
    ((machine (.deflate def9) [] 0).isDeflate def9 ∧ def9.Ok ∧ def9.strstart < 2 ^ def9.dwbits) :=
  ⟨⟨⟨rfl, rfl⟩, late9_ok, by decide⟩, ⟨rfl, rfl⟩, def9_ok, by decide⟩

theorem witness_FillReadsInput :
    ((machine (.deflate def9) [1, 2, 3] 0).isDeflate def9 ∧ def9.Ok ∧ def9.strstart + 262 < 2 * 2 ^ def9.dwbits ∧
      def9.strstart + def9.lookahead ≤ 2 * 2 ^ def9.dwbits) ∧
    ((machine (.deflate late9) [1, 2, 3] 0).isDeflate late9 ∧ late9.Ok ∧ 2 * 2 ^ late9.dwbits ≤ late9.strstart + 262 ∧
      late9.strstart + late9.lookahead ≤ 2 * 2 ^ late9.dwbits) :=
  ⟨⟨⟨rfl, rfl⟩, def9_ok, by decide, by decide⟩, ⟨rfl, rfl⟩, late9_ok, by decide, by decide⟩

theorem witness_DictionariesSeedTheWindow :
    ((machine (.deflate def9) [1, 2] 0).isDeflate def9 ∧ def9.Ok ∧ def9.strstart = 0 ∧ def9.lookahead = 0 ∧
      def9.dictAllowed = true) ∧
    ((machine (.deflate late9) [1, 2, 3] 0).isDeflate late9 ∧ late9.Ok ∧ late9.strstart ≠ 0) ∧
    ((machine (.deflate def9) [1, 2, 3] 0).isDeflate def9 ∧ 3 ≤ ([1, 2, 3] : List Byte).length) ∧
    (∃ d : Deflate, (machine (.deflate d) [1, 2, 3] 0).isDeflate d ∧ d.Ok ∧ d.dictAllowed = false) :=
  ⟨⟨⟨rfl, rfl⟩, def9_ok, rfl, rfl, rfl⟩, ⟨⟨rfl, rfl⟩, late9_ok, by decide⟩, ⟨⟨rfl, rfl⟩, by decide⟩,
    { def9 with dictAllowed := false }, ⟨rfl, rfl⟩,
    Deflate.ok_of (by decide) (by decide) (by decide) (by decide) (by decide), rfl⟩

theorem witness_InitBlockClearsTheCounts : (machine (.deflate late9) [] 0).isDeflate late9 ∧ late9.Ok :=
  ⟨⟨rfl, rfl⟩, late9_ok⟩

theorem witness_TallyAppendsAndCounts :
    (∃ d : Deflate, (machine (.deflate d) [] 0).isDeflate d ∧ d.Ok ∧ d.lastLit = 16382 ∧ (32768#32).toNat ≤ 32768) ∧
    (∃ d : Deflate, (machine (.deflate d) [] 0).isDeflate d ∧ d.Ok ∧ 16383 ≤ d.lastLit) :=
  ⟨⟨{ def9 with lastLit := 16382 }, ⟨rfl, rfl⟩, Deflate.ok_of (by decide) (by decide) (by decide) (by decide) (by decide), rfl,
      by decide⟩,
    { def9 with lastLit := 16383 }, ⟨rfl, rfl⟩, Deflate.ok_of (by decide) (by decide) (by decide) (by decide) (by decide), by decide⟩

/-- An encoder whose literal/length tree has three used symbols. -/
def three9 : Deflate := { def9 with ld := { def9.ld with freq := [(0, 1), (97, 5), (256, 1)] } }

theorem three9_ok : three9.Ok := Deflate.ok_of (by decide) (by decide) (by decide) (by decide) (by decide)

theorem witness_BuildMakesCompleteCodes :
    ((machine (.deflate def9) [] 0).isDeflate def9 ∧ def9.Ok ∧
      (usedBelow 286 (Cells.read 0 def9.ld.freq)).length = 1 ∧ (usedBelow 30 (Cells.read 0 def9.dd.freq)).length = 0) ∧
    ((machine (.deflate three9) [] 0).isDeflate three9 ∧ three9.Ok ∧
      (usedBelow 286 (Cells.read 0 three9.ld.freq)).length = 3) :=
  ⟨⟨⟨rfl, rfl⟩, def9_ok, by decide +kernel, by decide +kernel⟩, ⟨rfl, rfl⟩, three9_ok, by decide +kernel⟩

/-- An encoder whose heap holds a root (node 30) over the leaves 0 and 1 of the distance tree. -/
def heap9 : Deflate :=
  { def9 with
    dd := ⟨[(0, 1), (1, 1)], [(0, 1), (1, 1)], [], [(0, 30), (1, 30)], some 1⟩
    tb := { def9.tb with
      heap := [(570, 30), (571, 0), (572, 1)]
      heapMax := some 570
      blCount := (List.range 16).map fun b => (b, if b = 1 then 2 else 0) } }

theorem witness_GenBitlenGivesDepths : ∃ (node depth : Nat → Nat),
    (machine (.deflate heap9) [] 0).isDeflate heap9 ∧ heap9.tb.heapMax = some 570 ∧ heap9.dd.maxCode = some ((1 : Nat) : Int) ∧
    (∀ p, 570 ≤ p → p ≤ 572 → Cells.find? heap9.tb.heap p = some (node p) ∧ node p < 61) ∧ depth (node 570) = 0 ∧
    (∀ p, 570 < p → p ≤ 572 →
      ∃ q, 570 ≤ q ∧ q < p ∧ Cells.find? heap9.dd.dad (node p) = some (node q) ∧ depth (node p) = depth (node q) + 1) ∧
    ((List.range' 571 2).filter fun p => 15 < depth (node p)).length = 0 := by
  refine ⟨fun p => if p = 570 then 30 else p - 571, fun n => if n = 30 then 0 else 1, ⟨rfl, rfl⟩, rfl, rfl, ?_, rfl, ?_,
    by decide⟩
  · intro p h1 h2
    obtain rfl | rfl | rfl : p = 570 ∨ p = 571 ∨ p = 572 := by omega
    all_goals decide
  · intro p h1 h2
    refine ⟨570, by omega, by omega, ?_⟩
    obtain rfl | rfl : p = 571 ∨ p = 572 := by omega
    all_goals decide

/-- Node at a heap position of the deepest tree of nine leaves: the root, and for each inner node an inner node and a leaf. -/
def deepNode (p : Nat) : Nat :=
  if p = 556 then 26 else if (p - 557) % 2 = 1 then (p - 558) / 2 else if p = 571 then 8 else 25 - (p - 557) / 2

/-- Depth of its nodes: two leaves lie at depth 8, deeper than the bit-length alphabet allows. -/
def deepDepth (n : Nat) : Nat := if 19 ≤ n then 26 - n else if n = 8 then 8 else n + 1

/-- An encoder with that tree as its bit-length tree. -/
def deep9 : Deflate :=
  { def9 with
    bd := ⟨[], [], [], (List.range 9).map (fun j => (j, if j = 8 then 19 else 26 - j)) ++
      (List.range' 19 7).map (fun n => (n, n + 1)), some 8⟩
    tb := { def9.tb with heap := (List.range' 556 17).map fun p => (p, deepNode p), heapMax := some 556 } }

/-- The overflow clause: two nodes are too deep, and one round of the repair moves the counts to 1, 1, 1, 1, 1, 0, 4. -/
theorem witness_GenBitlenGivesDepths_overflow :
    (machine (.deflate deep9) [] 0).isDeflate deep9 ∧ deep9.tb.heapMax = some 556 ∧ deep9.bd.maxCode = some ((8 : Nat) : Int) ∧
    (∀ p, 556 ≤ p → p ≤ 572 → Cells.find? deep9.tb.heap p = some (deepNode p) ∧ deepNode p < 39) ∧
    deepDepth (deepNode 556) = 0 ∧
    (∀ p, 556 < p → p ≤ 572 →
      ∃ q, 556 ≤ q ∧ q < p ∧ Cells.find? deep9.bd.dad (deepNode p) = some (deepNode q) ∧
        deepDepth (deepNode p) = deepDepth (deepNode q) + 1) ∧
    (∀ p q, 556 ≤ p → p ≤ 572 → 556 ≤ q → q ≤ 572 → deepNode p = deepNode q → p = q) ∧
    ((List.range' 557 16).filter fun p => 7 < deepDepth (deepNode p)).length = 2 ∧
    ∃ c : Nat → Nat,
      repairRounds 7 1 (fun b => ((((List.range' 557 16).filter fun p => deepNode p ≤ 8).filter fun p =>
        min (deepDepth (deepNode p)) 7 = b).length : Nat)) = some (fun b => (c b : Int)) := by
  have range : ∀ {P : Nat → Prop}, (∀ i < 17, P (556 + i)) → ∀ p, 556 ≤ p → p ≤ 572 → P p := by
    intro P h p h1 h2
    have := h (p - 556) (by omega)
    rwa [show 556 + (p - 556) = p by omega] at this
  refine ⟨⟨rfl, rfl⟩, rfl, rfl, range (by decide), rfl, ?_, ?_, by decide, ?_⟩
  · intro p h1 h2
    have h : ∀ i < 16, ∃ j < i + 1, Cells.find? deep9.bd.dad (deepNode (557 + i)) = some (deepNode (556 + j)) ∧
      deepDepth (deepNode (557 + i)) = deepDepth (deepNode (556 + j)) + 1 := by decide
    obtain ⟨j, hj, hd⟩ := h (p - 557) (by omega)
    rw [show 557 + (p - 557) = p by omega] at hd
    exact ⟨556 + j, by omega, by omega, hd⟩
  · have h : ∀ i < 17, ∀ j < 17, deepNode (556 + i) = deepNode (556 + j) → i = j := by decide
    intro p q h1 h2 h3 h4 hpq
    have := h (p - 556) (by omega) (q - 556) (by omega)
      (by rwa [show 556 + (p - 556) = p by omega, show 556 + (q - 556) = q by omega])
    omega
  · refine ⟨fun b => if b = 7 then 4 else if 1 ≤ b ∧ b ≤ 5 then 1 else 0, ?_⟩
    have h6 : ∀ f : Nat → Int, f 6 ≠ 0 → repairRounds 7 1 f =
        some fun k => f k + (if k = 6 then -1 else 0) + (if k = 7 then 2 else 0) + if k = 7 then -1 else 0 := by
      intro f hf
      simp [repairRounds, repairRound, lastNonzero, hf]
    rw [h6 _ (by decide)]
    congr 1
    funext b
    have small : ∀ b < 8, ((((((List.range' 557 16).filter fun p => deepNode p ≤ 8).filter fun p =>
        min (deepDepth (deepNode p)) 7 = b).length : Nat) : Int) + (if b = 6 then -1 else 0) + (if b = 7 then 2 else 0) +
        if b = 7 then -1 else 0) = ((if b = 7 then 4 else if 1 ≤ b ∧ b ≤ 5 then 1 else 0 : Nat) : Int) := by decide
    by_cases hb : b < 8
    · exact small b hb
    · have none : ((List.range' 557 16).filter fun p => deepNode p ≤ 8).filter
          (fun p => decide (min (deepDepth (deepNode p)) 7 = b)) = [] :=
        List.filter_eq_nil_iff.2 fun p _ => by simp; omega
      rw [none]
      simp
      omega

theorem witness_GenCodesAreCanonical :
    (machine (.deflate heap9) [] 0).isDeflate heap9 ∧ heap9.dd.maxCode = some ((1 : Nat) : Int) ∧
    (∀ b < 16, Cells.find? heap9.tb.blCount b = some ((if b = 1 then 2 else 0 : Nat) : Int)) ∧
    (∀ n ≤ 1, Cells.find? heap9.dd.len n = some 1 ∧ 1 ≤ 15) := by
  refine ⟨⟨rfl, rfl⟩, rfl, by decide, ?_⟩
  intro n hn
  obtain rfl | rfl : n = 0 ∨ n = 1 := by omega
  all_goals decide

theorem witness_RunsDecodeToTheLengths : ∀ l ∈ [0, 15, 15, 15, 15, 0, 0, 0], l ≤ 15 := by decide

/-- An encoder with the trees of a block: 257 literal/length codes of length 8, one distance code of length 8, and codes
for the bit-length symbols 8 and 16. -/
def trees9 : Deflate :=
  { def9 with
    ld := ⟨[(256, 1)], (List.range 257).map fun k => (k, 8), (List.range 257).map fun k => (k, 0), [], some 256⟩
    dd := ⟨[], [(0, 8), (1, 8)], [(0, 0), (1, 0)], [], some 1⟩
    bd := ⟨[], [(0, 0), (8, 1), (16, 1), (17, 0), (18, 0)], [(8, 0), (16, 1)], [], none⟩
    lastLit := 2
    dBuf := [(0, 0), (1, 2)]
    lBuf := [(0, 0x61), (1, 0)] }

theorem sorted_table {α : Type} (f : Nat → α) (n : Nat) : Cells.sorted ((List.range n).map fun j => (j, f j)) :=
  List.pairwise_map.2 List.pairwise_lt_range

theorem trees9_ok : trees9.Ok :=
  Deflate.ok_of (by decide) (by decide) (by decide +kernel) (by decide)
    ⟨by decide, ⟨sorted_table (fun _ => 8) 257, sorted_table (fun _ => 0) 257, by decide⟩, by decide⟩

theorem find?_table {α : Type} (f : Nat → α) {n k : Nat} (h : k < n) :
    Cells.find? ((List.range n).map fun j => (j, f j)) k = some (f k) := by
  exact Cells.find?_of_mem (sorted_table f n) (List.mem_map.2 ⟨k, List.mem_range.2 h, rfl⟩)

theorem trees9_ld (k : Nat) (h : k < 257) : Cells.find? trees9.ld.len k = some 8 := find?_table (fun _ => 8) h

theorem trees9_lens : hasLens trees9.ld 257 ∧ hasLens trees9.dd 2 ∧ hasLens trees9.dd 1 :=
  ⟨fun k hk => ⟨8, trees9_ld k hk, by decide⟩, hasLens_of (by decide), hasLens_of (by decide)⟩

theorem trees9_symbols : lensBelow trees9.ld 257 = List.replicate 257 8 := by
  refine List.eq_replicate_iff.2 ⟨by simp [lensBelow], fun b hb => ?_⟩
  obtain ⟨k, hk, rfl⟩ := List.mem_map.1 hb
  rw [trees9_ld k (List.mem_range.1 hk)]
  rfl

theorem trees9_codes : hasCode trees9.bd 8 ∧ hasCode trees9.bd 16 :=
  ⟨⟨0, 1, by decide, by decide, by decide, by decide⟩, 1, 1, by decide, by decide, by decide, by decide⟩

theorem witness_ScanCountsWhatSendTreeSends :
    (machine (.deflate trees9) [] 0).isDeflate trees9 ∧ trees9.Ok ∧ trees9.dd.maxCode = some ((1 : Nat) : Int) ∧
    hasLens trees9.dd 2 ∧ writerOk trees9 ∧ (∀ c ∈ symbolsOf (lensBelow trees9.dd 2), hasCode trees9.bd c) ∧
    trees9.pending.length + 2 * 2 + 4 ≤ 65536 := by
  refine ⟨⟨rfl, rfl⟩, trees9_ok, rfl, trees9_lens.2.1, ⟨by decide, by decide⟩, ?_, by decide⟩
  have h : symbolsOf (lensBelow trees9.dd 2) = [8, 8] := by decide
  rw [h]
  intro c hc
  obtain rfl : c = 8 := by simpa using hc
  exact trees9_codes.1

theorem witness_BlTreeBuildsTheLengthTree :
    (machine (.deflate trees9) [] 0).isDeflate trees9 ∧ trees9.Ok ∧ trees9.ld.maxCode = some ((256 : Nat) : Int) ∧
    hasLens trees9.ld 257 ∧ trees9.dd.maxCode = some ((1 : Nat) : Int) ∧ hasLens trees9.dd 2 ∧
    (usedBelow 19 fun n => Cells.read 0 trees9.bd.freq n + (symbolsOf (lensBelow trees9.ld 257)).count n +
      (symbolsOf (lensBelow trees9.dd 2)).count n).length ≤ 2 :=
  ⟨⟨rfl, rfl⟩, trees9_ok, rfl, trees9_lens.1, rfl, trees9_lens.2.1, by rw [trees9_symbols]; decide +kernel⟩

theorem trees9_bl : leaves [.tbScan 0, .tbScan 1, .tbBuild 2] (machine (.deflate trees9) [] 0) (fun _ e =>
    (List.range 19).all fun k => (Cells.find? e.bd.len k).any fun l => decide (l ≤ 15)) = true := by decide +kernel

/-- The clause for any number of used bit-length symbols. -/
theorem witness_BlTreeBuildsTheLengthTree_built : ∃ u e,
    (machine (.deflate trees9) [] 0).isDeflate trees9 ∧
    chain [.tbScan 0, .tbScan 1, .tbBuild 2] (machine (.deflate trees9) [] 0) = some u ∧ u.isDeflate e ∧ hasLens e.bd 19 := by
  obtain ⟨u, e, h, hu, he⟩ := leaves_spec trees9_bl
  exact ⟨u, e, ⟨rfl, rfl⟩, h, hu, hasLens_of fun k hk => List.all_eq_true.1 he k (List.mem_range.2 hk)⟩

theorem witness_SendAllSendsTheHeader :
    (machine (.deflate trees9) [] 0).isDeflate trees9 ∧ writerOk trees9 ∧ 257 ≤ (257#9).toNat ∧ 1 ≤ (1#5).toNat ∧
    4 ≤ (4#5).toNat ∧ hasLens trees9.ld 257 ∧ hasLens trees9.dd 1 ∧
    (∀ k ∈ blOrder.take 4, ∃ l, Cells.find? trees9.bd.len k = some l ∧ l < 8) ∧
    (∀ c ∈ symbolsOf (lensBelow trees9.ld 257) ++ symbolsOf (lensBelow trees9.dd 1), hasCode trees9.bd c) ∧
    trees9.pending.length + 2 * (257 + 1) + 16 ≤ 65536 := by
  refine ⟨⟨rfl, rfl⟩, ⟨by decide, by decide⟩, by decide, by decide, by decide, trees9_lens.1, trees9_lens.2.2, ?_, ?_,
    by decide⟩
  · intro k hk
    obtain rfl | rfl | rfl | rfl : k = 16 ∨ k = 17 ∨ k = 18 ∨ k = 0 := by simpa [blOrder] using hk
    exacts [⟨1, by decide, by decide⟩, ⟨0, by decide, by decide⟩, ⟨0, by decide, by decide⟩, ⟨0, by decide, by decide⟩]
  · have h : ∀ c ∈ symbolsOf (lensBelow trees9.ld 257) ++ symbolsOf (lensBelow trees9.dd 1), c = 8 ∨ c = 16 := by
      rw [trees9_symbols]
      decide +kernel
    intro c hc
    rcases h c hc with rfl | rfl
    exacts [trees9_codes.1, trees9_codes.2]

theorem witness_CompressSendsTheTokens :
    (machine (.deflate trees9) [] 0).isDeflate trees9 ∧ trees9.Ok ∧ writerOk trees9 ∧
    (∀ k < trees9.lastLit, ∃ dist lc, Cells.find? trees9.dBuf k = some dist ∧ Cells.find? trees9.lBuf k = some lc ∧
      dist.toNat ≤ 32768) ∧
    trees9.pending.length + 6 * (trees9.lastLit + 1) + 4 ≤ 65536 := by
  refine ⟨⟨rfl, rfl⟩, trees9_ok, ⟨by decide, by decide⟩, ?_, by decide⟩
  intro k hk
  obtain rfl | rfl : k = 0 ∨ k = 1 := by change k < 2 at hk; omega
  exacts [⟨0, 0x61, by decide, by decide, by decide⟩, ⟨2, 0, by decide, by decide, by decide⟩]

/-- The dynamic clause: the literal `a` alone has a code, with END_BLOCK. -/
theorem witness_CompressSendsTheTokens_dynamic :
    hasCode trees9.ld 256 ∧ ∀ t ∈ tokens { trees9 with lastLit := 1 } 1,
      (t.1 = 0 → hasCode trees9.ld t.2) ∧
      (t.1 ≠ 0 → hasCode trees9.ld (257 + lengthCode t.2) ∧ hasCode trees9.dd (distCode (t.1 - 1))) := by
  refine ⟨⟨0, 8, by decide +kernel, by decide +kernel, by decide, by decide⟩, ?_⟩
  have h : tokens { trees9 with lastLit := 1 } 1 = [(0, 0x61)] := by decide +kernel
  rw [h]
  intro t ht
  obtain rfl : t = (0, 0x61) := by simpa using ht
  exact ⟨fun _ => ⟨0, 8, by decide +kernel, by decide +kernel, by decide, by decide⟩, fun h => absurd rfl h⟩

theorem witness_StoredBlockCopiesTheWindow :
    (machine (.deflate def9) [] 0).isDeflate def9 ∧ (1000#16).toNat + (24#16).toNat ≤ 2 * 2 ^ def9.dwbits ∧ writerOk def9 ∧
    def9.pending.length + (def9.bw.biValid + 10) / 8 + 4 + (24#16).toNat ≤ 65536 ∧
    2 * 2 ^ def9.dwbits < (1000#16).toNat + (25#16).toNat :=
  ⟨⟨rfl, rfl⟩, by decide, ⟨by decide, by decide⟩, by decide, by decide⟩

/-- A level-0 encoder with a block of 7 bytes at hand. -/
def stored9 : Deflate := { (Deflate.blank 9 0).initBlock with strstart := 9, blockStart := 2 }

/-- An encoder at level 6 with a block of 7 bytes at hand whose estimates are 125 bytes and more. -/
def block9 : Deflate := { def9 with optLen := 1000, staticLen := 1000, strstart := 9, blockStart := 2 }

theorem block9_flushes : leaves [.tbBuild 0, .tbBuild 1, .tbBlTree] (machine (.deflate block9) [] 0) (fun u e =>
    decide (e.ld.maxCode = some 256 ∧ e.dd.maxCode = some 1 ∧
      7 + 4 ≤ min ((e.optLen + 10) / 8) ((e.staticLen + 10) / 8)) &&
    leaves [.tbStored 1 (BitVec.ofInt 16 2) (BitVec.ofInt 16 7), .tbInitBlock, .bcwWindup] u fun _ _ => true) = true := by
  decide +kernel

/-- The clause of levels 1 to 9: a last block, sent as a stored block. -/
theorem witness_FlushBlockChoosesTheBlock : ∃ u e v f,
    (machine (.deflate block9) [] 0).isDeflate block9 ∧ 0 < block9.level ∧
    chain [.tbBuild 0, .tbBuild 1, .tbBlTree] (machine (.deflate block9) [] 0) = some u ∧ u.isDeflate e ∧
    (e.ld.maxCode = some 256 ∧ e.dd.maxCode = some 1 ∧ 7 + 4 ≤ min ((e.optLen + 10) / 8) ((e.staticLen + 10) / 8)) ∧
    chain [.tbStored 1 (BitVec.ofInt 16 2) (BitVec.ofInt 16 7), .tbInitBlock, .bcwWindup] u = some v ∧ v.isDeflate f := by
  obtain ⟨u, e, h1, hu, h2⟩ := leaves_spec block9_flushes
  rw [Bool.and_eq_true, decide_eq_true_iff] at h2
  obtain ⟨v, f, h3, hv, -⟩ := leaves_spec h2.2
  exact ⟨u, e, v, f, ⟨rfl, rfl⟩, by decide, h1, hu, h2.1, h3, hv⟩

theorem witness_FlushBlockChoosesTheBlock_level0 :
    (machine (.deflate stored9) [] 0).isDeflate stored9 ∧ writerOk stored9 ∧ stored9.level = 0 ∧
    stored9.blockStart = ((2 : Nat) : Int) ∧ 2 ≤ stored9.strstart ∧ stored9.strstart ≤ 2 * 2 ^ stored9.dwbits ∧
    stored9.pending.length + (stored9.bw.biValid + 10) / 8 + 4 + (stored9.strstart - 2) ≤ 65536 :=
  ⟨⟨rfl, rfl⟩, ⟨by decide, by decide⟩, rfl, rfl, by decide, by decide, by decide⟩

theorem witness_BlockCommandsFrame :
    (machine (.deflate stored9) [] 0).isDeflate stored9 ∧
    answers (exec (.tbStored 0 0 1) (machine (.deflate stored9) [] 0)) ∧
    answers (exec (.tbFlushBlock 0) (machine (.deflate stored9) [] 0)) := ⟨⟨rfl, rfl⟩, ⟨_, rfl⟩, _, rfl⟩

theorem witness_StepChecksInOrder :
    (machine (.deflate { def9 with finishReq := true }) [] 9).isDeflate { def9 with finishReq := true } ∧
    (machine (.deflate { def9 with status := .finish }) [1] 9).isDeflate { def9 with status := .finish } ∧
    ((machine (.deflate def9) [1] 0).isDeflate def9 ∧ def9.finishReq = false ∧ def9.status ≠ .finish) ∧
    ((machine (.deflate { def9 with lastFlush := 2 }) [] 9).isDeflate { def9 with lastFlush := 2 } ∧
      def9.pending = [] ∧ (((2#3).toNat : Nat) : Int) ≤ 2) :=
  ⟨⟨rfl, rfl⟩, ⟨rfl, rfl⟩, ⟨⟨rfl, rfl⟩, rfl, by decide⟩, ⟨rfl, rfl⟩, rfl, by decide⟩

/-- A slow encoder that holds a byte and has nothing else at hand. -/
def held9 : Deflate := { def9 with window := [(0, 7)], strstart := 1, matchAvailable := true, status := .busy, lastFlush := 0 }

theorem held9_flushes : leaves [.tbTally 7 0, .tbFlushBlock 0]
    (machine (.deflate { held9 with lastFlush := 3, dictAllowed := false, matchAvailable := false }) [] 99) (fun v e => decide (e.pending.length < 99) &&
      leaves [.tbStored 0 0 0] v fun _ m => decide (m.pending.length < 99)) = true := by decide +kernel

/-- A full flush of a slow encoder that holds a byte. -/
theorem witness_SmallStepsBufferAndFlush_flush :
    ((machine (.deflate held9) [] 99).isDeflate held9 ∧ held9.kind = .slow ∧ held9.finishReq = false ∧
      held9.status ≠ .finish ∧ held9.pending = [] ∧ held9.lookahead = 0 ∧ held9.strstart + 262 < 2 * 2 ^ held9.dwbits ∧
      held9.lastFlush < ((3#3).toNat : Nat) ∧ 0 < held9.strstart) ∧
    ∃ v e x m, chain [.tbTally 7 0, .tbFlushBlock 0]
        (machine (.deflate { held9 with lastFlush := 3, dictAllowed := false, matchAvailable := false }) [] 99) = some v ∧
      v.isDeflate e ∧ decide (e.pending.length < 99) = true ∧ chain [.tbStored 0 0 0] v = some x ∧ x.isDeflate m ∧
      decide (m.pending.length < 99) = true := by
  obtain ⟨v, e, h1, he, h2⟩ := leaves_spec held9_flushes
  rw [Bool.and_eq_true] at h2
  obtain ⟨x, m, h3, hm, h4⟩ := leaves_spec h2.2
  exact ⟨⟨⟨rfl, rfl⟩, rfl, rfl, by decide, rfl, rfl, by decide, by decide, by decide⟩, v, e, x, m, h1, he, h2.1, h3, hm, h4⟩

/-- A level-0 encoder with 7 bytes at hand, once a step with the flush code `f` is accepted. -/
def accepted9 (f : Int) (finish : Bool) : Deflate :=
  { stored9 with lastFlush := f, finishReq := finish, dictAllowed := false, status := .busy }

theorem stored9_flushes :
    (leaves [.tbFlushBlock 1] (machine (.deflate (accepted9 4 true)) [] 12) fun _ e => decide (e.pending.length = 12)) = true ∧
    (leaves [.tbFlushBlock 1] (machine (.deflate (accepted9 4 true)) [] 13) fun _ e => decide (e.pending.length < 13)) = true ∧
    (leaves [.tbFlushBlock 0] (machine (.deflate (accepted9 2 false)) [] 17) fun v e => decide (e.pending.length < 17) &&
      leaves [.tbStored 0 0 0] v fun _ m => decide (17 ≤ m.pending.length)) = true := by decide +kernel

/-- Output space that the block's 12 bytes fill exactly, under Finish; one more byte of it; and space that the marker fills,
under SyncFlush. -/
theorem witness_SmallStepsBufferAndFlush_filled :
    ((machine (.deflate stored9) [] 12).isDeflate stored9 ∧ stored9.kind ≠ .slow ∧ stored9.finishReq = false ∧
      stored9.status ≠ .finish ∧ stored9.pending = [] ∧ stored9.lookahead = 0 ∧
      stored9.strstart + 262 < 2 * 2 ^ stored9.dwbits ∧ stored9.lastFlush < ((2#3).toNat : Nat)) ∧
    (∃ v e, chain [.tbFlushBlock 1] (machine (.deflate (accepted9 4 true)) [] 12) = some v ∧ v.isDeflate e ∧
      decide (e.pending.length = 12) = true) ∧
    (∃ v e, chain [.tbFlushBlock 1] (machine (.deflate (accepted9 4 true)) [] 13) = some v ∧ v.isDeflate e ∧
      decide (e.pending.length < 13) = true) ∧
    (∃ v e x m, chain [.tbFlushBlock 0] (machine (.deflate (accepted9 2 false)) [] 17) = some v ∧ v.isDeflate e ∧
      decide (e.pending.length < 17) = true ∧ chain [.tbStored 0 0 0] v = some x ∧ x.isDeflate m ∧
      decide (17 ≤ m.pending.length) = true) := by
  obtain ⟨h12, h13, h17⟩ := stored9_flushes
  obtain ⟨v, e, h1, he, h2⟩ := leaves_spec h17
  rw [Bool.and_eq_true] at h2
  obtain ⟨x, m, h3, hm, h4⟩ := leaves_spec h2.2
  exact ⟨⟨⟨rfl, rfl⟩, by decide, rfl, by decide, rfl, rfl, by decide, by decide⟩, leaves_spec h12, leaves_spec h13,
    v, e, x, m, h1, he, h2.1, h3, hm, h4⟩

/-- A step whose output space the FIFO's bytes fill exactly. -/
theorem witness_SmallStepsBufferAndFlush_drain :
    (machine (.deflate { def9 with pending := [1, 2] }) [3] 2).isDeflate { def9 with pending := [1, 2] } ∧
    def9.finishReq = false ∧ def9.status ≠ .finish ∧ 2 ≤ ([1, 2] : List Byte).length := ⟨⟨rfl, rfl⟩, rfl, by decide, by decide⟩

theorem witness_SmallStepsBufferAndFlush :
    (machine (.deflate def9) [1, 2, 3] 1).isDeflate def9 ∧ def9.Ok ∧ def9.kind ≠ .stored ∧ def9.finishReq = false ∧
    def9.status ≠ .finish ∧ def9.pending = [] ∧ def9.lookahead + ([1, 2, 3] : List Byte).length < 262 ∧
    def9.strstart + 262 < 2 * 2 ^ def9.dwbits :=
  ⟨⟨rfl, rfl⟩, def9_ok, by decide, rfl, by decide, rfl, by decide, by decide⟩

/-- A level-0 encoder right after reset. -/
def fresh0 : Deflate := (Deflate.blank 9 0).initBlock

/-- An input of MAX_DIST bytes, with one byte more of output space than its two blocks take. -/
theorem witness_LevelZeroStreamDecodes :
    ((machine (.deflate fresh0) (List.replicate 250 7) 261).isDeflate fresh0 ∧ fresh0.Ok ∧ fresh0.kind = .stored ∧
      fresh0.level = 0 ∧ fresh0.status = .init ∧ fresh0.finishReq = false ∧ fresh0.pending = [] ∧ fresh0.bw = ⟨0, 0⟩ ∧
      fresh0.strstart = 0 ∧ fresh0.lookahead = 0 ∧ fresh0.blockStart = 0 ∧ 2 ^ fresh0.dwbits - 262 = 250 ∧
      250 + 5 * (250 / (2 ^ fresh0.dwbits - 262) + 1) < 261) ∧
    (∃ v, exec (.infReset 8 0 0) (machine .unset [1, 2, 0, 0xFD, 0xFF, 7, 8] 2) = .next v ∧
      v.port.input = storedBytes 1 [7, 8] ∧ v.port.space = 2) :=
  ⟨⟨⟨rfl, rfl⟩, Deflate.ok_of (by decide) (by decide) (by decide) (by decide) (by decide), rfl, rfl, rfl, rfl, rfl, rfl, rfl, rfl, rfl,
      by decide, by decide⟩, _, rfl, rfl, rfl⟩

/-- A level-6 instance after a reset and a step without a flush on three bytes. -/
theorem witness_LevelZeroStreamDecodes_tokens :
    1 ≤ (6#4).toNat ∧ (Instr.defReset 9 6 0).wellFormed = true ∧
    ∃ s₀, exec (.defReset 9 6 0) (machine .unset [] 0) = .next s₀ ∧
      ∃ s₁ d, feed 9 [[1, 2, 3]] s₀ = some s₁ ∧ s₁.isDeflate d ∧ ([[1, 2, 3]].flatten ++ [4] : List Byte).length ≤ 8191 := by
  refine ⟨by decide, by decide, _, rfl, ?_⟩
  have h : ∀ o : Option State, (o.any fun t => t.codec.err.isNone && match t.codec.engine with | .deflate _ => true | _ => false) =
      true → ∃ s₁ d, o = some s₁ ∧ s₁.isDeflate d := by
    rintro (_ | t) h
    · cases h
    · rw [Option.any_some, Bool.and_eq_true, Option.isNone_iff_eq_none] at h
      obtain ⟨he, hk⟩ := h
      split at hk
      · rename_i d hd
        exact ⟨t, d, rfl, he, hd⟩
      · cases hk
  refine Exists.imp (fun s₁ => Exists.imp fun d (h' : _ = some s₁ ∧ _) => ⟨h'.1, h'.2, by decide⟩) (h _ ?_)
  decide +kernel

/-- The fixed codes: the literal `a` and END_BLOCK (`4B 04 00` of vector E-3); and a match of length 3 at distance 1 with no
history. -/
theorem witness_HuffmanBlocksDecode_fixed :
    ((machine (.inflate inf8) [0x4B, 0x04, 0x00] 1).isInflate inf8 ∧ inf8.bc.Ok ∧ inf8.sw.Ok ∧ inf8.sw.undelivered = 0 ∧
      inf8.mode = .type ∧ replayable (2 ^ inf8.sw.wbits) inf8.sw.whave [(0, 0x61)] ∧
      ((replay (historyOf inf8.sw) [(0, 0x61)]).drop inf8.sw.whave).length ≤ 1 ∧
      streams inf8 (machine (.inflate inf8) [0x4B, 0x04, 0x00] 1)
        ([(3, 3)] ++ bodyFields fixedLLField fixedDistField [(0, 0x61)])) ∧
    (replayable (2 ^ inf8.sw.wbits) inf8.sw.whave [] ∧ min (2 ^ inf8.sw.wbits) (inf8.sw.whave + 0) < 1 ∧
      (fixedLLField (257 + lengthCode 0)).2 ≠ 0 ∧ (fixedDistField (distCode (1 - 1))).2 ≠ 0 ∧
      streams inf8 (machine (.inflate inf8) [0x03, 0x02] 0) ([(3, 3)] ++ tokenFields fixedLLField fixedDistField 1 0)) := by
  refine ⟨⟨⟨rfl, rfl⟩, inf8_ok.cursor, inf8_ok.window, rfl, rfl, ⟨by decide, trivial⟩, by decide, ?_⟩, trivial, by decide,
    by decide, by decide, ?_⟩
  all_goals unfold streams; decide

/-- Built tables: `a` and END_BLOCK with codes of one bit. -/
theorem witness_HuffmanBlocksDecode_built :
    (machine (.inflate tables8) [2] 1).isInflate tables8 ∧ tables8.bc.Ok ∧ tables8.sw.Ok ∧ tables8.sw.undelivered = 0 ∧
    tables8.mode = .len ∧ tables8.last = true ∧ tables8.llRef = some ⟨.arena, 0, 1⟩ ∧
    tables8.dRef = some ⟨.arena, 852, 1⟩ ∧ laidOut tables8.ht ⟨.arena, 0, 1⟩ .lens twoLens ∧
    laidOut tables8.ht ⟨.arena, 852, 1⟩ .dists [1, 2, 2] ∧ (∀ l ∈ twoLens, l ≤ 15) ∧ coded twoLens 256 ∧
    tokenCoded twoLens [1, 2, 2] (0, 97) ∧
    streams tables8 (machine (.inflate tables8) [2] 1)
      (bodyFields (canonicalField twoLens) (canonicalField [1, 2, 2]) [(0, 97)]) := by
  refine ⟨⟨rfl, rfl⟩, tables8_cursor, inf8_ok.window, rfl, rfl, rfl, rfl, rfl, tables8_lens, tables8_dists, by decide +kernel,
    ?_, ⟨fun _ => ?_, fun h => absurd rfl h⟩, ?_⟩
  · unfold coded; decide +kernel
  · unfold coded; decide +kernel
  · unfold streams; decide +kernel

/-- The fixed codes: a block that is not final with no token, before a final one, and with 1 bit left over after it; and, after the
literal `a`, a length of 258 at distance 1 with code 284. -/
theorem witness_HuffmanBlocksDecode_goesOn :
    (let all := [(2, 3)] ++ bodyFields fixedLLField fixedDistField [] ++ [(3, 3)] ++ bodyFields fixedLLField fixedDistField [];
      streams inf8 (given all 0) all) ∧
    (∃ d : Inflate, (machine (.inflate d) [0] 0).isInflate d ∧ d.bc.Ok ∧
      streams d (machine (.inflate d) [0] 0) ([(2, 3)] ++ bodyFields fixedLLField fixedDistField []) ∧
      d.bc.bitCount + 8 * ([0] : List Byte).length <
        packedWidth ([(2, 3)] ++ bodyFields fixedLLField fixedDistField []) + 3) ∧
    (let all := [(3, 3)] ++ tokenFields fixedLLField fixedDistField 0 97 ++ [fixedLLField 284, (31, 5)] ++
        distFields fixedDistField 1 ++ [fixedLLField 256];
      (fixedLLField 284).2 ≠ 0 ∧ (fixedDistField (distCode (1 - 1))).2 ≠ 0 ∧ 1 ≤ min (2 ^ inf8.sw.wbits) (inf8.sw.whave + 1) ∧
      streams inf8 (given all 259) all) := by
  refine ⟨?_, ⟨{ inf8 with bc := ⟨2, 3, 0⟩ }, ⟨rfl, rfl⟩, ?_, ?_, by decide⟩, by decide, by decide, by decide, ?_⟩
  · unfold streams; decide +kernel
  · unfold BitCursor.Ok; decide
  · unfold streams; decide +kernel
  · unfold streams; decide +kernel

/-- The fixed codes: symbols 286 and 287; and distance symbols 30 and 31 after a length of 3. -/
theorem witness_HuffmanBlocksDecode_fixedInvalid :
    (∀ sym, sym = 286 ∨ sym = 287 → (fixedLLField sym).2 ≠ 0 ∧
      streams inf8 (given [(3, 3), fixedLLField sym] 0) ([(3, 3)] ++ [fixedLLField sym])) ∧
    (∀ sym, sym = 30 ∨ sym = 31 → (fixedLLField (257 + lengthCode 0)).2 ≠ 0 ∧ (fixedDistField sym).2 ≠ 0 ∧
      streams inf8 (given ([(3, 3)] ++ lengthFields fixedLLField 0 ++ [fixedDistField sym]) 0)
        ([(3, 3)] ++ lengthFields fixedLLField 0 ++ [fixedDistField sym])) := by
  constructor <;> rintro sym (rfl | rfl) <;> unfold streams <;> decide +kernel

/-- Built tables: symbol 286; distance symbol 30 after a length; and the table of the empty distance set after a length. -/
theorem witness_HuffmanBlocksDecode_builtInvalid :
    ((machine (.inflate invalid8) [1] 0).isInflate invalid8 ∧ laidOut invalid8.ht ⟨.arena, 0, 1⟩ .lens invalidLL ∧
      coded invalidLL 256 ∧ (canonicalField invalidLL 286).2 ≠ 0 ∧
      streams invalid8 (machine (.inflate invalid8) [1] 0) [canonicalField invalidLL 286]) ∧
    ((machine (.inflate lengths8) [3] 0).isInflate lengths8 ∧ laidOut lengths8.ht ⟨.arena, 0, 1⟩ .lens lengthsLL ∧
      laidOut lengths8.ht ⟨.arena, 852, 1⟩ .dists lengthsDD ∧ coded lengthsLL (257 + lengthCode 0) ∧
      (canonicalField lengthsDD 30).2 ≠ 0 ∧
      streams lengths8 (machine (.inflate lengths8) [3] 0)
        (lengthFields (canonicalField lengthsLL) 0 ++ [canonicalField lengthsDD 30])) := by
  refine ⟨⟨⟨rfl, rfl⟩, invalid8_lens, ?_, by decide +kernel, ?_⟩, ⟨rfl, rfl⟩, lengths8_lens, lengths8_dists, ?_, by decide +kernel, ?_⟩
  all_goals first | unfold streams; decide +kernel | unfold coded; decide +kernel

/-- Tables of two one-bit entries: an invalid entry beside END_BLOCK's; and the empty distance set's, after a length. -/
theorem witness_HuffmanBlocksDecode_oneBit :
    (oneBit invalid8.ht ⟨.arena, 0, 1⟩ (fun i => if i = 0 then ⟨.eob, 1, 0⟩ else ⟨.invalid, 1, 0⟩) ∧
      streams invalid8 (machine (.inflate invalid8) [1] 0) [(1, 1)]) ∧
    ∃ d : Inflate, (machine (.inflate d) [1] 0).isInflate d ∧ d.mode = .len ∧ d.llRef = some ⟨.arena, 0, 1⟩ ∧
      d.dRef = some ⟨.arena, 852, 1⟩ ∧ laidOut d.ht ⟨.arena, 0, 1⟩ .lens lengthsLL ∧
      oneBit d.ht ⟨.arena, 852, 1⟩ (fun _ => ⟨.invalid, 1, 0⟩) ∧
      streams d (machine (.inflate d) [1] 0) (lengthFields (canonicalField lengthsLL) 0 ++ [(0, 1)]) := by
  refine ⟨⟨⟨rfl, fun i hi => ?_⟩, ?_⟩,
    { lengths8 with ht := { lengths8.ht with
        arena := [(0, ⟨.eob, 1, 0⟩), (1, ⟨.len 0, 1, 3⟩), (852, ⟨.invalid, 1, 0⟩), (853, ⟨.invalid, 1, 0⟩)] } },
    ⟨rfl, rfl⟩, rfl, rfl, rfl,
    laidOut_two (a := 256) (b := 257) rfl (by decide +kernel) (by decide +kernel) (by decide +kernel) rfl rfl,
    ⟨rfl, fun i hi => ?_⟩, ?_⟩
  all_goals first
    | (obtain rfl | rfl : i = 0 ∨ i = 1 := by omega) <;> exact ⟨rfl, rfl⟩
    | (unfold streams; decide +kernel)

end Sys2Proof.Tests
end

/-! # What a computation returns

How a property passes along a computation that may stop with a model fault, and what the array operations keep. -/

namespace Sys2Proof.Machine

variable {α β : Type}

/-- Whatever `x` returns has the property `P`. A computation that stops with a model fault returns nothing. -/
structure Returns (x : Except Fault α) (P : α → Prop) : Prop where
  of_ok : ∀ {a}, x = .ok a → P a

namespace Returns

variable {x : Except Fault α} {f : α → Except Fault β} {P P' : α → Prop} {Q : β → Prop}

theorem ok {a : α} (h : P a) : Returns (.ok a) P := ⟨fun ha => by cases ha; exact h⟩

theorem error (e : Fault) : Returns (.error e) P := ⟨fun ha => by cases ha⟩

theorem any (x : Except Fault α) : Returns x fun _ => True := ⟨fun _ => trivial⟩

theorem bind (hx : Returns x P) (hf : ∀ a, P a → Returns (f a) Q) : Returns (x >>= f) Q := ⟨fun hb => by
  obtain ⟨a, ha, hb⟩ := Except.bind_ok.1 hb
  exact (hf a (hx.of_ok ha)).of_ok hb⟩

/-- A link that nothing need be known about. -/
theorem skip (hf : ∀ a, Returns (f a) Q) : Returns (x >>= f) Q := bind (any x) fun a _ => hf a

theorem mono (hx : Returns x P) (h : ∀ a, P a → P' a) : Returns x P' := ⟨fun ha => h _ (hx.of_ok ha)⟩

theorem ite {c : Prop} [Decidable c] {y : Except Fault α} (hx : c → Returns x P) (hy : ¬c → Returns y P) :
    Returns (if c then x else y) P := by
  split
  · exact hx ‹c›
  · exact hy ‹¬c›

/-- Two branches that meet again in `f`. -/
theorem join {c : Prop} [Decidable c] {y : Except Fault α} (hx : c → Returns x P) (hy : ¬c → Returns y P)
    (hf : ∀ a, P a → Returns (f a) Q) : Returns (if c then x >>= f else y >>= f) Q :=
  ite (fun h => bind (hx h) hf) fun h => bind (hy h) hf

/-- A premise of the property may be assumed while the computation is followed. -/
theorem of_imp {H : Prop} (h : H → Returns x P) : Returns x fun a => H → P a := ⟨fun ha hH => (h hH).of_ok ha⟩

end Returns

/-! ## The array operations -/

theorem Cells.set_sorted {a : ArrayName} {n : Nat} {m : Cells α} {i : Int} {v : α} (hm : Cells.sorted m) :
    Returns (Cells.set a n m i v) Cells.sorted := ⟨fun h => by
  obtain ⟨k, -, -, rfl⟩ := Cells.set_ok h
  exact Cells.sorted_put hm k v⟩

theorem Cells.store_wf [DecidableEq α] {a : ArrayName} {n : Nat} {d : α} {m : Cells α} {i : Int} {v : α}
    (hm : Cells.wf d m) : Returns (Cells.store d a n m i v) (Cells.wf d) := ⟨fun h => by
  obtain ⟨k, -, -, rfl⟩ := Cells.store_ok h
  exact Cells.wf_write hm k v⟩

/-- An array computed from rising indices lists its indices rising. -/
theorem Cells.sorted_map_index {is : List Nat} (h : is.Pairwise (· < ·)) (f : Nat → α) :
    Cells.sorted (is.map fun i => (i, f i)) := List.pairwise_map.2 h

/-! ## The ends of a command's body -/

/-- The units a command's body leaves have the property `P`. -/
inductive Reply.Leaves {σ : Type} (P : σ → Prop) : Reply σ → Prop
  | done {st : Status} {r0 r1 : Word} {u : σ} {p : Port} (h : P u) : Reply.Leaves P (.done st r0 r1 u p)
  | transient {st : Status} : Reply.Leaves P (.transient st)
  | raised {e : Latch} {u : σ} {p : Port} (h : P u) : Reply.Leaves P (.raised e u p)
  | failed {e : Latch} {u : σ} {p : Port} (h : P u) : Reply.Leaves P (.failed e u p)
  | fault {f : Fault} : Reply.Leaves P (.fault f)

theorem Reply.ofExcept_leaves {σ : Type} {x : Except Fault α} {k : α → Reply σ} {P : α → Prop} {R : σ → Prop}
    (hx : Returns x P) (hk : ∀ a, P a → (k a).Leaves R) : (Reply.ofExcept x k).Leaves R := by
  cases x with
  | ok a => exact hk a (hx.of_ok rfl)
  | error e => exact .fault

end Sys2Proof.Machine

/-! # The units of the decoder

What every operation on them keeps: the configuration, and the bounds of `Inflate.Ok`. -/

namespace Sys2Proof.Machine

/-- What only a reset writes in the units of the decoder (R800). -/
def Inflate.config (d : Inflate) : Nat × Bool × Word := (d.sw.wbits, d.hasDict, d.dictSum)

/-- A command may lead from the units `d` to `d'`: the configuration stays, and so do the bounds. -/
structure Inflate.Evolves (d d' : Inflate) : Prop where
  config : d'.config = d.config
  ok : d.Ok → d'.Ok

theorem Inflate.Evolves.refl (d : Inflate) : d.Evolves d := ⟨rfl, id⟩

theorem Inflate.Evolves.trans {d e f : Inflate} (h : d.Evolves e) (h' : e.Evolves f) : d.Evolves f :=
  ⟨h'.config.trans h.config, h'.ok ∘ h.ok⟩

/-- `d'` is `d` after bits were pulled or dropped: the window is as it was. -/
structure Inflate.Pulls (d d' : Inflate) : Prop extends d.Evolves d' where
  window : d'.sw = d.sw

theorem Inflate.pulls_of_cursor {d : Inflate} {bc : BitCursor} (h : d.bc.Ok → bc.Ok) : d.Pulls { d with bc := bc } :=
  ⟨⟨rfl, fun hd => { hd with cursor := h hd.cursor }⟩, rfl⟩

theorem Dec.pull_pulls (c : Dec) (n : Nat) : c.u.Pulls (c.pull n).u :=
  Inflate.pulls_of_cursor fun h => BitCursor.pull_ok n h _

theorem Dec.drop_evolves (c : Dec) (n : Nat) : c.u.Evolves (c.drop n).u :=
  (Inflate.pulls_of_cursor fun h => BitCursor.drop_ok h n).toEvolves

theorem Dec.align_evolves (c : Dec) : c.u.Evolves c.align.u := c.drop_evolves _

theorem Dec.goto_evolves (c : Dec) (m : Mode) : c.u.Evolves (c.goto m).u := ⟨rfl, fun h => { h with }⟩

/-! ## The window -/

theorem SlidingWindow.copy_wbits (dist : Nat) : ∀ (len : Nat) (w : SlidingWindow),
    (SlidingWindow.copy dist len w).2.wbits = w.wbits
  | 0, _ => rfl
  | len + 1, w => by
    simp only [SlidingWindow.copy]
    split
    · rfl
    · exact SlidingWindow.copy_wbits dist len _

theorem SlidingWindow.history_wbits : ∀ (bs : List Byte) (w : SlidingWindow), (w.history bs).wbits = w.wbits
  | [], _ => rfl
  | _ :: bs, _ => SlidingWindow.history_wbits bs _

theorem SlidingWindow.seed_wbits (w : SlidingWindow) (dict : List Byte) : (w.seed dict).wbits = w.wbits :=
  SlidingWindow.history_wbits _ w

theorem Inflate.evolves_of_window {d : Inflate} {w : SlidingWindow} (hw : w.wbits = d.sw.wbits) (h : d.sw.Ok → w.Ok) :
    d.Evolves { d with sw := w } :=
  ⟨by simp only [Inflate.config, hw], fun hd => { hd with window := h hd.window }⟩

theorem Inflate.put_evolves {d : Inflate} (hf : ¬d.sw.full = true) (b : Byte) : d.Evolves { d with sw := d.sw.put b } :=
  Inflate.evolves_of_window rfl fun h => SlidingWindow.put_ok h (by simpa using hf) b

theorem Inflate.seed_evolves (d : Inflate) (dict : List Byte) : d.Evolves { d with sw := d.sw.seed dict } :=
  Inflate.evolves_of_window (SlidingWindow.seed_wbits _ _) fun h => SlidingWindow.seed_ok h dict

theorem Dec.winDrain_evolves (c : Dec) : c.u.Evolves c.winDrain.u :=
  Inflate.evolves_of_window rfl fun h =>
    { h with
      undelivered := by
        have := h.undelivered
        show c.u.sw.undelivered - _ ≤ c.u.sw.whave
        omega }

/-! ## Decoding a symbol (R430) -/

theorem dropEntry_ok {bc : BitCursor} (h : bc.Ok) (e : Entry) : (dropEntry e bc).Ok := by
  unfold dropEntry
  split
  · exact h
  · exact BitCursor.drop_ok h _

theorem walk_ok {look : BitCursor → Except Fault Entry} {skip : Nat} (input : List Byte) {bc : BitCursor} (h : bc.Ok) :
    Returns (walk look skip bc input) fun r => r.2.1.Ok := by
  induction input generalizing bc with
  | nil => exact .skip fun e => .ok h
  | cons b rest ih => exact .skip fun e => .ite (fun _ => .ok h) fun _ => ih (BitCursor.push_ok h b)

theorem Dec.decodeSym_pulls (c : Dec) (r : TableRef) : Returns (c.decodeSym r) fun q => c.u.Pulls q.2.u := by
  unfold Dec.decodeSym
  refine .bind (.of_imp (walk_ok _)) fun ⟨e?, bc, input⟩ hbc => ?_
  cases e? with
  | none => exact .ok (Inflate.pulls_of_cursor hbc)
  | some e =>
    have hdrop : c.u.bc.Ok → (dropEntry e bc).Ok := fun h => dropEntry_ok (hbc h) e
    cases hop : e.op with
    | link w =>
      simp only [hop]
      refine .bind (.of_imp (walk_ok _)) fun ⟨f?, bc', input'⟩ hbc' => ?_
      cases f? with
      | none => exact .ok (Inflate.pulls_of_cursor (hbc' ∘ hbc))
      | some f =>
        exact .ok (Inflate.pulls_of_cursor fun h => dropEntry_ok (BitCursor.drop_ok (hbc' (hbc h)) _) f)
    | _ => simp only [hop]; exact .ok (Inflate.pulls_of_cursor hdrop)

theorem Dec.decodeVia_pulls (c : Dec) (k : CodeKind) (r : Option TableRef) :
    Returns (c.decodeVia k r) fun q => c.u.Pulls q.2.u := c.decodeSym_pulls _

/-! ## Building a table (R420..R427) -/

theorem fillEntries_sorted {a : ArrayName} {size at_ incr : Nat} {e : Entry} (n : Nat) {t : Cells Entry}
    (ht : Cells.sorted t) : Returns (fillEntries a size at_ incr e n t) Cells.sorted := by
  induction n generalizing t with
  | zero => exact .ok ht
  | succ n ih => exact .bind (Cells.set_sorted ht) fun t ht => ih ht

/-- The arrays R426's loop writes are in canonical form. -/
structure FillState.Ok (f : FillState) : Prop where
  table : Cells.sorted f.table
  count : Cells.sorted f.count

theorem fillTable_ok {kind : CodeKind} {lens : List Nat} {a : ArrayName} {size root max base : Nat} (ss : List Nat)
    {f : FillState} (hf : f.Ok) : Returns (fillTable kind lens a size root max base ss f) FillState.Ok := by
  induction ss generalizing f with
  | nil => exact .ok hf
  | cons s rest ih =>
    unfold fillTable
    refine .bind (fillEntries_sorted _ hf.table) fun table ht => ?_
    refine .skip fun n => .bind (Cells.set_sorted hf.count) fun count hc => ?_
    cases rest with
    | nil => exact .ok ⟨ht, hc⟩
    | cons s' rest =>
      refine .ite (fun _ => ?_) fun _ => ih ⟨ht, hc⟩
      exact .skip fun curr => .bind (Cells.set_sorted ht) fun table ht => ih ⟨ht, hc⟩

theorem histogram_sorted (lens : List Nat) : Cells.sorted (histogram lens) :=
  Cells.sorted_map_index List.pairwise_lt_range _

theorem finalOffsets_sorted (lens : List Nat) : Cells.sorted (finalOffsets lens) :=
  Cells.sorted_map_index List.pairwise_lt_range' _

theorem writeWork_sorted (ss : List Nat) {w : Cells Nat} (hw : Cells.sorted w) (i : Nat) :
    Cells.sorted (writeWork w i ss) := by
  induction ss generalizing w i with
  | nil => exact hw
  | cons s ss ih => exact ih (Cells.sorted_put hw i s) (i + 1)

theorem buildEntries_sorted {kind : CodeKind} {lens : List Nat} {a : ArrayName} {size root base : Nat} {t : Cells Entry}
    (ht : Cells.sorted t) :
    Returns (buildEntries kind lens a size root base t) fun r => Cells.sorted r.1 ∧ Cells.sorted r.2 := by
  refine .bind (fillTable_ok _ ⟨ht, histogram_sorted lens⟩) fun f hf => ?_
  refine .ite (fun _ => ?_) fun _ => .ok ⟨hf.table, hf.count⟩
  exact .bind (Cells.set_sorted hf.table) fun table ht => .ok ⟨ht, hf.count⟩

theorem DecodeTables.arenaOf_sorted {t : DecodeTables} (ht : t.Ok) (k : CodeKind) : Cells.sorted (t.arenaOf k) := by
  cases k with
  | codes => exact ht.clArena
  | lens => exact ht.arena
  | dists => exact ht.arena

theorem DecodeTables.setArena_ok {t : DecodeTables} (ht : t.Ok) (k : CodeKind) {a : Cells Entry} (ha : Cells.sorted a) :
    (t.setArena k a).Ok := by
  cases k with
  | codes => exact { ht with clArena := ha }
  | lens => exact { ht with arena := ha }
  | dists => exact { ht with arena := ha }

theorem buildTable_ok {kind : CodeKind} {lens : List Nat} {t : DecodeTables} (h : t.Ok) :
    Returns (buildTable kind lens t) fun r => r.2.2.Ok := by
  have ht : DecodeTables.Ok { t with count := histogram lens } := { h with count := histogram_sorted lens }
  unfold buildTable
  simp only
  split
  · exact .bind (fillEntries_sorted _ (DecodeTables.arenaOf_sorted ht kind)) fun a ha =>
      .ok (DecodeTables.setArena_ok ht kind ha)
  · exact .ok ht
  · exact .ok ht
  · refine .bind (buildEntries_sorted (DecodeTables.arenaOf_sorted ht kind)) fun ⟨a, count⟩ ⟨ha, hc⟩ => .ok ?_
    have hs := DecodeTables.setArena_ok ht kind ha
    exact { hs with count := hc, offs := finalOffsets_sorted lens, work := writeWork_sorted _ hs.work 0 }

/-- What a build leaves may be put into the units. -/
theorem buildTable_evolves (d : Inflate) (kind : CodeKind) (lens : List Nat) :
    Returns (buildTable kind lens d.ht) fun r => d.Evolves { d with ht := r.2.2 } :=
  Returns.mono (.of_imp buildTable_ok) fun _ hr => ⟨rfl, fun h => { h with tables := hr h.tables }⟩

theorem Inflate.setRef_evolves (d : Inflate) (k : CodeKind) (r : Option TableRef) : d.Evolves (d.setRef k r) := by
  cases k <;> exact ⟨rfl, fun h => { h with }⟩

end Sys2Proof.Machine

/-! # The micro-steps of the decoder

Every micro-step (R480..R520) and INF.STEP keep what the operations on the units keep. -/

namespace Sys2Proof.Machine

/-- The units a micro-step leaves have the property `P`. -/
inductive Micro.Leaves (P : Inflate → Prop) : Micro → Prop
  | advanced {c : Dec} (h : P c.u) : Micro.Leaves P (.advanced c)
  | blocked {k : BlockKind} {c : Dec} (h : P c.u) : Micro.Leaves P (.blocked k c)
  | doneStop {c : Dec} (h : P c.u) : Micro.Leaves P (.doneStop c)
  | raised {r : DataReason} {c : Dec} (h : P c.u) : Micro.Leaves P (.raised r c)
  | fault {f : Fault} : Micro.Leaves P (.fault f)

theorem Micro.Leaves.mono {P Q : Inflate → Prop} {m : Micro} (h : m.Leaves P) (hPQ : ∀ d, P d → Q d) : m.Leaves Q := by
  cases h with
  | advanced h => exact .advanced (hPQ _ h)
  | blocked h => exact .blocked (hPQ _ h)
  | doneStop h => exact .doneStop (hPQ _ h)
  | raised h => exact .raised (hPQ _ h)
  | fault => exact .fault

theorem Micro.ofExcept_leaves {α : Type} {x : Except Fault α} {k : α → Micro} {P : α → Prop} {Q : Inflate → Prop}
    (hx : Returns x P) (hk : ∀ a, P a → (k a).Leaves Q) : (Micro.ofExcept x k).Leaves Q := by
  cases x with
  | ok a => exact hk a (hx.of_ok rfl)
  | error f => exact .fault

/-- A micro-step that needs bits goes on from the pulled units, or blocks in them. -/
theorem Dec.needing_leaves {c : Dec} {n : Nat} {k : Dec → Micro}
    (hk : ∀ c' : Dec, c.u.Pulls c'.u → (k c').Leaves c'.u.Evolves) : (c.needing n k).Leaves c.u.Evolves := by
  have hp := c.pull_pulls n
  unfold Dec.needing
  simp only
  split
  · exact (hk _ hp).mono fun d hd => hp.toEvolves.trans hd
  · exact .blocked hp.toEvolves

/-- A micro-step that decodes a symbol goes on from the units the decoder leaves. -/
theorem Dec.decoding_leaves {c : Dec} {kind : CodeKind} {r : Option TableRef} {k : Option Entry × Dec → Micro}
    (hk : ∀ e? c', c.u.Pulls c'.u → (k (e?, c')).Leaves c'.u.Evolves) :
    (Micro.ofExcept (c.decodeVia kind r) k).Leaves c.u.Evolves :=
  Micro.ofExcept_leaves (c.decodeVia_pulls kind r) fun ⟨e?, c'⟩ hp =>
    (hk e? c' hp).mono fun _ hd => hp.toEvolves.trans hd

theorem Inflate.Pulls.not_full {d d' : Inflate} (h : d.Pulls d') (hf : ¬d.sw.full = true) : ¬d'.sw.full = true := by
  rwa [h.window]

theorem microType_evolves (c : Dec) : (microType c).Leaves c.u.Evolves := by
  refine Dec.needing_leaves fun c _ => ?_
  have hd : c.u.Evolves (((c.drop 1).edit fun d => { d with last := c.peek 1 == 1 }).drop 2).u :=
    ⟨rfl, fun h => { h with cursor := BitCursor.drop_ok (BitCursor.drop_ok h.cursor 1) 2 }⟩
  simp only
  split
  · exact .advanced (hd.trans ((Dec.align_evolves _).trans (Dec.goto_evolves _ _)))
  · split
    · exact .advanced (hd.trans ⟨rfl, fun h => { h with }⟩)
    · split
      · exact .advanced (hd.trans (Dec.goto_evolves _ _))
      · exact .raised hd

theorem microStoredLen_evolves (c : Dec) : (microStoredLen c).Leaves c.u.Evolves := by
  refine Dec.needing_leaves fun c _ => ?_
  have hd : c.u.Evolves ((c.drop 16).drop 16).u := (c.drop_evolves 16).trans (Dec.drop_evolves _ 16)
  simp only
  split
  · exact .raised hd
  · exact .advanced (hd.trans ⟨rfl, fun h => { h with }⟩)

theorem microStoredCopy_evolves (c : Dec) : (microStoredCopy c).Leaves c.u.Evolves := by
  unfold microStoredCopy
  split
  · exact .blocked (.refl _)
  · next hf =>
    refine Dec.needing_leaves fun c hp => .advanced ?_
    have hput := (c.drop_evolves 8).trans
      (Inflate.put_evolves (d := (c.drop 8).u) (hp.not_full hf) (BitVec.ofNat 8 (c.peek 8)))
    split <;> exact hput.trans ⟨rfl, fun h => { h with }⟩

theorem microTable_evolves (c : Dec) : (microTable c).Leaves c.u.Evolves := by
  refine Dec.needing_leaves fun c _ => ?_
  have hd : c.u.Evolves (((c.drop 5).drop 5).drop 4).u :=
    ((c.drop_evolves 5).trans (Dec.drop_evolves _ 5)).trans (Dec.drop_evolves _ 4)
  simp only
  split
  · exact .raised (hd.trans ⟨rfl, fun h => { h with }⟩)
  · exact .advanced (hd.trans ⟨rfl, fun h => { h with cl := Cells.wf_nil 0 }⟩)

theorem microLenLens_evolves (c : Dec) : (microLenLens c).Leaves c.u.Evolves := by
  unfold microLenLens
  split
  · refine Dec.needing_leaves fun c _ => Micro.ofExcept_leaves (.any _) fun i _ => ?_
    refine Micro.ofExcept_leaves (.of_imp Cells.store_wf) fun cl hcl => .advanced ?_
    exact (c.drop_evolves 3).trans ⟨rfl, fun h => { h with cl := hcl h.cl }⟩
  · refine Micro.ofExcept_leaves (buildTable_evolves _ _ _) fun ⟨r, root, ht⟩ hb => ?_
    simp only
    split
    · exact .raised hb
    · exact .advanced (hb.trans ⟨rfl, fun h => { h with lens := Cells.wf_nil 0 }⟩)

theorem microCodeLensSym_evolves (c : Dec) : (microCodeLensSym c).Leaves c.u.Evolves := by
  refine Dec.decoding_leaves fun e? c _ => ?_
  cases e? with
  | none => exact .blocked (.refl _)
  | some e =>
    simp only
    split
    · exact Micro.ofExcept_leaves (.of_imp Cells.store_wf) fun lens hl =>
        .advanced ⟨rfl, fun h => { h with lens := hl h.lens }⟩
    · exact .advanced ⟨rfl, fun h => { h with }⟩

theorem repeatLens_wf {v : Nat} (n : Nat) {i : Nat} {m : Cells Nat} (hm : Cells.wf 0 m) :
    Returns (repeatLens v n i m) (Cells.wf 0) := by
  induction n generalizing i m with
  | zero => exact .ok hm
  | succ n ih => exact .bind (Cells.store_wf hm) fun m hm => ih hm

theorem microRepeat_evolves (c : Dec) (v n : Nat) : (microRepeat c v n).Leaves c.u.Evolves := by
  unfold microRepeat
  split
  · exact .raised (.refl _)
  · exact Micro.ofExcept_leaves (.of_imp (repeatLens_wf n)) fun lens hl =>
      .advanced ⟨rfl, fun h => { h with lens := hl h.lens }⟩

theorem microRepeat_drop_evolves (c : Dec) (k v n : Nat) : (microRepeat (c.drop k) v n).Leaves c.u.Evolves :=
  (microRepeat_evolves (c.drop k) v n).mono fun _ h => (c.drop_evolves k).trans h

theorem microRep16_evolves (c : Dec) : (microRep16 c).Leaves c.u.Evolves := by
  refine Dec.needing_leaves fun c _ => ?_
  split
  · exact .raised (.refl _)
  · exact Micro.ofExcept_leaves (.any _) fun v _ => microRepeat_drop_evolves c 2 v _

theorem microRep17_evolves (c : Dec) : (microRep17 c).Leaves c.u.Evolves :=
  Dec.needing_leaves fun c _ => microRepeat_drop_evolves c 3 0 _

theorem microRep18_evolves (c : Dec) : (microRep18 c).Leaves c.u.Evolves :=
  Dec.needing_leaves fun c _ => microRepeat_drop_evolves c 7 0 _

theorem microCodeLensBuild_evolves (c : Dec) : (microCodeLensBuild c).Leaves c.u.Evolves := by
  unfold microCodeLensBuild
  split
  · exact .raised (.refl _)
  · refine Micro.ofExcept_leaves (buildTable_evolves _ _ _) fun ⟨r1, root1, ht1⟩ hb1 => ?_
    simp only
    split
    · exact .raised hb1
    · refine Micro.ofExcept_leaves (buildTable_evolves { c.u with ht := ht1 } _ _) fun ⟨r2, root2, ht2⟩ hb2 => ?_
      simp only
      split
      · exact .raised (hb1.trans hb2)
      · exact .advanced ((hb1.trans hb2).trans ⟨rfl, fun h => { h with }⟩)

theorem microCodeLens_evolves (c : Dec) : (microCodeLens c).Leaves c.u.Evolves := by
  unfold microCodeLens
  split
  · exact microRep16_evolves c
  · exact microRep17_evolves c
  · exact microRep18_evolves c
  · split
    · exact microCodeLensSym_evolves c
    · exact microCodeLensBuild_evolves c

theorem microLen_evolves (c : Dec) : (microLen c).Leaves c.u.Evolves := by
  unfold microLen
  split
  · exact .blocked (.refl _)
  · next hf =>
    refine Dec.decoding_leaves fun e? c hp => ?_
    cases e? with
    | none => exact .blocked (.refl _)
    | some e =>
      simp only
      split
      · exact .advanced (Inflate.put_evolves (hp.not_full hf) _)
      · exact .advanced (c.goto_evolves _)
      · exact .advanced ⟨rfl, fun h => { h with }⟩
      · exact .raised (.refl _)
      · exact .advanced (.refl _)
      · exact .advanced (.refl _)
      · exact .advanced (.refl _)

theorem microLenExt_evolves (c : Dec) : (microLenExt c).Leaves c.u.Evolves :=
  Dec.needing_leaves fun c _ => .advanced ((c.drop_evolves _).trans ⟨rfl, fun h => { h with }⟩)

theorem microDist_evolves (c : Dec) : (microDist c).Leaves c.u.Evolves := by
  refine Dec.decoding_leaves fun e? c _ => ?_
  cases e? with
  | none => exact .blocked (.refl _)
  | some e =>
    simp only
    split
    · exact .raised (.refl _)
    · exact .advanced ⟨rfl, fun h => { h with }⟩

theorem microDistExt_evolves (c : Dec) : (microDistExt c).Leaves c.u.Evolves := by
  refine Dec.needing_leaves fun c _ => ?_
  have hd := c.drop_evolves c.u.extra
  simp only
  split
  · exact .raised (hd.trans ⟨rfl, fun h => { h with }⟩)
  · exact .advanced (hd.trans ⟨rfl, fun h => { h with }⟩)

theorem microMatch_evolves (c : Dec) : (microMatch c).Leaves c.u.Evolves := by
  unfold microMatch
  split
  · exact .blocked (.refl _)
  · next hf =>
    have hput := Inflate.put_evolves hf (c.u.sw.byteBack c.u.dist)
    refine .advanced ?_
    split <;> exact hput.trans ⟨rfl, fun h => { h with }⟩

theorem microDrain_evolves (c : Dec) : (microDrain c).Leaves c.u.Evolves := by
  unfold microDrain
  split
  · exact .blocked (.refl _)
  · exact .advanced (c.align_evolves.trans (Dec.goto_evolves _ _))

theorem micro_evolves (c : Dec) : (micro c).Leaves c.u.Evolves := by
  unfold micro
  split
  · exact microType_evolves c
  · exact microStoredLen_evolves c
  · exact microStoredCopy_evolves c
  · exact microTable_evolves c
  · exact microLenLens_evolves c
  · exact microCodeLens_evolves c
  · exact microLen_evolves c
  · exact microLenExt_evolves c
  · exact microDist_evolves c
  · exact microDistExt_evolves c
  · exact microMatch_evolves c
  · exact .advanced (c.goto_evolves _)
  · exact microDrain_evolves c
  · exact .doneStop (.refl _)
  · exact .doneStop (.refl _)
  · exact .doneStop (.refl _)

/-! ## The step command (R470) -/

/-- The units the loop of R470 leaves have the property `P`. -/
inductive LoopEnd.Leaves (P : Inflate → Prop) : LoopEnd → Prop
  | exit {progressed : Bool} {k : Option BlockKind} {c : Dec} (h : P c.u) : LoopEnd.Leaves P (.exit progressed k c)
  | raised {r : DataReason} {c : Dec} (h : P c.u) : LoopEnd.Leaves P (.raised r c)
  | fault {f : Fault} : LoopEnd.Leaves P (.fault f)

theorem inflateLoop_evolves {d : Inflate} (fuel : Nat) (progressed : Bool) {c : Dec} (hc : d.Evolves c.u) :
    (inflateLoop fuel progressed c).Leaves d.Evolves := by
  induction fuel generalizing progressed c with
  | zero => exact .fault
  | succ fuel ih =>
    have hm : (micro c.winDrain).Leaves d.Evolves :=
      (micro_evolves c.winDrain).mono fun _ h => (hc.trans c.winDrain_evolves).trans h
    unfold inflateLoop
    generalize micro c.winDrain = m at hm
    cases hm with
    | advanced h => exact ih true h
    | blocked h => exact .exit h
    | doneStop h => exact .exit h
    | raised h => exact .raised h
    | fault => exact .fault

theorem inflateStep_evolves (c : Dec) : (inflateStep c).Leaves c.u.Evolves := by
  unfold inflateStep
  split
  · exact .done (.refl _)
  · split
    · exact .done (.refl _)
    · have hl := inflateLoop_evolves (inflateFuel c) false (Inflate.Evolves.refl c.u)
      generalize inflateLoop (inflateFuel c) false c = l at hl
      cases hl with
      | fault => exact .fault
      | raised h => exact .failed h
      | exit h =>
        simp only
        split
        · exact .done h
        · split
          · exact .done h
          · split <;> exact .transient

end Sys2Proof.Machine

/-! # The units of the encoder

What the operations of the bit packer, the encoder's window and the match finder keep: the configuration, and the
bounds of `Deflate.Ok`. -/

namespace Sys2Proof.Machine

/-- What only a reset writes in the units of the encoder (R801). -/
def Deflate.config (d : Deflate) : Nat × Nat × Nat × Nat × Nat × Nat × StrategyKind :=
  (d.dwbits, d.level, d.goodMatch, d.maxLazy, d.niceMatch, d.maxChain, d.kind)

/-- A command may lead from the units `d` to `d'`: the configuration stays, and so do the bounds. -/
structure Deflate.Evolves (d d' : Deflate) : Prop where
  config : d'.config = d.config
  ok : d.Ok → d'.Ok

theorem Deflate.Evolves.refl (d : Deflate) : d.Evolves d := ⟨rfl, id⟩

theorem Deflate.Evolves.trans {d e f : Deflate} (h : d.Evolves e) (h' : e.Evolves f) : d.Evolves f :=
  ⟨h'.config.trans h.config, h'.ok ∘ h.ok⟩

/-- A computation that goes on from units already reached. -/
theorem Returns.after {α : Type} {x : Except Fault α} {g : α → Deflate} {d e : Deflate}
    (hx : Returns x fun a => e.Evolves (g a)) (h : d.Evolves e) : Returns x fun a => d.Evolves (g a) :=
  hx.mono fun _ ha => h.trans ha

/-! ## The bit packer (R340..R350) -/

theorem Deflate.Evolves.setWriter {d e : Deflate} (h : d.Evolves e) {bw : BitWriter} (hw : d.Ok → bw.biValid ≤ 16) :
    d.Evolves { e with bw := bw } := ⟨h.config, fun hd => { h.ok hd with writer := hw hd }⟩

theorem Deflate.putBytes_evolves (d : Deflate) (bs : List Byte) : Returns (d.putBytes bs) d.Evolves := ⟨fun h => by
  obtain ⟨hle, rfl⟩ := Deflate.putBytes_eq h
  exact ⟨rfl, fun hd => { hd with pending := List.length_append.trans_le hle }⟩⟩

theorem Deflate.putByte_evolves (d : Deflate) (b : Byte) : Returns (d.putByte b) d.Evolves := d.putBytes_evolves _

theorem Deflate.putShort_evolves (d : Deflate) (w : Half) : Returns (d.putShort w) d.Evolves := d.putBytes_evolves _

/-- A field of at most 16 bits leaves at most 16 bits held. -/
theorem Deflate.sendBits_evolves (d : Deflate) (v : Half) {n : Nat} (hn : d.Ok → n ≤ 16) :
    Returns (d.sendBits v n) d.Evolves := ⟨fun {d'} h => by
  obtain ⟨hd', -, hpending, hvalid⟩ := Deflate.sendBits_eq h
  rw [hd']
  refine ⟨rfl, fun hd => { hd with writer := hvalid hd.writer (hn hd), pending := ?_ }⟩
  exact hpending.trans (max_le hd.pending (le_refl _))⟩

theorem Deflate.sendNat_evolves (d : Deflate) (v : Nat) {n : Nat} (hn : n ≤ 16) : Returns (d.sendNat v n) d.Evolves :=
  d.sendBits_evolves _ fun _ => hn

theorem Deflate.windup_evolves (d : Deflate) : Returns d.windup d.Evolves := by
  have hend (d' : Deflate) (h : d.Evolves d') : Returns (.ok { d' with bw := ⟨0, 0⟩ }) d.Evolves :=
    .ok (h.setWriter fun _ => Nat.zero_le _)
  exact .ite (fun _ => .bind (d.putShort_evolves _) hend) fun _ =>
    .ite (fun _ => .bind (d.putByte_evolves _) hend) fun _ => hend d (.refl d)

theorem Deflate.flushBits_evolves (d : Deflate) : Returns d.flushBits d.Evolves := by
  refine .ite (fun _ => .bind (d.putShort_evolves _) fun d' h => ?_) fun _ =>
    .ite (fun _ => .bind (d.putByte_evolves _) fun d' h => ?_) fun _ => .ok (.refl d)
  · exact .ok (h.setWriter fun _ => Nat.zero_le _)
  · exact .ok (h.setWriter fun hd => (Nat.sub_le _ _).trans hd.writer)

theorem Enc.flushPending_evolves (c : Enc) : c.u.Evolves c.flushPending.u :=
  ⟨rfl, fun h => { h with pending := (List.drop_sublist _ _).length_le.trans h.pending }⟩

/-! ## The match finder (R550..R566) -/

theorem Deflate.hashInitAt_evolves (d : Deflate) (i : Nat) : Returns (d.hashInitAt i) d.Evolves :=
  .skip fun _ => .skip fun _ => .ok ⟨rfl, fun h => { h with }⟩

theorem Deflate.hashInit_evolves (d : Deflate) : Returns d.hashInit d.Evolves := d.hashInitAt_evolves _

theorem Deflate.insertString_evolves (d : Deflate) (s : Nat) : Returns (d.insertString s) fun r => d.Evolves r.2 :=
  ⟨fun {r} h => by
    obtain ⟨hd', hprev, hhead⟩ := Deflate.insertString_eq (old := r.1) (d' := r.2) h
    rw [hd']
    exact ⟨rfl, fun hd => { hd with prev := hprev hd.prev, head := hhead hd.head }⟩⟩

theorem Deflate.longestMatch_evolves (d : Deflate) (m : Nat) : Returns (d.longestMatch m) fun r => d.Evolves r.2 :=
  .skip fun _ => .ok ⟨rfl, fun h => { h with }⟩

theorem Deflate.insertFrom_evolves (k n : Nat) (d : Deflate) : Returns (Deflate.insertFrom k n d) d.Evolves := by
  induction k generalizing n d with
  | zero => exact .ok (.refl d)
  | succ k ih => exact .bind (d.insertString_evolves n) fun ⟨_, d'⟩ h => (ih (n + 1) d').after h

/-! ## The encoder's window (R390..R394) -/

theorem Deflate.slide_evolves (d : Deflate) : d.Evolves d.slide := ⟨rfl, Deflate.slide_ok⟩

theorem Deflate.fillSlide_evolves (d : Deflate) : d.Evolves d.fillSlide := by
  unfold Deflate.fillSlide
  split
  · exact .refl d
  · split
    · exact d.slide_evolves
    · exact .refl d

theorem Deflate.writeWindow_evolves {d : Deflate} {start : Nat} {bs : List Byte}
    (h : start + bs.length ≤ d.windowSize) :
    d.Evolves { d with window := Cells.writeAll 0 d.window start bs } :=
  ⟨rfl, fun hd =>
    { hd with window := Cells.wf_writeAll hd.window _ _, inside := Cells.below_writeAll hd.inside h }⟩

theorem Enc.readBuf_evolves (c : Enc) (start n : Nat) : Returns (c.readBuf start n) fun c' => c.u.Evolves c'.u := by
  refine .ite (fun hn => .ok ?_) fun _ => .error _
  obtain rfl | hn := hn
  · exact .refl c.u
  · exact Deflate.writeWindow_evolves (by have := List.length_take_le n c.port.input; omega)

theorem Enc.fillLoop_evolves (fuel : Nat) (c : Enc) : Returns (Enc.fillLoop fuel c) fun c' => c.u.Evolves c'.u := by
  induction fuel generalizing c with
  | zero => exact .error _
  | succ fuel ih =>
    refine .ite (fun _ => .ok c.u.fillSlide_evolves) fun _ => ?_
    refine .bind ((Enc.readBuf_evolves _ _ _).after c.u.fillSlide_evolves) fun c₁ h₁ => ?_
    have hlook (k : Nat) : c.u.Evolves { c₁.u with lookahead := k } := h₁.trans ⟨rfl, fun h => { h with }⟩
    refine .join (fun _ => (Deflate.hashInit_evolves _).after (hlook _)) (fun _ => .ok (hlook _)) fun d hd => ?_
    exact .ite (fun _ => (ih _).after hd) fun _ => .ok hd

theorem Enc.fillWindow_evolves (c : Enc) : Returns c.fillWindow fun c' => c.u.Evolves c'.u := c.fillLoop_evolves _

theorem Deflate.dictSeed_evolves (d : Deflate) (dict : List Byte) :
    Returns (d.dictSeed dict) fun r => d.Evolves r.2 := by
  refine .ite (fun _ => .ok (.refl d)) fun _ => ?_
  have hkept : 0 + (dict.drop (dict.length - min dict.length d.maxDist)).length ≤ d.windowSize := by
    have hmax : d.maxDist ≤ d.windowSize := (Nat.sub_le _ _).trans (Nat.le_mul_of_pos_left _ (by decide))
    rw [List.length_drop]
    omega
  have hwrite := Deflate.writeWindow_evolves hkept
  refine .bind ((Deflate.hashInitAt_evolves _ _).after (hwrite.trans ⟨rfl, fun h => { h with }⟩)) fun d₁ h₁ => ?_
  exact .bind ((Deflate.insertFrom_evolves _ _ _).after h₁) fun d₂ h₂ => .ok h₂

end Sys2Proof.Machine

/-! # The tree builder

What it keeps (R606..R640): no code length above 15, every array in canonical form, and at most
LIT_BUFSIZE tokens. -/

namespace Sys2Proof.Machine

/-! ## One descriptor (R107) -/

theorem Cells.get_mem {α : Type} {a : ArrayName} {n : Nat} {m : Cells α} {i : Int} :
    Returns (Cells.get a n m i) fun v => ∃ k, (k, v) ∈ m := ⟨fun h => by
  unfold Cells.get at h
  obtain ⟨k, -, h⟩ := Except.bind_ok.1 h
  split at h
  · next hv => cases h; exact ⟨k, Cells.find?_some_mem hv⟩
  · cases h⟩

theorem Cells.set_inside {α : Type} {a : ArrayName} {n i : Nat} {m : Cells α} {v : α} :
    Returns (Cells.set a n m (i : Int) v) fun m' => i < n ∧ (Cells.sorted m → Cells.sorted m') := ⟨fun h => by
  obtain ⟨k, hk, hlt, rfl⟩ := Cells.set_ok h
  exact ⟨by omega, fun hm => Cells.sorted_put hm k v⟩⟩

theorem Tree.getLen_le {t : Tree} (ht : t.Ok) {n : Nat} {i : Int} :
    Returns (Cells.get .len n t.len i) fun l => l ≤ 15 := Cells.get_mem.mono fun _ ⟨_, hm⟩ => ht.len _ hm

theorem Tree.setLen_ok {t : Tree} (ht : t.Ok) {n l : Nat} {i : Int} (hl : l ≤ 15) :
    Returns (Cells.set .len n t.len i l) fun len => Tree.Ok { t with len := len } := ⟨fun h => by
  obtain ⟨k, -, -, rfl⟩ := Cells.set_ok h
  refine { ht with lens := Cells.sorted_put ht.lens k l, len := fun c hc => ?_ }
  obtain rfl | hc := Cells.mem_put hc
  · exact hl
  · exact ht.len c hc⟩

theorem Tree.setFreq_ok {id : TreeId} {t : Tree} {n v : Nat} (ht : t.Ok) : Returns (t.setFreq id n v) Tree.Ok :=
  .bind (Cells.store_wf ht.freq) fun _ hf => .ok { ht with freq := hf }

theorem Tree.addFreq_ok {id : TreeId} {t : Tree} {n k : Nat} (ht : t.Ok) : Returns (t.addFreq id n k) Tree.Ok :=
  .skip fun _ => Tree.setFreq_ok ht

/-! ## Tokens and block starts (R606, R607) -/

theorem Deflate.initBlock_evolves (d : Deflate) : d.Evolves d.initBlock := ⟨rfl, Deflate.initBlock_ok⟩

theorem Deflate.tally_evolves (d : Deflate) (dist : Int) (lc : Byte) :
    Returns (d.tally dist lc) fun r => d.Evolves r.2 := by
  refine .bind Cells.set_inside fun dBuf ⟨hlt, hdBuf⟩ => .bind Cells.set_inside fun lBuf ⟨_, hlBuf⟩ => ?_
  refine .ite (fun _ => ?_) fun _ => ?_
  · refine .bind (.of_imp Tree.addFreq_ok) fun ld hld => .ok ⟨rfl, fun h => ?_⟩
    exact { h with tokens := hlt, dBuf := hdBuf h.dBuf, lBuf := hlBuf h.lBuf, ld := hld h.ld }
  · refine .bind (.of_imp Tree.addFreq_ok) fun ld hld => ?_
    refine .bind (.of_imp Tree.addFreq_ok) fun dd hdd => .ok ⟨rfl, fun h => ?_⟩
    exact { h with tokens := hlt, dBuf := hdBuf h.dBuf, lBuf := hlBuf h.lBuf, ld := hld h.ld, dd := hdd h.dd }

/-! ## What a build works on (R610..R621) -/

/-- What holds of what a tree build works on. -/
structure Forest.Ok (f : Forest) : Prop where
  tree : f.tree.Ok
  tb : f.tb.Ok

theorem TreeId.maxLength_le (id : TreeId) : id.maxLength ≤ 15 := by cases id <;> decide

theorem setHeap_sorted {heap : Cells Nat} (hh : Cells.sorted heap) {i : Int} {n : Nat} :
    Returns (setHeap heap i n) Cells.sorted := Cells.set_sorted hh

theorem siftDown_sorted {id : TreeId} {f : Forest} {len v : Nat} (fuel k : Nat) {heap : Cells Nat}
    (hh : Cells.sorted heap) : Returns (siftDown id f len v fuel k heap) Cells.sorted := by
  induction fuel generalizing k heap with
  | zero => exact setHeap_sorted hh
  | succ fuel ih =>
    refine .ite (fun _ => setHeap_sorted hh) fun _ => ?_
    refine .ite (fun _ => .skip fun r => .skip fun l => .skip fun b => .ite (fun _ => ?_) fun _ => ?_) fun _ => ?_
    all_goals
      exact .skip fun j => .skip fun c => .skip fun b => .ite (fun _ => setHeap_sorted hh) fun _ =>
        .bind (setHeap_sorted hh) fun heap hh => ih _ hh

theorem pqDownHeap_ok {id : TreeId} {k : Nat} {f : Forest} (hf : f.Ok) : Returns (pqDownHeap id k f) Forest.Ok :=
  .skip fun _ => .skip fun _ => .bind (siftDown_sorted _ _ hf.tb.heap) fun _ hh =>
    .ok { hf with tb := { hf.tb with heap := hh } }

theorem gatherLeaves_ok {id : TreeId} (ns : List Nat) (heapLen : Nat) (maxCode : Int) {f : Forest} (hf : f.Ok) :
    Returns (gatherLeaves id ns heapLen maxCode f) fun r => r.2.2.Ok := by
  induction ns generalizing heapLen maxCode f with
  | nil => exact .ok hf
  | cons n rest ih =>
    refine .skip fun fr => .ite (fun _ => ?_) fun _ => ?_
    · exact .bind (setHeap_sorted hf.tb.heap) fun heap hh => .bind (Cells.set_sorted hf.tb.depth) fun depth hd =>
        ih _ _ { hf with tb := { hf.tb with heap := hh, depth := hd } }
    · exact .bind (Tree.setLen_ok hf.tree (Nat.zero_le _)) fun len ht => ih _ _ { hf with tree := ht }

theorem forceTwo_ok {id : TreeId} (fuel heapLen : Nat) (maxCode : Int) {f : Forest} (hf : f.Ok) :
    Returns (forceTwo id fuel heapLen maxCode f) fun r => r.2.2.Ok := by
  induction fuel generalizing heapLen maxCode f with
  | zero => exact .ok hf
  | succ fuel ih =>
    refine .ite (fun _ => ?_) fun _ => .ok hf
    exact .bind (setHeap_sorted hf.tb.heap) fun heap hh => .bind (Tree.setFreq_ok hf.tree) fun tree ht =>
      .bind (Cells.set_sorted hf.tb.depth) fun depth hd =>
        ih _ _ { tree := ht, tb := { hf.tb with heap := hh, depth := hd } }

theorem heapify_ok {id : TreeId} (k : Nat) {f : Forest} (hf : f.Ok) : Returns (heapify id k f) Forest.Ok := by
  induction k generalizing f with
  | zero => exact .ok hf
  | succ k ih => exact .bind (pqDownHeap_ok hf) fun f hf => ih hf

theorem pushSorted_ok {n : Nat} {f : Forest} (hf : f.Ok) : Returns (pushSorted n f) Forest.Ok :=
  .skip fun _ => .bind (setHeap_sorted hf.tb.heap) fun _ hh => .ok { hf with tb := { hf.tb with heap := hh } }

theorem mergeTwo_ok {id : TreeId} {node : Nat} {f : Forest} (hf : f.Ok) : Returns (mergeTwo id node f) Forest.Ok := by
  refine .skip fun len => .skip fun n => .skip fun last => .bind (setHeap_sorted hf.tb.heap) fun heap hh => ?_
  refine .bind (pqDownHeap_ok { hf with tb := { hf.tb with heap := hh } }) fun f hf => .skip fun m => ?_
  refine .bind (pushSorted_ok hf) fun f hf => .bind (pushSorted_ok hf) fun f hf => ?_
  refine .skip fun fn => .skip fun fm => .bind (Tree.setFreq_ok hf.tree) fun tree ht => ?_
  refine .skip fun dn => .skip fun dm => .bind (Cells.set_sorted hf.tb.depth) fun depth hd => ?_
  refine .bind (Cells.set_sorted ht.dad) fun dad ha => .bind (Cells.set_sorted ha) fun dad ha => ?_
  refine .bind (setHeap_sorted hf.tb.heap) fun heap hh => ?_
  exact pqDownHeap_ok { tree := { ht with dad := ha }, tb := { hf.tb with heap := hh, depth := hd } }

theorem mergeLoop_ok {id : TreeId} (fuel node : Nat) {f : Forest} (hf : f.Ok) :
    Returns (mergeLoop id fuel node f) Forest.Ok := by
  induction fuel generalizing node f with
  | zero => exact .error _
  | succ fuel ih =>
    exact .bind (mergeTwo_ok hf) fun f hf => .skip fun len => .ite (fun _ => .ok hf) fun _ => ih _ hf

theorem addBlCount_sorted {c : Cells Int} (hc : Cells.sorted c) (b k : Int) : Returns (addBlCount c b k) Cells.sorted :=
  .skip fun _ => Cells.set_sorted hc

theorem depthLoop_ok {id : TreeId} (hs : List Nat) (overflow : Nat) {f : Forest} (hf : f.Ok) :
    Returns (depthLoop id hs overflow f) fun r => r.2.Ok := by
  induction hs generalizing overflow f with
  | nil => exact .ok hf
  | cons h rest ih =>
    have hbits (up : Nat) : min (up + 1) id.maxLength ≤ 15 := (Nat.min_le_right _ _).trans id.maxLength_le
    refine .skip fun n => .skip fun dad => .skip fun up => .bind (Tree.setLen_ok hf.tree (hbits up)) fun len ht => ?_
    refine .skip fun maxCode => .ite (fun _ => ih _ { hf with tree := ht }) fun _ => ?_
    exact .bind (addBlCount_sorted hf.tb.blCount _ _) fun bl hb => .skip fun fr =>
      ih _ { tree := ht, tb := { hf.tb with blCount := hb } }

theorem repairLoop_sorted {maxLength : Nat} (rounds : Nat) {c : Cells Int} (hc : Cells.sorted c) :
    Returns (repairLoop maxLength rounds c) Cells.sorted := by
  induction rounds generalizing c with
  | zero => exact .ok hc
  | succ rounds ih =>
    exact .skip fun bits => .bind (addBlCount_sorted hc _ _) fun c hc => .bind (addBlCount_sorted hc _ _) fun c hc =>
      .bind (addBlCount_sorted hc _ _) fun c hc => ih hc

theorem assignLength_ok {id : TreeId} {maxCode : Int} {bits : Nat} (hbits : bits ≤ 15) (h : Nat) (n : Int) {f : Forest}
    (hf : f.Ok) : Returns (assignLength id maxCode bits h n f) fun r => r.2.Ok := by
  induction h generalizing n f with
  | zero =>
    unfold assignLength
    split
    · exact .ok hf
    · exact .error _
    · contradiction
  | succ h ih =>
    unfold assignLength
    split
    · exact .ok hf
    · contradiction
    · next heq _ =>
      cases heq
      refine .skip fun m => .ite (fun _ => ih _ hf) fun _ => .skip fun l => .ite (fun _ => ?_) fun _ => ih _ hf
      exact .skip fun fr => .bind (Tree.setLen_ok hf.tree hbits) fun len ht => ih _ { hf with tree := ht }

theorem reassign_ok {id : TreeId} {maxCode : Int} (bits : Nat) (hbits : bits ≤ 15) (h : Nat) {f : Forest} (hf : f.Ok) :
    Returns (reassign id maxCode bits h f) Forest.Ok := by
  induction bits generalizing h f with
  | zero => exact .ok hf
  | succ bits ih =>
    exact .skip fun n => .bind (assignLength_ok hbits _ _ hf) fun r hr => ih (Nat.le_of_succ_le hbits) r.1 hr

theorem genBitlen_ok {id : TreeId} {f : Forest} (hf : f.Ok) : Returns (genBitlen id f) Forest.Ok := by
  have hzeros : Cells.sorted ((List.range 16).map fun b => (b, (0 : Int))) :=
    Cells.sorted_map_index List.pairwise_lt_range _
  refine .skip fun heapMax => .skip fun root => .bind (Tree.setLen_ok hf.tree (Nat.zero_le _)) fun len ht => ?_
  refine .bind (depthLoop_ok _ _ { tree := ht, tb := { hf.tb with blCount := hzeros } }) fun ⟨overflow, f⟩ hf => ?_
  refine .ite (fun _ => .ok hf) fun _ => .skip fun maxCode => ?_
  exact .bind (repairLoop_sorted _ hf.tb.blCount) fun bl hb =>
    reassign_ok _ id.maxLength_le _ { hf with tb := { hf.tb with blCount := hb } }

theorem assignCodes_sorted {id : TreeId} {len : Cells Nat} (ns : List Nat) (next : Cells Int) {code : Cells Half}
    (hc : Cells.sorted code) : Returns (assignCodes id len ns next code) Cells.sorted := by
  induction ns generalizing next code with
  | nil => exact .ok hc
  | cons n rest ih =>
    refine .skip fun l => .ite (fun _ => ih _ hc) fun _ => .skip fun v => ?_
    exact .bind (Cells.set_sorted hc) fun code hc => .skip fun next => ih next hc

theorem genCodes_ok {id : TreeId} {maxCode : Int} {f : Forest} (hf : f.Ok) :
    Returns (genCodes id maxCode f) Forest.Ok :=
  .skip fun _ => .bind (assignCodes_sorted _ _ hf.tree.code) fun _ hc =>
    .ok { hf with tree := { hf.tree with code := hc } }

theorem buildTree_ok {id : TreeId} {f : Forest} (hf : f.Ok) : Returns (buildTree id f) fun r => r.2.Ok := by
  refine .bind (gatherLeaves_ok _ _ _ hf) fun ⟨heapLen, maxCode, f⟩ hf => ?_
  refine .bind (forceTwo_ok _ _ _ hf) fun ⟨heapLen, maxCode, f⟩ hf => ?_
  have hset : Forest.Ok { f with
      tree := { f.tree with maxCode := some maxCode }
      tb := { f.tb with heapLen := some heapLen, heapMax := some Config.heapSize } } :=
    { tree := { hf.tree with }, tb := { hf.tb with } }
  refine .bind (heapify_ok _ hset) fun f hf => .bind (mergeLoop_ok _ _ hf) fun f hf => .skip fun root => ?_
  exact .bind (pushSorted_ok hf) fun f hf => .bind (genBitlen_ok hf) fun f hf => .bind (genCodes_ok hf) fun f hf =>
    .ok hf

/-! ## The three descriptors (R107) -/

theorem Deflate.tree_ok {d : Deflate} (h : d.Ok) (id : TreeId) : (d.tree id).Ok := by
  cases id with
  | ld => exact h.ld
  | dd => exact h.dd
  | bd => exact h.bd

theorem Deflate.forest_ok {d : Deflate} (h : d.Ok) (id : TreeId) : (d.forest id).Ok := ⟨d.tree_ok h id, h.tb⟩

theorem Deflate.plant_evolves {d : Deflate} {id : TreeId} {f : Forest} (hf : (d.forest id).Ok → f.Ok) :
    d.Evolves (d.plant id f) := by
  have hok (h : d.Ok) : f.Ok := hf (d.forest_ok h id)
  cases id with
  | ld => exact ⟨rfl, fun h => { h with ld := (hok h).tree, tb := (hok h).tb }⟩
  | dd => exact ⟨rfl, fun h => { h with dd := (hok h).tree, tb := (hok h).tb }⟩
  | bd => exact ⟨rfl, fun h => { h with bd := (hok h).tree, tb := (hok h).tb }⟩

theorem Deflate.buildTree_evolves (d : Deflate) (id : TreeId) : Returns (d.buildTree id) fun r => d.Evolves r.2 :=
  .bind (.of_imp buildTree_ok) fun _ hf => .ok (Deflate.plant_evolves hf)

/-! ## The compact tree description (R625..R628) -/

theorem countRun_ok {bd : Tree} (hb : bd.Ok) (r : Run) : Returns (countRun bd r) Tree.Ok := by
  cases r with
  | single len count => exact Tree.addFreq_ok hb
  | repeat16 len lead count =>
    exact .join (fun _ => Tree.addFreq_ok hb) (fun _ => .ok hb) fun _ hb => Tree.addFreq_ok hb
  | zeros17 count => exact Tree.addFreq_ok hb
  | zeros18 count => exact Tree.addFreq_ok hb

theorem countRuns_ok (rs : List Run) {bd : Tree} (hb : bd.Ok) : Returns (countRuns rs bd) Tree.Ok := by
  induction rs generalizing bd with
  | nil => exact .ok hb
  | cons r rest ih => exact .bind (countRun_ok hb r) fun bd hb => ih hb

theorem Deflate.scanTree_evolves (d : Deflate) (id : TreeId) (maxCode : Int) :
    Returns (d.scanTree id maxCode) d.Evolves :=
  .skip fun _ => .bind (.of_imp (countRuns_ok _)) fun _ hb => .ok ⟨rfl, fun h => { h with bd := hb h.bd }⟩

/-- The code lengths of a descriptor are at most 15, so a code fits the packer (R340). -/
theorem Deflate.sendCode_evolves (d : Deflate) (id : TreeId) (c : Nat) : Returns (d.sendCode id c) d.Evolves :=
  .skip fun v => .bind (.of_imp fun h => Tree.getLen_le (d.tree_ok h id)) fun l hl =>
    d.sendBits_evolves v fun h => (hl h).trans (by decide)

theorem sendRepeated_evolves (c n : Nat) (d : Deflate) : Returns (sendRepeated c n d) d.Evolves := by
  induction n generalizing d with
  | zero => exact .ok (.refl d)
  | succ n ih => exact .bind (d.sendCode_evolves .bd c) fun d' h => (ih d').after h

theorem Deflate.sendRun_evolves (d : Deflate) (r : Run) : Returns (d.sendRun r) d.Evolves := by
  cases r with
  | single len count => exact sendRepeated_evolves len count d
  | repeat16 len lead count =>
    refine .join (fun _ => d.sendCode_evolves .bd len) (fun _ => .ok (.refl d)) fun d₁ h₁ => ?_
    exact .bind ((d₁.sendCode_evolves .bd 16).after h₁) fun d₂ h₂ => (d₂.sendNat_evolves _ (by decide)).after h₂
  | zeros17 count =>
    exact .bind (d.sendCode_evolves .bd 17) fun d₁ h₁ => (d₁.sendNat_evolves _ (by decide)).after h₁
  | zeros18 count =>
    exact .bind (d.sendCode_evolves .bd 18) fun d₁ h₁ => (d₁.sendNat_evolves _ (by decide)).after h₁

theorem sendRuns_evolves (rs : List Run) (d : Deflate) : Returns (sendRuns rs d) d.Evolves := by
  induction rs generalizing d with
  | nil => exact .ok (.refl d)
  | cons r rest ih => exact .bind (d.sendRun_evolves r) fun d' h => (ih d').after h

theorem Deflate.sendTree_evolves (d : Deflate) (id : TreeId) (maxCode : Int) :
    Returns (d.sendTree id maxCode) d.Evolves := .skip fun _ => sendRuns_evolves _ d

theorem Deflate.buildBlTree_evolves (d : Deflate) : Returns d.buildBlTree fun r => d.Evolves r.2 := by
  refine .skip fun lmax => .bind (d.scanTree_evolves .ld lmax) fun d₁ h₁ => .skip fun dmax => ?_
  refine .bind ((d₁.scanTree_evolves .dd dmax).after h₁) fun d₂ h₂ => ?_
  exact .bind ((d₂.buildTree_evolves .bd).after h₂) fun ⟨_, d₃⟩ h₃ => .skip fun mb =>
    .ok (h₃.trans ⟨rfl, fun h => { h with }⟩)

theorem sendBlLens_evolves (ss : List Nat) (d : Deflate) : Returns (sendBlLens ss d) d.Evolves := by
  induction ss generalizing d with
  | nil => exact .ok (.refl d)
  | cons s rest ih =>
    exact .skip fun l => .bind (d.sendNat_evolves l (by decide)) fun d' h => (ih d').after h

theorem Deflate.sendAllTrees_evolves (d : Deflate) (lcodes dcodes blcodes : Nat) :
    Returns (d.sendAllTrees lcodes dcodes blcodes) d.Evolves := by
  refine .bind (d.sendNat_evolves _ (by decide)) fun d₁ h₁ => ?_
  refine .bind ((d₁.sendNat_evolves _ (by decide)).after h₁) fun d₂ h₂ => ?_
  refine .bind ((d₂.sendNat_evolves _ (by decide)).after h₂) fun d₃ h₃ => ?_
  refine .bind ((sendBlLens_evolves _ d₃).after h₃) fun d₄ h₄ => ?_
  exact .bind ((d₄.sendTree_evolves .ld _).after h₄) fun d₅ h₅ => (d₅.sendTree_evolves .dd _).after h₅

/-! ## Block emission (R630..R640) -/

theorem tableAt_le {t : List Nat} {n : Nat} (h : ∀ x ∈ t, x ≤ n) (i : Nat) : tableAt t i ≤ n := by
  unfold tableAt
  rw [List.getD_eq_getElem?_getD]
  cases hi : t[i]? with
  | none => exact Nat.zero_le n
  | some x => exact h x (List.mem_of_getElem? hi)

theorem fixedLLLen_le (s : Nat) : fixedLLLen s ≤ 16 := by unfold fixedLLLen; split_ifs <;> decide

theorem Deflate.sendLL_evolves (d : Deflate) (dynamic : Bool) (s : Nat) : Returns (d.sendLL dynamic s) d.Evolves :=
  .ite (fun _ => d.sendCode_evolves .ld s) fun _ => d.sendNat_evolves _ (fixedLLLen_le s)

theorem Deflate.sendDist_evolves (d : Deflate) (dynamic : Bool) (s : Nat) : Returns (d.sendDist dynamic s) d.Evolves :=
  .ite (fun _ => d.sendCode_evolves .dd s) fun _ => d.sendNat_evolves _ (by decide)

theorem Deflate.sendExtra_evolves (d : Deflate) (v : Nat) {n : Nat} (hn : n ≤ 16) :
    Returns (d.sendExtra v n) d.Evolves :=
  .ite (fun _ => .ok (.refl d)) fun _ => d.sendNat_evolves v hn

theorem Deflate.sendToken_evolves (d : Deflate) (dynamic : Bool) (dist lc : Nat) :
    Returns (d.sendToken dynamic dist lc) d.Evolves := by
  refine .ite (fun _ => d.sendLL_evolves dynamic lc) fun _ => .bind (d.sendLL_evolves dynamic _) fun d₁ h₁ => ?_
  refine .bind ((d₁.sendExtra_evolves _ (tableAt_le (by decide) _)).after h₁) fun d₂ h₂ => ?_
  refine .bind ((d₂.sendDist_evolves dynamic _).after h₂) fun d₃ h₃ => ?_
  exact (d₃.sendExtra_evolves _ (tableAt_le (by decide) _)).after h₃

theorem sendTokens_evolves (dynamic : Bool) (xs : List Nat) (d : Deflate) :
    Returns (sendTokens dynamic xs d) d.Evolves := by
  induction xs generalizing d with
  | nil => exact .ok (.refl d)
  | cons lx rest ih =>
    exact .skip fun dist => .skip fun lc => .bind (d.sendToken_evolves dynamic _ _) fun d' h => (ih d').after h

theorem Deflate.compressBlock_evolves (d : Deflate) (dynamic : Bool) : Returns (d.compressBlock dynamic) d.Evolves :=
  .bind (sendTokens_evolves dynamic _ d) fun d' h => (d'.sendLL_evolves dynamic 256).after h

theorem Deflate.storedBlock_evolves (d : Deflate) (buf len : Nat) (eof : Bool) :
    Returns (d.storedBlock buf len eof) d.Evolves := by
  refine .bind (d.sendNat_evolves _ (by decide)) fun d₁ h₁ => .bind (d₁.windup_evolves.after h₁) fun d₂ h₂ => ?_
  refine .bind ((d₂.putShort_evolves _).after h₂) fun d₃ h₃ => ?_
  exact .bind ((d₃.putShort_evolves _).after h₃) fun d₄ h₄ => .skip fun bs => (d₄.putBytes_evolves bs).after h₄

theorem Deflate.estimates_evolves (d : Deflate) : Returns d.estimates fun r => d.Evolves r.2.2.2 := by
  refine .ite (fun _ => ?_) fun _ => .ok (.refl d)
  refine .bind (d.buildTree_evolves .ld) fun ⟨_, d₁⟩ h₁ => ?_
  refine .bind ((d₁.buildTree_evolves .dd).after h₁) fun ⟨_, d₂⟩ h₂ => ?_
  exact .bind (d₂.buildBlTree_evolves.after h₂) fun ⟨_, d₃⟩ h₃ => .ok h₃

theorem Deflate.emitBlock_evolves (d : Deflate) (kind : BlockType) (eof : Bool) (mb : Nat) :
    Returns (d.emitBlock kind eof mb) d.Evolves := by
  cases kind with
  | stored => exact d.storedBlock_evolves _ _ eof
  | fixed =>
    exact .bind (d.sendNat_evolves _ (by decide)) fun d₁ h₁ => (d₁.compressBlock_evolves false).after h₁
  | dynamic =>
    refine .bind (d.sendNat_evolves _ (by decide)) fun d₁ h₁ => .skip fun lmax => .skip fun dmax => ?_
    exact .bind ((d₁.sendAllTrees_evolves _ _ _).after h₁) fun d₂ h₂ => (d₂.compressBlock_evolves true).after h₂

theorem Deflate.flushBlock_evolves (d : Deflate) (eof : Bool) : Returns (d.flushBlock eof) fun r => d.Evolves r.2 := by
  refine .bind d.estimates_evolves fun ⟨mb, optLenb, staticLenb, d₁⟩ h₁ => ?_
  refine .bind ((d₁.emitBlock_evolves _ eof mb).after h₁) fun d₂ h₂ => ?_
  have h₃ := h₂.trans d₂.initBlock_evolves
  refine .join (fun _ => (Deflate.windup_evolves _).after h₃) (fun _ => .ok h₃) fun d₄ h₄ => ?_
  exact .ok (h₄.trans ⟨rfl, fun h => { h with }⟩)

end Sys2Proof.Machine

/-! # The encoder's step

The strategies of R694, R700 and R710 and DEF.STEP (R680) keep what the operations on the units keep. -/

namespace Sys2Proof.Machine

theorem Enc.flushBlockOnly_evolves (c : Enc) (eof : Bool) :
    Returns (c.flushBlockOnly eof) fun c' => c.u.Evolves c'.u :=
  .bind (c.u.flushBlock_evolves eof) fun ⟨_, d⟩ h =>
    .ok (h.trans (Enc.flushPending_evolves { c with u := d }))

theorem Enc.endStrategy_evolves (c : Enc) (flush : Flush) :
    Returns (c.endStrategy flush) fun r => c.u.Evolves r.2.u :=
  .bind (c.flushBlockOnly_evolves _) fun _ h => .ite (fun _ => .ok h) fun _ => .ok h

/-- The units the head of a strategy's loop leaves have the property `P`. -/
inductive LoopHead.Leaves (P : Deflate → Prop) : LoopHead → Prop
  | needMore {c : Enc} (h : P c.u) : LoopHead.Leaves P (.needMore c)
  | exitLoop {c : Enc} (h : P c.u) : LoopHead.Leaves P (.exitLoop c)
  | go {c : Enc} (h : P c.u) : LoopHead.Leaves P (.go c)

theorem Enc.loopHead_evolves (c : Enc) (flush : Flush) :
    Returns (c.loopHead flush) fun l => l.Leaves c.u.Evolves :=
  .ite (fun _ => .bind c.fillWindow_evolves fun _ h => .ite (fun _ => .ok (.needMore h)) fun _ =>
    .ite (fun _ => .ok (.exitLoop h)) fun _ => .ok (.go h)) fun _ => .ok (.go (.refl _))

theorem Deflate.insertHere_evolves (d : Deflate) (hashHead : Nat) :
    Returns (d.insertHere hashHead) fun r => d.Evolves r.2 :=
  .ite (fun _ => .bind (d.insertString_evolves _) fun ⟨_, _⟩ h => .ok h) fun _ => .ok (.refl d)

/-! ## DeflateFast (R694, R695) -/

theorem insertInside_evolves (n hashHead : Nat) (d : Deflate) :
    Returns (insertInside n hashHead d) fun r => d.Evolves r.2 := by
  induction n generalizing hashHead d with
  | zero => exact .ok (.refl d)
  | succ n ih =>
    have hd : d.Evolves { d with strstart := d.strstart + 1 } := ⟨rfl, fun h => { h with }⟩
    exact .bind ((Deflate.insertString_evolves _ _).after hd) fun ⟨_, d'⟩ h => (ih _ d').after h

theorem Deflate.fastMatch_evolves (d : Deflate) (hashHead : Nat) :
    Returns (d.fastMatch hashHead) fun r => d.Evolves r.2.2 := by
  refine .bind (d.tally_evolves _ _) fun ⟨bflush, d₁⟩ h₁ => .ite (fun _ => ?_) fun _ => ?_
  · exact .bind ((insertInside_evolves _ _ _).after (h₁.trans ⟨rfl, fun h => { h with }⟩)) fun ⟨hashHead, d₂⟩ h₂ =>
      .ok (h₂.trans ⟨rfl, fun h => { h with }⟩)
  · exact .bind ((Deflate.hashInit_evolves _).after (h₁.trans ⟨rfl, fun h => { h with }⟩)) fun d₂ h₂ => .ok h₂

theorem Deflate.fastLiteral_evolves (d : Deflate) : Returns d.fastLiteral fun r => d.Evolves r.2 :=
  .skip fun b => .bind (d.tally_evolves 0 b) fun ⟨_, _⟩ h => .ok (h.trans ⟨rfl, fun h => { h with }⟩)

theorem Deflate.fastRound_evolves (d : Deflate) (hashHead : Nat) :
    Returns (d.fastRound hashHead) fun r => d.Evolves r.2.2 := by
  refine .bind (d.insertHere_evolves hashHead) fun ⟨hashHead, d₁⟩ h₁ => ?_
  refine .ite (fun _ => .bind ((d₁.longestMatch_evolves _).after h₁) fun ⟨len, d₂⟩ h₂ =>
    .bind (P := d.Evolves) (.ok (h₂.trans ⟨rfl, fun h => { h with }⟩)) ?_) fun _ => .bind (P := d.Evolves) (.ok h₁) ?_
  all_goals
    exact fun d₃ h₃ => .ite (fun _ => (d₃.fastMatch_evolves hashHead).after h₃) fun _ =>
      .bind (d₃.fastLiteral_evolves.after h₃) fun ⟨_, _⟩ h₄ => .ok h₄

theorem fastLoop_evolves {flush : Flush} {d : Deflate} (fuel hashHead : Nat) {c : Enc} (hc : d.Evolves c.u) :
    Returns (fastLoop flush fuel hashHead c) fun r => d.Evolves r.2.u := by
  induction fuel generalizing hashHead c with
  | zero => exact .error _
  | succ fuel ih =>
    refine .bind (c.loopHead_evolves flush) fun head hhead => ?_
    cases hhead with
    | needMore h => exact .ok (hc.trans h)
    | exitLoop h => exact (Enc.endStrategy_evolves _ flush).after (hc.trans h)
    | go h =>
      refine .bind ((Deflate.fastRound_evolves _ hashHead).after (hc.trans h)) fun ⟨bflush, hashHead, d₁⟩ h₁ => ?_
      refine .ite (fun _ => ?_) fun _ => ih _ h₁
      exact .bind ((Enc.flushBlockOnly_evolves _ false).after h₁) fun c₂ h₂ => .ite (fun _ => .ok h₂) fun _ => ih _ h₂

/-! ## DeflateSlow (R700) -/

theorem insertHeld_evolves (maxInsert : Int) (n hashHead : Nat) (d : Deflate) :
    Returns (insertHeld maxInsert n hashHead d) fun r => d.Evolves r.2 := by
  induction n generalizing hashHead d with
  | zero => exact .ok (.refl d)
  | succ n ih =>
    have hd : d.Evolves { d with strstart := d.strstart + 1 } := ⟨rfl, fun h => { h with }⟩
    refine .ite (fun _ => ?_) fun _ => (ih _ _).after hd
    exact .bind ((Deflate.insertString_evolves _ _).after hd) fun ⟨_, d'⟩ h => (ih _ d').after h

theorem Deflate.slowSearch_evolves (d : Deflate) (hashHead : Nat) :
    Returns (d.slowSearch hashHead) fun r => d.Evolves r.2 := by
  refine .bind (d.insertHere_evolves hashHead) fun ⟨hashHead, d₁⟩ h₁ => ?_
  refine .ite (fun _ => ?_) fun _ => .ok (h₁.trans ⟨rfl, fun h => { h with }⟩)
  exact .bind ((Deflate.longestMatch_evolves _ _).after (h₁.trans ⟨rfl, fun h => { h with }⟩)) fun ⟨len, d₂⟩ h₂ =>
    .ok (h₂.trans ⟨rfl, fun h => { h with }⟩)

theorem Deflate.slowMatch_evolves (d : Deflate) (hashHead : Nat) :
    Returns (d.slowMatch hashHead) fun r => d.Evolves r.2.2 := by
  refine .bind (d.tally_evolves _ _) fun ⟨bflush, d₁⟩ h₁ => ?_
  exact .bind ((insertHeld_evolves _ _ _ _).after (h₁.trans ⟨rfl, fun h => { h with }⟩)) fun ⟨hashHead, d₂⟩ h₂ =>
    .ok (h₂.trans ⟨rfl, fun h => { h with }⟩)

theorem Deflate.tallyHeld_evolves (d : Deflate) : Returns d.tallyHeld fun r => d.Evolves r.2 :=
  .skip fun b => d.tally_evolves 0 b

theorem Deflate.advance_evolves (d : Deflate) : d.Evolves d.advance := ⟨rfl, fun h => { h with }⟩

theorem Enc.slowEnd_evolves (c : Enc) (flush : Flush) : Returns (c.slowEnd flush) fun r => c.u.Evolves r.2.u := by
  refine .ite (fun _ => ?_) fun _ => c.endStrategy_evolves flush
  exact .bind c.u.tallyHeld_evolves fun ⟨_, d⟩ h =>
    (Enc.endStrategy_evolves _ flush).after (h.trans ⟨rfl, fun h => { h with }⟩)

theorem slowLoop_evolves {flush : Flush} {d : Deflate} (fuel hashHead : Nat) {c : Enc} (hc : d.Evolves c.u) :
    Returns (slowLoop flush fuel hashHead c) fun r => d.Evolves r.2.u := by
  induction fuel generalizing hashHead c with
  | zero => exact .error _
  | succ fuel ih =>
    refine .bind (c.loopHead_evolves flush) fun head hhead => ?_
    cases hhead with
    | needMore h => exact .ok (hc.trans h)
    | exitLoop h => exact (Enc.slowEnd_evolves _ flush).after (hc.trans h)
    | go h =>
      refine .bind ((Deflate.slowSearch_evolves _ hashHead).after (hc.trans h)) fun ⟨hashHead, d₁⟩ h₁ => ?_
      refine .ite (fun _ => ?_) fun _ => .ite (fun _ => ?_) fun _ => ?_
      · refine .bind ((d₁.slowMatch_evolves hashHead).after h₁) fun ⟨bflush, hashHead, d₂⟩ h₂ => ?_
        refine .ite (fun _ => ?_) fun _ => ih _ h₂
        exact .bind ((Enc.flushBlockOnly_evolves _ false).after h₂) fun c₃ h₃ => .ite (fun _ => .ok h₃) fun _ => ih _ h₃
      · refine .bind (d₁.tallyHeld_evolves.after h₁) fun ⟨bflush, d₂⟩ h₂ => ?_
        refine .join (fun _ => (Enc.flushBlockOnly_evolves _ false).after h₂) (fun _ => .ok h₂) fun c₃ h₃ => ?_
        have h₄ := h₃.trans c₃.u.advance_evolves
        exact .ite (fun _ => .ok h₄) fun _ => ih _ h₄
      · exact ih _ (h₁.trans ⟨rfl, fun h => { h with }⟩)

/-! ## DeflateStored (R710) -/

theorem Enc.flushIf_evolves (c : Enc) (cond : Bool) : Returns (c.flushIf cond) fun r => c.u.Evolves r.2.u :=
  .ite (fun _ => .bind (c.flushBlockOnly_evolves false) fun _ h => .ok h) fun _ => .ok (.refl _)

theorem Deflate.cutBlock_evolves (d : Deflate) : d.Evolves d.cutBlock := ⟨rfl, fun h => { h with }⟩

theorem storedLoop_evolves {flush : Flush} {d : Deflate} (fuel : Nat) {c : Enc} (hc : d.Evolves c.u) :
    Returns (storedLoop flush fuel c) fun r => d.Evolves r.2.u := by
  induction fuel generalizing c with
  | zero => exact .error _
  | succ fuel ih =>
    refine .join (fun _ => c.fillWindow_evolves.after hc) (fun _ => .ok hc) fun c₁ h₁ => ?_
    refine .ite (fun _ => .ok h₁) fun _ => .ite (fun _ => (c₁.endStrategy_evolves flush).after h₁) fun _ => ?_
    have htake : d.Evolves { c₁.u with strstart := c₁.u.strstart + c₁.u.lookahead, lookahead := 0 } :=
      h₁.trans ⟨rfl, fun h => { h with }⟩
    refine .bind ((Enc.flushIf_evolves _ _).after ?_) fun ⟨stop, c₂⟩ h₂ => .ite (fun _ => .ok h₂) fun _ => ?_
    · split
      · exact htake.trans (Deflate.cutBlock_evolves _)
      · exact htake
    · exact .bind ((c₂.flushIf_evolves _).after h₂) fun ⟨stop, c₃⟩ h₃ => .ite (fun _ => .ok h₃) fun _ => ih h₃

/-! ## The step command (R680) -/

theorem Enc.compress_evolves (c : Enc) (flush : Flush) : Returns (c.compress flush) fun r => c.u.Evolves r.2.u := by
  unfold Enc.compress
  split
  · exact storedLoop_evolves _ (.refl _)
  · exact fastLoop_evolves _ _ (.refl _)
  · exact slowLoop_evolves _ _ (.refl _)

theorem Deflate.flushMarker_evolves (d : Deflate) (flush : Flush) : Returns (d.flushMarker flush) d.Evolves := by
  refine .bind (d.storedBlock_evolves 0 0 false) fun d' h => .ok ?_
  split
  · exact h.trans ⟨rfl, fun h => { h with head := Cells.wf_nil 0 }⟩
  · exact h

section
variable {d : Deflate} {c : Enc} (hc : d.Evolves c.u)
include hc

theorem Enc.endsOk_leaves : c.endsOk.Leaves d.Evolves := by
  unfold Enc.endsOk
  split
  · exact .done (hc.trans ⟨rfl, fun h => { h with }⟩)
  · exact .done hc

theorem Enc.afterCompress_leaves (flush : Flush) (b : BState) : (c.afterCompress flush b).Leaves d.Evolves := by
  cases b with
  | needMore => exact Enc.endsOk_leaves hc
  | finishStarted => exact Enc.endsOk_leaves (hc.trans ⟨rfl, fun h => { h with }⟩)
  | finishDone => exact .done (hc.trans ⟨rfl, fun h => { h with }⟩)
  | blockDone =>
    have hmark : Returns (c.onUnits (c.u.flushMarker flush)) fun c' => d.Evolves c'.u :=
      .bind ((c.u.flushMarker_evolves flush).after hc) fun _ h => .ok h
    refine Reply.ofExcept_leaves hmark fun c₁ h₁ => ?_
    have h₂ := h₁.trans c₁.flushPending_evolves
    simp only
    split
    · exact Enc.endsOk_leaves h₂
    · exact .done h₂

theorem Enc.stepAccepted_leaves (flush : Flush) : (c.stepAccepted flush).Leaves d.Evolves := by
  have haccept : d.Evolves (c.u.accept flush) := hc.trans ⟨rfl, fun h => { h with }⟩
  unfold Enc.stepAccepted
  simp only
  generalize hc₁ : (if (c.u.accept flush).pending ≠ [] then Enc.flushPending { c with u := c.u.accept flush }
    else { c with u := c.u.accept flush }) = c₁
  have h₁ : d.Evolves c₁.u := by
    rw [← hc₁]
    split
    · exact haccept.trans (Enc.flushPending_evolves { c with u := c.u.accept flush })
    · exact haccept
  split
  · exact Enc.endsOk_leaves h₁
  · split
    · exact Reply.ofExcept_leaves ((c₁.compress_evolves flush).after h₁) fun r h₂ =>
        Enc.afterCompress_leaves h₂ flush r.1
    · exact .done h₁

end

theorem Enc.step_leaves (c : Enc) (code : BitVec 3) : (c.step code).Leaves c.u.Evolves := by
  unfold Enc.step
  split
  · exact .failed (.refl _)
  · split
    · exact .failed (.refl _)
    · split
      · exact .failed (.refl _)
      · split
        · exact .transient
        · split
          · exact .transient
          · exact Enc.stepAccepted_leaves (.refl _) _

end Sys2Proof.Machine

/-! # The commands

Every command but a legal reset takes the units it runs on to units they may evolve into, and leaves the configuration
registers and every codec it does not address as they are. -/

namespace Sys2Proof.Machine

/-! ## One codec -/

/-- The configuration registers (R52). -/
def Regs.config (r : Regs) : Word × Word × Word × Word × Word × Word :=
  (r.cfgKind, r.cfgWbits, r.cfgLevel, r.cfgStrategy, r.cfgDict, r.cfgDictSum)

/-- A command may lead from one engine to the other: the kind stays, and the units evolve. -/
inductive Engine.Evolves : Engine → Engine → Prop
  | unset : Engine.Evolves .unset .unset
  | inflate {d d' : Inflate} (h : d.Evolves d') : Engine.Evolves (.inflate d) (.inflate d')
  | deflate {d d' : Deflate} (h : d.Evolves d') : Engine.Evolves (.deflate d) (.deflate d')

theorem Engine.Evolves.refl (e : Engine) : e.Evolves e := by
  cases e with
  | unset => exact .unset
  | inflate d => exact .inflate (.refl d)
  | deflate d => exact .deflate (.refl d)

theorem Engine.Evolves.failed {e e' : Engine} (h : e.Evolves e') : e.Evolves e'.failed := by
  cases h with
  | unset => exact .unset
  | inflate h => exact .inflate (h.trans ⟨rfl, fun hd => { hd with }⟩)
  | deflate h => exact .deflate h

/-- A command may lead from one codec to the other: the configuration registers stay, and the units evolve. -/
structure Codec.Evolves (c c' : Codec) : Prop where
  config : c'.regs.config = c.regs.config
  status : c'.regs.status.toNat < 256
  engine : c.engine.Evolves c'.engine

theorem Inflate.Evolves.wbits {d d' : Inflate} (h : d.Evolves d') : d'.sw.wbits = d.sw.wbits :=
  congrArg Prod.fst h.config

theorem Deflate.Evolves.dwbits {d d' : Deflate} (h : d.Evolves d') : d'.dwbits = d.dwbits := congrArg Prod.fst h.config

theorem Deflate.Evolves.level {d d' : Deflate} (h : d.Evolves d') : d'.level = d.level :=
  congrArg (fun c => c.2.1) h.config

theorem Codec.Evolves.ok {c c' : Codec} (h : c.Evolves c') (hc : c.Ok) : c'.Ok := by
  obtain ⟨regs, err, engine⟩ := c
  obtain ⟨regs', err', engine'⟩ := c'
  obtain ⟨hconfig, hstatus, hengine⟩ := h
  obtain ⟨-, hunits⟩ := hc
  simp only [Regs.config, Prod.mk.injEq] at hconfig
  obtain ⟨hkind, hwbits, hlevel, -⟩ := hconfig
  refine ⟨hstatus, ?_⟩
  cases hengine with
  | unset => simpa only [hkind, hwbits, hlevel] using hunits
  | inflate hd =>
    obtain ⟨hok, hregs⟩ := hunits
    exact ⟨hd.ok hok, by simpa only [hkind, hwbits, hlevel, hd.wbits] using hregs⟩
  | deflate hd =>
    obtain ⟨hok, hregs⟩ := hunits
    exact ⟨hd.ok hok, by simpa only [hkind, hwbits, hlevel, hd.dwbits, hd.level] using hregs⟩

theorem Status.word_lt (st : Status) : st.word.toNat < 256 := by cases st <;> decide

theorem Latch.word_lt (e : Latch) : e.word.toNat < 256 := by rcases e with r | r <;> cases r <;> decide

/-! ## The ends of a command -/

/-- A command that installs no new units may lead from `s` to `t`. -/
structure State.Evolves (s t : State) : Prop where
  codec : s.codec.Evolves t.codec
  target : t.target = s.target
  parked : t.parked = s.parked

section
variable {s t : State}

theorem State.Evolves.inv (h : s.Evolves t) (hs : s.Inv) : t.Inv where
  codec := h.codec.ok hs.codec
  parked := by rw [h.parked]; exact hs.parked
  canonical := by rw [h.parked]; exact hs.canonical
  apart := by rw [h.parked, h.target]; exact hs.apart

theorem State.evolves_raiseAtOnce (s : State) (r : StreamReason) : s.Evolves (s.raiseAtOnce r) :=
  ⟨⟨rfl, Latch.word_lt _, (Engine.Evolves.refl _).failed⟩, rfl, rfl⟩

theorem State.evolves_answerLatched (s : State) (e : Latch) : s.Evolves (s.answerLatched e) :=
  ⟨⟨rfl, Latch.word_lt _, .refl _⟩, rfl, rfl⟩

theorem State.evolves_refuseReset (s : State) : s.Evolves s.refuseReset :=
  ⟨⟨rfl, Latch.word_lt _, .refl _⟩, rfl, rfl⟩

theorem State.commit_evolves {σ : Type} {wrap : σ → Engine} {reply : Reply σ} {P : σ → Prop} (hr : reply.Leaves P)
    (hw : ∀ u, P u → s.codec.engine.Evolves (wrap u)) (h : s.commit wrap reply = .next t) : s.Evolves t := by
  cases hr with
  | done hu => cases h; exact ⟨⟨rfl, Status.word_lt _, hw _ hu⟩, rfl, rfl⟩
  | transient => cases h; exact ⟨⟨rfl, Status.word_lt _, .refl _⟩, rfl, rfl⟩
  | raised hu => cases h; exact ⟨⟨rfl, Latch.word_lt _, (hw _ hu).failed⟩, rfl, rfl⟩
  | failed hu => cases h; exact ⟨⟨rfl, Latch.word_lt _, (hw _ hu).failed⟩, rfl, rfl⟩
  | fault => cases h

theorem State.inflateCommand_evolves {legal : Bool} {body : Inflate → Port → Reply Inflate}
    (h : s.inflateCommand legal body = .next t) (hb : legal = true → ∀ d p, (body d p).Leaves d.Evolves) :
    s.Evolves t := by
  obtain ⟨e, -, rfl⟩ | ⟨-, -, rfl⟩ | ⟨d, -, -, rfl⟩ | ⟨d, hd, hl, hc⟩ := State.inflateCommand_next h
  · exact s.evolves_answerLatched e
  · exact s.evolves_raiseAtOnce _
  · exact s.evolves_raiseAtOnce _
  · exact State.commit_evolves (hb hl d _) (fun u hu => by rw [hd.2]; exact .inflate hu) hc

theorem State.deflateCommand_evolves {legal : Bool} {body : Deflate → Port → Reply Deflate}
    (h : s.deflateCommand legal body = .next t) (hb : legal = true → ∀ d p, (body d p).Leaves d.Evolves) :
    s.Evolves t := by
  obtain ⟨e, -, rfl⟩ | ⟨-, -, rfl⟩ | ⟨d, -, -, rfl⟩ | ⟨d, hd, hl, hc⟩ := State.deflateCommand_next h
  · exact s.evolves_answerLatched e
  · exact s.evolves_raiseAtOnce _
  · exact s.evolves_raiseAtOnce _
  · exact State.commit_evolves (hb hl d _) (fun u hu => by rw [hd.2]; exact .deflate hu) hc

theorem State.refuseDecode_evolves {e : DecodeError} (h : s.refuseDecode e = .next t) : s.Evolves t := by
  cases e with
  | unknown =>
    simp only [State.refuseDecode] at h
    split at h <;> cases h
    · exact s.evolves_answerLatched _
    · exact s.evolves_raiseAtOnce _
  | reserved i =>
    simp only [State.refuseDecode] at h
    split at h
    · cases h; exact s.evolves_refuseReset
    · exact State.inflateCommand_evolves h fun hl => by cases hl
    · exact State.deflateCommand_evolves h fun hl => by cases hl

end

/-! ## The commands -/

section
variable {s t : State}

/-- A bit cursor command answers once its bits are pulled, or ends for want of bits (R217). -/
theorem Dec.afterPull_leaves {d : Inflate} {p : Port} {n : Nat} {r : Reply Inflate}
    (hr : d.Evolves (Dec.pull ⟨d, p⟩ n).u → r.Leaves d.Evolves) :
    (if (Dec.pull ⟨d, p⟩ n).has n then r else (Dec.pull ⟨d, p⟩ n).needMore).Leaves d.Evolves := by
  have hp : d.Evolves (Dec.pull ⟨d, p⟩ n).u := (Dec.pull_pulls ⟨d, p⟩ n).toEvolves
  split
  · exact hr hp
  · exact .done hp

theorem execInfStep_evolves (h : execInfStep s = .next t) : s.Evolves t :=
  State.inflateCommand_evolves h fun _ d p => inflateStep_evolves ⟨d, p⟩

theorem execInfSetDict_evolves (h : execInfSetDict s = .next t) : s.Evolves t :=
  State.inflateCommand_evolves h fun _ d p => by
    split
    · exact .failed (.refl d)
    · simp only
      split
      · exact .failed (.refl d)
      · exact .done ((d.seed_evolves p.input).trans ⟨rfl, fun h => { h with }⟩)

theorem execBcrNeed_evolves {n : BitVec 5} (h : execBcrNeed n s = .next t) : s.Evolves t :=
  State.inflateCommand_evolves h fun _ _ _ => Dec.afterPull_leaves fun hp => .done hp

theorem execBcrPeek_evolves {n : BitVec 5} (h : execBcrPeek n s = .next t) : s.Evolves t :=
  State.inflateCommand_evolves h fun _ _ _ => Dec.afterPull_leaves fun hp => .done hp

theorem execBcrDrop_evolves {n : BitVec 5} (h : execBcrDrop n s = .next t) : s.Evolves t :=
  State.inflateCommand_evolves h fun _ _ _ => Dec.afterPull_leaves fun hp => .done (hp.trans (Dec.drop_evolves _ _))

theorem execBcrGet_evolves {n : BitVec 5} (h : execBcrGet n s = .next t) : s.Evolves t :=
  State.inflateCommand_evolves h fun _ _ _ => Dec.afterPull_leaves fun hp => .done (hp.trans (Dec.drop_evolves _ _))

theorem execBcrAlign_evolves (h : execBcrAlign s = .next t) : s.Evolves t :=
  State.inflateCommand_evolves h fun _ d p => .done (Dec.align_evolves ⟨d, p⟩)

theorem execBcrByte_evolves (h : execBcrByte s = .next t) : s.Evolves t :=
  State.inflateCommand_evolves h fun _ _ _ => Dec.afterPull_leaves fun hp => .done (hp.trans (Dec.drop_evolves _ _))

theorem execSwbPut_evolves {b : Byte} (h : execSwbPut b s = .next t) : s.Evolves t :=
  State.inflateCommand_evolves h fun _ d _ => by
    split
    · exact .done (.refl d)
    · next hf => exact .done (Inflate.put_evolves hf b)

theorem execSwbCopy_evolves {len : BitVec 9} {dist : Word} (h : execSwbCopy len dist s = .next t) : s.Evolves t :=
  State.inflateCommand_evolves h fun _ d _ => by
    split
    · exact .done (.refl d)
    · exact .done (Inflate.evolves_of_window (SlidingWindow.copy_wbits _ _ _) fun hw =>
        (SlidingWindow.copy_ok _ _ hw).1)

theorem execSwbDrain_evolves (h : execSwbDrain s = .next t) : s.Evolves t :=
  State.inflateCommand_evolves h fun _ d p => .done (Dec.winDrain_evolves ⟨d, p⟩)

theorem execSwbSeed_evolves (h : execSwbSeed s = .next t) : s.Evolves t :=
  State.inflateCommand_evolves h fun _ d p => by
    split
    · exact .raised (.refl d)
    · exact .done (d.seed_evolves p.input)

theorem execHdtBuild_evolves {kind : BitVec 2} {n : BitVec 9} (h : execHdtBuild kind n s = .next t) : s.Evolves t :=
  State.inflateCommand_evolves h fun _ d p => by
    simp only
    split
    · exact .raised (.refl d)
    · exact Reply.ofExcept_leaves (buildTable_evolves d _ _) fun ⟨_, _, _⟩ hb =>
        .done (hb.trans (Inflate.setRef_evolves _ _ _))

theorem execHdtFixed_evolves (h : execHdtFixed s = .next t) : s.Evolves t :=
  State.inflateCommand_evolves h fun _ _ _ => .done ⟨rfl, fun h => { h with }⟩

theorem execHdtDecode_evolves {table : BitVec 2} (h : execHdtDecode table s = .next t) : s.Evolves t :=
  State.inflateCommand_evolves h fun _ d p => by
    split
    · exact .raised (.refl d)
    · next r _ =>
      refine Reply.ofExcept_leaves (Dec.decodeSym_pulls ⟨d, p⟩ r) fun ⟨e?, c⟩ hc => ?_
      cases e? with
      | none => exact .done hc.toEvolves
      | some e => exact .done hc.toEvolves

/-- The encoder's commands that run one operation on the units and answer. -/
theorem Deflate.answer_leaves {α : Type} {d : Deflate} {x : Except Fault α} {g : α → Deflate} {p : α → Port}
    {r0 r1 : α → Word} (hx : Returns x fun a => d.Evolves (g a)) :
    (Reply.ofExcept x fun a => (g a).answer (p a) (r0 a) (r1 a)).Leaves d.Evolves :=
  Reply.ofExcept_leaves hx fun _ h => .done h

theorem execDefStep_evolves {flush : BitVec 3} (h : execDefStep flush s = .next t) : s.Evolves t :=
  State.deflateCommand_evolves h fun _ d p => Enc.step_leaves ⟨d, p⟩ flush

theorem execDefSetDict_evolves (h : execDefSetDict s = .next t) : s.Evolves t :=
  State.deflateCommand_evolves h fun _ d p => by
    split
    · exact .failed (.refl d)
    · exact Reply.ofExcept_leaves (d.dictSeed_evolves p.input) fun ⟨_, _⟩ h =>
        .done (h.trans ⟨rfl, fun h => { h with }⟩)

/-- `BCW.PUT` sends at most 16 bits, because its operands are legal (R206). -/
theorem execBcwPut_evolves {n : BitVec 5} {value : Half} (h : execBcwPut n value s = .next t) : s.Evolves t :=
  State.deflateCommand_evolves h fun hl d _ => by
    have hn : n.toNat ≤ 16 := by
      simp only [operandsLegal, Instr.wellFormed, Bool.and_eq_true, decide_eq_true_eq] at hl
      exact hl.1.2
    exact Deflate.answer_leaves (d.sendBits_evolves value fun _ => hn)

theorem execBcwPutByte_evolves {b : Byte} (h : execBcwPutByte b s = .next t) : s.Evolves t :=
  State.deflateCommand_evolves h fun _ d _ => Deflate.answer_leaves (d.putByte_evolves b)

theorem execBcwPutShort_evolves {w : Half} (h : execBcwPutShort w s = .next t) : s.Evolves t :=
  State.deflateCommand_evolves h fun _ d _ => Deflate.answer_leaves (d.putShort_evolves w)

theorem execBcwWindup_evolves (h : execBcwWindup s = .next t) : s.Evolves t :=
  State.deflateCommand_evolves h fun _ d _ => Deflate.answer_leaves d.windup_evolves

theorem execBcwFlush_evolves (h : execBcwFlush s = .next t) : s.Evolves t :=
  State.deflateCommand_evolves h fun _ d _ => Deflate.answer_leaves d.flushBits_evolves

theorem execBcwDrain_evolves (h : execBcwDrain s = .next t) : s.Evolves t :=
  State.deflateCommand_evolves h fun _ d p => .done (Enc.flushPending_evolves ⟨d, p⟩)

theorem execSwbFill_evolves (h : execSwbFill s = .next t) : s.Evolves t :=
  State.deflateCommand_evolves h fun _ d p => Deflate.answer_leaves (Enc.fillWindow_evolves ⟨d, p⟩)

theorem execSwbSlide_evolves (h : execSwbSlide s = .next t) : s.Evolves t :=
  State.deflateCommand_evolves h fun _ d _ => by
    split
    · exact .raised (.refl d)
    · exact .done d.slide_evolves

theorem execSwbDseed_evolves (h : execSwbDseed s = .next t) : s.Evolves t :=
  State.deflateCommand_evolves h fun _ d p => by
    split
    · exact .raised (.refl d)
    · exact Deflate.answer_leaves (d.dictSeed_evolves p.input)

theorem execMfHashInit_evolves (h : execMfHashInit s = .next t) : s.Evolves t :=
  State.deflateCommand_evolves h fun _ d _ => Deflate.answer_leaves d.hashInit_evolves

theorem execMfInsert_evolves {pos : Word} (h : execMfInsert pos s = .next t) : s.Evolves t :=
  State.deflateCommand_evolves h fun _ d _ => by
    split
    · exact .raised (.refl d)
    · exact Deflate.answer_leaves (d.insertString_evolves _)

theorem execMfLongest_evolves {m : Word} (h : execMfLongest m s = .next t) : s.Evolves t :=
  State.deflateCommand_evolves h fun _ d _ => by
    split
    · exact .raised (.refl d)
    · exact Deflate.answer_leaves (d.longestMatch_evolves _)

theorem execTbInitBlock_evolves (h : execTbInitBlock s = .next t) : s.Evolves t :=
  State.deflateCommand_evolves h fun _ d _ => .done d.initBlock_evolves

theorem execTbTally_evolves {lc : Byte} {dist : Word} (h : execTbTally lc dist s = .next t) : s.Evolves t :=
  State.deflateCommand_evolves h fun _ d _ => by
    split
    · exact .raised (.refl d)
    · exact Deflate.answer_leaves (d.tally_evolves _ lc)

theorem execTbBuild_evolves {desc : BitVec 2} (h : execTbBuild desc s = .next t) : s.Evolves t :=
  State.deflateCommand_evolves h fun _ d _ => Deflate.answer_leaves (d.buildTree_evolves _)

theorem execTbGenBitlen_evolves {desc : BitVec 2} (h : execTbGenBitlen desc s = .next t) : s.Evolves t :=
  State.deflateCommand_evolves h fun _ _ _ =>
    Deflate.answer_leaves (.mono (.of_imp genBitlen_ok) fun _ hf => Deflate.plant_evolves hf)

theorem execTbGenCodes_evolves {desc : BitVec 2} (h : execTbGenCodes desc s = .next t) : s.Evolves t :=
  State.deflateCommand_evolves h fun _ _ _ => Reply.ofExcept_leaves (.any _) fun _ _ =>
    Deflate.answer_leaves (.mono (.of_imp genCodes_ok) fun _ hf => Deflate.plant_evolves hf)

theorem execTbScan_evolves {desc : BitVec 2} (h : execTbScan desc s = .next t) : s.Evolves t :=
  State.deflateCommand_evolves h fun _ d _ => Reply.ofExcept_leaves (.any _) fun _ _ =>
    Deflate.answer_leaves (d.scanTree_evolves _ _)

theorem execTbBlTree_evolves (h : execTbBlTree s = .next t) : s.Evolves t :=
  State.deflateCommand_evolves h fun _ d _ => Deflate.answer_leaves d.buildBlTree_evolves

theorem execTbSendTree_evolves {desc : BitVec 2} (h : execTbSendTree desc s = .next t) : s.Evolves t :=
  State.deflateCommand_evolves h fun _ d _ => Reply.ofExcept_leaves (.any _) fun _ _ =>
    Deflate.answer_leaves (d.sendTree_evolves _ _)

theorem execTbSendAll_evolves {lcodes : BitVec 9} {dcodes blcodes : BitVec 5}
    (h : execTbSendAll lcodes dcodes blcodes s = .next t) : s.Evolves t :=
  State.deflateCommand_evolves h fun _ d _ => Deflate.answer_leaves (d.sendAllTrees_evolves _ _ _)

theorem execTbCompress_evolves {dynamic : BitVec 1} (h : execTbCompress dynamic s = .next t) : s.Evolves t :=
  State.deflateCommand_evolves h fun _ d _ => Deflate.answer_leaves (d.compressBlock_evolves _)

theorem execTbStored_evolves {eof : BitVec 1} {buf len : Half} (h : execTbStored eof buf len s = .next t) :
    s.Evolves t :=
  State.deflateCommand_evolves h fun _ d _ => by
    split
    · exact .raised (.refl d)
    · exact Deflate.answer_leaves (d.storedBlock_evolves _ _ _)

theorem execTbFlushBlock_evolves {eof : BitVec 1} (h : execTbFlushBlock eof s = .next t) : s.Evolves t :=
  State.deflateCommand_evolves h fun _ d _ => Deflate.answer_leaves (d.flushBlock_evolves _)

/-- What every command but a reset may do to the machine. -/
theorem exec_evolves {i : Instr} (ho : owner i ≠ .reset) (h : exec i s = .next t) : s.Evolves t := by
  cases i with
  | infReset wbits hasDict dictSum => exact absurd rfl ho
  | infStep => exact execInfStep_evolves h
  | infSetDict => exact execInfSetDict_evolves h
  | defReset wbits level strategy => exact absurd rfl ho
  | defStep flush => exact execDefStep_evolves h
  | defSetDict => exact execDefSetDict_evolves h
  | bcrNeed n => exact execBcrNeed_evolves h
  | bcrPeek n => exact execBcrPeek_evolves h
  | bcrDrop n => exact execBcrDrop_evolves h
  | bcrGet n => exact execBcrGet_evolves h
  | bcrAlign => exact execBcrAlign_evolves h
  | bcrByte => exact execBcrByte_evolves h
  | bcwPut n value => exact execBcwPut_evolves h
  | bcwPutByte b => exact execBcwPutByte_evolves h
  | bcwPutShort w => exact execBcwPutShort_evolves h
  | bcwWindup => exact execBcwWindup_evolves h
  | bcwFlush => exact execBcwFlush_evolves h
  | bcwDrain => exact execBcwDrain_evolves h
  | swbPut b => exact execSwbPut_evolves h
  | swbCopy len dist => exact execSwbCopy_evolves h
  | swbDrain => exact execSwbDrain_evolves h
  | swbSeed => exact execSwbSeed_evolves h
  | swbFill => exact execSwbFill_evolves h
  | swbSlide => exact execSwbSlide_evolves h
  | swbDseed => exact execSwbDseed_evolves h
  | hdtBuild kind n => exact execHdtBuild_evolves h
  | hdtFixed => exact execHdtFixed_evolves h
  | hdtDecode table => exact execHdtDecode_evolves h
  | mfHashInit => exact execMfHashInit_evolves h
  | mfInsert pos => exact execMfInsert_evolves h
  | mfLongest curMatch => exact execMfLongest_evolves h
  | tbInitBlock => exact execTbInitBlock_evolves h
  | tbTally lc dist => exact execTbTally_evolves h
  | tbBuild desc => exact execTbBuild_evolves h
  | tbGenBitlen desc => exact execTbGenBitlen_evolves h
  | tbGenCodes desc => exact execTbGenCodes_evolves h
  | tbScan desc => exact execTbScan_evolves h
  | tbBlTree => exact execTbBlTree_evolves h
  | tbSendTree desc => exact execTbSendTree_evolves h
  | tbSendAll lcodes dcodes blcodes => exact execTbSendAll_evolves h
  | tbCompress dynamic => exact execTbCompress_evolves h
  | tbStored eof buf len => exact execTbStored_evolves h
  | tbFlushBlock eof => exact execTbFlushBlock_evolves h

end

end Sys2Proof.Machine

/-! # The machine

A legal reset installs units in bounds, taking a command keeps the invariant, and so does a step. The obligations on the
state (spec/10_state.md) follow. -/

namespace Sys2Proof.Machine

/-! ## The resets (R800, R801) -/

theorem Inflate.fresh_ok {wbits : Nat} (hlow : 8 ≤ wbits) (hhigh : wbits ≤ 15) (hasDict : Bool) (dictSum : Word) :
    (Inflate.fresh wbits hasDict dictSum).Ok where
  cursor := Nat.zero_lt_one
  window :=
    { wbits_low := hlow
      wbits_high := hhigh
      cursor := Nat.two_pow_pos _
      undelivered := le_refl 0
      whave := Nat.zero_le _
      canonical := Memory.wf_nil
      inside := Cells.below_nil _ }
  tables := ⟨.nil, .nil, .nil, .nil, .nil⟩
  cl := Cells.wf_nil 0
  lens := Cells.wf_nil 0

theorem levelRow_niceMatch_le (level : Nat) : (levelRow level).niceMatch ≤ Config.maxMatch := by
  unfold levelRow
  split <;> decide

theorem Tree.fresh_ok : Tree.fresh.Ok := ⟨fun _ h => (nomatch h), Cells.wf_nil 0, .nil, .nil, .nil⟩

theorem Deflate.blank_ok {wbits : Nat} (hlow : 9 ≤ wbits) (hhigh : wbits ≤ 15) (level : Nat) :
    (Deflate.blank wbits level).Ok where
  wbits_low := hlow
  wbits_high := hhigh
  writer := Nat.zero_le _
  pending := Nat.zero_le _
  window := Memory.wf_nil
  inside := Cells.below_nil _
  head := Cells.wf_nil 0
  prev := Cells.wf_nil 0
  tokens := Nat.zero_le _
  lBuf := .nil
  dBuf := .nil
  ld := Tree.fresh_ok
  dd := Tree.fresh_ok
  bd := Tree.fresh_ok
  tb := ⟨.nil, .nil, .nil⟩
  nice := levelRow_niceMatch_le level

/-- A four-bit operand in a configuration register. -/
theorem toNat_ofNat_four (b : BitVec 4) : (BitVec.ofNat 32 b.toNat).toNat = b.toNat := by
  have := b.isLt
  rw [BitVec.toNat_ofNat]
  omega

theorem Codec.freshInflate_ok {wbits : BitVec 4} (hlow : 8 ≤ wbits.toNat) (hasDict : Nat) (dictSum : Word) :
    (Codec.freshInflate wbits.toNat hasDict dictSum).Ok :=
  ⟨Nat.zero_lt_succ _, Inflate.fresh_ok hlow (by have := wbits.isLt; omega) _ _, rfl, toNat_ofNat_four wbits, rfl⟩

theorem Codec.freshDeflate_ok {wbits : BitVec 4} (hlow : 9 ≤ wbits.toNat) (level : BitVec 4) :
    (Codec.freshDeflate wbits.toNat level.toNat).Ok :=
  ⟨Nat.zero_lt_succ _, Deflate.initBlock_ok (Deflate.blank_ok hlow (by have := wbits.isLt; omega) _), rfl,
    toNat_ofNat_four wbits, toNat_ofNat_four level⟩

section
variable {s t : State}

theorem State.resetCommand_inv {legal : Bool} {fresh : Codec} (hf : legal = true → fresh.Ok) (hs : s.Inv)
    (h : s.resetCommand legal fresh = .next t) : t.Inv := by
  obtain ⟨hl, rfl⟩ | ⟨-, rfl⟩ := State.resetCommand_next h
  · exact { hs with codec := hf hl }
  · exact s.evolves_refuseReset.inv hs

theorem exec_reset_inv {i : Instr} (ho : owner i = .reset) (hs : s.Inv) (h : exec i s = .next t) : t.Inv := by
  cases i with
  | infReset wbits hasDict dictSum =>
    refine State.resetCommand_inv (fun hl => Codec.freshInflate_ok ?_ _ _) hs h
    simp only [operandsLegal, Instr.wellFormed, Bool.and_eq_true, decide_eq_true_eq] at hl
    exact hl.1
  | defReset wbits level strategy =>
    refine State.resetCommand_inv (fun hl => Codec.freshDeflate_ok ?_ level) hs h
    simp only [operandsLegal, Instr.wellFormed, Bool.and_eq_true, decide_eq_true_eq] at hl
    exact hl.1.1
  | _ => cases ho

theorem exec_inv {i : Instr} (hs : s.Inv) (h : exec i s = .next t) : t.Inv := by
  by_cases ho : owner i = .reset
  · exact exec_reset_inv ho hs h
  · exact (exec_evolves ho h).inv hs

/-! ## Taking a command (R50) -/

theorem Codec.powerOn_ok : Codec.powerOn.Ok := ⟨by decide, rfl, rfl, rfl⟩

theorem State.codecAt_ok (hs : s.Inv) (k : Nat) : (s.codecAt k).Ok := by
  unfold State.codecAt Cells.read
  split
  · exact hs.codec
  · cases hf : Cells.find? s.parked k with
    | none => exact Codec.powerOn_ok
    | some c => exact hs.parked _ (Cells.find?_some_mem hf)

theorem Cells.find?_write_ne {α : Type} [DecidableEq α] {d : α} {m : Cells α} (hm : Cells.sorted m) {i j : Nat} {v : α}
    (h : j ≠ i) : Cells.find? (Cells.write d m i v) j = Cells.find? m j := by
  unfold Cells.write
  split
  · rw [Cells.find?_erase hm, if_neg h]
  · exact Cells.find?_put_ne m v h

theorem State.present_inv (hs : s.Inv) (c : Command) (rest : List Command) : (s.present c rest).Inv := by
  by_cases hc : c.target = s.target
  · have hsel : s.select c.target = s := if_pos hc
    simp only [State.present, hsel]
    exact { hs with }
  · have hcodec := State.codecAt_ok hs c.target
    rw [← State.present_codec s c rest] at hcodec
    simp only [State.present, State.select, if_neg hc] at hcodec ⊢
    have hwf := Cells.wf_erase hs.canonical c.target
    refine ⟨hcodec, fun p hp => ?_, Cells.wf_write hwf _ _, ?_⟩
    · obtain ⟨rfl, -⟩ | hp := Cells.mem_write hp
      · exact hs.codec
      · exact hs.parked p (Cells.mem_erase hp)
    · rw [Cells.find?_write_ne hwf.1 hc, Cells.find?_erase hs.canonical.1, if_pos rfl]

theorem step_inv (hs : s.Inv) (h : step s = .next t) : t.Inv := by
  unfold step at h
  split at h
  · cases h; exact hs
  · next c rest _ =>
    have hp := State.present_inv hs c rest
    split at h
    · exact exec_inv hp h
    · exact (State.refuseDecode_evolves h).inv hp

/-! ## No step is refused -/

theorem State.inflateCommand_ne_refused (s : State) (legal : Bool) (body : Inflate → Port → Reply Inflate)
    (r : Refusal) : s.inflateCommand legal body ≠ .refused r := by
  unfold State.inflateCommand
  split
  · exact nofun
  · split
    · split
      · exact State.commit_ne_refused _ r
      · exact nofun
    · exact nofun
    · exact nofun

theorem State.deflateCommand_ne_refused (s : State) (legal : Bool) (body : Deflate → Port → Reply Deflate)
    (r : Refusal) : s.deflateCommand legal body ≠ .refused r := by
  unfold State.deflateCommand
  split
  · exact nofun
  · split
    · split
      · exact State.commit_ne_refused _ r
      · exact nofun
    · exact nofun
    · exact nofun

theorem State.resetCommand_ne_refused (s : State) (legal : Bool) (fresh : Codec) (r : Refusal) :
    s.resetCommand legal fresh ≠ .refused r := by
  unfold State.resetCommand
  split <;> exact nofun

theorem exec_ne_refused (i : Instr) (s : State) (r : Refusal) : exec i s ≠ .refused r := by
  cases ho : owner i with
  | reset => obtain ⟨fresh, hx⟩ := exec_reset i ho; rw [hx]; exact s.resetCommand_ne_refused _ _ r
  | inflate => obtain ⟨body, hx⟩ := exec_inflate i ho; rw [hx]; exact s.inflateCommand_ne_refused _ _ r
  | deflate => obtain ⟨body, hx⟩ := exec_deflate i ho; rw [hx]; exact s.deflateCommand_ne_refused _ _ r

theorem State.refuseDecode_ne_refused (s : State) (e : DecodeError) (r : Refusal) : s.refuseDecode e ≠ .refused r := by
  unfold State.refuseDecode
  split
  · split <;> exact nofun
  · split
    · exact nofun
    · exact s.inflateCommand_ne_refused _ _ r
    · exact s.deflateCommand_ne_refused _ _ r

theorem step_ne_refused (s : State) (r : Refusal) : step s ≠ .refused r := by
  unfold step
  split
  · exact nofun
  · split
    · exact exec_ne_refused _ _ r
    · exact State.refuseDecode_ne_refused _ _ r

/-! ## What a step runs -/

theorem step_of_empty (h : s.queue = []) : step s = .next s := by simp only [step, h]

theorem step_of_decode {c : Command} {rest : List Command} {i : Instr} (hq : s.queue = c :: rest)
    (hd : decode c.w0 c.w1 = .ok i) : step s = exec i (s.present c rest) := by simp only [step, hq, hd]

theorem decode_of_decodeTableWord {nbits w : Nat} {i : Instr} (h : decodeTableWord nbits w = some i) :
    decode (BitVec.ofNat 32 (w % 2 ^ nbits)) (BitVec.ofNat 32 (w % 2 ^ nbits / 2 ^ 32)) = .ok i := by
  simp only [decodeTableWord] at h
  split at h
  · next hd => cases h; exact hd
  · cases h

/-- A command for the codec already addressed changes only the port and the queue. -/
theorem State.present_of_target {c : Command} (hc : c.target = s.target) (rest : List Command) :
    s.present c rest = { s with port := ⟨c.input, c.space, []⟩, queue := rest } := by
  simp only [State.present, State.select, if_pos hc]

theorem step_withFetchWord {nbits w : Nat} {i : Instr} (h : decodeTableWord nbits w = some i) :
    step (s.withFetchWord nbits w) = exec i { s with port := ⟨[], 0, []⟩ } := by
  rw [step_of_decode (s := s.withFetchWord nbits w) rfl (decode_of_decodeTableWord h), State.present_of_target rfl]
  rfl

end

/-! ## The obligations -/

/-- Settles O2: the step's equation for each form of the queue, and the absence of refusals by cases on the frame of a
command. -/
theorem stepRunsDecodedCommand : Obligations.StepRunsDecodedCommand :=
  ⟨fun _ h => step_of_empty h,
    fun s c rest _ hq hd => ⟨s.present c rest, step_of_decode hq hd, s.present_target c rest, s.present_codec c rest,
      s.present_port c rest, s.present_queue c rest⟩,
    fun _ _ _ _ h => step_withFetchWord h, step_ne_refused⟩

/-- Settles O3: at power-on the addressed codec has no units and no other is listed. -/
theorem powerOnInvariant : Obligations.PowerOnInvariant :=
  ⟨Codec.powerOn_ok, fun _ hp => (nomatch hp), Cells.wf_nil _, rfl⟩

/-- Settles O4: taking a command keeps the invariant, and so does every end of it, because each operation on the units
keeps their bounds. -/
theorem stepKeepsInvariant : Obligations.StepKeepsInvariant := fun _ _ hs h => step_inv hs h

/-- Settles O7: every command but a reset only evolves the units it runs on, which keeps the configuration. -/
theorem onlyResetsConfigure : Obligations.OnlyResetsConfigure := by
  intro i s t ho h
  obtain ⟨hregs, -, hengine⟩ := (exec_evolves ho h).codec
  simp only [Regs.config, Prod.mk.injEq] at hregs
  obtain ⟨hkind, hwbits, hlevel, hstrategy, hdict, hdictSum⟩ := hregs
  refine ⟨hkind, hwbits, hlevel, hstrategy, hdict, hdictSum, ?_⟩
  generalize s.codec.engine = e, t.codec.engine = e' at hengine ⊢
  cases hengine with
  | unset => trivial
  | inflate hd => simpa only [Inflate.config, Prod.mk.injEq] using hd.config
  | deflate hd => simpa only [Deflate.config, Prod.mk.injEq] using hd.config

end Sys2Proof.Machine

/-! # The port

What every command but a reset does to the host's side of it (R150..R152): input is taken from the front of the slice,
and each byte delivered fills one output slot. -/

namespace Sys2Proof.Machine

/-- A command may lead from the port `p` to `p'`: what is left of the slice stands at its end (R151), and the slots
filled and the slots free are together as many as before (R152). -/
structure Port.Transfers (p p' : Port) : Prop where
  input : p'.input <:+ p.input
  slots : p'.output.length + p'.space = p.output.length + p.space

theorem Port.Transfers.refl (p : Port) : p.Transfers p := ⟨List.suffix_refl _, rfl⟩

theorem Port.Transfers.trans {p q r : Port} (h : p.Transfers q) (h' : q.Transfers r) : p.Transfers r :=
  ⟨h'.input.trans h.input, h'.slots.trans h.slots⟩

theorem Port.transfers_of_suffix {p : Port} {rest : List Byte} (h : rest <:+ p.input) :
    p.Transfers { p with input := rest } := ⟨h, rfl⟩

theorem Port.transfers_emit {p : Port} {bs : List Byte} (h : bs.length ≤ p.space) : p.Transfers (p.emit bs) where
  input := List.suffix_refl _
  slots := by simp only [Port.emit_output, Port.emit_space, List.length_append]; omega

/-- The body of a command that starts from the port `p` ends with a port it may lead to. -/
inductive Reply.TransfersFrom {σ : Type} (p : Port) : Reply σ → Prop
  | done {st : Status} {r0 r1 : Word} {u : σ} {p' : Port} (h : p.Transfers p') : TransfersFrom p (.done st r0 r1 u p')
  | transient {st : Status} : TransfersFrom p (.transient st)
  | raised {e : Latch} {u : σ} {p' : Port} (h : p.Transfers p') : TransfersFrom p (.raised e u p')
  | failed {e : Latch} {u : σ} {p' : Port} (h : p.Transfers p') : TransfersFrom p (.failed e u p')
  | fault {f : Fault} : TransfersFrom p (.fault f)

theorem Reply.ofExcept_transfers {σ α : Type} {x : Except Fault α} {k : α → Reply σ} {P : α → Prop} {p : Port}
    (hx : Returns x P) (hk : ∀ a, P a → (k a).TransfersFrom p) : (Reply.ofExcept x k).TransfersFrom p := by
  cases x with
  | ok a => exact hk a (hx.of_ok rfl)
  | error f => exact .fault

end Sys2Proof.Machine

/-! # The port of the decoder's commands

The bit cursor (R300) and the symbol decoder (R430) pull bytes off the front of the slice, and a drain (R384) delivers
no more than the free slots hold; nothing else in a micro-step touches the port. -/

namespace Sys2Proof.Machine

theorem Dec.pull_transfers (c : Dec) (n : Nat) : c.port.Transfers (c.pull n).port := by
  obtain ⟨got, h⟩ := BitCursor.pull_suffix n c.u.bc c.port.input
  exact Port.transfers_of_suffix ⟨got, h.symm⟩

@[simp] theorem SlidingWindow.oldest_length (w : SlidingWindow) (n : Nat) : (w.oldest n).length = n := by
  simp only [SlidingWindow.oldest, List.length_map, List.length_range]

theorem Dec.winDrain_transfers (c : Dec) : c.port.Transfers c.winDrain.port :=
  Port.transfers_emit ((SlidingWindow.oldest_length _ _).trans_le (Nat.min_le_right _ _))

theorem walk_suffix {look : BitCursor → Except Fault Entry} {skip : Nat} (bc : BitCursor) (input : List Byte) :
    Returns (walk look skip bc input) fun r => r.2.2 <:+ input := by
  induction input generalizing bc with
  | nil => exact .skip fun _ => .ok (List.suffix_refl _)
  | cons b rest ih =>
    exact .skip fun _ => .ite (fun _ => .ok (List.suffix_refl _)) fun _ =>
      (ih _).mono fun _ h => h.trans (List.suffix_cons b rest)

theorem Dec.decodeSym_transfers (c : Dec) (r : TableRef) :
    Returns (c.decodeSym r) fun q => c.port.Transfers q.2.port := by
  unfold Dec.decodeSym
  refine .bind (walk_suffix _ _) fun ⟨e?, bc, input⟩ h => ?_
  cases e? with
  | none => exact .ok (Port.transfers_of_suffix h)
  | some e =>
    cases hop : e.op with
    | link w =>
      simp only [hop]
      refine .bind (walk_suffix _ _) fun ⟨f?, bc', input'⟩ h' => ?_
      cases f? <;> exact .ok (Port.transfers_of_suffix (h'.trans h))
    | _ => simp only [hop]; exact .ok (Port.transfers_of_suffix h)

/-! ## The micro-steps (R480..R520) -/

/-- A micro-step that starts from the port `p` ends with a port it may lead to. -/
inductive Micro.TransfersFrom (p : Port) : Micro → Prop
  | advanced {c : Dec} (h : p.Transfers c.port) : TransfersFrom p (.advanced c)
  | blocked {k : BlockKind} {c : Dec} (h : p.Transfers c.port) : TransfersFrom p (.blocked k c)
  | doneStop {c : Dec} (h : p.Transfers c.port) : TransfersFrom p (.doneStop c)
  | raised {r : DataReason} {c : Dec} (h : p.Transfers c.port) : TransfersFrom p (.raised r c)
  | fault {f : Fault} : TransfersFrom p (.fault f)

theorem Micro.TransfersFrom.after {p q : Port} {m : Micro} (h : m.TransfersFrom q) (hp : p.Transfers q) :
    m.TransfersFrom p := by
  cases h with
  | advanced h => exact .advanced (hp.trans h)
  | blocked h => exact .blocked (hp.trans h)
  | doneStop h => exact .doneStop (hp.trans h)
  | raised h => exact .raised (hp.trans h)
  | fault => exact .fault

theorem Micro.ofExcept_transfers {α : Type} {x : Except Fault α} {k : α → Micro} {p : Port}
    (hk : ∀ a, (k a).TransfersFrom p) : (Micro.ofExcept x k).TransfersFrom p := by
  cases x with
  | ok a => exact hk a
  | error f => exact .fault

/-- A micro-step that needs bits goes on from the port the pull leaves, or blocks with it. -/
theorem Dec.needing_transfers {c : Dec} {n : Nat} {k : Dec → Micro} (hk : ∀ c : Dec, (k c).TransfersFrom c.port) :
    (c.needing n k).TransfersFrom c.port := by
  have hp := c.pull_transfers n
  unfold Dec.needing
  simp only
  split
  · exact (hk _).after hp
  · exact .blocked hp

/-- A micro-step that decodes a symbol goes on from the port the decoder leaves. -/
theorem Dec.decoding_transfers {c : Dec} {kind : CodeKind} {r : Option TableRef} {k : Option Entry × Dec → Micro}
    (hk : ∀ e? c', (k (e?, c')).TransfersFrom c'.port) :
    (Micro.ofExcept (c.decodeVia kind r) k).TransfersFrom c.port := by
  have hd : Returns (c.decodeVia kind r) fun q => c.port.Transfers q.2.port := c.decodeSym_transfers _
  cases hx : c.decodeVia kind r with
  | ok q => exact (hk q.1 q.2).after (hd.of_ok hx)
  | error f => exact .fault

theorem microType_transfers (c : Dec) : (microType c).TransfersFrom c.port := by
  refine Dec.needing_transfers fun c => ?_
  simp only
  split_ifs
  · exact .advanced (.refl _)
  · exact .advanced (.refl _)
  · exact .advanced (.refl _)
  · exact .raised (.refl _)

theorem microStoredLen_transfers (c : Dec) : (microStoredLen c).TransfersFrom c.port := by
  refine Dec.needing_transfers fun c => ?_
  simp only
  split
  · exact .raised (.refl _)
  · exact .advanced (.refl _)

theorem microStoredCopy_transfers (c : Dec) : (microStoredCopy c).TransfersFrom c.port := by
  unfold microStoredCopy
  split
  · exact .blocked (.refl _)
  · refine Dec.needing_transfers fun c => .advanced ?_
    split <;> exact .refl _

theorem microTable_transfers (c : Dec) : (microTable c).TransfersFrom c.port := by
  refine Dec.needing_transfers fun c => ?_
  simp only
  split
  · exact .raised (.refl _)
  · exact .advanced (.refl _)

theorem microLenLens_transfers (c : Dec) : (microLenLens c).TransfersFrom c.port := by
  unfold microLenLens
  split
  · exact Dec.needing_transfers fun c => Micro.ofExcept_transfers fun _ => Micro.ofExcept_transfers fun _ =>
      .advanced (.refl _)
  · refine Micro.ofExcept_transfers fun ⟨r, root, ht⟩ => ?_
    simp only
    split
    · exact .raised (.refl _)
    · exact .advanced (.refl _)

theorem microCodeLensSym_transfers (c : Dec) : (microCodeLensSym c).TransfersFrom c.port := by
  refine Dec.decoding_transfers fun e? c => ?_
  cases e? with
  | none => exact .blocked (.refl _)
  | some e =>
    simp only
    split
    · exact Micro.ofExcept_transfers fun _ => .advanced (.refl _)
    · exact .advanced (.refl _)

theorem microRepeat_transfers (c : Dec) (v n : Nat) : (microRepeat c v n).TransfersFrom c.port := by
  unfold microRepeat
  split
  · exact .raised (.refl _)
  · exact Micro.ofExcept_transfers fun _ => .advanced (.refl _)

theorem microRep16_transfers (c : Dec) : (microRep16 c).TransfersFrom c.port := by
  refine Dec.needing_transfers fun c => ?_
  split
  · exact .raised (.refl _)
  · exact Micro.ofExcept_transfers fun _ => microRepeat_transfers (c.drop 2) _ _

theorem microCodeLensBuild_transfers (c : Dec) : (microCodeLensBuild c).TransfersFrom c.port := by
  unfold microCodeLensBuild
  split
  · exact .raised (.refl _)
  · refine Micro.ofExcept_transfers fun ⟨r1, root1, ht1⟩ => ?_
    simp only
    split
    · exact .raised (.refl _)
    · refine Micro.ofExcept_transfers fun ⟨r2, root2, ht2⟩ => ?_
      simp only
      split
      · exact .raised (.refl _)
      · exact .advanced (.refl _)

theorem microCodeLens_transfers (c : Dec) : (microCodeLens c).TransfersFrom c.port := by
  unfold microCodeLens
  split
  · exact microRep16_transfers c
  · exact Dec.needing_transfers fun c => microRepeat_transfers (c.drop 3) _ _
  · exact Dec.needing_transfers fun c => microRepeat_transfers (c.drop 7) _ _
  · split
    · exact microCodeLensSym_transfers c
    · exact microCodeLensBuild_transfers c

theorem microLen_transfers (c : Dec) : (microLen c).TransfersFrom c.port := by
  unfold microLen
  split
  · exact .blocked (.refl _)
  · refine Dec.decoding_transfers fun e? c => ?_
    cases e? with
    | none => exact .blocked (.refl _)
    | some e =>
      obtain ⟨op, bits, val⟩ := e
      cases op with
      | invalid => exact .raised (.refl _)
      | _ => exact .advanced (.refl _)

theorem microLenExt_transfers (c : Dec) : (microLenExt c).TransfersFrom c.port :=
  Dec.needing_transfers fun _ => .advanced (.refl _)

theorem microDist_transfers (c : Dec) : (microDist c).TransfersFrom c.port := by
  refine Dec.decoding_transfers fun e? c => ?_
  cases e? with
  | none => exact .blocked (.refl _)
  | some e =>
    simp only
    split
    · exact .raised (.refl _)
    · exact .advanced (.refl _)

theorem microDistExt_transfers (c : Dec) : (microDistExt c).TransfersFrom c.port := by
  refine Dec.needing_transfers fun c => ?_
  simp only
  split
  · exact .raised (.refl _)
  · exact .advanced (.refl _)

theorem microMatch_transfers (c : Dec) : (microMatch c).TransfersFrom c.port := by
  unfold microMatch
  split
  · exact .blocked (.refl _)
  · refine .advanced ?_
    split <;> exact .refl _

theorem microDrain_transfers (c : Dec) : (microDrain c).TransfersFrom c.port := by
  unfold microDrain
  split
  · exact .blocked (.refl _)
  · exact .advanced (.refl _)

theorem micro_transfers (c : Dec) : (micro c).TransfersFrom c.port := by
  unfold micro
  split
  · exact microType_transfers c
  · exact microStoredLen_transfers c
  · exact microStoredCopy_transfers c
  · exact microTable_transfers c
  · exact microLenLens_transfers c
  · exact microCodeLens_transfers c
  · exact microLen_transfers c
  · exact microLenExt_transfers c
  · exact microDist_transfers c
  · exact microDistExt_transfers c
  · exact microMatch_transfers c
  · exact .advanced (.refl _)
  · exact microDrain_transfers c
  · exact .doneStop (.refl _)
  · exact .doneStop (.refl _)
  · exact .doneStop (.refl _)

/-! ## The step command (R470) -/

/-- The loop of R470, started from the port `p`, ends with a port it may lead to. -/
inductive LoopEnd.TransfersFrom (p : Port) : LoopEnd → Prop
  | exit {progressed : Bool} {k : Option BlockKind} {c : Dec} (h : p.Transfers c.port) :
    TransfersFrom p (.exit progressed k c)
  | raised {r : DataReason} {c : Dec} (h : p.Transfers c.port) : TransfersFrom p (.raised r c)
  | fault {f : Fault} : TransfersFrom p (.fault f)

theorem inflateLoop_transfers {p : Port} (fuel : Nat) (progressed : Bool) {c : Dec} (hc : p.Transfers c.port) :
    (inflateLoop fuel progressed c).TransfersFrom p := by
  induction fuel generalizing progressed c with
  | zero => exact .fault
  | succ fuel ih =>
    have hm := (micro_transfers c.winDrain).after (hc.trans c.winDrain_transfers)
    unfold inflateLoop
    generalize micro c.winDrain = m at hm
    cases hm with
    | advanced h => exact ih true h
    | blocked h => exact .exit h
    | doneStop h => exact .exit h
    | raised h => exact .raised h
    | fault => exact .fault

theorem inflateStep_transfers (c : Dec) : (inflateStep c).TransfersFrom c.port := by
  unfold inflateStep
  split
  · exact .done (.refl _)
  · split
    · exact .done (.refl _)
    · have hl := inflateLoop_transfers (inflateFuel c) false (.refl c.port)
      generalize inflateLoop (inflateFuel c) false c = l at hl
      cases hl with
      | fault => exact .fault
      | raised h => exact .failed h
      | exit h =>
        simp only
        split_ifs
        · exact .done h
        · exact .done h
        · exact .transient
        · exact .transient

/-! ## The sub-block commands -/

/-- A bit cursor command takes the bytes it pulls, whether they are enough or not (R217). -/
theorem Dec.afterPull_transfers {d : Inflate} {p : Port} {n : Nat} {r : Reply Inflate}
    (hr : p.Transfers (Dec.pull ⟨d, p⟩ n).port → r.TransfersFrom p) :
    (if (Dec.pull ⟨d, p⟩ n).has n then r else (Dec.pull ⟨d, p⟩ n).needMore).TransfersFrom p := by
  have hp : p.Transfers (Dec.pull ⟨d, p⟩ n).port := Dec.pull_transfers ⟨d, p⟩ n
  split
  · exact hr hp
  · exact .done hp

end Sys2Proof.Machine

/-! # The port of the encoder's commands

A fill (R390) reads bytes off the front of the slice, and a flush of the FIFO (R350) delivers no more than the free
slots hold; every other operation runs on the units alone. -/

namespace Sys2Proof.Machine

section
variable {p : Port} {c : Enc} (hc : p.Transfers c.port)
include hc

theorem Enc.flushPending_transfers : p.Transfers c.flushPending.port :=
  hc.trans (Port.transfers_emit ((List.length_take_le _ _).trans (Nat.min_le_right _ _)))

theorem Enc.readBuf_transfers (start n : Nat) : Returns (c.readBuf start n) fun c' => p.Transfers c'.port :=
  .ite (fun _ => .ok (hc.trans (Port.transfers_of_suffix (List.drop_suffix _ _)))) fun _ => .error _

theorem Enc.fillLoop_transfers (fuel : Nat) : Returns (Enc.fillLoop fuel c) fun c' => p.Transfers c'.port := by
  induction fuel generalizing c with
  | zero => exact .error _
  | succ fuel ih =>
    refine .ite (fun _ => .ok hc) fun _ => ?_
    refine .bind (Enc.readBuf_transfers (c := { c with u := c.u.fillSlide }) hc _ _) fun c₁ h₁ => ?_
    refine .join (fun _ => .any _) (fun _ => .any _) fun d _ => ?_
    exact .ite (fun _ => ih (c := { c₁ with u := d }) h₁) fun _ => .ok h₁

theorem Enc.fillWindow_transfers : Returns c.fillWindow fun c' => p.Transfers c'.port := Enc.fillLoop_transfers hc _

theorem Enc.flushBlockOnly_transfers (eof : Bool) : Returns (c.flushBlockOnly eof) fun c' => p.Transfers c'.port :=
  .skip fun ⟨_, d⟩ => .ok (Enc.flushPending_transfers (c := { c with u := d }) hc)

theorem Enc.endStrategy_transfers (flush : Flush) :
    Returns (c.endStrategy flush) fun r => p.Transfers r.2.port :=
  .bind (Enc.flushBlockOnly_transfers hc _) fun _ h => .ite (fun _ => .ok h) fun _ => .ok h

end

/-! ## The strategies (R694, R700, R710) -/

/-- The head of a strategy's loop, started from the port `p`, ends with a port it may lead to. -/
inductive LoopHead.TransfersFrom (p : Port) : LoopHead → Prop
  | needMore {c : Enc} (h : p.Transfers c.port) : TransfersFrom p (.needMore c)
  | exitLoop {c : Enc} (h : p.Transfers c.port) : TransfersFrom p (.exitLoop c)
  | go {c : Enc} (h : p.Transfers c.port) : TransfersFrom p (.go c)

section
variable {p : Port} {c : Enc} (hc : p.Transfers c.port)
include hc

theorem Enc.loopHead_transfers (flush : Flush) : Returns (c.loopHead flush) fun l => l.TransfersFrom p :=
  .ite (fun _ => .bind (Enc.fillWindow_transfers hc) fun _ h => .ite (fun _ => .ok (.needMore h)) fun _ =>
    .ite (fun _ => .ok (.exitLoop h)) fun _ => .ok (.go h)) fun _ => .ok (.go hc)

theorem fastLoop_transfers {flush : Flush} (fuel hashHead : Nat) :
    Returns (fastLoop flush fuel hashHead c) fun r => p.Transfers r.2.port := by
  induction fuel generalizing hashHead c with
  | zero => exact .error _
  | succ fuel ih =>
    refine .bind (Enc.loopHead_transfers hc flush) fun head hhead => ?_
    cases hhead with
    | needMore h => exact .ok h
    | exitLoop h => exact Enc.endStrategy_transfers h flush
    | @go c h =>
      have hu (d : Deflate) : p.Transfers (Enc.port { c with u := d }) := h
      refine .skip fun ⟨bflush, hashHead, d⟩ => .ite (fun _ => ?_) fun _ => ih (hu d) _
      exact .bind (Enc.flushBlockOnly_transfers (hu d) false) fun _ h => .ite (fun _ => .ok h) fun _ => ih h _

theorem Enc.slowEnd_transfers (flush : Flush) : Returns (c.slowEnd flush) fun r => p.Transfers r.2.port := by
  refine .ite (fun _ => .skip fun ⟨_, d⟩ => ?_) fun _ => Enc.endStrategy_transfers hc flush
  exact Enc.endStrategy_transfers (c := { c with u := { d with matchAvailable := false } }) hc flush

theorem slowLoop_transfers {flush : Flush} (fuel hashHead : Nat) :
    Returns (slowLoop flush fuel hashHead c) fun r => p.Transfers r.2.port := by
  induction fuel generalizing hashHead c with
  | zero => exact .error _
  | succ fuel ih =>
    refine .bind (Enc.loopHead_transfers hc flush) fun head hhead => ?_
    cases hhead with
    | needMore h => exact .ok h
    | exitLoop h => exact Enc.slowEnd_transfers h flush
    | @go c h =>
      have hu (d : Deflate) : p.Transfers (Enc.port { c with u := d }) := h
      refine .skip fun ⟨hashHead, d⟩ => .ite (fun _ => ?_) fun _ => .ite (fun _ => ?_) fun _ => ih (hu _) _
      · refine .skip fun ⟨bflush, hashHead, d⟩ => .ite (fun _ => ?_) fun _ => ih (hu d) _
        exact .bind (Enc.flushBlockOnly_transfers (hu d) false) fun _ h => .ite (fun _ => .ok h) fun _ => ih h _
      · refine .skip fun ⟨bflush, d⟩ => ?_
        refine .join (fun _ => Enc.flushBlockOnly_transfers (hu d) false) (fun _ => .ok (hu d)) fun c' h => ?_
        exact .ite (fun _ => .ok h) fun _ => ih (c := { c' with u := c'.u.advance }) h _

theorem Enc.flushIf_transfers (cond : Bool) : Returns (c.flushIf cond) fun r => p.Transfers r.2.port :=
  .ite (fun _ => .bind (Enc.flushBlockOnly_transfers hc false) fun _ h => .ok h) fun _ => .ok hc

theorem storedLoop_transfers {flush : Flush} (fuel : Nat) :
    Returns (storedLoop flush fuel c) fun r => p.Transfers r.2.port := by
  induction fuel generalizing c with
  | zero => exact .error _
  | succ fuel ih =>
    refine .join (fun _ => Enc.fillWindow_transfers hc) (fun _ => .ok hc) fun c₁ h₁ => ?_
    refine .ite (fun _ => .ok h₁) fun _ => .ite (fun _ => Enc.endStrategy_transfers h₁ flush) fun _ => ?_
    have hu (d : Deflate) : p.Transfers (Enc.port { c₁ with u := d }) := h₁
    refine .bind (Enc.flushIf_transfers (hu _) _) fun ⟨stop, c₂⟩ h₂ => .ite (fun _ => .ok h₂) fun _ => ?_
    exact .bind (Enc.flushIf_transfers h₂ _) fun ⟨stop, c₃⟩ h₃ => .ite (fun _ => .ok h₃) fun _ => ih h₃

/-! ## The step command (R680) -/

theorem Enc.compress_transfers (flush : Flush) : Returns (c.compress flush) fun r => p.Transfers r.2.port := by
  unfold Enc.compress
  split
  · exact storedLoop_transfers hc _
  · exact fastLoop_transfers hc _ _
  · exact slowLoop_transfers hc _ _

theorem Enc.endsOk_transfers : c.endsOk.TransfersFrom p := by
  unfold Enc.endsOk
  split <;> exact .done hc

theorem Enc.afterCompress_transfers (flush : Flush) (b : BState) : (c.afterCompress flush b).TransfersFrom p := by
  cases b with
  | needMore => exact Enc.endsOk_transfers hc
  | finishStarted => exact Enc.endsOk_transfers (c := { c with u := { c.u with status := .finish } }) hc
  | finishDone => exact .done hc
  | blockDone =>
    have hmark : Returns (c.onUnits (c.u.flushMarker flush)) fun c' => p.Transfers c'.port := .skip fun _ => .ok hc
    refine Reply.ofExcept_transfers hmark fun c₁ h₁ => ?_
    have h₂ := Enc.flushPending_transfers h₁
    simp only
    split
    · exact Enc.endsOk_transfers h₂
    · exact .done h₂

theorem Enc.stepAccepted_transfers (flush : Flush) : (c.stepAccepted flush).TransfersFrom p := by
  have haccept : p.Transfers (Enc.port { c with u := c.u.accept flush }) := hc
  unfold Enc.stepAccepted
  simp only
  generalize hc₁ : (if (c.u.accept flush).pending ≠ [] then Enc.flushPending { c with u := c.u.accept flush }
    else { c with u := c.u.accept flush }) = c₁
  have h₁ : p.Transfers c₁.port := by
    rw [← hc₁]
    split
    · exact Enc.flushPending_transfers haccept
    · exact haccept
  split_ifs
  · exact Enc.endsOk_transfers h₁
  · exact Reply.ofExcept_transfers (Enc.compress_transfers h₁ flush) fun r h₂ =>
      Enc.afterCompress_transfers h₂ flush r.1
  · exact .done h₁

end

theorem Enc.step_transfers (c : Enc) (code : BitVec 3) : (c.step code).TransfersFrom c.port := by
  unfold Enc.step
  split
  · exact .failed (.refl _)
  · split_ifs
    · exact .failed (.refl _)
    · exact .failed (.refl _)
    · exact .transient
    · exact .transient
    · exact Enc.stepAccepted_transfers (.refl _) _

/-! ## The sub-block commands -/

/-- A command that runs one operation on the units alone and answers leaves the port as it is. -/
theorem Reply.answer_transfers {α : Type} {x : Except Fault α} {g : α → Deflate} {r0 r1 : α → Word} (p : Port) :
    (Reply.ofExcept x fun a => (g a).answer p (r0 a) (r1 a)).TransfersFrom p :=
  Reply.ofExcept_transfers (.any x) fun _ _ => .done (.refl p)

end Sys2Proof.Machine

/-! # What a command reports

The counts say what was taken and delivered at the port, and the totals add them (R160, R212). -/

namespace Sys2Proof.Machine

variable {s t : State}

/-- A command leads from `s` to `t` and reports what it did at the port. -/
structure State.Reports (s t : State) : Prop where
  port : s.startPort.Transfers t.port
  inConsumed : t.codec.regs.inConsumed = BitVec.ofNat 32 (s.consumed t.port)
  outProduced : t.codec.regs.outProduced = BitVec.ofNat 32 t.port.output.length
  totalIn : t.codec.regs.totalIn = s.codec.regs.totalIn + BitVec.ofNat 32 (s.consumed t.port)
  totalOut : t.codec.regs.totalOut = s.codec.regs.totalOut + BitVec.ofNat 32 t.port.output.length

@[simp] theorem State.consumed_startPort (s : State) : s.consumed s.startPort = 0 := Nat.sub_self _

theorem State.consumed_of_append {taken : List Byte} {p : Port} (h : s.port.input = taken ++ p.input) :
    s.consumed p = taken.length := by
  rw [State.consumed, h, List.length_append, Nat.add_sub_cancel]

/-! ## The ends of a command -/

theorem State.reports_of_startPort {w : Word} (hp : t.port = s.startPort)
    (hr : t.codec.regs = s.codec.regs.report w 0 0) : s.Reports t where
  port := hp ▸ .refl _
  inConsumed := by simp [hp, hr]
  outProduced := by simp [hp, hr]
  totalIn := by simp [hp, hr]
  totalOut := by simp [hp, hr]

theorem State.reports_complete {p : Port} (hp : s.startPort.Transfers p) (st : Status) (r0 r1 : Word) (eng : Engine) :
    s.Reports (s.complete st r0 r1 eng p) := ⟨hp, rfl, rfl, rfl, rfl⟩

theorem State.reports_raise {p : Port} (hp : s.startPort.Transfers p) (e : Latch) (eng : Engine) :
    s.Reports (s.raise e eng p) := ⟨hp, rfl, rfl, rfl, rfl⟩

theorem State.reports_raiseEngine {p : Port} (hp : s.startPort.Transfers p) (e : Latch) (eng : Engine) :
    s.Reports (s.raiseEngine e eng p) := ⟨hp, rfl, rfl, rfl, rfl⟩

theorem State.reports_transient (s : State) (st : Status) : s.Reports (s.transient st) :=
  State.reports_of_startPort rfl rfl

theorem State.reports_answerLatched (s : State) (e : Latch) : s.Reports (s.answerLatched e) :=
  State.reports_of_startPort rfl rfl

theorem State.reports_raiseAtOnce (s : State) (r : StreamReason) : s.Reports (s.raiseAtOnce r) :=
  State.reports_raise (.refl _) _ _

theorem State.commit_reports {σ : Type} {wrap : σ → Engine} {reply : Reply σ} (hr : reply.TransfersFrom s.startPort)
    (h : s.commit wrap reply = .next t) : s.Reports t := by
  cases hr with
  | done hp => cases h; exact State.reports_complete hp _ _ _ _
  | transient => cases h; exact s.reports_transient _
  | raised hp => cases h; exact State.reports_raise hp _ _
  | failed hp => cases h; exact State.reports_raiseEngine hp _ _
  | fault => cases h

theorem State.inflateCommand_reports {legal : Bool} {body : Inflate → Port → Reply Inflate}
    (h : s.inflateCommand legal body = .next t) (hb : ∀ d p, (body d p).TransfersFrom p) : s.Reports t := by
  obtain ⟨e, -, rfl⟩ | ⟨-, -, rfl⟩ | ⟨d, -, -, rfl⟩ | ⟨d, -, -, hc⟩ := State.inflateCommand_next h
  · exact s.reports_answerLatched e
  · exact s.reports_raiseAtOnce _
  · exact s.reports_raiseAtOnce _
  · exact State.commit_reports (hb d _) hc

theorem State.deflateCommand_reports {legal : Bool} {body : Deflate → Port → Reply Deflate}
    (h : s.deflateCommand legal body = .next t) (hb : ∀ d p, (body d p).TransfersFrom p) : s.Reports t := by
  obtain ⟨e, -, rfl⟩ | ⟨-, -, rfl⟩ | ⟨d, -, -, rfl⟩ | ⟨d, -, -, hc⟩ := State.deflateCommand_next h
  · exact s.reports_answerLatched e
  · exact s.reports_raiseAtOnce _
  · exact s.reports_raiseAtOnce _
  · exact State.commit_reports (hb d _) hc

/-! ## The commands -/

theorem exec_inflate_reports {i : Instr} (ho : owner i = .inflate) (h : exec i s = .next t) : s.Reports t := by
  cases i <;> simp only [exec] at h
  case infStep => exact State.inflateCommand_reports h fun d p => inflateStep_transfers ⟨d, p⟩
  case infSetDict =>
    refine State.inflateCommand_reports h fun d p => ?_
    have htake : p.Transfers { p with input := [] } := Port.transfers_of_suffix List.nil_suffix
    simp only
    split_ifs
    · exact .failed (.refl p)
    · exact .failed htake
    · exact .done htake
  case bcrNeed | bcrPeek | bcrDrop | bcrGet | bcrByte =>
    exact State.inflateCommand_reports h fun _ _ => Dec.afterPull_transfers .done
  case bcrAlign | hdtFixed => exact State.inflateCommand_reports h fun _ p => .done (.refl p)
  case swbPut | swbCopy =>
    refine State.inflateCommand_reports h fun d p => ?_
    split <;> exact .done (.refl p)
  case swbDrain => exact State.inflateCommand_reports h fun d p => .done (Dec.winDrain_transfers ⟨d, p⟩)
  case swbSeed =>
    refine State.inflateCommand_reports h fun d p => ?_
    split
    · exact .raised (.refl p)
    · exact .done (Port.transfers_of_suffix List.nil_suffix)
  case hdtBuild =>
    refine State.inflateCommand_reports h fun d p => ?_
    simp only
    split
    · exact .raised (.refl p)
    · exact Reply.ofExcept_transfers (.any _) fun _ _ => .done (Port.transfers_of_suffix (List.drop_suffix _ _))
  case hdtDecode =>
    refine State.inflateCommand_reports h fun d p => ?_
    split
    · exact .raised (.refl p)
    · refine Reply.ofExcept_transfers (Dec.decodeSym_transfers ⟨d, p⟩ _) fun ⟨e?, c⟩ hc => ?_
      cases e? <;> exact .done hc
  all_goals cases ho

theorem exec_deflate_reports {i : Instr} (ho : owner i = .deflate) (h : exec i s = .next t) : s.Reports t := by
  cases i <;> simp only [exec] at h
  case defStep flush => exact State.deflateCommand_reports h fun d p => Enc.step_transfers ⟨d, p⟩ flush
  case defSetDict =>
    refine State.deflateCommand_reports h fun d p => ?_
    split
    · exact .failed (.refl p)
    · exact Reply.ofExcept_transfers (.any _) fun _ _ => .done (Port.transfers_of_suffix List.nil_suffix)
  case swbDseed =>
    refine State.deflateCommand_reports h fun d p => ?_
    split
    · exact .raised (.refl p)
    · exact Reply.ofExcept_transfers (.any _) fun _ _ => .done (Port.transfers_of_suffix List.nil_suffix)
  case bcwDrain =>
    exact State.deflateCommand_reports h fun d p => .done (Enc.flushPending_transfers (c := ⟨d, p⟩) (.refl p))
  case swbFill =>
    exact State.deflateCommand_reports h fun d p =>
      Reply.ofExcept_transfers (Enc.fillWindow_transfers (c := ⟨d, p⟩) (.refl p)) fun _ hc => .done hc
  case swbSlide =>
    refine State.deflateCommand_reports h fun d p => ?_
    split
    · exact .raised (.refl p)
    · exact .done (.refl p)
  case mfInsert | mfLongest | tbTally | tbStored =>
    refine State.deflateCommand_reports h fun d p => ?_
    split
    · exact .raised (.refl p)
    · exact Reply.answer_transfers p
  case tbInitBlock => exact State.deflateCommand_reports h fun _ p => .done (.refl p)
  case tbGenCodes | tbScan | tbSendTree =>
    exact State.deflateCommand_reports h fun _ p =>
      Reply.ofExcept_transfers (.any _) fun _ _ => Reply.answer_transfers p
  case bcwPut | bcwPutByte | bcwPutShort | bcwWindup | bcwFlush | mfHashInit | tbBuild | tbGenBitlen | tbBlTree |
      tbSendAll | tbCompress | tbFlushBlock =>
    exact State.deflateCommand_reports h fun _ p => Reply.answer_transfers p
  all_goals cases ho

/-- Every command but a reset reports what it did at the port. -/
theorem exec_reports {i : Instr} (ho : owner i ≠ .reset) (h : exec i s = .next t) : s.Reports t := by
  cases hi : owner i with
  | reset => exact absurd hi ho
  | inflate => exact exec_inflate_reports hi h
  | deflate => exact exec_deflate_reports hi h

/-! ## The obligation -/

/-- Settles O8: every operation of a command's body takes bytes off the front of the slice and fills the slots it
delivers to, and each end of a command reports the port its body left. -/
theorem countsReportTheTransfer : Obligations.CountsReportTheTransfer := by
  intro i s t ho h
  obtain ⟨⟨⟨taken, htaken⟩, hslots⟩, hin, hout, htotalIn, htotalOut⟩ := exec_reports ho h
  have hinput : s.port.input = taken ++ t.port.input := htaken.symm
  have hcount : s.consumed t.port = taken.length := State.consumed_of_append hinput
  rw [hcount] at hin htotalIn
  exact ⟨taken, hinput, by simpa using hslots, hin, hout, htotalIn, htotalOut⟩

end Sys2Proof.Machine

/-! # The command words

Which fields a command word carries (R200..R210) and which of its bits are reserved: from that, the decoder and the encoder
agree in both directions. -/

namespace Sys2Proof

/-! ## Fields and reserved bits -/

/-- The word whose one bits are the `n` from bit `lo`. -/
def onesAt (lo n : Nat) : Word := (BitVec.allOnes n).setWidth 32 <<< lo

theorem getLsbD_onesAt {lo n k : Nat} (h : lo + n ≤ 32) :
    (onesAt lo n).getLsbD k = decide (lo ≤ k ∧ k < lo + n) := by
  simp only [onesAt, BitVec.getLsbD_shiftLeft, BitVec.getLsbD_setWidth, BitVec.getLsbD_allOnes]
  grind

theorem getLsbD_field (w : Word) (lo n k : Nat) :
    (field w lo n).getLsbD k = (decide (k < n) && w.getLsbD (lo + k)) := BitVec.getLsbD_extractLsb' ..

/-- Adjacent bits of a word are clear just when the field they make is 0. -/
theorem and_onesAt_eq_zero_iff {w : Word} {lo n : Nat} (h : lo + n ≤ 32) :
    w &&& onesAt lo n = 0#32 ↔ field w lo n = 0#n := by
  constructor
  · intro hw
    refine BitVec.eq_of_getLsbD_eq fun k hk => ?_
    have hbit : (w &&& onesAt lo n).getLsbD (lo + k) = false := by rw [hw, BitVec.getLsbD_zero]
    rw [BitVec.getLsbD_and, getLsbD_onesAt h] at hbit
    rw [getLsbD_field, BitVec.getLsbD_zero]
    grind
  · intro hf
    refine BitVec.eq_of_getLsbD_eq fun k _ => ?_
    have hbit : (field w lo n).getLsbD (k - lo) = false := by rw [hf, BitVec.getLsbD_zero]
    rw [getLsbD_field] at hbit
    rw [BitVec.getLsbD_and, getLsbD_onesAt h, BitVec.getLsbD_zero]
    grind

theorem and_twoOnesAt_eq_zero_iff {w : Word} {lo n lo' n' : Nat} (h : lo + n ≤ 32) (h' : lo' + n' ≤ 32) :
    w &&& (onesAt lo n ||| onesAt lo' n') = 0#32 ↔ field w lo n = 0#n ∧ field w lo' n' = 0#n' := by
  rw [BitVec.and_or_distrib_left, ← and_onesAt_eq_zero_iff h, ← and_onesAt_eq_zero_iff h']
  exact BitVec.or_eq_zero_iff

/-- A field is two adjacent ones, the low one last. -/
theorem append_eq_field_iff {w : Word} {lo m n : Nat} {a : BitVec m} {b : BitVec n} :
    a ++ b = field w lo (m + n) ↔ a = field w (lo + n) m ∧ b = field w lo n := by
  have hsplit : field w lo (m + n) = field w (lo + n) m ++ field w lo n :=
    (BitVec.extractLsb'_append_extractLsb'_eq_extractLsb' rfl).symm
  rw [hsplit]
  constructor
  · intro h
    have hhigh := congrArg (BitVec.extractLsb' n m) h
    have hlow := congrArg (BitVec.extractLsb' 0 n) h
    rw [BitVec.extractLsb'_append_eq_left, BitVec.extractLsb'_append_eq_left] at hhigh
    rw [BitVec.extractLsb'_append_eq_right, BitVec.extractLsb'_append_eq_right] at hlow
    exact ⟨hhigh, hlow⟩
  · rintro ⟨rfl, rfl⟩; rfl

/-- The operand word of two halves (R210 `TB.STORED`). -/
theorem halves_eq_iff {w : Word} {a b : Half} : a ++ b = w ↔ a = field w 16 16 ∧ b = field w 0 16 := by
  have h := append_eq_field_iff (w := w) (lo := 0) (a := a) (b := b)
  rwa [show field w 0 (16 + 16) = w from BitVec.extractLsb'_eq_self] at h

@[simp] theorem field_append_high (a b : Half) : field (a ++ b) 16 16 = a := BitVec.extractLsb'_append_eq_left

@[simp] theorem field_append_low (a b : Half) : field (a ++ b) 0 16 = b := BitVec.extractLsb'_append_eq_right

theorem word0_eq_iff {u : Byte} {imm : BitVec 24} {w : Word} :
    word0 u imm = w ↔ (field w 24 8).toNat = u.toNat ∧ imm = field w 0 24 := by
  have h := append_eq_field_iff (w := w) (lo := 0) (a := u) (b := imm)
  rw [show field w 0 (8 + 24) = w from BitVec.extractLsb'_eq_self] at h
  rwa [BitVec.toNat_inj, eq_comm (a := field w 24 8)]

/-! ## The layouts of IMM24 (R202..R210)

One lemma a layout: a word is the one with the given UNIT and OP and the given fields just when it carries them and the bits
that the decoder's mask for the layout names are clear. -/

section
variable {u : Byte} {w : Word}

@[simp] theorem word0_empty_eq_iff :
    word0 u 0#24 = w ↔ (field w 24 8).toNat = u.toNat ∧ w &&& 0x00FFFFFF#32 = 0#32 := by
  rw [word0_eq_iff, show 0x00FFFFFF#32 = onesAt 0 24 from rfl, and_onesAt_eq_zero_iff (by decide)]
  simp only [eq_comm]

/-- The layouts with one field, in the low bits. -/
theorem word0_low_eq_iff {m n : Nat} (h : m + n = 24) {x : BitVec n} :
    word0 u ((0#m ++ x).cast h) = w ↔
      (field w 24 8).toNat = u.toNat ∧ w &&& onesAt n m = 0#32 ∧ field w 0 n = x := by
  have hcast : ∀ {k : Nat} (hk : m + n = k), (0#m ++ x).cast hk = field w 0 k ↔ 0#m ++ x = field w 0 (m + n) := by
    rintro k rfl
    rfl
  rw [word0_eq_iff, hcast, append_eq_field_iff, and_onesAt_eq_zero_iff (by omega)]
  simp only [eq_comm, Nat.zero_add]

@[simp] theorem word0_low1_eq_iff {x : BitVec 1} : word0 u (0#23 ++ x) = w ↔
    (field w 24 8).toNat = u.toNat ∧ w &&& 0x00FFFFFE#32 = 0#32 ∧ field w 0 1 = x := word0_low_eq_iff (m := 23) rfl

@[simp] theorem word0_low2_eq_iff {x : BitVec 2} : word0 u (0#22 ++ x) = w ↔
    (field w 24 8).toNat = u.toNat ∧ w &&& 0x00FFFFFC#32 = 0#32 ∧ field w 0 2 = x := word0_low_eq_iff (m := 22) rfl

@[simp] theorem word0_low3_eq_iff {x : BitVec 3} : word0 u (0#21 ++ x) = w ↔
    (field w 24 8).toNat = u.toNat ∧ w &&& 0x00FFFFF8#32 = 0#32 ∧ field w 0 3 = x := word0_low_eq_iff (m := 21) rfl

@[simp] theorem word0_low5_eq_iff {x : BitVec 5} : word0 u (0#19 ++ x) = w ↔
    (field w 24 8).toNat = u.toNat ∧ w &&& 0x00FFFFE0#32 = 0#32 ∧ field w 0 5 = x := word0_low_eq_iff (m := 19) rfl

@[simp] theorem word0_low8_eq_iff {x : Byte} : word0 u (0#16 ++ x) = w ↔
    (field w 24 8).toNat = u.toNat ∧ w &&& 0x00FFFF00#32 = 0#32 ∧ field w 0 8 = x := word0_low_eq_iff (m := 16) rfl

@[simp] theorem word0_low9_eq_iff {x : BitVec 9} : word0 u (0#15 ++ x) = w ↔
    (field w 24 8).toNat = u.toNat ∧ w &&& 0x00FFFE00#32 = 0#32 ∧ field w 0 9 = x := word0_low_eq_iff (m := 15) rfl

@[simp] theorem word0_infReset_eq_iff {wbits : BitVec 4} {hasDict : BitVec 1} :
    word0 u (0#19 ++ hasDict ++ wbits) = w ↔
      (field w 24 8).toNat = u.toNat ∧ w &&& 0x00FFFFE0#32 = 0#32 ∧ field w 0 4 = wbits ∧ field w 4 1 = hasDict := by
  rw [word0_eq_iff, append_eq_field_iff, append_eq_field_iff, show 0x00FFFFE0#32 = onesAt 5 19 from rfl,
    and_onesAt_eq_zero_iff (by decide)]
  simp only [and_assoc, and_comm, eq_comm, Nat.zero_add, Nat.reduceAdd]

@[simp] theorem word0_defReset_eq_iff {wbits level : BitVec 4} {strategy : BitVec 2} :
    word0 u (0#14 ++ strategy ++ level ++ wbits) = w ↔
      (field w 24 8).toNat = u.toNat ∧ w &&& 0x00FFFC00#32 = 0#32 ∧ field w 0 4 = wbits ∧ field w 4 4 = level ∧
        field w 8 2 = strategy := by
  rw [word0_eq_iff, append_eq_field_iff, append_eq_field_iff, append_eq_field_iff,
    show 0x00FFFC00#32 = onesAt 10 14 from rfl, and_onesAt_eq_zero_iff (by decide)]
  simp only [and_assoc, and_comm, eq_comm, Nat.zero_add, Nat.reduceAdd]

@[simp] theorem word0_bcwPut_eq_iff {n : BitVec 5} {value : Half} :
    word0 u (value ++ 0#3 ++ n) = w ↔
      (field w 24 8).toNat = u.toNat ∧ w &&& 0x000000E0#32 = 0#32 ∧ field w 0 5 = n ∧ field w 8 16 = value := by
  rw [word0_eq_iff, append_eq_field_iff, append_eq_field_iff, show 0x000000E0#32 = onesAt 5 3 from rfl,
    and_onesAt_eq_zero_iff (by decide)]
  simp only [and_assoc, and_comm, and_left_comm, eq_comm, Nat.zero_add, Nat.reduceAdd]

@[simp] theorem word0_bcwPutShort_eq_iff {v : Half} :
    word0 u (v ++ 0#8) = w ↔ (field w 24 8).toNat = u.toNat ∧ w &&& 0x000000FF#32 = 0#32 ∧ field w 8 16 = v := by
  rw [word0_eq_iff, append_eq_field_iff, show 0x000000FF#32 = onesAt 0 8 from rfl, and_onesAt_eq_zero_iff (by decide)]
  simp only [and_comm, eq_comm, Nat.zero_add]

@[simp] theorem word0_hdtBuild_eq_iff {kind : BitVec 2} {n : BitVec 9} :
    word0 u (0#7 ++ n ++ 0#6 ++ kind) = w ↔
      (field w 24 8).toNat = u.toNat ∧ w &&& 0x00FE00FC#32 = 0#32 ∧ field w 0 2 = kind ∧ field w 8 9 = n := by
  rw [word0_eq_iff, append_eq_field_iff, append_eq_field_iff, append_eq_field_iff,
    show 0x00FE00FC#32 = onesAt 17 7 ||| onesAt 2 6 from rfl, and_twoOnesAt_eq_zero_iff (by decide) (by decide)]
  simp only [and_assoc, and_comm, and_left_comm, eq_comm, Nat.zero_add, Nat.reduceAdd]

@[simp] theorem word0_tbSendAll_eq_iff {lcodes : BitVec 9} {dcodes blcodes : BitVec 5} :
    word0 u (0#5 ++ blcodes ++ dcodes ++ lcodes) = w ↔
      (field w 24 8).toNat = u.toNat ∧ w &&& 0x00F80000#32 = 0#32 ∧ field w 0 9 = lcodes ∧ field w 9 5 = dcodes ∧
        field w 14 5 = blcodes := by
  rw [word0_eq_iff, append_eq_field_iff, append_eq_field_iff, append_eq_field_iff,
    show 0x00F80000#32 = onesAt 19 5 from rfl, and_onesAt_eq_zero_iff (by decide)]
  simp only [and_assoc, and_comm, eq_comm, Nat.zero_add, Nat.reduceAdd]

end

/-! ## The two forms of a row (R200, R211) -/

section
variable {i j : Instr} {w0 w1 mask : Word}

theorem oneWord_eq_ok_iff : oneWord i w0 w1 mask = .ok j ↔ i = j ∧ w0 &&& mask = 0 ∧ w1 = 0 := by
  unfold oneWord
  split
  · next h => simp [h]
  · next h => exact iff_of_false nofun fun ⟨_, hj⟩ => h hj

theorem twoWords_eq_ok_iff : twoWords i w0 mask = .ok j ↔ i = j ∧ w0 &&& mask = 0 := by
  unfold twoWords
  split
  · next h => simp [h]
  · next h => exact iff_of_false nofun fun ⟨_, hj⟩ => h hj

theorem oneWord_ne_unknown : oneWord i w0 w1 mask ≠ .error .unknown := by
  unfold oneWord
  split <;> exact nofun

theorem twoWords_ne_unknown : twoWords i w0 mask ≠ .error .unknown := by
  unfold twoWords
  split <;> exact nofun

end

/-! ## Decoder and encoder -/

/-- A first word that the encoder gives carries the fields and clear bits of its layout, which is what the decoder's row
asks for. -/
theorem decode_of_encode {w0 : Word} {i : Instr} (h : (encode i).1 = w0) : decode w0 (encode i).2 = .ok i := by
  cases i
  all_goals
    simp [encode] at h
    simp [encode, decode, oneWord, twoWords, h]

/-- A row of the decoder that answers a command has found the fields and clear bits of its layout, which make the word the
encoder gives. -/
theorem encode_of_decode {w0 w1 : Word} {i : Instr} (h : decode w0 w1 = .ok i) : encode i = (w0, w1) := by
  unfold decode at h
  split at h
  case h_44 => cases h
  all_goals
    simp [oneWord_eq_ok_iff, twoWords_eq_ok_iff] at h
    obtain ⟨rfl, h⟩ := h
    simp [encode, halves_eq_iff, *]

/-! ## Unassigned encodings (R215) -/

/-- UNIT and OP of the commands, one byte each (R202..R210). -/
def assignedOps : List Nat :=
  [0x10, 0x11, 0x12, 0x20, 0x21, 0x22, 0x30, 0x31, 0x32, 0x33, 0x34, 0x35, 0x40, 0x41, 0x42, 0x43, 0x44, 0x45, 0x50, 0x51,
    0x52, 0x53, 0x54, 0x55, 0x56, 0x60, 0x61, 0x62, 0x70, 0x71, 0x72, 0x80, 0x81, 0x82, 0x83, 0x84, 0x85, 0x86, 0x87, 0x88,
    0x89, 0x8A, 0x8B]

theorem decode_eq_unknown_iff {w0 w1 : Word} :
    decode w0 w1 = .error .unknown ↔ (field w0 24 8).toNat ∉ assignedOps := by
  unfold decode
  split
  case h_44 => simp_all [assignedOps]
  all_goals simp [oneWord_ne_unknown, twoWords_ne_unknown, assignedOps, *]

theorem not_mem_assignedOps_iff : ∀ u < 256, u ∉ assignedOps ↔
    (u / 16 = 0 ∨ 9 ≤ u / 16 ∨ ((u / 16 = 1 ∨ u / 16 = 2) ∧ 3 ≤ u % 16) ∨ ((u / 16 = 3 ∨ u / 16 = 4) ∧ 6 ≤ u % 16) ∨
      (u / 16 = 5 ∧ 7 ≤ u % 16) ∨ ((u / 16 = 6 ∨ u / 16 = 7) ∧ 3 ≤ u % 16) ∨ (u / 16 = 8 ∧ 12 ≤ u % 16)) := by
  decide +kernel

theorem toNat_field_unitOp (w : Word) : (field w 24 8).toNat = w.toNat / 2 ^ 24 := by
  have := w.isLt
  rw [field, BitVec.extractLsb'_toNat, Nat.shiftRight_eq_div_pow]
  omega

/-! ## The obligations -/

/-- Settles O16: by cases on the command, through the layout of its first word. -/
theorem decodeOfEncode : Obligations.DecodeOfEncode := fun _ => decode_of_encode rfl

/-- Settles O17: by cases on the decoder's rows, through the layout of the first word. -/
theorem encodeOfDecode : Obligations.EncodeOfDecode := fun _ _ _ h => encode_of_decode h

/-- Settles O15: by evaluation of the decoder on each pair of words. -/
theorem sampleWordsDecode : Obligations.SampleWordsDecode := by
  unfold Obligations.SampleWordsDecode
  decide

end Sys2Proof

/-! # Refusals before the body

A command of the wrong kind, illegal operands, and words that do not decode: each raises its StreamError at once
(R211, R214, R215, R775). -/

namespace Sys2Proof.Machine

open Sys2Proof.Claim

variable {s : State} {i : Instr} {c : Command} {rest : List Command}

/-- The units do not have the command's unit (R201, R207). -/
def WrongKind (i : Instr) (eng : Engine) : Prop :=
  (owner i = .inflate ∧ ∀ d, eng ≠ .inflate d) ∨ (owner i = .deflate ∧ ∀ d, eng ≠ .deflate d)

/-- The units have the command's unit (R201, R207). -/
def RightKind (i : Instr) (eng : Engine) : Prop :=
  (owner i = .inflate ∧ ∃ d, eng = .inflate d) ∨ (owner i = .deflate ∧ ∃ d, eng = .deflate d)

/-! ## Commands that decode -/

theorem exec_of_wrongKind (he : s.codec.err = none) (hk : WrongKind i s.codec.engine) :
    exec i s = .next (s.raiseAtOnce .wrongKind) := by
  obtain ⟨ho, hk⟩ | ⟨ho, hk⟩ := hk
  · obtain ⟨body, hx⟩ := exec_inflate i ho
    rw [hx, State.inflateCommand_wrongKind he hk]
  · obtain ⟨body, hx⟩ := exec_deflate i ho
    rw [hx, State.deflateCommand_wrongKind he hk]

theorem exec_of_illegal (he : s.codec.err = none) (hk : RightKind i s.codec.engine) (hw : i.wellFormed = false) :
    exec i s = .next (s.raiseAtOnce .badOperand) := by
  obtain ⟨ho, d, hd⟩ | ⟨ho, d, hd⟩ := hk
  · obtain ⟨body, hx⟩ := exec_inflate i ho
    rw [hx, operandsLegal, hw, State.inflateCommand_illegal ⟨he, hd⟩]
  · obtain ⟨body, hx⟩ := exec_deflate i ho
    rw [hx, operandsLegal, hw, State.deflateCommand_illegal ⟨he, hd⟩]

/-- A command that raises at once, with every field written out. -/
theorem raises_of_raiseAtOnce {r : StreamReason} (h : exec i s = .next (s.raiseAtOnce r)) :
    raises i s (.stream r) (r.code * 16 + 7) (stopped s.codec.engine) s.port.input [] := by
  rw [raises, h, State.raiseAtOnce_eq_after]

/-! ## Words that do not decode -/

theorem State.refuseDecode_unknown (he : s.codec.err = none) :
    s.refuseDecode .unknown = .next (s.raiseAtOnce .unknownCommand) := by
  simp only [State.refuseDecode, he]

theorem State.refuseDecode_reserved_of_wrongKind (he : s.codec.err = none) (hk : WrongKind i s.codec.engine) :
    s.refuseDecode (.reserved i) = .next (s.raiseAtOnce .wrongKind) := by
  obtain ⟨ho, hk⟩ | ⟨ho, hk⟩ := hk
  · simp only [State.refuseDecode, ho, State.inflateCommand_wrongKind he hk]
  · simp only [State.refuseDecode, ho, State.deflateCommand_wrongKind he hk]

theorem State.refuseDecode_reserved_of_rightKind (he : s.codec.err = none) (hk : RightKind i s.codec.engine) :
    s.refuseDecode (.reserved i) = .next (s.raiseAtOnce .badOperand) := by
  obtain ⟨ho, d, hd⟩ | ⟨ho, d, hd⟩ := hk
  · simp only [State.refuseDecode, ho, State.inflateCommand_illegal ⟨he, hd⟩]
  · simp only [State.refuseDecode, ho, State.deflateCommand_illegal ⟨he, hd⟩]

theorem step_of_decode_error {e : DecodeError} (hq : s.queue = c :: rest) (hd : decode c.w0 c.w1 = .error e) :
    step s = (s.present c rest).refuseDecode e := by simp only [step, hq, hd]

/-- A step on words that do not decode, with every field written out. -/
theorem step_of_refuseDecode {e : DecodeError} {r : StreamReason} (hq : s.queue = c :: rest)
    (hd : decode c.w0 c.w1 = .error e)
    (hr : (s.present c rest).refuseDecode e = .next ((s.present c rest).raiseAtOnce r)) :
    step s = .next (after (s.present c rest) (some (.stream r)) (r.code * 16 + 7) (s.codecAt c.target).regs.result0
      (s.codecAt c.target).regs.result1 (stopped (s.codecAt c.target).engine) c.input []) := by
  rw [step_of_decode_error hq hd, hr, State.raiseAtOnce_eq_after, State.present_codec, State.present_port]

/-! ## The obligations -/

/-- Settles O12: by the frame of a command for words that decode, and of a refused decoding for those that do not. -/
theorem wrongKindRaises : Obligations.WrongKindRaises := by
  refine ⟨fun i s he hk => raises_of_raiseAtOnce (exec_of_wrongKind he hk), fun i s c rest hq hd he hk => ?_⟩
  have hc := State.present_codec s c rest
  exact step_of_refuseDecode hq hd (State.refuseDecode_reserved_of_wrongKind (hc ▸ he) (hc ▸ hk))

/-- Settles O13: by the frame of a command for words that decode, and of a refused decoding for those that do not. -/
theorem badOperandRaises : Obligations.BadOperandRaises := by
  refine ⟨fun i s he hw hk => raises_of_raiseAtOnce (exec_of_illegal he hk hw), fun i s c rest hq hd he hk => ?_⟩
  have hc := State.present_codec s c rest
  exact step_of_refuseDecode hq hd (State.refuseDecode_reserved_of_rightKind (hc ▸ he) (hc ▸ hk))

/-- Settles O14: the decoder has no row for UNIT and OP just when they are none of the assigned ones, which a check of the
256 values compares with R215's ranges; the refusal is that of an unknown command. -/
theorem unassignedEncodingsRefused : Obligations.UnassignedEncodingsRefused := by
  refine ⟨fun w0 w1 => ?_, fun s c rest hq hd he => ?_⟩
  · have hlt : w0.toNat / 2 ^ 24 < 256 := by have := w0.isLt; omega
    have hunit : w0.toNat / 2 ^ 28 = w0.toNat / 2 ^ 24 / 16 := by omega
    rw [decode_eq_unknown_iff, toNat_field_unitOp, not_mem_assignedOps_iff _ hlt, hunit]
  · have hc := State.present_codec s c rest
    exact step_of_refuseDecode hq hd (State.refuseDecode_unknown (hc ▸ he))

end Sys2Proof.Machine

/-! # What a status says of the latch

A body that raises nothing ends with one of the six statuses that are no error (R230), and so every end of a command reports
the latch it leaves (R763, R764). -/

namespace Sys2Proof.Machine

/-! ## The statuses a body ends with -/

/-- Where a body ends without a raise, its status is neither DataError nor StreamError (R230). -/
inductive Reply.EndsClean {σ : Type} : Reply σ → Prop
  | done {st : Status} {r0 r1 : Word} {u : σ} {p : Port} (h : st.code < 6) : Reply.EndsClean (.done st r0 r1 u p)
  | transient {st : Status} (h : st.code < 6) : Reply.EndsClean (.transient st)
  | raised {e : Latch} {u : σ} {p : Port} : Reply.EndsClean (.raised e u p)
  | failed {e : Latch} {u : σ} {p : Port} : Reply.EndsClean (.failed e u p)
  | fault {f : Fault} : Reply.EndsClean (.fault f)

section
variable {σ α : Type}

theorem Reply.ofExcept_endsClean {x : Except Fault α} {k : α → Reply σ} (hk : ∀ a, (k a).EndsClean) :
    (Reply.ofExcept x k).EndsClean := by
  cases x with
  | ok a => exact hk a
  | error f => exact .fault

/-- A deflate command that runs one operation and answers. -/
theorem Reply.answer_endsClean {x : Except Fault α} {g : α → Deflate} {p : α → Port} {r0 r1 : α → Word} :
    (Reply.ofExcept x fun a => (g a).answer (p a) (r0 a) (r1 a)).EndsClean :=
  Reply.ofExcept_endsClean fun _ => .done (by decide)

/-- A bit cursor command answers once its bits are pulled, or ends for want of bits (R217). -/
theorem Dec.answer_or_needMore_endsClean {c c' : Dec} {n r0 r1 : Nat} :
    (if c.has n then c'.answer r0 r1 else c.needMore).EndsClean := by
  split <;> exact .done (by decide)

end

/-! ## The step commands (R470, R680) -/

theorem inflateStep_endsClean (c : Dec) : (inflateStep c).EndsClean := by
  unfold inflateStep
  split
  · exact .done (by decide)
  · split
    · exact .done (by decide)
    · cases inflateLoop (inflateFuel c) false c with
      | fault => exact .fault
      | raised => exact .failed
      | exit =>
        simp only
        split_ifs
        · exact .done (by decide)
        · exact .done (by decide)
        · exact .transient (by decide)
        · exact .transient (by decide)

theorem Enc.endsOk_endsClean (c : Enc) : c.endsOk.EndsClean := by
  unfold Enc.endsOk
  split <;> exact .done (by decide)

theorem Enc.endsStep_endsClean (c : Enc) (flush : Flush) : (c.endsStep flush).EndsClean := by
  refine .done ?_
  split <;> decide

theorem Enc.afterCompress_endsClean (c : Enc) (flush : Flush) (b : BState) : (c.afterCompress flush b).EndsClean := by
  cases b with
  | needMore | finishStarted => exact Enc.endsOk_endsClean _
  | finishDone => exact Enc.endsStep_endsClean _ flush
  | blockDone =>
    refine Reply.ofExcept_endsClean fun c => ?_
    simp only
    split
    · exact Enc.endsOk_endsClean _
    · exact Enc.endsStep_endsClean _ flush

theorem Enc.stepAccepted_endsClean (c : Enc) (flush : Flush) : (c.stepAccepted flush).EndsClean := by
  unfold Enc.stepAccepted
  simp only
  generalize (if (c.u.accept flush).pending ≠ [] then Enc.flushPending { c with u := c.u.accept flush }
    else { c with u := c.u.accept flush }) = c₁
  split_ifs
  · exact Enc.endsOk_endsClean c₁
  · exact Reply.ofExcept_endsClean fun ⟨b, c₂⟩ => Enc.afterCompress_endsClean c₂ flush b
  · exact Enc.endsStep_endsClean c₁ flush

theorem Enc.step_endsClean (c : Enc) (code : BitVec 3) : (c.step code).EndsClean := by
  unfold Enc.step
  split
  · exact .failed
  · split_ifs
    · exact .failed
    · exact .failed
    · exact .transient (by decide)
    · exact .transient (by decide)
    · exact Enc.stepAccepted_endsClean c _

/-! ## The latch a command leaves -/

/-- STATUS says what the latch holds: the latched error where it is set, and a status of no error where it is not. -/
structure Codec.LatchAgrees (c : Codec) : Prop where
  clear : c.err = none → c.regs.status.toNat < 6
  set : ∀ e, c.err = some e → c.regs.status = e.word

theorem Codec.latchAgrees_of_set {c : Codec} {e : Latch} (he : c.err = some e) (hs : c.regs.status = e.word) :
    c.LatchAgrees where
  clear h := by simp [he] at h
  set e' h := by rw [hs, Option.some.inj (he.symm.trans h)]

theorem Codec.latchAgrees_of_clear {c : Codec} {st : Status} (he : c.err = none) (hs : c.regs.status = st.word)
    (hst : st.code < 6) : c.LatchAgrees where
  clear _ := by
    rw [hs, Status.word, BitVec.toNat_ofNat]
    omega
  set e h := by simp [he] at h

section
variable {s t : State}

theorem State.commit_latchAgrees {σ : Type} {wrap : σ → Engine} {reply : Reply σ} (he : s.codec.err = none)
    (hr : reply.EndsClean) (h : s.commit wrap reply = .next t) : t.codec.LatchAgrees := by
  cases hr with
  | done hst => cases h; exact Codec.latchAgrees_of_clear he rfl hst
  | transient hst => cases h; exact Codec.latchAgrees_of_clear he rfl hst
  | raised => cases h; exact Codec.latchAgrees_of_set rfl rfl
  | failed => cases h; exact Codec.latchAgrees_of_set rfl rfl
  | fault => cases h

theorem State.inflateCommand_latchAgrees {legal : Bool} {body : Inflate → Port → Reply Inflate}
    (h : s.inflateCommand legal body = .next t) (hb : ∀ d p, (body d p).EndsClean) : t.codec.LatchAgrees := by
  obtain ⟨e, he, rfl⟩ | ⟨-, -, rfl⟩ | ⟨d, -, -, rfl⟩ | ⟨d, hd, -, hc⟩ := State.inflateCommand_next h
  · exact Codec.latchAgrees_of_set he rfl
  · exact Codec.latchAgrees_of_set rfl rfl
  · exact Codec.latchAgrees_of_set rfl rfl
  · exact State.commit_latchAgrees hd.1 (hb d _) hc

theorem State.deflateCommand_latchAgrees {legal : Bool} {body : Deflate → Port → Reply Deflate}
    (h : s.deflateCommand legal body = .next t) (hb : ∀ d p, (body d p).EndsClean) : t.codec.LatchAgrees := by
  obtain ⟨e, he, rfl⟩ | ⟨-, -, rfl⟩ | ⟨d, -, -, rfl⟩ | ⟨d, hd, -, hc⟩ := State.deflateCommand_next h
  · exact Codec.latchAgrees_of_set he rfl
  · exact Codec.latchAgrees_of_set rfl rfl
  · exact Codec.latchAgrees_of_set rfl rfl
  · exact State.commit_latchAgrees hd.1 (hb d _) hc

theorem State.resetCommand_latchAgrees {legal : Bool} {fresh : Codec} (hf : fresh.LatchAgrees)
    (h : s.resetCommand legal fresh = .next t) : t.codec.LatchAgrees := by
  obtain ⟨-, rfl⟩ | ⟨-, rfl⟩ := State.resetCommand_next h
  · exact hf
  · exact Codec.latchAgrees_of_set rfl rfl

/-! ## The commands -/

theorem exec_reset_latchAgrees {i : Instr} (ho : owner i = .reset) (h : exec i s = .next t) : t.codec.LatchAgrees := by
  cases i with
  | infReset | defReset =>
    exact State.resetCommand_latchAgrees (Codec.latchAgrees_of_clear (st := .ok) rfl rfl (by decide)) h
  | _ => cases ho

theorem exec_inflate_latchAgrees {i : Instr} (ho : owner i = .inflate) (h : exec i s = .next t) :
    t.codec.LatchAgrees := by
  cases i <;> simp only [exec] at h
  case infStep => exact State.inflateCommand_latchAgrees h fun d p => inflateStep_endsClean ⟨d, p⟩
  case infSetDict =>
    refine State.inflateCommand_latchAgrees h fun d p => ?_
    simp only
    split_ifs
    · exact .failed
    · exact .failed
    · exact .done (by decide)
  case bcrNeed | bcrPeek | bcrDrop | bcrGet | bcrByte =>
    exact State.inflateCommand_latchAgrees h fun _ _ => Dec.answer_or_needMore_endsClean
  case bcrAlign | hdtFixed => exact State.inflateCommand_latchAgrees h fun _ _ => .done (by decide)
  case swbPut =>
    refine State.inflateCommand_latchAgrees h fun d p => ?_
    split <;> exact .done (by decide)
  case swbCopy =>
    refine State.inflateCommand_latchAgrees h fun d p => ?_
    split
    · exact .done (by decide)
    · exact .done (by split <;> decide)
  case swbDrain => exact State.inflateCommand_latchAgrees h fun d p => .done (by split <;> decide)
  case swbSeed =>
    refine State.inflateCommand_latchAgrees h fun d p => ?_
    split
    · exact .raised
    · exact .done (by decide)
  case hdtBuild =>
    refine State.inflateCommand_latchAgrees h fun d p => ?_
    simp only
    split
    · exact .raised
    · exact Reply.ofExcept_endsClean fun _ => .done (by decide)
  case hdtDecode =>
    refine State.inflateCommand_latchAgrees h fun d p => ?_
    split
    · exact .raised
    · refine Reply.ofExcept_endsClean fun ⟨e?, c⟩ => ?_
      cases e? <;> exact .done (by decide)
  all_goals cases ho

theorem exec_deflate_latchAgrees {i : Instr} (ho : owner i = .deflate) (h : exec i s = .next t) :
    t.codec.LatchAgrees := by
  cases i <;> simp only [exec] at h
  case defStep flush => exact State.deflateCommand_latchAgrees h fun d p => Enc.step_endsClean ⟨d, p⟩ flush
  case defSetDict =>
    refine State.deflateCommand_latchAgrees h fun d p => ?_
    split
    · exact .failed
    · exact Reply.answer_endsClean
  case swbDseed | mfInsert | mfLongest | tbTally | tbStored =>
    refine State.deflateCommand_latchAgrees h fun d p => ?_
    split
    · exact .raised
    · exact Reply.answer_endsClean
  case swbSlide =>
    refine State.deflateCommand_latchAgrees h fun d p => ?_
    split
    · exact .raised
    · exact .done (by decide)
  case bcwDrain => exact State.deflateCommand_latchAgrees h fun d p => .done (by split <;> decide)
  case tbInitBlock => exact State.deflateCommand_latchAgrees h fun _ _ => .done (by decide)
  case tbGenCodes | tbScan | tbSendTree =>
    exact State.deflateCommand_latchAgrees h fun _ _ => Reply.ofExcept_endsClean fun _ => Reply.answer_endsClean
  case bcwPut | bcwPutByte | bcwPutShort | bcwWindup | bcwFlush | swbFill | mfHashInit | tbBuild | tbGenBitlen | tbBlTree |
      tbSendAll | tbCompress | tbFlushBlock =>
    exact State.deflateCommand_latchAgrees h fun _ _ => Reply.answer_endsClean
  all_goals cases ho

/-- Every command reports the latch it leaves. -/
theorem exec_latchAgrees {i : Instr} (h : exec i s = .next t) : t.codec.LatchAgrees := by
  cases ho : owner i with
  | reset => exact exec_reset_latchAgrees ho h
  | inflate => exact exec_inflate_latchAgrees ho h
  | deflate => exact exec_deflate_latchAgrees ho h

end

/-! ## The obligation -/

/-- Settles O9: the codes by evaluation, and the agreement because each end of a command reports the latch it leaves. -/
theorem statusReportsTheLatch : Obligations.StatusReportsTheLatch := by
  refine ⟨rfl, rfl, rfl, fun i s t h => ?_⟩
  have hagrees := exec_latchAgrees h
  split
  · exact hagrees.clear ‹_›
  · exact hagrees.set _ ‹_›

end Sys2Proof.Machine

/-! # The bit cursor and its commands

A pull takes the bytes it needs off the front of the slice, and the field that is read after it is the low end of the
cursor's bits followed by the slice's (R153, R300..R305). -/

namespace Sys2Proof.Machine

open Sys2Proof.Claim

/-! ## The stream as a number (R153) -/

theorem streamValue_eq_ofDigits (bs : List Byte) : streamValue bs = Nat.ofDigits 256 (bs.map BitVec.toNat) := by
  induction bs with
  | nil => rfl
  | cons b bs ih => rw [streamValue, List.map_cons, Nat.ofDigits_cons, ih]

theorem streamValue_append (as bs : List Byte) :
    streamValue (as ++ bs) = streamValue as + 2 ^ (8 * as.length) * streamValue bs := by
  simp only [streamValue_eq_ofDigits, List.map_append, Nat.ofDigits_append, List.length_map, Nat.pow_mul, Nat.reducePow]

theorem streamValue_lt (bs : List Byte) : streamValue bs < 2 ^ (8 * bs.length) := by
  have hbytes : ∀ x ∈ bs.map BitVec.toNat, x < 256 := by
    simp only [List.forall_mem_map]
    exact fun b _ => b.isLt
  have := Nat.ofDigits_lt_base_pow_length (by decide) hbytes
  rwa [← streamValue_eq_ofDigits, List.length_map, show 256 = 2 ^ 8 from rfl, ← Nat.pow_mul] at this

/-! ## The cursor's bits -/

section
variable {bc : BitCursor} {n : Nat} {input : List Byte}

@[simp] theorem bitsOf_nil (bc : BitCursor) : bitsOf bc [] = bc.bitBuffer.toNat := by simp [bitsOf, streamValue]

theorem bitsOf_append (bc : BitCursor) (as bs : List Byte) :
    bitsOf bc (as ++ bs) = bitsOf bc as + 2 ^ (bc.bitCount + 8 * as.length) * streamValue bs := by
  simp only [bitsOf, streamValue_append, Nat.pow_add]
  ring

theorem bitsOf_lt (h : bc.Ok) (bs : List Byte) : bitsOf bc bs < 2 ^ (bc.bitCount + 8 * bs.length) := by
  have hbuf : bc.bitBuffer.toNat < 2 ^ bc.bitCount := h
  calc bitsOf bc bs < 2 ^ bc.bitCount * (streamValue bs + 1) := by rw [bitsOf]; linarith
    _ ≤ 2 ^ bc.bitCount * 2 ^ (8 * bs.length) := Nat.mul_le_mul_left _ (streamValue_lt bs)
    _ = 2 ^ (bc.bitCount + 8 * bs.length) := (Nat.pow_add ..).symm

/-- A field that ends within the cursor's bits and the bytes `as` does not depend on the bytes after them. -/
theorem bitsOf_append_mod {as : List Byte} (h : n ≤ bc.bitCount + 8 * as.length) (bs : List Byte) :
    bitsOf bc (as ++ bs) % 2 ^ n = bitsOf bc as % 2 ^ n := by
  obtain ⟨k, hk⟩ := Nat.exists_eq_add_of_le h
  rw [bitsOf_append, hk, Nat.pow_add, Nat.mul_assoc, Nat.add_mul_mod_self_left]

theorem length_take_pullCount (h : n ≤ bc.bitCount + 8 * input.length) :
    (input.take (pullCount bc n)).length = pullCount bc n := by
  rw [List.length_take, Nat.min_eq_left]
  unfold pullCount
  omega

theorem le_bitCount_add_pullCount (bc : BitCursor) (n : Nat) : n ≤ bc.bitCount + 8 * pullCount bc n := by
  unfold pullCount
  omega

/-- Where there are too few bits, every byte is needed. -/
theorem length_le_pullCount (h : bc.bitCount + 8 * input.length < n) : input.length ≤ pullCount bc n := by
  unfold pullCount
  omega

theorem bitsOf_take_mod (h : n ≤ bc.bitCount + 8 * input.length) :
    bitsOf bc (input.take (pullCount bc n)) % 2 ^ n = bitsOf bc input % 2 ^ n := by
  have hlen : n ≤ bc.bitCount + 8 * (input.take (pullCount bc n)).length := by
    rw [length_take_pullCount h]
    exact le_bitCount_add_pullCount bc n
  conv_rhs => rw [← List.take_append_drop (pullCount bc n) input]
  exact (bitsOf_append_mod hlen _).symm

/-- The bits a pull leaves in the cursor fit its buffer: a byte is pulled only below n ≤ 25 bits (R300). -/
theorem bitsOf_take_lt (hn : n ≤ 25) (h : bc.Ok) (input : List Byte) :
    bitsOf bc (input.take (pullCount bc n)) < 2 ^ 32 := by
  by_cases hb : n ≤ bc.bitCount
  · have hk : pullCount bc n = 0 := by unfold pullCount; omega
    rw [hk, List.take_zero, bitsOf_nil]
    exact bc.bitBuffer.isLt
  · have hlen := List.length_take_le (pullCount bc n) input
    refine (bitsOf_lt h _).trans_le (Nat.pow_le_pow_right (by decide) ?_)
    unfold pullCount at hlen ⊢
    omega

/-! ## Peek and Drop after a pull (R301, R302) -/

@[simp] theorem cursorAfter_nil_zero (bc : BitCursor) : cursorAfter bc [] 0 = bc := by simp [cursorAfter]

theorem BitCursor.peek_cursorAfter {got : List Byte} (h : bitsOf bc got < 2 ^ 32) (n : Nat) :
    (cursorAfter bc got 0).peek n = bitsOf bc got % 2 ^ n := by
  simp only [BitCursor.peek, cursorAfter, Nat.pow_zero, Nat.div_one, BitVec.toNat_ofNat, Nat.mod_eq_of_lt h]

theorem BitCursor.drop_cursorAfter {got : List Byte} (h : bitsOf bc got < 2 ^ 32) (n : Nat) :
    (cursorAfter bc got 0).drop n = cursorAfter bc got n := by
  have hbuf : BitVec.ofNat 32 (bitsOf bc got) >>> n = BitVec.ofNat 32 (bitsOf bc got / 2 ^ n) := by
    apply BitVec.eq_of_toNat_eq
    rw [BitVec.toNat_ushiftRight, BitVec.toNat_ofNat, BitVec.toNat_ofNat, Nat.mod_eq_of_lt h, Nat.shiftRight_eq_div_pow,
      Nat.mod_eq_of_lt ((Nat.div_le_self _ _).trans_lt h)]
  simp only [BitCursor.drop, cursorAfter, Nat.pow_zero, Nat.div_one, hbuf, Nat.sub_zero]

/-- A drop with nothing pulled (R302). -/
theorem BitCursor.drop_eq_cursorAfter (bc : BitCursor) (n : Nat) : bc.drop n = cursorAfter bc [] n := by
  rw [← BitCursor.drop_cursorAfter (by rw [bitsOf_nil]; exact bc.bitBuffer.isLt), cursorAfter_nil_zero]

end

/-! ## The cursor with its port -/

section
variable {c : Dec} {n : Nat}

/-- The decoder after it took the bytes `Need(n)` pulls and dropped `m` bits. -/
def Dec.pulled (c : Dec) (n m : Nat) : Dec :=
  { u := { c.u with bc := cursorAfter c.u.bc (c.port.input.take (pullCount c.u.bc n)) m }
    port := { c.port with input := c.port.input.drop (pullCount c.u.bc n) } }

theorem Dec.pull_eq_pulled (hn : n ≤ 25) (h : c.u.bc.Ok) : c.pull n = c.pulled n 0 := by
  simp only [Dec.pull, Dec.pulled, BitCursor.pull_eq hn h]

theorem Dec.pulled_has (h : n ≤ c.u.bc.bitCount + 8 * c.port.input.length) : (c.pulled n 0).has n = true := by
  simpa only [Dec.has, Dec.pulled, cursorAfter, length_take_pullCount h, Nat.sub_zero, decide_eq_true_eq]
    using le_bitCount_add_pullCount c.u.bc n

theorem Dec.pulled_peek (hn : n ≤ 25) (h : c.u.bc.Ok) (hle : n ≤ c.u.bc.bitCount + 8 * c.port.input.length) :
    (c.pulled n 0).peek n = bitsOf c.u.bc c.port.input % 2 ^ n :=
  (BitCursor.peek_cursorAfter (bitsOf_take_lt hn h _) n).trans (bitsOf_take_mod hle)

theorem Dec.pulled_drop (hn : n ≤ 25) (h : c.u.bc.Ok) : (c.pulled n 0).drop n = c.pulled n n := by
  simp only [Dec.drop, Dec.pulled, BitCursor.drop_cursorAfter (bitsOf_take_lt hn h _)]

/-- With too few bits every byte is pulled (R300). -/
theorem Dec.pulled_of_starved (hlt : c.u.bc.bitCount + 8 * c.port.input.length < n) :
    c.pulled n 0 = ⟨{ c.u with bc := cursorAfter c.u.bc c.port.input 0 }, { c.port with input := [] }⟩ := by
  have hlen := length_le_pullCount hlt
  rw [Dec.pulled, List.take_of_length_le hlen, List.drop_of_length_le hlen]

theorem Dec.pulled_has_of_starved (hlt : c.u.bc.bitCount + 8 * c.port.input.length < n) :
    (c.pulled n 0).has n = false := by
  rw [Dec.pulled_of_starved hlt]
  exact decide_eq_false (Nat.not_le_of_lt hlt)

end

/-! ## The commands (R300..R305) -/

section
variable {i : Instr} {s : State} {d : Inflate} {n : Nat} {k : Dec → Reply Inflate}

/-- The body of a command that performs `Need(n)` first: with the bits it goes on with `k` (R217). -/
def Dec.afterNeed (n : Nat) (k : Dec → Reply Inflate) (d : Inflate) (p : Port) : Reply Inflate :=
  let c := Dec.pull ⟨d, p⟩ n
  if c.has n then k c else c.needMore

theorem State.inflateCommand_legal (h : i.wellFormed = true) (body : Inflate → Port → Reply Inflate) :
    s.inflateCommand (operandsLegal i) body = s.inflateCommand true body := by rw [operandsLegal, h]

theorem exec_bcrNeed {n : BitVec 5} (hn : n.toNat ≤ 16) (s : State) : exec (.bcrNeed n) s =
    s.inflateCommand true (Dec.afterNeed n.toNat fun c => c.answer 1 0) := by
  rw [← State.inflateCommand_legal (i := .bcrNeed n) (decide_eq_true hn)]
  rfl

theorem exec_bcrPeek {n : BitVec 5} (hn : n.toNat ≤ 16) (s : State) : exec (.bcrPeek n) s =
    s.inflateCommand true (Dec.afterNeed n.toNat fun c => c.answer (c.peek n.toNat) 0) := by
  rw [← State.inflateCommand_legal (i := .bcrPeek n) (decide_eq_true hn)]
  rfl

theorem exec_bcrDrop {n : BitVec 5} (hn : n.toNat ≤ 16) (s : State) : exec (.bcrDrop n) s =
    s.inflateCommand true (Dec.afterNeed n.toNat fun c => (c.drop n.toNat).answer 0 0) := by
  rw [← State.inflateCommand_legal (i := .bcrDrop n) (decide_eq_true hn)]
  rfl

theorem exec_bcrGet {n : BitVec 5} (hn : n.toNat ≤ 16) (s : State) : exec (.bcrGet n) s =
    s.inflateCommand true (Dec.afterNeed n.toNat fun c => (c.drop n.toNat).answer (c.peek n.toNat) 0) := by
  rw [← State.inflateCommand_legal (i := .bcrGet n) (decide_eq_true hn)]
  rfl

theorem exec_bcrByte (s : State) : exec .bcrByte s =
    s.inflateCommand true (Dec.afterNeed 8 fun c => (c.drop 8).answer (c.peek 8) 1) := rfl

theorem exec_bcrAlign (s : State) : exec .bcrAlign s =
    s.inflateCommand true fun d p => (Dec.align ⟨d, p⟩).answer d.bc.alignCount 0 := rfl

/-- With the bits it needs, a command answers after its pull. -/
theorem completes_afterNeed {m r0 r1 : Nat} (h : s.isInflate d) (hbc : d.bc.Ok) (hn : n ≤ 25)
    (hx : exec i s = s.inflateCommand true (Dec.afterNeed n k)) (hle : n ≤ d.bc.bitCount + 8 * s.port.input.length)
    (hk : k (Dec.pulled ⟨d, s.startPort⟩ n 0) = (Dec.pulled ⟨d, s.startPort⟩ n m).answer r0 r1) :
    completes i s 0 r0 r1 (.inflate { d with bc := cursorAfter d.bc (s.port.input.take (pullCount d.bc n)) m })
      (s.port.input.drop (pullCount d.bc n)) [] := by
  refine completes_of_inflate (st := .ok) (p := (Dec.pulled ⟨d, s.startPort⟩ n m).port) h hx ?_ rfl
  rw [Dec.afterNeed, Dec.pull_eq_pulled hn hbc, if_pos (Dec.pulled_has hle), hk]
  rfl

/-- Without the bits it needs, a command pulls every byte and asks for more input. -/
theorem completes_afterNeed_starved (h : s.isInflate d) (hbc : d.bc.Ok) (hn : n ≤ 25)
    (hx : exec i s = s.inflateCommand true (Dec.afterNeed n k)) (hlt : d.bc.bitCount + 8 * s.port.input.length < n) :
    completes i s 3 0 0 (.inflate { d with bc := cursorAfter d.bc s.port.input 0 }) [] [] := by
  have hhas := Dec.pulled_has_of_starved (c := ⟨d, s.startPort⟩) hlt
  refine completes_of_inflate (st := .needMoreInput) (p := { s.startPort with input := [] }) h hx ?_ rfl
  rw [Dec.afterNeed, Dec.pull_eq_pulled hn hbc, hhas, Dec.pulled_of_starved hlt]
  rfl

end

/-! ## The obligations -/

/-- Settles O21: a legal NEED, PEEK, DROP or GET is an answer after `Need(n)`, and what it answers and drops is read off
the cursor its pull leaves. -/
theorem bitFieldsInStreamOrder : Obligations.BitFieldsInStreamOrder := by
  intro n s d h hbc hn16
  have hn : n.toNat ≤ 25 := by omega
  refine ⟨fun hle => ?_, fun hlt => ?_⟩
  · have hv := Dec.pulled_peek (c := ⟨d, s.startPort⟩) hn hbc hle
    have hd := Dec.pulled_drop (c := ⟨d, s.startPort⟩) hn hbc
    exact ⟨completes_afterNeed h hbc hn (exec_bcrNeed hn16 s) hle rfl,
      completes_afterNeed h hbc hn (exec_bcrPeek hn16 s) hle (by rw [hv]; rfl),
      completes_afterNeed h hbc hn (exec_bcrDrop hn16 s) hle (by rw [hd]),
      completes_afterNeed h hbc hn (exec_bcrGet hn16 s) hle (by rw [hv, hd]; rfl)⟩
  · exact ⟨completes_afterNeed_starved h hbc hn (exec_bcrNeed hn16 s) hlt,
      completes_afterNeed_starved h hbc hn (exec_bcrPeek hn16 s) hlt,
      completes_afterNeed_starved h hbc hn (exec_bcrDrop hn16 s) hlt,
      completes_afterNeed_starved h hbc hn (exec_bcrGet hn16 s) hlt⟩

/-- Settles O22: ALIGN drops without a pull, and BYTE is an answer after `Need(8)`. -/
theorem alignAndByte : Obligations.AlignAndByte := by
  intro s d h hbc
  have hn : 8 ≤ 25 := by omega
  refine ⟨?_, fun hle => ?_, completes_afterNeed_starved h hbc hn (exec_bcrByte s)⟩
  · rw [← BitCursor.drop_eq_cursorAfter]
    exact completes_of_inflate (st := .ok) (p := s.startPort) h (exec_bcrAlign s) rfl rfl
  · have hv := Dec.pulled_peek (c := ⟨d, s.startPort⟩) hn hbc hle
    have hd := Dec.pulled_drop (c := ⟨d, s.startPort⟩) hn hbc
    exact completes_afterNeed h hbc hn (exec_bcrByte s) hle (by rw [hv, hd]; rfl)

end Sys2Proof.Machine

/-! # The bit packer and its commands

A field is added above the bits held, and the bytes that leave the packer are the low bytes of that sum (R340..R350). -/

namespace Sys2Proof.Machine

open Sys2Proof.Claim

/-! ## Words as bytes (R155) -/

@[simp] theorem length_bytesOf (v k : Nat) : (bytesOf v k).length = k := by
  induction k generalizing v with
  | zero => rfl
  | succ k ih => rw [bytesOf, List.length_cons, ih]

/-- The two low bytes of a number are those of its low half. -/
theorem bytesOf_ofNat_two (v : Nat) : bytesOf (BitVec.ofNat 16 v).toNat 2 = bytesOf v 2 := by
  have hlow : BitVec.ofNat 8 (v % 65536) = BitVec.ofNat 8 v := BitVec.eq_of_toNat_eq (by simp)
  have hhigh : BitVec.ofNat 8 (v % 65536 / 256) = BitVec.ofNat 8 (v / 256) :=
    BitVec.eq_of_toNat_eq (by simp only [BitVec.toNat_ofNat]; omega)
  simp only [bytesOf, BitVec.toNat_ofNat, Nat.reducePow, hlow, hhigh]

theorem ofNat_toNat_div_two_pow {w : Nat} (x : BitVec w) (k : Nat) :
    BitVec.ofNat w (x.toNat / 2 ^ k) = x >>> k := by
  rw [← Nat.shiftRight_eq_div_pow, ← BitVec.toNat_ushiftRight, BitVec.ofNat_toNat, BitVec.setWidth_eq]

section
variable {d : Deflate}

/-! ## The FIFO (R341, R342, R350) -/

theorem Deflate.putBytes_full {bs : List Byte} (h : 65536 < d.pending.length + bs.length) :
    d.putBytes bs = .error (.indexFault .pending 65536) := if_neg (Nat.not_le_of_lt h)

/-- `PutShort` in the words of the statements. -/
theorem Deflate.putShort_eq_putBytes (d : Deflate) (w : Half) : d.putShort w = d.putBytes (bytesOf w.toNat 2) := by
  simp only [Deflate.putShort, BitVec.extractLsb', Nat.shiftRight_eq_div_pow, Nat.reducePow, Nat.div_one, bytesOf]

/-- `PutByte` of a word's low byte in the words of the statements. -/
theorem Deflate.putByte_low_eq_putBytes (d : Deflate) (w : Half) :
    d.putByte (w.extractLsb' 0 8) = d.putBytes (bytesOf w.toNat 1) := rfl

theorem Deflate.putBytes_bytesOf {k : Nat} (hk : k ≤ 2) (hp : d.pending.length + 2 ≤ 65536) (v : Nat) :
    d.putBytes (bytesOf v k) = .ok { d with pending := d.pending ++ bytesOf v k } :=
  Deflate.putBytes_ok (by rw [length_bytesOf]; omega)

theorem Deflate.putShort_ok (hp : d.pending.length + 2 ≤ 65536) (w : Half) :
    d.putShort w = .ok { d with pending := d.pending ++ bytesOf w.toNat 2 } :=
  (d.putShort_eq_putBytes w).trans (Deflate.putBytes_bytesOf (le_refl 2) hp _)

theorem Deflate.putByte_low_ok (hp : d.pending.length + 2 ≤ 65536) (w : Half) :
    d.putByte (w.extractLsb' 0 8) = .ok { d with pending := d.pending ++ bytesOf w.toNat 1 } :=
  (d.putByte_low_eq_putBytes w).trans (Deflate.putBytes_bytesOf one_le_two hp _)

/-- What `FlushPending` moves, in the words of the statements (R350). -/
theorem Enc.flushPending_eq (c : Enc) :
    c.flushPending =
      ⟨{ c.u with pending := c.u.pending.drop c.port.space }, c.port.emit (c.u.pending.take c.port.space)⟩ := by
  have htake : c.u.pending.take c.flushCount = c.u.pending.take c.port.space := by
    rw [Enc.flushCount, Nat.min_comm, ← List.take_eq_take_min]
  have hdrop : c.u.pending.drop c.flushCount = c.u.pending.drop c.port.space := by
    rw [Enc.flushCount, Nat.min_comm, ← List.drop_eq_drop_min]
  rw [Enc.flushPending, htake, hdrop]

/-! ## The bit buffer (R340, R344, R345) -/

/-- A field is added above the bits held: the bits below it are free of it. -/
theorem writerOk_or_shiftLeft (hw : writerOk d) (v : Half) :
    d.bw.biBuf ||| v <<< d.bw.biValid = BitVec.ofNat 16 (d.bw.biBuf.toNat + 2 ^ d.bw.biValid * v.toNat) := by
  have hsum : v.toNat <<< d.bw.biValid ||| d.bw.biBuf.toNat = d.bw.biBuf.toNat + 2 ^ d.bw.biValid * v.toNat := by
    rw [Nat.shiftLeft_eq, Nat.mul_comm, ← Nat.two_pow_add_eq_or_of_lt hw.2, Nat.add_comm]
  apply BitVec.eq_of_toNat_eq
  calc (d.bw.biBuf ||| v <<< d.bw.biValid).toNat
      = d.bw.biBuf.toNat ||| v.toNat <<< d.bw.biValid % 2 ^ 16 := by rw [BitVec.toNat_or, BitVec.toNat_shiftLeft]
    _ = d.bw.biBuf.toNat % 2 ^ 16 ||| v.toNat <<< d.bw.biValid % 2 ^ 16 := by rw [Nat.mod_eq_of_lt d.bw.biBuf.isLt]
    _ = (v.toNat <<< d.bw.biValid ||| d.bw.biBuf.toNat) % 2 ^ 16 := by rw [← Nat.or_mod_two_pow, Nat.or_comm]
    _ = (BitVec.ofNat 16 (d.bw.biBuf.toNat + 2 ^ d.bw.biValid * v.toNat)).toNat := by rw [hsum, BitVec.toNat_ofNat]

/-- The bits of a field that do not fit beside the bits held are those above bit 15 of the sum. -/
theorem writerOk_ushiftRight (hw : writerOk d) (v : Half) :
    v >>> (16 - d.bw.biValid) = BitVec.ofNat 16 ((d.bw.biBuf.toNat + 2 ^ d.bw.biValid * v.toNat) / 65536) := by
  obtain ⟨hvalid, hbuf⟩ := hw
  have hsplit : 65536 = 2 ^ d.bw.biValid * 2 ^ (16 - d.bw.biValid) := by rw [← Nat.pow_add, Nat.add_sub_cancel' hvalid]
  rw [hsplit, ← Nat.div_div_eq_div_mul, Nat.add_mul_div_left _ _ (by positivity), Nat.div_eq_of_lt hbuf, Nat.zero_add,
    ofNat_toNat_div_two_pow]

theorem Deflate.sendBits_fits {n : Nat} (hw : writerOk d) (v : Half) (hn : d.bw.biValid + n ≤ 16) :
    d.sendBits v n =
      .ok { d with bw := ⟨BitVec.ofNat 16 (d.bw.biBuf.toNat + 2 ^ d.bw.biValid * v.toNat), d.bw.biValid + n⟩ } := by
  rw [Deflate.sendBits_def, if_neg (Nat.not_lt_of_le hn), writerOk_or_shiftLeft hw]

theorem Deflate.sendBits_spills {n : Nat} (hw : writerOk d) (v : Half) (hn : ¬d.bw.biValid + n ≤ 16)
    (hp : d.pending.length + 2 ≤ 65536) :
    d.sendBits v n =
      .ok
        { d with
          bw :=
            ⟨BitVec.ofNat 16 ((d.bw.biBuf.toNat + 2 ^ d.bw.biValid * v.toNat) / 65536), d.bw.biValid + n - 16⟩
          pending := d.pending ++ bytesOf (d.bw.biBuf.toNat + 2 ^ d.bw.biValid * v.toNat) 2 } := by
  rw [Deflate.sendBits_def, if_pos (Nat.lt_of_not_le hn), writerOk_or_shiftLeft hw, Deflate.putShort_ok hp,
    bytesOf_ofNat_two, ← writerOk_ushiftRight hw]
  rfl

/-- `Windup` moves as many bytes as hold the bits (R344). -/
theorem Deflate.windup_ok (hvalid : d.bw.biValid ≤ 16) (hp : d.pending.length + 2 ≤ 65536) :
    d.windup =
      .ok { d with bw := ⟨0, 0⟩, pending := d.pending ++ bytesOf d.bw.biBuf.toNat ((d.bw.biValid + 7) / 8) } := by
  rw [Deflate.windup]
  split
  · have hk : (d.bw.biValid + 7) / 8 = 2 := by omega
    rw [Deflate.putShort_ok hp, hk]
    rfl
  · split
    · have hk : (d.bw.biValid + 7) / 8 = 1 := by omega
      rw [Deflate.putByte_low_ok hp, hk]
      rfl
    · have hk : (d.bw.biValid + 7) / 8 = 0 := by omega
      rw [hk, bytesOf, List.append_nil]
      rfl

/-- `FlushBits` with the chunk width written out. -/
theorem Deflate.flushBits_def (d : Deflate) :
    d.flushBits =
      if d.bw.biValid = 16 then do
        let d' ← d.putShort d.bw.biBuf
        .ok { d' with bw := ⟨0, 0⟩ }
      else if 8 ≤ d.bw.biValid then do
        let d' ← d.putByte (d.bw.biBuf.extractLsb' 0 8)
        .ok { d' with bw := ⟨d.bw.biBuf >>> 8, d.bw.biValid - 8⟩ }
      else .ok d := rfl

/-- `FlushBits` moves the whole bytes among the bits held (R345). -/
theorem Deflate.flushBits_ok (hvalid : d.bw.biValid ≤ 16) (hp : d.pending.length + 2 ≤ 65536) :
    d.flushBits =
      .ok
        { d with
          bw := ⟨BitVec.ofNat 16 (d.bw.biBuf.toNat / 2 ^ (8 * (d.bw.biValid / 8))), d.bw.biValid % 8⟩
          pending := d.pending ++ bytesOf d.bw.biBuf.toNat (d.bw.biValid / 8) } := by
  rw [Deflate.flushBits_def, ofNat_toNat_div_two_pow]
  split
  next h16 =>
    have hzero : d.bw.biBuf >>> 16 = 0#16 := BitVec.ushiftRight_eq_zero (le_refl 16)
    rw [Deflate.putShort_ok hp, h16, hzero]
    rfl
  next h16 =>
    split
    next h8 =>
      have hk : d.bw.biValid / 8 = 1 := by omega
      have hr : d.bw.biValid % 8 = d.bw.biValid - 8 := by omega
      rw [Deflate.putByte_low_ok hp, hk, hr]
      rfl
    next h8 =>
      have hk : d.bw.biValid / 8 = 0 := by omega
      have hr : d.bw.biValid % 8 = d.bw.biValid := by omega
      rw [hk, hr, Nat.mul_zero, BitVec.ushiftRight_zero, bytesOf, List.append_nil]

end

/-! ## The commands -/

section
variable {i : Instr} {s : State} {d e : Deflate} {f : Deflate → Except Fault Deflate}

/-- The body of a command that is one operation of the bit packer: it answers Ok with results 0, or stops with the
operation's model fault. -/
def Deflate.packing (f : Deflate → Except Fault Deflate) (d : Deflate) (p : Port) : Reply Deflate :=
  Reply.ofExcept (f d) fun d' => d'.answer p 0 0

theorem exec_bcwPut (n : BitVec 5) (v : Half) (s : State) : exec (.bcwPut n v) s =
    s.deflateCommand (Instr.bcwPut n v).wellFormed (Deflate.packing fun d => d.sendBits v n.toNat) := rfl

theorem exec_bcwPutByte (b : Byte) (s : State) : exec (.bcwPutByte b) s =
    s.deflateCommand true (Deflate.packing fun d => d.putByte b) := rfl

theorem exec_bcwPutShort (w : Half) (s : State) : exec (.bcwPutShort w) s =
    s.deflateCommand true (Deflate.packing fun d => d.putShort w) := rfl

theorem exec_bcwWindup (s : State) : exec .bcwWindup s =
    s.deflateCommand true (Deflate.packing Deflate.windup) := rfl

theorem exec_bcwFlush (s : State) : exec .bcwFlush s =
    s.deflateCommand true (Deflate.packing Deflate.flushBits) := rfl

/-- The body of DRAIN. -/
def Deflate.drains (d : Deflate) (p : Port) : Reply Deflate :=
  let c : Enc := ⟨d, p⟩
  .done (if c.flushPending.u.pending = [] then .ok else .needMoreOutput) (BitVec.ofNat 32 c.flushCount) 0
    c.flushPending.u c.flushPending.port

theorem exec_bcwDrain (s : State) : exec .bcwDrain s = s.deflateCommand true Deflate.drains := rfl

theorem completes_packing (h : s.isDeflate d) (hx : exec i s = s.deflateCommand true (Deflate.packing f))
    (hf : f d = .ok e) : completes i s 0 0 0 (.deflate e) s.port.input [] :=
  completes_of_deflate (st := .ok) (p := s.startPort) h hx (by rw [Deflate.packing, hf]; rfl) rfl

theorem fault_packing {t : Fault} (h : s.isDeflate d) (hx : exec i s = s.deflateCommand true (Deflate.packing f))
    (hf : f d = .error t) : exec i s = .fault t := by
  rw [hx, State.deflateCommand_of h, Deflate.packing, hf]
  rfl

end

/-! ## The obligations -/

/-- Settles O23: a legal PUT is `SendBits`, whose field fits beside the bits held or spills over them. -/
theorem putAppendsField : Obligations.PutAppendsField := by
  intro n value s d h hw hn hn16 hv hp
  have hlegal : (Instr.bcwPut n value).wellFormed = true := by simp [Instr.wellFormed, hn, hn16, hv]
  have hx := exec_bcwPut n value s
  rw [hlegal] at hx
  refine completes_packing h hx ?_
  split
  next hle => exact Deflate.sendBits_fits hw value hle
  next hgt => exact Deflate.sendBits_spills hw value hgt hp

/-- Settles O25: `Windup` and `FlushBits` move the low bytes of the bit buffer, rounding up and down. -/
theorem windupAndFlush : Obligations.WindupAndFlush := by
  intro s d h hw hp
  exact ⟨completes_packing h (exec_bcwWindup s) (Deflate.windup_ok hw.1 hp),
    completes_packing h (exec_bcwFlush s) (Deflate.flushBits_ok hw.1 hp)⟩

/-- Settles O24: the FIFO takes the bytes where there is room for all of them, and else is the model fault. -/
theorem putBytesAppend : Obligations.PutBytesAppend := by
  intro b w s d h
  refine ⟨fun hroom => ?_, fun hroom => ?_, fun hfull => ?_, fun hfull => ?_⟩
  · exact completes_packing h (exec_bcwPutByte b s) (Deflate.putBytes_ok hroom)
  · exact completes_packing h (exec_bcwPutShort w s) (Deflate.putShort_ok hroom w)
  · exact fault_packing h (exec_bcwPutByte b s) (Deflate.putBytes_full (Nat.lt_succ_of_le hfull))
  · exact fault_packing h (exec_bcwPutShort w s) (Deflate.putBytes_full (Nat.succ_lt_succ (Nat.lt_succ_of_le hfull)))

/-- Settles O26: DRAIN is `FlushPending`, and bytes remain exactly where the FIFO is longer than the space. -/
theorem drainMovesPendingBytes : Obligations.DrainMovesPendingBytes := by
  intro s d h
  have hcode : (if d.pending.drop s.port.space = [] then Status.ok else .needMoreOutput).code =
      if d.pending.length ≤ s.port.space then 0 else 4 := by
    rw [apply_ite Status.code]
    exact if_congr List.drop_eq_nil_iff rfl rfl
  rw [← hcode]
  exact completes_of_deflate (p := s.startPort.emit (d.pending.take s.port.space)) h (exec_bcwDrain s)
    (by rw [Deflate.drains, Enc.flushPending_eq]; rfl) rfl

end Sys2Proof.Machine

/-! # The decoder's window and its commands

PUT, COPY and SEED write bytes one after another at the write cursor, circularly. At most a window of bytes is written,
so no byte falls on an earlier one, and each is read back where it went (R380..R386). -/

namespace Sys2Proof.Machine

open Sys2Proof.Claim

/-! ## Commands that raise in their body (R763) -/

section
variable {i : Instr} {s : State} {e : Latch} {p : Port}

/-- An inflate command whose body raises, as the statements write it. -/
theorem raises_of_inflate {d u : Inflate} {body : Inflate → Port → Reply Inflate} (h : s.isInflate d)
    (hx : exec i s = s.inflateCommand true body) (hb : body d s.startPort = .raised e u p)
    (hp : p.space = s.port.space - p.output.length) :
    raises i s e (e.reason * 16 + e.status.code) (.inflate { u with mode := .error }) p.input p.output := by
  rw [raises, hx, State.inflateCommand_of h, hb, State.commit, State.raise_eq_after hp]
  rfl

/-- A deflate command whose body raises, as the statements write it. -/
theorem raises_of_deflate {d u : Deflate} {body : Deflate → Port → Reply Deflate} (h : s.isDeflate d)
    (hx : exec i s = s.deflateCommand true body) (hb : body d s.startPort = .raised e u p)
    (hp : p.space = s.port.space - p.output.length) :
    raises i s e (e.reason * 16 + e.status.code) (.deflate u) p.input p.output := by
  rw [raises, hx, State.deflateCommand_of h, hb, State.commit, State.raise_eq_after hp]
  rfl

/-- A deflate engine command whose body raises, as the statements write it (R212). -/
theorem fails_of_deflate {d u : Deflate} {body : Deflate → Port → Reply Deflate} (h : s.isDeflate d)
    (hx : exec i s = s.deflateCommand true body) (hb : body d s.startPort = .failed e u p)
    (hp : p.space = s.port.space - p.output.length) :
    fails i s e (e.reason * 16 + e.status.code) (.deflate u) p.input p.output := by
  rw [fails, hx, State.deflateCommand_of h, hb, State.commit, State.raiseEngine_eq_after hp]
  rfl

end

/-! ## Indices of the circular buffer (R165) -/

/-- Two indices less than a window apart are the same only where they are equal. -/
theorem eq_of_add_mod_eq {cap c i j : Nat} (hi : i < cap) (hj : j < cap) (h : (c + i) % cap = (c + j) % cap) : i = j :=
  Nat.ModEq.eq_of_lt_of_lt (Nat.ModEq.add_left_cancel' c h) hi hj

theorem add_mod_succ (cap c i : Nat) : ((c + 1) % cap + i) % cap = (c + (i + 1)) % cap := by
  rw [Nat.mod_add_mod, Nat.add_right_comm, Nat.add_assoc]

/-- The index `back` bytes before the write cursor, without a negative number. -/
theorem SlidingWindow.indexBack_eq {w : SlidingWindow} {back : Nat} (h : back ≤ w.capacity) :
    w.indexBack back = (w.writeCursor + w.capacity - back) % w.capacity := by
  have hcast : ((w.writeCursor + w.capacity - back : Nat) : Int) = (w.writeCursor : Int) - back + w.capacity := by
    omega
  rw [SlidingWindow.indexBack, ← Int.add_emod_right, ← hcast, ← Int.natCast_mod, Int.toNat_natCast]

/-! ## Bytes written at the cursor -/

/-- `m'` is the buffer `m` of `cap` bytes after the `n` bytes `f 0`, `f 1`, ... were written from index `c` on,
circularly. -/
def Memory.Received (cap c n : Nat) (f : Nat → Byte) (m m' : Memory) : Prop :=
  (∀ i < n, Memory.read m' ((c + i) % cap) = f i) ∧
    ∀ k, (∀ i < n, k ≠ (c + i) % cap) → Memory.read m' k = Memory.read m k

theorem Memory.Received.zero (cap c : Nat) (f : Nat → Byte) (m : Memory) : Memory.Received cap c 0 f m m :=
  ⟨fun _ hi => absurd hi (Nat.not_lt_zero _), fun _ _ => rfl⟩

/-- One byte at the cursor, then the others: no later byte of a window falls on the first. -/
theorem Memory.Received.succ {cap c n : Nat} {f : Nat → Byte} {m m' : Memory} (hm : Memory.wf m) (hc : c < cap)
    (hn : n + 1 ≤ cap)
    (h : Memory.Received cap ((c + 1) % cap) n (fun i => f (i + 1)) (Memory.write m c (f 0)) m') :
    Memory.Received cap c (n + 1) f m m' := by
  obtain ⟨hin, hout⟩ := h
  simp only [add_mod_succ] at hin hout
  have hc0 : (c + 0) % cap = c := Nat.mod_eq_of_lt hc
  refine ⟨fun i hi => ?_, fun k hk => ?_⟩
  · cases i with
    | zero =>
      rw [hout _ fun i hi he => ?_, hc0, Memory.read_write hm, if_pos rfl]
      exact absurd (eq_of_add_mod_eq (by omega) (by omega) he) (by omega)
    | succ i => exact hin i (by omega)
  · rw [hout k fun i hi => hk (i + 1) (by omega), Memory.read_write hm, if_neg]
    exact fun he => hk 0 (by omega) (he.trans hc0.symm)

/-! ## Copies (R382) -/

/-- The bytes that copies from `dist` back write: the last `dist` bytes, over and over. -/
def SlidingWindow.repeated (w : SlidingWindow) (dist i : Nat) : Byte :=
  Memory.read w.buffer ((w.writeCursor + (w.capacity - dist + i % dist)) % w.capacity)

section
variable {w : SlidingWindow} {dist : Nat}

theorem SlidingWindow.byteBack_eq_repeated (hd : dist ≤ w.capacity) : w.byteBack dist = w.repeated dist 0 := by
  rw [SlidingWindow.byteBack, SlidingWindow.repeated, SlidingWindow.indexBack_eq hd, Nat.zero_mod, Nat.add_zero,
    Nat.add_sub_assoc hd]

theorem SlidingWindow.repeated_of_lt {i : Nat} (hd : dist ≤ w.capacity) (hi : i < dist) :
    w.repeated dist i = Memory.read w.buffer ((w.writeCursor + w.capacity - dist + i) % w.capacity) := by
  rw [SlidingWindow.repeated, Nat.mod_eq_of_lt hi, Nat.add_sub_assoc hd, Nat.add_assoc]

theorem SlidingWindow.repeated_sub {i : Nat} (hi : dist ≤ i) : w.repeated dist (i - dist) = w.repeated dist i := by
  rw [SlidingWindow.repeated, ← Nat.mod_eq_sub_mod hi]
  rfl

/-- A copy leaves the copies after it what they would have written: the byte it writes is the one `dist` further on. -/
theorem SlidingWindow.repeated_put (h : w.Ok) (h1 : 1 ≤ dist) (hd : dist ≤ w.capacity) (i : Nat) :
    (w.put (w.repeated dist 0)).repeated dist i = w.repeated dist (i + 1) := by
  have hr : i % dist < dist := Nat.mod_lt i h1
  have hc : w.writeCursor % w.capacity = w.writeCursor := Nat.mod_eq_of_lt h.cursor
  have hindex : ((w.writeCursor + 1) % w.capacity + (w.capacity - dist + i % dist)) % w.capacity =
      (w.writeCursor + (w.capacity - dist + (i % dist + 1))) % w.capacity := add_mod_succ _ _ _
  have hput : (w.put (w.repeated dist 0)).repeated dist i =
      if (w.writeCursor + (w.capacity - dist + (i % dist + 1))) % w.capacity = w.writeCursor then w.repeated dist 0
      else Memory.read w.buffer ((w.writeCursor + (w.capacity - dist + (i % dist + 1))) % w.capacity) := by
    rw [← hindex]
    exact SlidingWindow.read_put h _ _
  rw [hput]
  by_cases hlast : i % dist + 1 = dist
  · have hmod : (i + 1) % dist = 0 := by rw [← Nat.mod_add_mod, hlast, Nat.mod_self]
    rw [if_pos (by rw [hlast, Nat.sub_add_cancel hd, Nat.add_mod_right, hc])]
    simp only [SlidingWindow.repeated, hmod, Nat.zero_mod]
  · have hmod : (i + 1) % dist = i % dist + 1 := by
      rw [← Nat.mod_add_mod, Nat.mod_eq_of_lt (by omega)]
    rw [if_neg fun he => ?_, SlidingWindow.repeated, hmod]
    exact absurd (eq_of_add_mod_eq (j := 0) (by omega) w.capacity_pos (he.trans hc.symm)) (by omega)

end

/-- The window after `n` more bytes reached it, with `buffer` holding them (R380). -/
def SlidingWindow.advance (w : SlidingWindow) (buffer : Memory) (n : Nat) : SlidingWindow :=
  ⟨w.wbits, buffer, (w.writeCursor + n) % w.capacity, w.undelivered + n, min w.capacity (w.whave + n)⟩

theorem SlidingWindow.advance_zero {w : SlidingWindow} (h : w.Ok) : w.advance w.buffer 0 = w := by
  simp only [SlidingWindow.advance, Nat.add_zero, Nat.mod_eq_of_lt h.cursor, Nat.min_eq_right h.whave]

theorem SlidingWindow.advance_put (w : SlidingWindow) (b : Byte) (buffer : Memory) (n : Nat) :
    (w.put b).advance buffer n = w.advance buffer (n + 1) := by
  have hcursor : ((w.writeCursor + 1) % w.capacity + n) % w.capacity = (w.writeCursor + (n + 1)) % w.capacity :=
    add_mod_succ _ _ _
  have hwhave : min w.capacity (min w.capacity (w.whave + 1) + n) = min w.capacity (w.whave + (n + 1)) := by omega
  have hundelivered : w.undelivered + 1 + n = w.undelivered + (n + 1) := by omega
  rw [SlidingWindow.advance, SlidingWindow.advance, SlidingWindow.mk.injEq]
  exact ⟨rfl, rfl, hcursor, hundelivered, hwhave⟩

/-- COPY writes the repeated bytes until its length is reached or the window is full. -/
theorem SlidingWindow.copy_eq {dist : Nat} (h1 : 1 ≤ dist) (len : Nat) {w : SlidingWindow} (h : w.Ok)
    (hd : dist ≤ w.capacity) :
    let n := min len (w.capacity - w.undelivered)
    ∃ buffer, Memory.Received w.capacity w.writeCursor n (w.repeated dist) w.buffer buffer ∧
      SlidingWindow.copy dist len w = (n, w.advance buffer n) := by
  dsimp only
  induction len generalizing w with
  | zero =>
    rw [Nat.zero_min]
    exact ⟨w.buffer, .zero _ _ _ _, by rw [SlidingWindow.advance_zero h]; rfl⟩
  | succ len ih =>
    by_cases hf : w.full = true
    · have hroom : w.capacity - w.undelivered = 0 := Nat.sub_eq_zero_of_le (of_decide_eq_true hf)
      rw [hroom, Nat.min_zero, SlidingWindow.copy, if_pos hf]
      exact ⟨w.buffer, .zero _ _ _ _, by rw [SlidingWindow.advance_zero h]⟩
    · have hu : w.undelivered < w.capacity := by simpa [SlidingWindow.full] using hf
      have hcount : min (len + 1) (w.capacity - w.undelivered) =
          min len (w.capacity - (w.undelivered + 1)) + 1 := by omega
      obtain ⟨buffer, hbuffer, hcopy⟩ :=
        ih (w := w.put (w.repeated dist 0)) (SlidingWindow.put_ok h (by simpa using hf) _) hd
      refine ⟨buffer, ?_, ?_⟩
      · rw [hcount]
        refine .succ h.canonical h.cursor (by omega) ?_
        rwa [funext (SlidingWindow.repeated_put h h1 hd)] at hbuffer
      · rw [SlidingWindow.copy, if_neg hf, SlidingWindow.byteBack_eq_repeated hd, hcopy, hcount,
          SlidingWindow.advance_put]
        rfl

/-! ## Seeds (R386) -/

/-- The loop of a seed writes its bytes and moves the cursor with them, and nothing else. -/
theorem SlidingWindow.history_eq (bs : List Byte) {w : SlidingWindow} (hw : Memory.wf w.buffer)
    (hc : w.writeCursor < w.capacity) (hlen : bs.length ≤ w.capacity) :
    ∃ buffer, Memory.Received w.capacity w.writeCursor bs.length (fun i => bs.getD i 0) w.buffer buffer ∧
      w.history bs = { w with buffer := buffer, writeCursor := (w.writeCursor + bs.length) % w.capacity } := by
  induction bs generalizing w with
  | nil => exact ⟨w.buffer, .zero _ _ _ _, by rw [List.length_nil, Nat.add_zero, Nat.mod_eq_of_lt hc]; rfl⟩
  | cons b bs ih =>
    obtain ⟨buffer, hbuffer, hhistory⟩ :=
      ih (w := { w with buffer := Memory.write w.buffer w.writeCursor b
                        writeCursor := (w.writeCursor + 1) % w.capacity })
        (Memory.wf_write hw _ _) (Nat.mod_lt _ w.capacity_pos) (Nat.le_of_succ_le hlen)
    have hcursor := add_mod_succ w.capacity w.writeCursor bs.length
    exact ⟨buffer, .succ hw hc hlen hbuffer,
      hhistory.trans (congrArg (fun c => { w with buffer := buffer, writeCursor := c }) hcursor)⟩

/-- SEED writes the last bytes of the dictionary that fit and counts them as history. -/
theorem SlidingWindow.seed_eq {w : SlidingWindow} (h : w.Ok) (dict : List Byte) :
    ∃ buffer,
      Memory.Received w.capacity w.writeCursor (w.seedKept dict)
        (fun i => dict.getD (dict.length - w.seedKept dict + i) 0) w.buffer buffer ∧
      w.seed dict =
        { w.advance buffer (w.seedKept dict) with undelivered := w.undelivered } := by
  have hkept : w.seedKept dict ≤ dict.length := Nat.min_le_left _ _
  have hcap : w.seedKept dict ≤ w.capacity := Nat.min_le_right _ _
  have hlen : (dict.drop (dict.length - w.seedKept dict)).length = w.seedKept dict := by
    rw [List.length_drop, Nat.sub_sub_self hkept]
  obtain ⟨buffer, hbuffer, hhistory⟩ := SlidingWindow.history_eq _ h.canonical h.cursor (hlen.trans_le hcap)
  rw [hlen] at hbuffer hhistory
  refine ⟨buffer, ?_, by rw [SlidingWindow.seed, hhistory]; rfl⟩
  simpa only [List.getD_eq_getElem?_getD, List.getElem?_drop] using hbuffer

/-! ## Drains (R384) -/

/-- The bytes DRAIN delivers, as the statement counts back from the cursor. -/
theorem SlidingWindow.oldest_eq {w : SlidingWindow} (h : w.Ok) (n : Nat) :
    w.oldest n = (List.range n).map fun i =>
      Memory.read w.buffer ((w.writeCursor + 2 ^ w.wbits - w.undelivered + i) % 2 ^ w.wbits) := by
  simp only [SlidingWindow.oldest, SlidingWindow.indexBack_eq (h.undelivered.trans h.whave), Nat.mod_add_mod]
  rfl

/-! ## The commands (R380..R386) -/

theorem code_needMoreOutput_or_ok (c : Prop) [Decidable c] :
    (if c then Status.needMoreOutput else .ok).code = if c then 4 else 0 := apply_ite Status.code ..

theorem exec_swbPut (b : Byte) (s : State) : exec (.swbPut b) s =
    s.inflateCommand true fun d p =>
      if d.sw.full then .done .needMoreOutput 0 0 d p else .done .ok 1 0 { d with sw := d.sw.put b } p := rfl

theorem exec_swbCopy {len : BitVec 9} {dist : Word} (hlegal : (Instr.swbCopy len dist).wellFormed = true) (s : State) :
    exec (.swbCopy len dist) s = s.inflateCommand true fun d p =>
      if dist.toNat = 0 ∨ d.sw.whave < dist.toNat then .done .ok 0 1 d p
      else
        let r := SlidingWindow.copy dist.toNat len.toNat d.sw
        .done (if r.1 < len.toNat then .needMoreOutput else .ok) (BitVec.ofNat 32 r.1) 0 { d with sw := r.2 } p := by
  rw [← State.inflateCommand_legal hlegal]
  rfl

theorem exec_swbDrain (s : State) : exec .swbDrain s = s.inflateCommand true fun d p =>
    let c := Dec.winDrain ⟨d, p⟩
    .done (if 0 < c.u.sw.undelivered then .needMoreOutput else .ok) (BitVec.ofNat 32 (d.sw.drainCount p.space)) 0
      c.u c.port := rfl

theorem exec_swbSeed (s : State) : exec .swbSeed s = s.inflateCommand true fun d p =>
    if d.sw.undelivered ≠ 0 then .raised (.stream .badOperand) d p
    else
      .done .ok (BitVec.ofNat 32 (d.sw.seedKept p.input)) 0 { d with sw := d.sw.seed p.input } { p with input := [] } :=
  rfl

/-! ## The obligations -/

/-- Settles O27: PUT is one write at the cursor where the window is not full, and DRAIN reads on from the oldest
undelivered byte. -/
theorem windowPutAndDrain : Obligations.WindowPutAndDrain := by
  intro b s d h hw
  dsimp only
  refine ⟨fun hroom => ?_, fun hfull => ?_, ?_⟩
  · have hf : d.sw.full = false := decide_eq_false (Nat.not_le.2 hroom)
    exact ⟨_, SlidingWindow.read_put hw b,
      completes_of_inflate (st := .ok) (r0 := 1) (p := s.startPort) h (exec_swbPut b s) (by rw [hf]; rfl) rfl⟩
  · have hf : d.sw.full = true := decide_eq_true hfull.ge
    exact completes_of_inflate (st := .needMoreOutput) (p := s.startPort) h (exec_swbPut b s) (by rw [hf]; rfl) rfl
  · rw [← code_needMoreOutput_or_ok, ← SlidingWindow.oldest_eq hw]
    refine completes_of_inflate (p := s.startPort.emit _) h (exec_swbDrain s) ?_ rfl
    simp only [Dec.winDrain, Nat.sub_pos_iff_lt]
    rfl

/-- Settles O28: a copy within the history writes the repeated bytes, and each of them from the `dist`-th on is the one
written `dist` before it. -/
theorem windowCopyRepeatsHistory : Obligations.WindowCopyRepeatsHistory := by
  intro len dist s d h hw hlen hlen' hdist cap n
  have hlegal : (Instr.swbCopy len dist).wellFormed = true := by simp [Instr.wellFormed, hlen, hlen', hdist]
  have hx := exec_swbCopy hlegal s
  refine ⟨fun hbad => ?_, fun h1 hle => ?_⟩
  · exact completes_of_inflate (st := .ok) (p := s.startPort) h hx (if_pos hbad) rfl
  · have hcap : dist.toNat ≤ cap := hle.trans hw.whave
    obtain ⟨buffer, ⟨hin, hout⟩, hcopy⟩ := SlidingWindow.copy_eq h1 len.toNat hw hcap
    refine ⟨buffer, fun i hi => ?_, hout, ?_⟩
    · refine (hin i hi).trans ?_
      split
      next hlt => exact SlidingWindow.repeated_of_lt hcap hlt
      next hge =>
        exact (SlidingWindow.repeated_sub (Nat.not_lt.1 hge)).symm.trans (hin _ ((Nat.sub_le _ _).trans_lt hi)).symm
    · rw [← code_needMoreOutput_or_ok]
      refine completes_of_inflate (p := s.startPort) h hx ?_ rfl
      rw [if_neg (by omega), hcopy]
      rfl

/-- Settles O29: a seed writes the last bytes of the slice where no undelivered byte can be lost. -/
theorem windowSeedInstallsHistory : Obligations.WindowSeedInstallsHistory := by
  intro s d h hw cap k
  refine ⟨fun hempty => ?_, fun hbusy => ?_⟩
  · obtain ⟨buffer, ⟨hin, hout⟩, hseed⟩ := SlidingWindow.seed_eq hw s.port.input
    refine ⟨buffer, hin, hout, ?_⟩
    refine completes_of_inflate (st := .ok) (p := { s.startPort with input := [] }) h (exec_swbSeed s) ?_ rfl
    rw [if_neg (not_not.2 hempty), State.startPort_input, hseed, hempty]
    rfl
  · exact raises_of_inflate (p := s.startPort) h (exec_swbSeed s) (if_pos hbusy) rfl

end Sys2Proof.Machine

/-! # The encoder's window and its commands

A slide moves the upper half down and leaves nothing to slide for again, so FILL reads from a window that does not slide
(R390, R392). A dictionary's strings are inserted one after another, and each insertion carries the rolling hash and the
chains one position on (R394). -/

namespace Sys2Proof.Machine

open Sys2Proof.Claim

/-! ## Slides (R392, R552) -/

/-- A chain position below W_SIZE becomes 0, as the natural subtraction has it. -/
theorem rebase_eq (w : Nat) (v : Half) : rebase w v = BitVec.ofNat 16 (v.toNat - w) := by
  unfold rebase
  split
  next => rfl
  next hlt => rw [Nat.sub_eq_zero_of_le (Nat.le_of_not_le hlt)]; rfl

theorem exec_swbSlide (s : State) : exec .swbSlide s = s.deflateCommand true fun d p =>
    if d.strstart < d.wSize then .raised (.stream .badOperand) d p else d.slide.answer p 0 0 := rfl

theorem completes_swbSlide {s : State} {d : Deflate} (h : s.isDeflate d) (hstart : d.wSize ≤ d.strstart) :
    completes .swbSlide s 0 0 0 (.deflate d.slide) s.port.input [] :=
  completes_of_deflate (st := .ok) (p := s.startPort) h (exec_swbSlide s) (if_neg (Nat.not_lt.2 hstart)) rfl

/-! ## Fills (R390, R391) -/

/-- W_SIZE is more than MIN_LOOKAHEAD. -/
theorem Deflate.Ok.wSize_ge {d : Deflate} (h : d.Ok) : 512 ≤ d.wSize :=
  Nat.pow_le_pow_right (n := 2) (by decide) h.wbits_low

section
variable {d : Deflate}

theorem Deflate.windowSize_pos (d : Deflate) : 0 < d.windowSize := Nat.mul_pos (by decide) (Nat.two_pow_pos _)

theorem Deflate.fillSlides_iff : d.fillSlides = true ↔ d.windowSize ≤ d.strstart + 262 := by
  rw [Deflate.fillSlides, decide_eq_true_iff, Nat.sub_le_iff_le_add, ← Nat.two_mul]
  rfl

/-- An empty window has space: R390's first branch is never taken. -/
theorem Deflate.fillSpace_empty_ne_zero (d : Deflate) :
    ¬((d.windowSize : Int) - d.lookahead - d.strstart = 0 ∧ d.strstart = 0 ∧ d.lookahead = 0) := by
  have := d.windowSize_pos
  omega

theorem Deflate.fillSlide_eq (d : Deflate) :
    d.fillSlide = if d.windowSize ≤ d.strstart + 262 then d.slide else d := by
  rw [Deflate.fillSlide, if_neg d.fillSpace_empty_ne_zero]
  exact if_congr Deflate.fillSlides_iff rfl rfl

theorem Deflate.fillSpace_eq (d : Deflate) :
    d.fillSpace = (d.windowSize : Int) - d.lookahead - d.strstart +
      if d.windowSize ≤ d.strstart + 262 then (d.wSize : Int) else 0 := by
  rw [Deflate.fillSpace, if_neg d.fillSpace_empty_ne_zero, if_congr Deflate.fillSlides_iff rfl rfl, add_ite, add_zero]

/-- After a slide none is due, and the space is what the slide test gave. -/
theorem Deflate.slide_fill (h : d.Ok) (hend : d.windowSize ≤ d.strstart + 262)
    (hstart : d.strstart ≤ d.windowSize) :
    d.slide.fillSlide = d.fillSlide ∧ d.slide.fillSpace = d.fillSpace := by
  have hw := h.wSize_ge
  have hsize : d.windowSize = 2 * d.wSize := rfl
  have hroom : ¬d.slide.windowSize ≤ d.slide.strstart + 262 := by
    show ¬d.windowSize ≤ d.strstart - d.wSize + 262
    omega
  rw [Deflate.fillSlide_eq, Deflate.fillSlide_eq, Deflate.fillSpace_eq, Deflate.fillSpace_eq, if_pos hend, if_neg hroom,
    if_pos hend, if_neg hroom]
  refine ⟨rfl, ?_⟩
  show (d.windowSize : Int) - d.lookahead - (d.strstart - d.wSize : Nat) + 0 = _
  omega

/-- `FillWindow` reads of the window only the slide test's units and space. -/
theorem Enc.fillWindow_congr {d' : Deflate} {p : Port} (hslide : d.fillSlide = d'.fillSlide)
    (hspace : d.fillSpace = d'.fillSpace) : Enc.fillWindow ⟨d, p⟩ = Enc.fillWindow ⟨d', p⟩ := by
  simp only [Enc.fillWindow, Enc.fillLoop, hslide, hspace]

theorem Enc.readBuf_ok {c : Enc} {start n : Nat} (h : start + n ≤ c.u.windowSize) :
    Enc.readBuf c start n =
      .ok { u := { c.u with window := Cells.writeAll 0 c.u.window start (c.port.input.take n) }
            port := { c.port with input := c.port.input.drop n } } := if_pos (.inr h)

/-- The rolling hash of a window with `n` bytes ahead of `strstart`, primed once there are 3 (R390). -/
def Deflate.primedHash (d : Deflate) (n : Nat) : Hash :=
  if 3 ≤ n then hash2 (Memory.read d.window d.strstart) (Memory.read d.window (d.strstart + 1)) else d.insH

/-- The hash step of a round primes the hash of what is ahead. -/
theorem Deflate.prime_eq (h : d.strstart + 1 < d.windowSize) :
    (if Config.minMatch ≤ d.lookahead then d.hashInit else .ok d) =
      .ok { d with insH := d.primedHash d.lookahead } := by
  rw [Deflate.hashInit, Deflate.hashInitAt_nat h, Deflate.primedHash]
  by_cases h3 : 3 ≤ d.lookahead
  · rw [if_pos h3, if_pos (show Config.minMatch ≤ d.lookahead from h3)]
  · rw [if_neg h3, if_neg (show ¬Config.minMatch ≤ d.lookahead from h3)]

/-- A round of `FillWindow` with no input performs the slide test only. -/
theorem Enc.fillLoop_empty (fuel : Nat) {c : Enc} (h : c.port.inAvail = 0) :
    Enc.fillLoop (fuel + 1) c = .ok { c with u := c.u.fillSlide } := if_pos h

/-- A round of `FillWindow` that reads `n` bytes and is the last one. -/
theorem Enc.fillLoop_last (fuel : Nat) {c : Enc} {v u : Deflate} {q : Port} {n : Nat} (h : c.port.inAvail ≠ 0)
    (hslide : c.u.fillSlide = v) (hn : min (c.port.inAvail : Int) c.u.fillSpace = n)
    (hread : Enc.readBuf { c with u := v } (v.strstart + v.lookahead) n = .ok ⟨u, q⟩)
    (hstart : u.strstart + 1 < u.windowSize)
    (hlast : ¬(u.lookahead + n < Config.minLookahead ∧ q.inAvail ≠ 0)) :
    Enc.fillLoop (fuel + 1) c =
      .ok ⟨{ u with lookahead := u.lookahead + n, insH := u.primedHash (u.lookahead + n) }, q⟩ := by
  have hlookahead : ((u.lookahead : Int) + n).toNat = u.lookahead + n := by omega
  have hprime := Deflate.prime_eq (d := { u with lookahead := u.lookahead + n }) hstart
  simp only [Enc.fillLoop, hslide, hn, Int.toNat_natCast, hread, Except.ok_bind, hlookahead]
  rw [if_neg h]
  split at hprime
  next h3 => rw [if_pos h3, hprime, Except.ok_bind, if_neg hlast]; rfl
  next h3 => rw [if_neg h3, if_neg hlast]; exact congrArg (fun e => Except.ok (Enc.mk e q)) (Except.ok.inj hprime)

/-- The units after a fill without a slide that reads `n` bytes of `input`. -/
def Deflate.filled (d : Deflate) (input : List Byte) (n : Nat) : Deflate :=
  let window := Cells.writeAll 0 d.window (d.strstart + d.lookahead) (input.take n)
  { d with
    window := window
    lookahead := d.lookahead + n
    insH :=
      if 0 < input.length ∧ 3 ≤ d.lookahead + n then
        hash2 (Memory.read window d.strstart) (Memory.read window (d.strstart + 1))
      else d.insH }

theorem Deflate.filled_nil (d : Deflate) : d.filled [] 0 = d := rfl

/-- Without a slide one round of `FillWindow` reads what there is space for, and no other follows. -/
theorem Enc.fillWindow_of_room {p : Port} (h : d.strstart + 262 < d.windowSize)
    (hsize : d.strstart + d.lookahead ≤ d.windowSize) :
    let n := min p.input.length (d.windowSize - d.strstart - d.lookahead)
    Enc.fillWindow ⟨d, p⟩ = .ok ⟨d.filled p.input n, { p with input := p.input.drop n }⟩ := by
  intro n
  have hslide : d.fillSlide = d := by rw [Deflate.fillSlide_eq, if_neg (Nat.not_le.2 h)]
  by_cases hempty : p.input = []
  · have hn : n = 0 := by simp [n, hempty]
    rw [Enc.fillWindow, Enc.fillLoop_empty _ (by rw [Port.inAvail, hempty, List.length_nil]), hslide, hn, hempty]
    rw [Deflate.filled_nil, List.drop_zero, ← hempty]
  · have hpos : 0 < p.input.length := List.length_pos_iff.2 hempty
    have hcount : min (p.inAvail : Int) d.fillSpace = n := by
      rw [Deflate.fillSpace_eq, if_neg (Nat.not_le.2 h), Port.inAvail]
      omega
    have hread := Enc.readBuf_ok (c := ⟨d, p⟩) (start := d.strstart + d.lookahead) (n := n)
      (by show _ ≤ d.windowSize; omega)
    have hstart : d.strstart + 1 < d.windowSize := by omega
    have hlast : ¬(d.lookahead + n < 262 ∧ (p.input.drop n).length ≠ 0) := by
      rw [List.length_drop]
      omega
    have hprimed : 0 < p.input.length ∧ 3 ≤ d.lookahead + n ↔ 3 ≤ d.lookahead + n := and_iff_right hpos
    refine (Enc.fillLoop_last (c := ⟨d, p⟩) _ hpos.ne' hslide hcount hread hstart hlast).trans ?_
    simp only [Deflate.filled, Deflate.primedHash, hprimed]

end

/-- The body of FILL. -/
def Deflate.fills (d : Deflate) (p : Port) : Reply Deflate :=
  Reply.ofExcept (Enc.fillWindow ⟨d, p⟩) fun c => c.u.answer c.port (BitVec.ofNat 32 (p.inAvail - c.port.inAvail)) 0

theorem exec_swbFill (s : State) : exec .swbFill s = s.deflateCommand true Deflate.fills := rfl

/-- FILL does the same from units that `FillWindow` does not tell apart. -/
theorem exec_swbFill_congr {s : State} {d d' : Deflate} (h : s.isDeflate d)
    (hfill : ∀ p, Enc.fillWindow ⟨d, p⟩ = Enc.fillWindow ⟨d', p⟩) :
    exec .swbFill s = exec .swbFill { s with codec := { s.codec with engine := .deflate d' } } := by
  have h' : State.isDeflate { s with codec := { s.codec with engine := .deflate d' } } d' := ⟨h.1, rfl⟩
  rw [exec_swbFill, exec_swbFill, State.deflateCommand_of h, State.deflateCommand_of h', Deflate.fills, Deflate.fills,
    hfill]
  show State.commit _ _ (Reply.ofExcept (Enc.fillWindow ⟨d', s.startPort⟩) _) =
    State.commit _ _ (Reply.ofExcept (Enc.fillWindow ⟨d', s.startPort⟩) _)
  cases Enc.fillWindow ⟨d', s.startPort⟩ with
  | ok c => rfl
  | error f => rfl

theorem completes_swbFill {s : State} {d e : Deflate} {n : Nat} (h : s.isDeflate d) (hn : n ≤ s.port.input.length)
    (hfill : Enc.fillWindow ⟨d, s.startPort⟩ = .ok ⟨e, { s.startPort with input := s.port.input.drop n }⟩) :
    completes .swbFill s 0 n 0 (.deflate e) (s.port.input.drop n) [] := by
  refine completes_of_deflate (st := .ok) (p := { s.startPort with input := s.port.input.drop n }) h (exec_swbFill s)
    ?_ rfl
  rw [Deflate.fills, hfill, Reply.ofExcept_ok, Port.inAvail, Port.inAvail, List.length_drop, State.startPort_input,
    Nat.sub_sub_self hn]
  rfl

/-- What the first `n` bytes of a slice leave at every index of a window they were copied to. -/
theorem Memory.read_writeAll_take {m : Memory} (hm : Memory.wf m) (i j : Nat) {n : Nat} {bs : List Byte}
    (hn : n ≤ bs.length) :
    Memory.read (Cells.writeAll 0 m i (bs.take n)) j =
      if i ≤ j ∧ j < i + n then bs.getD (j - i) 0 else Memory.read m j := by
  rw [Memory.read, Cells.read_writeAll hm, List.length_take_of_le hn]
  refine if_ctx_congr Iff.rfl (fun hj => ?_) fun _ => rfl
  rw [List.getD_eq_getElem?_getD, List.getElem?_take_of_lt (by omega), List.getD_eq_getElem?_getD]

/-! ## Dictionaries (R394, R740) -/

/-- `InsertString` starts from this rolling hash at position `n` when the strings before it were inserted: the hash that
`HashInit` primes, and then that of the string inserted last. -/
def rollingHash (m : Memory) : Nat → Hash
  | 0 => hash2 (Memory.read m 0) (Memory.read m 1)
  | n + 1 => hash3 m n

/-- The byte before the three of a string is shifted out of its hash (R550). -/
theorem updateHash_rollingHash (m : Memory) (n : Nat) :
    updateHash (rollingHash m n) (Memory.read m (n + 2)) = hash3 m n := by
  cases n with
  | zero => rfl
  | succ n =>
    have hgone : (Memory.read m n).setWidth 15 <<< 15 = 0#15 := BitVec.shiftLeft_eq_zero (Nat.le_refl 15)
    simp only [rollingHash, updateHash, hash3, hash2, Config.hashShift, BitVec.shiftLeft_xor_distrib,
      ← BitVec.shiftLeft_add, hgone, BitVec.zero_xor]

/-- `d` is `d₀` after the strings at 0, 1, ..., n-1 were inserted in order (R561). -/
structure Deflate.Inserted (d₀ : Deflate) (n : Nat) (d : Deflate) : Prop where
  rest : d = { d₀ with insH := d.insH, head := d.head, prev := d.prev }
  hash : d.insH = rollingHash d₀.window n
  head : ∀ h : Hash, Cells.read 0 d.head h.toNat = chainHead d₀.window n h (Cells.read 0 d₀.head h.toNat)
  outside : ∀ j, 32768 ≤ j → Cells.read 0 d.head j = Cells.read 0 d₀.head j
  prev : ∀ i, Cells.read 0 d.prev i =
    if i < n then chainHead d₀.window i (hash3 d₀.window i) (Cells.read 0 d₀.head (hash3 d₀.window i).toNat)
    else Cells.read 0 d₀.prev i
  headWf : Cells.wf 0 d.head
  prevWf : Cells.wf 0 d.prev

section
variable {d₀ d : Deflate} {n : Nat}

theorem Deflate.Inserted.zero (hhash : d.insH = rollingHash d.window 0) (hhead : Cells.wf 0 d.head)
    (hprev : Cells.wf 0 d.prev) : d.Inserted 0 d :=
  { rest := rfl
    hash := hhash
    head := fun _ => rfl
    outside := fun _ _ => rfl
    prev := fun _ => rfl
    headWf := hhead
    prevWf := hprev }

theorem Deflate.Inserted.succ (h : d₀.Inserted n d) (hn : n < d₀.wSize) (hsize : n + 2 < d₀.windowSize) :
    ∃ old d', d.insertString n = .ok (old, d') ∧ d₀.Inserted (n + 1) d' := by
  obtain ⟨hrest, hhash, hhead, houtside, hprev, hheadWf, hprevWf⟩ := h
  have hwindow : d.window = d₀.window := by rw [hrest]
  have hw : d.wSize = d₀.wSize := by rw [hrest]; rfl
  have hws : d.windowSize = d₀.windowSize := by rw [hrest]; rfl
  have hupdate : updateHash d.insH (Memory.read d.window (n + 2)) = hash3 d₀.window n := by
    rw [hhash, hwindow, updateHash_rollingHash]
  refine ⟨_, _, Deflate.insertString_nat (by rw [hws]; exact hsize), ?_⟩
  rw [hupdate, hw, Nat.mod_eq_of_lt hn]
  exact
    { rest := by
        rw [hrest]
      hash := rfl
      head := fun h => by
        rw [Cells.read_write hheadWf.1, hhead, chainHead]
        exact if_congr (BitVec.toNat_inj.trans eq_comm) rfl rfl
      outside := fun j hj => by
        rw [Cells.read_write hheadWf.1, if_neg (by have := (hash3 d₀.window n).isLt; omega), houtside j hj]
      prev := fun i => by
        rw [Cells.read_write hprevWf.1, hprev, hhead]
        by_cases hi : i = n
        · rw [if_pos hi, if_pos (by omega), hi]
        · rw [if_neg hi, if_congr (show i < n ↔ i < n + 1 by omega) rfl rfl]
      headWf := Cells.wf_write hheadWf _ _
      prevWf := Cells.wf_write hprevWf _ _ }

/-- The strings at `n`, `n + 1`, ... join those inserted before them. -/
theorem Deflate.Inserted.insertFrom (k : Nat) (h : d₀.Inserted n d) (hn : n + k ≤ d₀.wSize)
    (hsize : n + k + 2 ≤ d₀.windowSize) :
    ∃ d', Deflate.insertFrom k n d = .ok d' ∧ d₀.Inserted (n + k) d' := by
  induction k generalizing n d with
  | zero => exact ⟨d, rfl, h⟩
  | succ k ih =>
    obtain ⟨old, d₁, hd₁, h₁⟩ := h.succ (by omega) (by omega)
    obtain ⟨d', hd', h'⟩ := ih h₁ (by omega) (by omega)
    refine ⟨d', ?_, by rwa [Nat.add_right_comm] at h'⟩
    rw [Deflate.insertFrom, hd₁]
    exact hd'

end

/-- Fewer than 3 bytes are ignored. -/
theorem Deflate.dictSeed_short {d : Deflate} {dict : List Byte} (h : dict.length < 3) : d.dictSeed dict = .ok (0, d) :=
  if_pos h

/-- The units with the last `k` bytes of a dictionary at the start of the window, before its strings are inserted. -/
def Deflate.dictLoaded (d : Deflate) (dict : List Byte) (k : Nat) : Deflate :=
  let window := Cells.writeAll 0 d.window 0 (dict.drop (dict.length - k))
  { d with
    window := window
    strstart := k
    blockStart := k
    insH := rollingHash window 0 }

theorem Deflate.read_dictLoaded {d : Deflate} {dict : List Byte} {k : Nat} (hd : Memory.wf d.window)
    (hk : k ≤ dict.length) (i : Nat) :
    Memory.read (d.dictLoaded dict k).window i =
      if i < k then dict.getD (dict.length - k + i) 0 else Memory.read d.window i := by
  have hlen : (dict.drop (dict.length - k)).length = k := by rw [List.length_drop, Nat.sub_sub_self hk]
  refine (Cells.read_writeAll hd 0 i _).trans ?_
  rw [hlen, List.getD_eq_getElem?_getD, List.getElem?_drop, List.getD_eq_getElem?_getD]
  exact if_congr (by omega) rfl rfl

/-- 3 bytes or more: the last MAX_DIST of them are kept, and all their strings are inserted. -/
theorem Deflate.dictSeed_long {d : Deflate} {dict : List Byte} (h : d.Ok) (hlen : 3 ≤ dict.length) :
    let k := min dict.length d.maxDist
    ∃ e, d.dictSeed dict = .ok (k, e) ∧ (d.dictLoaded dict k).Inserted (k - 2) e := by
  intro k
  have hw := h.wSize_ge
  have hmax : d.maxDist = d.wSize - 262 := rfl
  have hsize : d.windowSize = 2 * d.wSize := rfl
  have hk : 3 ≤ k := by omega
  have hzero := Deflate.Inserted.zero (d := d.dictLoaded dict k) rfl h.head h.prev
  obtain ⟨e, he, hins⟩ := hzero.insertFrom (k - 2) (by show 0 + (k - 2) ≤ d.wSize; omega)
    (by show 0 + (k - 2) + 2 ≤ d.windowSize; omega)
  have hshort : ¬dict.length < Config.minMatch := Nat.not_lt.2 hlen
  have hload : Deflate.hashInitAt
      { d with
        window := Cells.writeAll 0 d.window 0 (dict.drop (dict.length - k))
        strstart := k
        blockStart := k } 0 = .ok (d.dictLoaded dict k) :=
    Deflate.hashInitAt_nat (by show 0 + 1 < d.windowSize; omega)
  have hcount : k - Config.minMatch + 1 = k - 2 := by show k - 3 + 1 = k - 2; omega
  refine ⟨e, ?_, by rwa [Nat.zero_add] at hins⟩
  rw [Deflate.dictSeed, if_neg hshort]
  simp only [k] at hload hcount he ⊢
  rw [hload, Except.ok_bind, hcount, he]
  rfl

/-! ## The commands that take a dictionary -/

section
variable {s : State} {d e : Deflate} {n : Nat}

theorem exec_swbDseed (s : State) : exec .swbDseed s = s.deflateCommand true fun d p =>
    if d.strstart ≠ 0 ∨ d.lookahead ≠ 0 then .raised (.stream .badOperand) d p
    else
      Reply.ofExcept (d.dictSeed p.input) fun (length, d) =>
        d.answer { p with input := [] } (BitVec.ofNat 32 length) 0 := rfl

theorem exec_defSetDict (s : State) : exec .defSetDict s = s.deflateCommand true fun d p =>
    if d.dictAllowed = false then .failed (.stream .dictNotAllowed) d p
    else
      Reply.ofExcept (d.dictSeed p.input) fun (_, d) =>
        Deflate.answer { d with dictAllowed := false } { p with input := [] } 0 0 := rfl

theorem completes_swbDseed (h : s.isDeflate d) (hfree : ¬(d.strstart ≠ 0 ∨ d.lookahead ≠ 0))
    (hseed : d.dictSeed s.port.input = .ok (n, e)) : completes .swbDseed s 0 n 0 (.deflate e) [] [] :=
  completes_of_deflate (st := .ok) (p := { s.startPort with input := [] }) h (exec_swbDseed s)
    (by rw [if_neg hfree, State.startPort_input, hseed]; rfl) rfl

theorem completes_defSetDict (h : s.isDeflate d) (hallowed : d.dictAllowed = true)
    (hseed : d.dictSeed s.port.input = .ok (n, e)) :
    completes .defSetDict s 0 0 0 (.deflate { e with dictAllowed := false }) [] [] :=
  completes_of_deflate (st := .ok) (p := { s.startPort with input := [] }) h (exec_defSetDict s)
    (by rw [if_neg (by rw [hallowed]; decide), State.startPort_input, hseed]; rfl) rfl

end

/-! ## The obligations -/

/-- Settles O41: a slide moves the upper half of the window down and rebases each chain entry. -/
theorem slideRebasesEverything : Obligations.SlideRebasesEverything := by
  intro s d h hd w down
  refine ⟨fun hstart => ?_, fun hbefore => ?_⟩
  · refine ⟨d.slide.window, d.slide.head, d.slide.prev, Memory.read_slideDown hd.window hd.inside, fun k => ?_,
      fun k => ?_, completes_swbSlide h hstart⟩
    · exact (Cells.read_rebaseAll hd.head.1 w k).trans (rebase_eq w _)
    · exact (Cells.read_rebaseAll hd.prev.1 w k).trans (rebase_eq w _)
  · exact raises_of_deflate (p := s.startPort) h (exec_swbSlide s) (if_pos hbefore) rfl

/-- Settles O42: without a slide one read fills the window or takes the slice, and a fill with a slide is a fill from
the units the slide leaves. -/
theorem fillReadsInput : Obligations.FillReadsInput := by
  intro s d h hd size n hsize
  refine ⟨fun hroom => ?_, fun hend => ?_⟩
  · have hn : n ≤ s.port.input.length := Nat.min_le_left _ _
    exact ⟨_, fun i => Memory.read_writeAll_take hd.window _ i hn,
      completes_swbFill h hn (Enc.fillWindow_of_room hroom hsize)⟩
  · have hw := hd.wSize_ge
    have hstart : d.wSize ≤ d.strstart := by
      have : size = 2 * d.wSize := rfl
      omega
    obtain ⟨hslide, hspace⟩ := Deflate.slide_fill hd hend (by show d.strstart ≤ size; omega)
    exact ⟨d.slide, completes_swbSlide h hstart,
      exec_swbFill_congr h fun p => Enc.fillWindow_congr hslide.symm hspace.symm⟩

/-- Settles O43: a dictionary of 3 bytes or more is loaded and its strings inserted one after another; DEF.SETDICT is
the same seed. -/
theorem dictionariesSeedTheWindow : Obligations.DictionariesSeedTheWindow := by
  intro s d h hd n k
  refine ⟨fun hstart hlook => ?_, fun hbusy => ?_, fun hclosed => ?_⟩
  · have hfree : ¬(d.strstart ≠ 0 ∨ d.lookahead ≠ 0) := by simp [hstart, hlook]
    by_cases hlen : n < 3
    · have hseed := Deflate.dictSeed_short (d := d) hlen
      exact ⟨0, d, completes_swbDseed h hfree hseed, fun ha => completes_defSetDict h ha hseed,
        fun _ => ⟨rfl, rfl⟩, fun hge => absurd hlen (Nat.not_lt.2 hge)⟩
    · obtain ⟨e, hseed, hins⟩ := Deflate.dictSeed_long hd (Nat.not_lt.1 hlen)
      have hk : k - 2 = k - 3 + 1 := by
        have hw := hd.wSize_ge
        have hmax : k = min n (d.wSize - 262) := rfl
        omega
      have hhash : e.insH = hash3 (d.dictLoaded s.port.input k).window (k - 3) := by
        rw [hins.hash]
        exact congrArg (rollingHash _) hk
      refine ⟨k, e, completes_swbDseed h hfree hseed, fun ha => completes_defSetDict h ha hseed,
        fun hlt => absurd hlt hlen, fun _ => ⟨rfl, (d.dictLoaded s.port.input k).window, e.head, e.prev,
          Deflate.read_dictLoaded hd.window (Nat.min_le_left _ _), hins.head, hins.outside, hins.prev, ?_⟩⟩
      rw [← hhash]
      exact hins.rest
  · exact raises_of_deflate (p := s.startPort) h (exec_swbDseed s) (if_pos hbusy) rfl
  · exact fails_of_deflate (p := s.startPort) h (exec_defSetDict s) (if_pos hclosed) rfl

end Sys2Proof.Machine

/-! # Bit-reversed codes

A decode table is indexed by stream bits, the first of them lowest, and a code is written with its first bit highest (R154). The
first 15 stream bits of `v`, read as a code, are `bitrev v 15`: the codes of length `l` that stream bits start with
are the intervals of `2 ^ (15 - l)` such numbers (R16, R426). -/

namespace Sys2Proof.Machine

/-! ## Bit reversal (R16) -/

theorem bitrev_lt (v n : Nat) : bitrev v n < 2 ^ n := by
  induction n generalizing v with
  | zero => simp [bitrev]
  | succ n ih =>
    have hbit : v % 2 * 2 ^ n ≤ 1 * 2 ^ n := Nat.mul_le_mul_right _ (by omega)
    have := ih (v / 2)
    rw [bitrev, Nat.pow_succ]
    omega

theorem bitrev_add (v a b : Nat) : bitrev v (a + b) = bitrev v a * 2 ^ b + bitrev (v / 2 ^ a) b := by
  induction a generalizing v with
  | zero => simp [bitrev]
  | succ a ih =>
    rw [Nat.succ_add, bitrev, bitrev, ih, Nat.div_div_eq_div_mul, ← Nat.pow_succ', Nat.pow_add]
    ring

/-- The first `l` of `n` bits are the high end of their reversal. -/
theorem bitrev_div_two_pow {l n : Nat} (h : l ≤ n) (v : Nat) : bitrev v n / 2 ^ (n - l) = bitrev v l := by
  obtain ⟨k, rfl⟩ := Nat.exists_eq_add_of_le h
  rw [bitrev_add, Nat.add_sub_cancel_left, Nat.add_comm, Nat.add_mul_div_right _ _ (Nat.two_pow_pos k),
    Nat.div_eq_of_lt (bitrev_lt _ k), Nat.zero_add]

theorem bitrev_bitrev (v n : Nat) : bitrev (bitrev v n) n = v % 2 ^ n := by
  induction n with
  | zero => simp [bitrev, Nat.mod_one]
  | succ n ih =>
    have hlast : bitrev v (n + 1) = bitrev v n * 2 + v / 2 ^ n % 2 := by rw [bitrev_add]; simp [bitrev]
    have hbit : bitrev v (n + 1) % 2 = v / 2 ^ n % 2 := by omega
    have hrest : bitrev v (n + 1) / 2 = bitrev v n := by omega
    rw [bitrev, hbit, hrest, ih, Nat.mod_pow_succ]
    ring

theorem bitrev_mod (v n : Nat) : bitrev (v % 2 ^ n) n = bitrev v n := by
  rw [← bitrev_bitrev, bitrev_bitrev, Nat.mod_eq_of_lt (bitrev_lt v n)]

/-- Zero bits after a code are the low ones of the code and the high ones of its reversal. -/
theorem bitrev_two_pow_mul {l n : Nat} (h : l ≤ n) (c : Nat) : bitrev (2 ^ (n - l) * c) n = bitrev c l := by
  obtain ⟨k, rfl⟩ := Nat.exists_eq_add_of_le' h
  rw [Nat.add_sub_cancel]
  clear h
  induction k with
  | zero => simp
  | succ k ih =>
    rw [Nat.succ_add, bitrev, Nat.pow_succ', Nat.mul_assoc, Nat.mul_mod_right, Nat.mul_div_cancel_left _ (by decide), ih]
    simp

/-- The stream bits `v` start with the code of `l` bits at `p`. -/
theorem mod_eq_bitrev_iff {l p : Nat} (hl : l ≤ 15) (hp : 2 ^ (15 - l) ∣ p) (hlt : p < 2 ^ 15) (v : Nat) :
    v % 2 ^ l = bitrev p 15 ↔ p ≤ bitrev v 15 ∧ bitrev v 15 < p + 2 ^ (15 - l) := by
  obtain ⟨c, rfl⟩ := hp
  have hwidth : 2 ^ (15 - l) * 2 ^ l = 2 ^ 15 := by rw [← Nat.pow_add, Nat.sub_add_cancel hl]
  have hc : c < 2 ^ l := Nat.lt_of_mul_lt_mul_left (hlt.trans_eq hwidth.symm)
  have hcode : v % 2 ^ l = bitrev c l ↔ bitrev v l = c := by
    constructor
    · intro h
      rw [← bitrev_mod, h, bitrev_bitrev, Nat.mod_eq_of_lt hc]
    · rintro rfl
      exact (bitrev_bitrev v l).symm
  rw [bitrev_two_pow_mul hl, hcode, ← bitrev_div_two_pow hl, Nat.div_eq_iff (Nat.two_pow_pos _)]
  have hpos := Nat.two_pow_pos (15 - l)
  rw [Nat.mul_comm c]
  omega

/-! ## The next code (R426) -/

theorem nextHuff_lt (h n : Nat) : nextHuff h n < 2 ^ n := by
  induction n with
  | zero => simp [nextHuff]
  | succ n ih =>
    rw [nextHuff, Nat.pow_succ]
    split
    · omega
    · have := Nat.mod_lt h (Nat.two_pow_pos n)
      omega

theorem nextHuff_mod (h n : Nat) : nextHuff (h % 2 ^ n) n = nextHuff h n := by
  induction n generalizing h with
  | zero => rfl
  | succ n ih =>
    have hbit : (h % 2 ^ (n + 1)).testBit n = h.testBit n := by simp [Nat.testBit_mod_two_pow]
    have hlow : h % 2 ^ (n + 1) % 2 ^ n = h % 2 ^ n := Nat.mod_mod_of_dvd h (Nat.pow_dvd_pow 2 n.le_succ)
    rw [nextHuff, nextHuff, hbit, hlow, ← ih (h % _), hlow, ih]

/-- The next code of the same length is the next number. -/
theorem nextHuff_bitrev (c l : Nat) : nextHuff (bitrev c l) l = bitrev (c + 1) l := by
  induction l generalizing c with
  | zero => rfl
  | succ l ih =>
    have hlow : bitrev c (l + 1) % 2 ^ l = bitrev (c / 2) l := by
      rw [bitrev, Nat.mul_add_mod_self_right, Nat.mod_eq_of_lt (bitrev_lt _ l)]
    have hbit : (bitrev c (l + 1)).testBit l = decide (c % 2 = 1) := by
      rw [bitrev, Nat.testBit_eq_decide_div_mod_eq, Nat.add_comm, Nat.add_mul_div_right _ _ (Nat.two_pow_pos l),
        Nat.div_eq_of_lt (bitrev_lt _ l), Nat.zero_add, Nat.mod_mod]
    rw [nextHuff, hbit, ← nextHuff_mod, hlow, ih, bitrev]
    by_cases hc : c % 2 = 1
    · simp [hc, show (c + 1) % 2 = 0 by omega, show (c + 1) / 2 = c / 2 + 1 by omega]
    · simp [hc, show (c + 1) % 2 = 1 by omega, show (c + 1) / 2 = c / 2 by omega, Nat.add_comm]

/-- The reversed code steps to the end of its interval. -/
theorem nextHuff_bitrev_of_dvd {l p : Nat} (hl : l ≤ 15) (hp : 2 ^ (15 - l) ∣ p) :
    nextHuff (bitrev p 15) l = bitrev (p + 2 ^ (15 - l)) 15 := by
  obtain ⟨c, rfl⟩ := hp
  rw [bitrev_two_pow_mul hl, nextHuff_bitrev, ← bitrev_two_pow_mul hl, Nat.mul_add_one]

end Sys2Proof.Machine

/-! # Canonical codes as intervals of code space

The code space has 2^15 places, and a code of length `l` takes `2 ^ (15 - l)` of them. In the canonical order of R260 and R424 the
codes take the places one after another, from 0 on; the Kraft sum is the place where the last one ends. -/

namespace Sys2Proof.Machine

open Sys2Proof.Claim

/-- The places the code of symbol `s` takes. -/
def codeSpan (lens : List Nat) (s : Nat) : Nat := 2 ^ (15 - lens.getD s 0)

/-- The first place of the code of symbol `s`. -/
def codeStart (lens : List Nat) (s : Nat) : Nat := codeSpan lens s * canonicalCode lens s

/-- The places the codes of the symbols `ss` take. -/
def spanSum (lens ss : List Nat) : Nat := (ss.map (codeSpan lens)).sum

/-- The places the codes shorter than `l` take. -/
def spanBelow (lens : List Nat) (l : Nat) : Nat := ((List.range' 1 (l - 1)).map fun k => lengthCount lens k * 2 ^ (15 - k)).sum

/-- The codes of the symbols `ss` take the places one after another, from `p` on. -/
def Placed (lens : List Nat) : Nat → List Nat → Prop
  | _, [] => True
  | p, s :: ss => codeStart lens s = p ∧ Placed lens (p + codeSpan lens s) ss

section
variable {lens ss : List Nat} {p s l : Nat}

/-! ## Symbols placed one after another -/

theorem codeSpan_pos (lens : List Nat) (s : Nat) : 0 < codeSpan lens s := Nat.two_pow_pos _

@[simp] theorem spanSum_nil (lens : List Nat) : spanSum lens [] = 0 := rfl

@[simp] theorem spanSum_cons (lens : List Nat) (s : Nat) (ss : List Nat) :
    spanSum lens (s :: ss) = codeSpan lens s + spanSum lens ss := rfl

@[simp] theorem spanSum_append (lens ss ss' : List Nat) : spanSum lens (ss ++ ss') = spanSum lens ss + spanSum lens ss' := by
  simp [spanSum]

theorem placed_append {ss' : List Nat} :
    Placed lens p (ss ++ ss') ↔ Placed lens p ss ∧ Placed lens (p + spanSum lens ss) ss' := by
  induction ss generalizing p with
  | nil => simp [Placed]
  | cons s ss ih => simp [Placed, ih, Nat.add_assoc, and_assoc]

theorem Placed.bounds (h : Placed lens p ss) (hs : s ∈ ss) :
    p ≤ codeStart lens s ∧ codeStart lens s + codeSpan lens s ≤ p + spanSum lens ss := by
  induction ss generalizing p with
  | nil => cases hs
  | cons s' ss ih =>
    obtain ⟨hstart, hrest⟩ := h
    rw [spanSum_cons]
    rcases List.mem_cons.1 hs with rfl | hs
    · omega
    · have := ih hrest hs
      omega

theorem Placed.eq_of_mem (h : Placed lens p ss) {x s' : Nat} (hs : s ∈ ss) (hs' : s' ∈ ss)
    (hx : codeStart lens s ≤ x ∧ x < codeStart lens s + codeSpan lens s)
    (hx' : codeStart lens s' ≤ x ∧ x < codeStart lens s' + codeSpan lens s') : s = s' := by
  induction ss generalizing p with
  | nil => cases hs
  | cons t ss ih =>
    obtain ⟨hstart, hrest⟩ := h
    obtain heq | hmem := List.mem_cons.1 hs <;> obtain heq' | hmem' := List.mem_cons.1 hs'
    · rw [heq, heq']
    · subst heq
      have := hrest.bounds hmem'
      omega
    · subst heq'
      have := hrest.bounds hmem
      omega
    · exact ih hrest hmem hmem'

/-! ## The canonical order (R260, R424) -/

theorem codeStart_eq (hlen : lens.getD s 0 = l) (hl : l ≤ 15) :
    codeStart lens s = spanBelow lens l + 2 ^ (15 - l) * ((lens.take s).filter fun x => x == l).length := by
  have hscale : ∀ k ∈ List.range' 1 (l - 1), 2 ^ (15 - l) * (lengthCount lens k * 2 ^ (l - k)) = lengthCount lens k * 2 ^ (15 - k) := by
    intro k hk
    have hk := List.mem_range'_1.1 hk
    rw [show 15 - k = 15 - l + (l - k) by omega, Nat.pow_add]
    ring
  rw [codeStart, codeSpan, canonicalCode, hlen, Nat.mul_add, ← List.sum_map_mul_left]
  exact congrArg (·.sum + _) (List.map_congr_left hscale)

theorem filter_range_placed (hl : l ≤ 15) {n : Nat} (hn : n ≤ lens.length) :
    Placed lens (spanBelow lens l) ((List.range n).filter fun s => lens.getD s 0 == l) ∧
      spanSum lens ((List.range n).filter fun s => lens.getD s 0 == l) =
        2 ^ (15 - l) * ((lens.take n).filter fun x => x == l).length := by
  induction n with
  | zero => simp [Placed]
  | succ n ih =>
    obtain ⟨hplaced, hspan⟩ := ih (Nat.le_of_succ_le hn)
    have hget : lens.getD n 0 = lens[n] := List.getD_eq_getElem lens 0 hn
    rw [List.range_succ, List.filter_append, ← List.take_append_getElem hn, List.filter_append, List.filter_singleton,
      List.filter_singleton, hget]
    by_cases hlen : lens[n] = l
    · rw [hlen, beq_self_eq_true, cond_true, cond_true, placed_append, spanSum_append, hspan]
      refine ⟨⟨hplaced, codeStart_eq (hget.trans hlen) hl, trivial⟩, ?_⟩
      rw [List.length_append, Nat.mul_add, spanSum_cons, codeSpan, hget, hlen]
      simp
    · rw [beq_false_of_ne hlen, cond_false, cond_false, List.append_nil, List.append_nil]
      exact ⟨hplaced, hspan⟩

theorem spanSum_symbolsOfLength (hl : l ≤ 15) : spanSum lens (symbolsOfLength lens l) = 2 ^ (15 - l) * lengthCount lens l := by
  have := (filter_range_placed hl (le_refl lens.length)).2
  rwa [List.take_length] at this

theorem spanBelow_succ (lens : List Nat) (hl : 1 ≤ l) : spanBelow lens (l + 1) = spanBelow lens l + lengthCount lens l * 2 ^ (15 - l) := by
  obtain ⟨k, rfl⟩ := Nat.exists_eq_add_of_le' hl
  simp [spanBelow, List.range'_concat, Nat.add_comm 1 k]

theorem flatMap_symbolsOfLength_placed (lens : List Nat) {n : Nat} (hn : n ≤ 15) :
    Placed lens 0 ((List.range' 1 n).flatMap (symbolsOfLength lens)) ∧
      spanSum lens ((List.range' 1 n).flatMap (symbolsOfLength lens)) = spanBelow lens (n + 1) := by
  induction n with
  | zero => simp [Placed, spanBelow]
  | succ n ih =>
    obtain ⟨hplaced, hspan⟩ := ih (Nat.le_of_succ_le hn)
    rw [List.range'_concat, List.flatMap_append, placed_append, spanSum_append, hspan, Nat.one_mul, Nat.add_comm 1 n,
      List.flatMap_singleton, spanSum_symbolsOfLength hn, Nat.zero_add, spanBelow_succ lens (l := n + 1) (by omega),
      Nat.mul_comm]
    exact ⟨⟨hplaced, (filter_range_placed hn (le_refl _)).1⟩, rfl⟩

/-- In the canonical order the codes take the places from 0 on. -/
theorem sortedSymbols_placed (lens : List Nat) : Placed lens 0 (sortedSymbols lens) :=
  (flatMap_symbolsOfLength_placed lens (le_refl 15)).1

theorem spanSum_sortedSymbols (lens : List Nat) : spanSum lens (sortedSymbols lens) = spanBelow lens 16 :=
  (flatMap_symbolsOfLength_placed lens (le_refl 15)).2

theorem mem_symbolsOfLength : s ∈ symbolsOfLength lens l ↔ s < lens.length ∧ lens.getD s 0 = l := by
  simp [symbolsOfLength]

theorem mem_sortedSymbols : s ∈ sortedSymbols lens ↔ 1 ≤ lens.getD s 0 ∧ lens.getD s 0 ≤ 15 := by
  simp only [sortedSymbols, List.mem_flatMap, List.mem_range'_1, mem_symbolsOfLength]
  constructor
  · rintro ⟨l, hl, -, rfl⟩
    omega
  · rintro ⟨h1, h15⟩
    refine ⟨_, by omega, ?_, rfl⟩
    by_contra hge
    rw [List.getD_eq_default _ _ (Nat.not_lt.1 hge)] at h1
    omega

/-- The canonical order is by length. -/
theorem sortedSymbols_sorted (lens : List Nat) : (sortedSymbols lens).Pairwise fun s s' => lens.getD s 0 ≤ lens.getD s' 0 := by
  have hlen {l s : Nat} (hs : s ∈ symbolsOfLength lens l) : lens.getD s 0 = l := (mem_symbolsOfLength.1 hs).2
  refine List.pairwise_flatMap.2 ⟨fun l _ => List.pairwise_of_forall_mem_list fun s hs s' hs' => ?_,
    List.Pairwise.imp (fun hlt s hs s' hs' => ?_) List.pairwise_lt_range'⟩
  · rw [hlen hs, hlen hs']
  · rw [hlen hs, hlen hs']
    exact Nat.le_of_lt hlt

/-! ## The Kraft sum (R422) -/

theorem kraft_cons (l : Nat) (lens : List Nat) : kraft (l :: lens) = (if l = 0 then 0 else 2 ^ (15 - l)) + kraft lens := by
  by_cases hl : l = 0 <;> simp [kraft, hl]

theorem lengthCount_cons (x : Nat) (lens : List Nat) (l : Nat) :
    lengthCount (x :: lens) l = (if x = l then 1 else 0) + lengthCount lens l := by
  by_cases hx : x = l <;> simp [lengthCount, hx, Nat.add_comm]

/-- The codes of a set take as many places as its Kraft sum says. -/
theorem spanBelow_eq_kraft (h : ∀ l ∈ lens, l ≤ 15) : spanBelow lens 16 = kraft lens := by
  induction lens with
  | nil => rfl
  | cons x lens ih =>
    have hone : ∀ x ≤ 15, ((List.range' 1 15).map fun l => (if x = l then 1 else 0) * 2 ^ (15 - l)).sum =
        if x = 0 then 0 else 2 ^ (15 - x) := by decide
    rw [kraft_cons, ← ih fun l hl => h l (List.mem_cons_of_mem _ hl), ← hone x (h x (by simp)), spanBelow, spanBelow,
      ← List.sum_map_add]
    simp only [lengthCount_cons, Nat.add_mul]

theorem spanSum_sortedSymbols_eq_kraft (h : ∀ l ∈ lens, l ≤ 15) : spanSum lens (sortedSymbols lens) = kraft lens := by
  rw [spanSum_sortedSymbols, spanBelow_eq_kraft h]

/-! ## The code that stream bits start with -/

theorem startsWith_iff (h1 : 1 ≤ lens.getD s 0) (h15 : lens.getD s 0 ≤ 15) (hfits : codeStart lens s + codeSpan lens s ≤ 2 ^ 15)
    (v : Nat) :
    startsWith lens s v ↔ codeStart lens s ≤ bitrev v 15 ∧ bitrev v 15 < codeStart lens s + codeSpan lens s := by
  have hpos := codeSpan_pos lens s
  have hcode : (canonicalField lens s).1 = bitrev (codeStart lens s) 15 := (bitrev_two_pow_mul h15 _).symm
  have hdvd : codeSpan lens s ∣ codeStart lens s := Nat.dvd_mul_right _ _
  rw [startsWith, hcode, mod_eq_bitrev_iff h15 hdvd (by omega)]
  exact and_iff_right (Nat.one_le_iff_ne_zero.1 h1)

theorem getD_le {m : Nat} (h : ∀ l ∈ lens, l ≤ m) (s : Nat) : lens.getD s 0 ≤ m := by
  rw [List.getD_eq_getElem?_getD]
  cases hs : lens[s]? with
  | none => exact Nat.zero_le m
  | some l => exact h l (List.mem_of_getElem? hs)

theorem coded_iff_mem (h : ∀ l ∈ lens, l ≤ 15) : coded lens s ↔ s ∈ sortedSymbols lens := by
  rw [mem_sortedSymbols, coded, Nat.one_le_iff_ne_zero]
  refine (and_iff_left ?_).symm
  exact getD_le h s

/-- Any stream bits start with the code of at most one symbol. -/
theorem startsWith_unique (h : ∀ l ∈ lens, l ≤ 15) (hk : kraft lens ≤ 2 ^ 15) {v s' : Nat} (hs : startsWith lens s v)
    (hs' : startsWith lens s' v) : s = s' := by
  have hplaced := sortedSymbols_placed lens
  have hin : ∀ s, startsWith lens s v → s ∈ sortedSymbols lens ∧
      codeStart lens s ≤ bitrev v 15 ∧ bitrev v 15 < codeStart lens s + codeSpan lens s := by
    intro s hs
    have hmem := (coded_iff_mem h).1 hs.1
    obtain ⟨h1, h15⟩ := mem_sortedSymbols.1 hmem
    have hb := (hplaced.bounds hmem).2
    rw [spanSum_sortedSymbols_eq_kraft h] at hb
    exact ⟨hmem, (startsWith_iff h1 h15 (by omega) v).1 hs⟩
  exact hplaced.eq_of_mem (hin s hs).1 (hin s' hs').1 (hin s hs).2 (hin s' hs').2

end

end Sys2Proof.Machine

/-! # Judging a set of lengths and building a table

HDT.BUILD for every set of lengths that is not complete (R420..R423), and the fill loop that a complete set shares with them. -/

namespace Sys2Proof.Machine

open Sys2Proof.Claim

section
variable {lens : List Nat} {l : Nat}

/-! ## The lengths in use (R421) -/

theorem lengthCount_ne_zero : lengthCount lens l ≠ 0 ↔ l ∈ lens := by
  simp [lengthCount]

theorem mem_usedLengths : l ∈ usedLengths lens ↔ 1 ≤ l ∧ l ≤ 15 ∧ l ∈ lens := by
  simp only [usedLengths, List.mem_filter, List.mem_range'_1, decide_eq_true_eq, lengthCount_ne_zero]
  exact ⟨fun ⟨⟨h1, h16⟩, hmem⟩ => ⟨h1, by omega, hmem⟩, fun ⟨h1, h15, hmem⟩ => ⟨⟨h1, by omega⟩, hmem⟩⟩

theorem usedLengths_sorted (lens : List Nat) : (usedLengths lens).Pairwise (· < ·) :=
  List.Pairwise.filter _ List.pairwise_lt_range'

theorem maxLength_mem (h : maxLength lens ≠ 0) : maxLength lens ∈ usedLengths lens := by
  unfold maxLength at *
  obtain hnil | ⟨init, m, hus⟩ := List.eq_nil_or_concat' (usedLengths lens)
  · simp [hnil] at h
  · simp [hus]

theorem le_maxLength (h : ∀ l ∈ lens, l ≤ 15) (hl : l ∈ lens) : l ≤ maxLength lens := by
  by_cases hzero : l = 0
  · omega
  have hused : l ∈ usedLengths lens := mem_usedLengths.2 ⟨by omega, h l hl, hl⟩
  have hsorted := usedLengths_sorted lens
  unfold maxLength
  obtain hnil | ⟨init, m, hus⟩ := List.eq_nil_or_concat' (usedLengths lens)
  · simp [hnil] at hused
  · rw [hus, List.getLastD_concat]
    rw [hus, List.pairwise_append] at hsorted
    rw [hus, List.mem_append, List.mem_singleton] at hused
    obtain hin | rfl := hused
    · exact (hsorted.2.2 l hin m (by simp)).le
    · exact le_rfl

theorem maxLength_le (lens : List Nat) : maxLength lens ≤ 15 := by
  by_cases h : maxLength lens = 0
  · omega
  · exact (mem_usedLengths.1 (maxLength_mem h)).2.1

theorem maxLength_eq_foldr (h : ∀ l ∈ lens, l ≤ 15) : maxLength lens = lens.foldr max 0 := by
  refine le_antisymm ?_ (List.max_le_of_forall_le lens _ fun l hl => le_maxLength h hl)
  by_cases hzero : maxLength lens = 0
  · omega
  · exact List.le_max_of_le (mem_usedLengths.1 (maxLength_mem hzero)).2.2 le_rfl

theorem minLength_mem (h : usedLengths lens ≠ []) : minLength lens ∈ usedLengths lens := by
  unfold minLength
  cases hus : usedLengths lens with
  | nil => exact absurd hus h
  | cons m us => simp

theorem minLength_le (hl : l ∈ usedLengths lens) : minLength lens ≤ l := by
  have hsorted := usedLengths_sorted lens
  unfold minLength
  cases hus : usedLengths lens with
  | nil => simp
  | cons m us =>
    rw [hus] at hl hsorted
    obtain rfl | hin := List.mem_cons.1 hl
    · exact le_rfl
    · exact (List.rel_of_pairwise_cons hsorted hin).le

/-! ## The acceptance rule (R422) -/

theorem kraft_eq_zero : kraft lens = 0 ↔ ∀ l ∈ lens, l = 0 := by
  induction lens with
  | nil => simp [kraft]
  | cons x lens ih =>
    rw [kraft_cons, Nat.add_eq_zero_iff, ih]
    by_cases hx : x = 0 <;> simp [hx]

theorem maxLength_eq_zero (h : ∀ l ∈ lens, l ≤ 15) : maxLength lens = 0 ↔ kraft lens = 0 := by
  rw [kraft_eq_zero]
  refine ⟨fun hzero l hl => ?_, fun hzero => ?_⟩
  · have := le_maxLength h hl
    omega
  · by_contra hne
    exact hne (hzero _ (mem_usedLengths.1 (maxLength_mem hne)).2.2)

/-- The loop of R422 stops below 0 where the codes need more places than there are, and ends with the places left. -/
theorem codeSpaceLeft_eq (lens : List Nat) {a n : Nat} (h : a + n = 16) {left : Int} (hleft : 0 ≤ left) :
    codeSpaceLeft lens (List.range' a n) left =
      let need := (((List.range' a n).map fun k => lengthCount lens k * 2 ^ (15 - k)).sum : Nat)
      if 2 ^ n * left < need then none else some (2 ^ n * left - need) := by
  induction n generalizing a left with
  | zero => simp [codeSpaceLeft, hleft]
  | succ n ih =>
    have ha : 15 - a = n := by omega
    simp only [List.range'_succ, codeSpaceLeft, List.map_cons, List.sum_cons, ha, Nat.cast_add, Nat.cast_mul, Nat.cast_pow,
      Nat.cast_ofNat]
    have hscale : (2 : Int) ^ (n + 1) * left = 2 ^ n * (2 * left) := by ring
    split
    · next hneg =>
      have hmul := mul_lt_mul_of_pos_left (show 2 * left < (lengthCount lens a : Int) by omega) (show (0 : Int) < 2 ^ n by positivity)
      rw [if_pos (by rw [hscale]; linarith)]
    · next hnn =>
      have hsub : (2 : Int) ^ n * (2 * left - lengthCount lens a) = 2 ^ (n + 1) * left - lengthCount lens a * 2 ^ n := by ring
      rw [ih (by omega) (by omega)]
      simp only [hsub, sub_lt_iff_lt_add', sub_sub]

/-- The Kraft sum judges a set (R422, R423). -/
theorem acceptance_eq (h : ∀ l ∈ lens, l ≤ 15) (kind : CodeKind) :
    acceptance kind lens =
      if kraft lens = 0 then .empty
      else if 2 ^ 15 < kraft lens then .oversubscribed
      else if kraft lens = 2 ^ 15 then .complete
      else if kind = .codes ∨ maxLength lens ≠ 1 then .incomplete
      else .acceptedIncomplete := by
  have hneed : ((List.range' 1 15).map fun k => lengthCount lens k * 2 ^ (15 - k)).sum = kraft lens := spanBelow_eq_kraft h
  rw [acceptance, codeSpaceLeft_eq lens rfl Int.one_nonneg, hneed]
  simp only [maxLength_eq_zero h]
  split
  · rfl
  · by_cases hover : 2 ^ 15 < kraft lens
    · rw [if_pos hover, if_pos (show (2 : Int) ^ 15 * 1 < kraft lens by omega)]
    · by_cases hfull : kraft lens = 2 ^ 15
      · simp [hfull]
      · have hpos : (0 : Int) < 2 ^ 15 * 1 - kraft lens := by omega
        have hnot : ¬(2 : Int) ^ 15 * 1 < kraft lens := by omega
        simp only [if_neg hover, if_neg hfull, if_neg hnot, hpos, true_and, if_true]

end

/-! ## Filling entries (R426) -/

theorem Cells.find?_map_index {α : Type} {is : List Nat} (h : is.Pairwise (· < ·)) (f : Nat → α) {i : Nat} (hi : i ∈ is) :
    Cells.find? (is.map fun i => (i, f i)) i = some (f i) :=
  Cells.find?_of_mem (Cells.sorted_map_index h f) (List.mem_map.2 ⟨i, hi, rfl⟩)

theorem find?_histogram (lens : List Nat) {l : Nat} (hl : l ≤ 15) :
    Cells.find? (histogram lens) l = some (lengthCount lens l) :=
  Cells.find?_map_index List.pairwise_lt_range _ (List.mem_range.2 (by omega))

section
variable {a : ArrayName} {size at_ incr n : Nat} {e : Entry} {t t' : Cells Entry}

theorem fillEntries_total (t : Cells Entry) (h : ∀ m < n, at_ + m * incr < size) :
    ∃ t', fillEntries a size at_ incr e n t = .ok t' := by
  induction n generalizing t with
  | zero => exact ⟨t, rfl⟩
  | succ n ih =>
    obtain ⟨t', ht'⟩ := ih (Cells.put t (at_ + n * incr) e) fun m hm => h m (by omega)
    exact ⟨t', by rw [fillEntries, Cells.set_nat t e (h n (by omega)), Except.ok_bind, ht']⟩

/-- The places filled are in bounds and hold the entry; the others are as they were. -/
theorem fillEntries_ok (h : fillEntries a size at_ incr e n t = .ok t') :
    (∀ m < n, at_ + m * incr < size ∧ Cells.find? t' (at_ + m * incr) = some e) ∧
      ∀ j, (∀ m < n, j ≠ at_ + m * incr) → Cells.find? t' j = Cells.find? t j := by
  induction n generalizing t with
  | zero =>
    cases h
    exact ⟨fun m hm => absurd hm m.not_lt_zero, fun j _ => rfl⟩
  | succ n ih =>
    rw [fillEntries] at h
    obtain ⟨u, hset, h⟩ := Except.bind_ok.1 h
    obtain ⟨k, hk, hsize, rfl⟩ := Cells.set_ok hset
    obtain rfl : at_ + n * incr = k := by exact_mod_cast hk
    obtain ⟨hin, hout⟩ := ih h
    refine ⟨fun m hm => ?_, fun j hj => ?_⟩
    · by_cases hearlier : ∃ m' < n, at_ + m * incr = at_ + m' * incr
      · obtain ⟨m', hm', heq⟩ := hearlier
        rw [heq]
        exact hin m' hm'
      · obtain rfl : m = n := by
          by_contra hne
          exact hearlier ⟨m, by omega, rfl⟩
        refine ⟨hsize, ?_⟩
        rw [hout _ fun m' hm' heq => hearlier ⟨m', hm', heq⟩, Cells.find?_put_same]
    · rw [hout j fun m hm => hj m (by omega), Cells.find?_put_ne _ _ (hj n (by omega))]

end

theorem CodeKind.base_add_two_le (k : CodeKind) : k.base + 2 ≤ k.arenaSize := by cases k <;> decide

section
variable {kind : CodeKind} {lens : List Nat}

/-! ## The builds that leave no codes (R422, R423) -/

theorem buildTable_oversubscribed (h : acceptance kind lens = .oversubscribed) (t : DecodeTables) :
    buildTable kind lens t = .ok (.oversubscribed, 0, { t with count := histogram lens }) := by
  simp only [buildTable, h]

theorem buildTable_incomplete (h : acceptance kind lens = .incomplete) (t : DecodeTables) :
    buildTable kind lens t = .ok (.incomplete, 0, { t with count := histogram lens }) := by
  simp only [buildTable, h]

theorem buildTable_empty (h : acceptance kind lens = .empty) (t : DecodeTables) :
    ∃ arena,
      (∀ i, Cells.find? arena i =
        if i = kind.base ∨ i = kind.base + 1 then some ⟨.invalid, 1, 0⟩ else Cells.find? (t.arenaOf kind) i) ∧
      buildTable kind lens t = .ok (.empty, 1, { t with count := histogram lens }.setArena kind arena) := by
  have hsize := kind.base_add_two_le
  have harena : { t with count := histogram lens }.arenaOf kind = t.arenaOf kind := by cases kind <;> rfl
  obtain ⟨arena, hfill⟩ := fillEntries_total (a := kind.arenaName) (size := kind.arenaSize) (at_ := kind.base) (incr := 1)
    (e := ⟨.invalid, 1, 0⟩) (n := 2) (t.arenaOf kind) fun m hm => by omega
  obtain ⟨hin, hout⟩ := fillEntries_ok hfill
  refine ⟨arena, fun i => ?_, by simp only [buildTable, h, harena, hfill]; rfl⟩
  split
  · next hi =>
    obtain rfl | rfl := hi
    · exact (hin 0 (by omega)).2
    · exact (hin 1 (by omega)).2
  · next hi => exact hout i fun m hm => by omega

/-- A table of the accepted sets, from its entries. -/
theorem buildTable_accepted (h : acceptance kind lens = .complete ∨ acceptance kind lens = .acceptedIncomplete)
    (t : DecodeTables) {root : Nat} (hroot : rootWidth lens kind.rootReq = root) :
    buildTable kind lens t =
      (do
        let (a, count) ← buildEntries kind lens kind.arenaName kind.arenaSize root kind.base (t.arenaOf kind)
        .ok (acceptance kind lens, root, { t.setArena kind a with
          count := count, offs := finalOffsets lens, work := writeWork t.work 0 (sortedSymbols lens) })) := by
  subst hroot
  obtain h | h := h <;> cases kind <;> simp only [buildTable, h] <;> rfl

/-! ## One code of length 1 (R422, R426) -/

/-- The symbols of a set of one code of length 1. -/
theorem sortedSymbols_single (h : ∀ l ∈ lens, l ≤ 1) (hk : 0 < kraft lens) (hk' : kraft lens < 2 ^ 15) :
    ∃ s, sortedSymbols lens = [s] ∧ s < lens.length ∧ lens.getD s 0 = 1 := by
  have h15 : ∀ l ∈ lens, l ≤ 15 := fun l hl => (h l hl).trans (by decide)
  have hone : ∀ s ∈ sortedSymbols lens, s < lens.length ∧ lens.getD s 0 = 1 := by
    intro s hs
    obtain ⟨l, hl, hs⟩ := List.mem_flatMap.1 hs
    obtain ⟨hlt, rfl⟩ := mem_symbolsOfLength.1 hs
    have hmem : lens.getD s 0 ∈ lens := by rw [List.getD_eq_getElem _ _ hlt]; exact List.getElem_mem hlt
    have := h _ hmem
    have := List.mem_range'_1.1 hl
    omega
  have hspan := spanSum_sortedSymbols_eq_kraft h15
  match hss : sortedSymbols lens with
  | [] => rw [hss, spanSum_nil] at hspan; omega
  | [s] => exact ⟨s, rfl, hone s (by simp [hss])⟩
  | s :: s' :: ss =>
    have hs := (hone s (by simp [hss])).2
    have hs' := (hone s' (by simp [hss])).2
    rw [hss, spanSum_cons, spanSum_cons, codeSpan, codeSpan, hs, hs'] at hspan
    omega

/-- The table of a single code of length 1: its symbol at the index 0, and an invalid entry at 1. -/
theorem buildEntries_single {a : ArrayName} {size base s : Nat} (hmax : maxLength lens = 1) (hss : sortedSymbols lens = [s])
    (hs : lens.getD s 0 = 1) (hsize : base + 2 ≤ size) (t : Cells Entry) :
    ∃ table count, buildEntries kind lens a size 1 base t = .ok (table, count) ∧
      ∀ i, Cells.find? table i =
        if i = base then some (symbolEntry kind s 1) else if i = base + 1 then some ⟨.invalid, 1, 0⟩ else Cells.find? t i := by
  have hget := Cells.get_nat (a := .count) (show 1 < 16 by decide) (find?_histogram lens (l := 1) (by decide))
  refine ⟨Cells.put (Cells.put t base (symbolEntry kind s 1)) (base + 1) ⟨.invalid, 1, 0⟩,
    Cells.put (histogram lens) 1 (lengthCount lens 1 - 1), ?_, fun i => ?_⟩
  · have hset : ∀ (m : Cells Entry) (v : Entry), Cells.set a size m ((base : Nat) : Int) v = .ok (Cells.put m base v) :=
      fun m v => Cells.set_nat m v (by omega)
    have hset' : ∀ (m : Cells Entry) (v : Entry),
        Cells.set a size m ((base + 1 : Nat) : Int) v = .ok (Cells.put m (base + 1) v) := fun m v => Cells.set_nat m v (by omega)
    have hcount : ∀ (m : Cells Nat) (v : Nat), Cells.set .count 16 m ((1 : Nat) : Int) v = .ok (Cells.put m 1 v) :=
      fun m v => Cells.set_nat m v (by decide)
    have hnext : nextHuff 0 1 = 1 := by decide
    simp only [buildEntries, hss, hmax, fillTable, hs, fillEntries, Nat.sub_zero, Nat.sub_self, pow_zero, Nat.zero_mul,
      Nat.shiftRight_zero, Nat.add_zero, hset, Except.ok_bind, hget, hcount, hnext, hset']
    rfl
  · rw [Cells.find?_put, Cells.find?_put]
    grind

theorem buildTable_single (h : ∀ l ∈ lens, l ≤ 1) (hk : 0 < kraft lens) (hk' : kraft lens < 2 ^ 15) (hkind : kind ≠ .codes)
    (t : DecodeTables) :
    ∃ (s : Nat) (ht : DecodeTables), s < lens.length ∧ lens.getD s 0 = 1 ∧ ht.clArena = t.clArena ∧
      (∀ i, Cells.find? ht.arena i =
        if i = kind.base then some (symbolEntry kind s 1)
        else if i = kind.base + 1 then some ⟨.invalid, 1, 0⟩ else Cells.find? t.arena i) ∧
      buildTable kind lens t = .ok (.acceptedIncomplete, 1, ht) := by
  have h15 : ∀ l ∈ lens, l ≤ 15 := fun l hl => (h l hl).trans (by decide)
  have hne : maxLength lens ≠ 0 := fun hzero => by have := (maxLength_eq_zero h15).1 hzero; omega
  have hmax : maxLength lens = 1 := by
    have := h _ (mem_usedLengths.1 (maxLength_mem hne)).2.2
    omega
  have hused : 1 ∈ usedLengths lens := hmax ▸ maxLength_mem hne
  have hmin : minLength lens = 1 := by
    have := minLength_le hused
    have := (mem_usedLengths.1 (minLength_mem (List.ne_nil_of_mem hused))).1
    omega
  have hroot : rootWidth lens kind.rootReq = 1 := by
    rw [rootWidth, hmin, hmax]
    omega
  have hacc : acceptance kind lens = .acceptedIncomplete := by
    rw [acceptance_eq h15, if_neg (by omega), if_neg (by omega), if_neg (by omega), if_neg (by simp [hkind, hmax])]
  obtain ⟨s, hss, hlt, hs⟩ := sortedSymbols_single h hk hk'
  obtain ⟨table, count, hbuild, htable⟩ :=
    buildEntries_single (kind := kind) (a := kind.arenaName) hmax hss hs kind.base_add_two_le (t.arenaOf kind)
  have harena : t.arenaOf kind = t.arena ∧ (t.setArena kind table).arena = table ∧
      (t.setArena kind table).clArena = t.clArena := by
    cases kind with
    | codes => exact absurd rfl hkind
    | lens => exact ⟨rfl, rfl, rfl⟩
    | dists => exact ⟨rfl, rfl, rfl⟩
  obtain ⟨hold, hnew, hcl⟩ := harena
  refine ⟨s, { t.setArena kind table with
    count := count, offs := finalOffsets lens, work := writeWork t.work 0 (sortedSymbols lens) }, hlt, hs, hcl, ?_, ?_⟩
  · rw [← hold, hnew]
    exact htable
  · rw [buildTable_accepted (.inr hacc) t hroot, hbuild, hacc]
    rfl

end

/-! ## The command (R420) -/

section
variable {kind : BitVec 2} {n : BitVec 9} {s : State} {d : Inflate}

/-- The body of HDT.BUILD. -/
def Inflate.builds (kind : BitVec 2) (n : BitVec 9) (d : Inflate) (p : Port) : Reply Inflate :=
  let lens := (p.input.take n.toNat).map BitVec.toNat
  if lens.length < n.toNat ∨ lens.any (fun l => decide (15 < l)) then .raised (.stream .badOperand) d p
  else
    let k := codeKindOf kind
    Reply.ofExcept (buildTable k lens d.ht) fun (r, root, ht) =>
      .done .ok (BitVec.ofNat 32 r.code) (BitVec.ofNat 32 root)
        (Inflate.setRef { d with ht := ht } k (builtRef k r root)) { p with input := p.input.drop n.toNat }

theorem exec_hdtBuild (hlegal : (Instr.hdtBuild kind n).wellFormed = true) (s : State) :
    exec (.hdtBuild kind n) s = s.inflateCommand true (Inflate.builds kind n) := by
  rw [← State.inflateCommand_legal hlegal]
  rfl

/-- Lengths that are all there and all legal are built into a table. -/
theorem Inflate.builds_of_legal (hn : n.toNat ≤ s.port.input.length)
    (h15 : ∀ l ∈ (s.port.input.take n.toNat).map BitVec.toNat, l ≤ 15) :
    Inflate.builds kind n d s.startPort =
      Reply.ofExcept (buildTable (codeKindOf kind) ((s.port.input.take n.toNat).map BitVec.toNat) d.ht) fun (r, root, ht) =>
        .done .ok (BitVec.ofNat 32 r.code) (BitVec.ofNat 32 root)
          (Inflate.setRef { d with ht := ht } (codeKindOf kind) (builtRef (codeKindOf kind) r root))
          { s.startPort with input := s.port.input.drop n.toNat } := by
  refine if_neg ?_
  simp only [State.startPort_input, List.length_map, List.length_take, List.any_eq_true, decide_eq_true_eq, not_or, not_exists,
    not_and]
  exact ⟨by omega, fun l hl => Nat.not_lt.2 (h15 l hl)⟩

theorem completes_hdtBuild {r : BuildResult} {root : Nat} {ht : DecodeTables} (h : s.isInflate d)
    (hlegal : (Instr.hdtBuild kind n).wellFormed = true) (hn : n.toNat ≤ s.port.input.length)
    (h15 : ∀ l ∈ (s.port.input.take n.toNat).map BitVec.toNat, l ≤ 15)
    (hb : buildTable (codeKindOf kind) ((s.port.input.take n.toNat).map BitVec.toNat) d.ht = .ok (r, root, ht)) :
    completes (.hdtBuild kind n) s 0 r.code root
      (.inflate (Inflate.setRef { d with ht := ht } (codeKindOf kind) (builtRef (codeKindOf kind) r root)))
      (s.port.input.drop n.toNat) [] := by
  refine completes_of_inflate (st := .ok) (p := { s.startPort with input := s.port.input.drop n.toNat }) h
    (exec_hdtBuild hlegal s) ?_ rfl
  rw [Inflate.builds_of_legal hn h15, hb]
  rfl

end

/-- Settles O30: the Kraft sum says which of R422's cases a set falls in, and each of them writes what its rule says. -/
theorem buildJudgesTheSet : Obligations.BuildJudgesTheSet := by
  intro kind n s d h hlegal lens k left counts
  refine ⟨fun hbad => ?_, fun hn h15 => ⟨fun hover => ?_, fun hpos hlt hwhy => ?_, fun hzero => ?_, fun hpos hlt hkind hone => ?_⟩⟩
  · refine raises_of_inflate (p := s.startPort) h (exec_hdtBuild hlegal s) (if_pos ?_) rfl
    simpa [lens] using hbad
  · have hacc : acceptance k lens = .oversubscribed := by rw [acceptance_eq h15, if_neg (by omega), if_pos hover]
    exact completes_hdtBuild h hlegal hn h15 (buildTable_oversubscribed hacc d.ht)
  · have hacc : acceptance k lens = .incomplete := by
      rw [acceptance_eq h15, if_neg (by omega), if_neg (by omega), if_neg (by omega), if_pos]
      refine hwhy.imp_right fun ⟨l, hl, h2⟩ => ?_
      have := le_maxLength h15 hl
      omega
    exact completes_hdtBuild h hlegal hn h15 (buildTable_incomplete hacc d.ht)
  · have hacc : acceptance k lens = .empty := by rw [acceptance_eq h15, if_pos hzero]
    obtain ⟨arena, harena, hbuild⟩ := buildTable_empty hacc d.ht
    exact ⟨arena, harena, completes_hdtBuild h hlegal hn h15 hbuild⟩
  · obtain ⟨sym, ht, hsym, hlen, hcl, harena, hbuild⟩ := buildTable_single hone hpos hlt hkind d.ht
    refine ⟨sym, ht, ?_, hlen, hcl, harena, completes_hdtBuild h hlegal hn h15 hbuild⟩
    simpa [lens, Nat.min_eq_left hn] using hsym

end Sys2Proof.Machine

/-! # The table of a complete set

R426 writes the codes in canonical order. Its `huff` is the place the next code starts at, bit-reversed, and each code takes the
indices of its interval of places (`mod_eq_bitrev_iff`). The invariant of the loop is that stream bits below that place already
lead to their symbol. A code longer than the root width goes into the block of its root index; a new block lies past every
block before it, and its width holds every code with that root index (`subWidth_ok`). -/

namespace Sys2Proof.Machine

open Sys2Proof.Claim

/-- The element at an index in bounds. -/
def Cells.Holds {α : Type} (size : Nat) (m : Cells α) (i : Nat) (v : α) : Prop := i < size ∧ Cells.find? m i = some v

theorem Cells.Holds.of_eq {α : Type} {size i : Nat} {m m' : Cells α} {v : α} (h : Cells.Holds size m i v)
    (heq : Cells.find? m' i = Cells.find? m i) : Cells.Holds size m' i v := ⟨h.1, heq.trans h.2⟩

theorem Cells.Holds.inj {α : Type} {size i : Nat} {m : Cells α} {v w : α} (h : Cells.Holds size m i v)
    (h' : Cells.Holds size m i w) : v = w := Option.some.inj (h.2.symm.trans h'.2)

/-! ## The places of one root index -/

/-- The root index of a place is its first `l` bits, reversed. -/
theorem bitrev_mod_two_pow {l x : Nat} (hl : l ≤ 15) (hx : x < 2 ^ 15) : bitrev x 15 % 2 ^ l = bitrev (x / 2 ^ (15 - l)) l := by
  rw [← bitrev_bitrev (bitrev x 15), ← bitrev_div_two_pow hl (bitrev x 15), bitrev_bitrev, Nat.mod_eq_of_lt hx]

theorem bitrev_lt_of_dvd {l p : Nat} (hl : l ≤ 15) (hp : 2 ^ (15 - l) ∣ p) : bitrev p 15 < 2 ^ l := by
  obtain ⟨c, rfl⟩ := hp
  rw [bitrev_two_pow_mul hl]
  exact bitrev_lt c l

/-- Where a code's end has another root index than its start, a root index starts there. -/
theorem dvd_of_root_changes {l root p : Nat} (hroot : root < l) (hl : l ≤ 15) (hp : 2 ^ (15 - l) ∣ p) (hlt : p + 2 ^ (15 - l) < 2 ^ 15)
    (hne : bitrev p 15 % 2 ^ root ≠ bitrev (p + 2 ^ (15 - l)) 15 % 2 ^ root) : 2 ^ (15 - root) ∣ p + 2 ^ (15 - l) := by
  rw [bitrev_mod_two_pow (by omega) (by omega), bitrev_mod_two_pow (by omega) hlt] at hne
  obtain ⟨c, rfl⟩ := hp
  have hq : 2 ^ (15 - root) = 2 ^ (15 - l) * 2 ^ (l - root) := by rw [← Nat.pow_add]; congr 1; omega
  rw [← Nat.mul_add_one, hq, Nat.mul_div_mul_left _ _ (Nat.two_pow_pos _), Nat.mul_div_mul_left _ _ (Nat.two_pow_pos _),
    Nat.succ_div] at hne
  rw [← Nat.mul_add_one, hq]
  refine Nat.mul_dvd_mul_left _ ?_
  by_contra hnd
  exact hne (by rw [if_neg hnd, Nat.add_zero])

/-! ## One code in a block -/

section
variable {a : ArrayName} {size next drop curr l p : Nat} {e : Entry} {t t' : Cells Entry}

/-- The index in a block of the bits after the first `drop`, by the bits of a code. -/
theorem block_index_mod (hdrop : drop ≤ l) (hcurr : l ≤ drop + curr) (v : Nat) :
    v / 2 ^ drop % 2 ^ curr % 2 ^ (l - drop) = v % 2 ^ l / 2 ^ drop := by
  have hl : 2 ^ l = 2 ^ drop * 2 ^ (l - drop) := by rw [← Nat.pow_add]; congr 1; omega
  rw [Nat.mod_mod_of_dvd _ (Nat.pow_dvd_pow 2 (by omega)), hl, Nat.mod_mul_right_div_self]

/-- A code of length `l` at the place `p`, in a block of `2 ^ curr` entries for the codes with its first `drop` bits: its
entries are those of the stream bits that start with it, and they lie in the block. -/
theorem fillEntries_code (hl : l ≤ 15) (hp : 2 ^ (15 - l) ∣ p) (hlt : p < 2 ^ 15) (hdrop : drop ≤ l) (hcurr : l ≤ drop + curr)
    (h : fillEntries a size (next + (bitrev p 15 >>> drop)) (2 ^ (l - drop)) e (2 ^ (curr - (l - drop))) t = .ok t') :
    (∀ v, p ≤ bitrev v 15 → bitrev v 15 < p + 2 ^ (15 - l) → Cells.Holds size t' (next + v / 2 ^ drop % 2 ^ curr) e) ∧
    (∀ v, v % 2 ^ drop = bitrev p 15 % 2 ^ drop → bitrev v 15 < p →
      Cells.find? t' (next + v / 2 ^ drop % 2 ^ curr) = Cells.find? t (next + v / 2 ^ drop % 2 ^ curr)) ∧
    ∀ j, j < next ∨ next + 2 ^ curr ≤ j → Cells.find? t' j = Cells.find? t j := by
  obtain ⟨hin, hout⟩ := fillEntries_ok h
  have hwidth : 2 ^ curr = 2 ^ (curr - (l - drop)) * 2 ^ (l - drop) := by rw [← Nat.pow_add]; congr 1; omega
  have hcode := bitrev_lt_of_dvd hl hp
  have hsplit : 2 ^ l = 2 ^ drop * 2 ^ (l - drop) := by rw [← Nat.pow_add]; congr 1; omega
  have hlow : bitrev p 15 / 2 ^ drop < 2 ^ (l - drop) := Nat.div_lt_of_lt_mul (hsplit ▸ hcode)
  rw [Nat.shiftRight_eq_div_pow] at hin hout
  refine ⟨fun v h1 h2 => ?_, fun v hv hbefore => hout _ fun m hm heq => ?_, fun j hj => hout j fun m hm heq => ?_⟩
  · have hindex := block_index_mod hdrop hcurr v
    rw [(mod_eq_bitrev_iff hl hp hlt v).2 ⟨h1, h2⟩] at hindex
    have hlt' : v / 2 ^ drop % 2 ^ curr / 2 ^ (l - drop) < 2 ^ (curr - (l - drop)) :=
      Nat.div_lt_of_lt_mul (by rw [Nat.mul_comm, ← hwidth]; exact Nat.mod_lt _ (Nat.two_pow_pos _))
    have hpos : next + v / 2 ^ drop % 2 ^ curr =
        next + bitrev p 15 / 2 ^ drop + v / 2 ^ drop % 2 ^ curr / 2 ^ (l - drop) * 2 ^ (l - drop) := by
      rw [← hindex, Nat.add_assoc, Nat.mul_comm, Nat.mod_add_div]
    rw [hpos]
    exact hin _ hlt'
  · have hindex := block_index_mod hdrop hcurr v
    rw [show v / 2 ^ drop % 2 ^ curr = bitrev p 15 / 2 ^ drop + m * 2 ^ (l - drop) by omega, Nat.add_mul_mod_self_right,
      Nat.mod_eq_of_lt hlow] at hindex
    have hmod : v % 2 ^ l % 2 ^ drop = bitrev p 15 % 2 ^ drop := by
      rw [Nat.mod_mod_of_dvd _ (Nat.pow_dvd_pow 2 hdrop), hv]
    have hstarts : v % 2 ^ l = bitrev p 15 := by
      rw [← Nat.div_add_mod (v % 2 ^ l) (2 ^ drop), ← hindex, hmod, Nat.div_add_mod]
    have := ((mod_eq_bitrev_iff hl hp hlt v).1 hstarts).1
    omega
  · have hend : m * 2 ^ (l - drop) + 2 ^ (l - drop) ≤ 2 ^ curr := by
      rw [hwidth, ← Nat.succ_mul]
      exact Nat.mul_le_mul_right _ hm
    generalize bitrev p 15 / 2 ^ drop = c at hlow heq
    omega

end

/-! ## The width of a new block (R426) -/

section
variable {lens ss : List Nat} {root : Nat}

/-- The places the codes shorter than `k` among those of `ss` take. -/
def spanShorter (lens : List Nat) (k : Nat) (ss : List Nat) : Nat := spanSum lens (ss.filter fun s => lens.getD s 0 < k)

/-- How many of the symbols `ss` have a code of length `k`. -/
def countOf (lens : List Nat) (k : Nat) (ss : List Nat) : Nat := ss.countP fun s => lens.getD s 0 = k

theorem spanShorter_cons (lens : List Nat) (k s : Nat) (ss : List Nat) :
    spanShorter lens k (s :: ss) = (if lens.getD s 0 < k then codeSpan lens s else 0) + spanShorter lens k ss := by
  rw [spanShorter, List.filter_cons]
  split
  · next h => rw [spanSum_cons, if_pos (of_decide_eq_true h), spanShorter]
  · next h => rw [if_neg fun hlt => h (decide_eq_true hlt), Nat.zero_add, spanShorter]

/-- No code is shorter than every length in use. -/
theorem spanShorter_eq_zero {k : Nat} (h : ∀ s ∈ ss, k ≤ lens.getD s 0) : spanShorter lens k ss = 0 := by
  rw [spanShorter, List.filter_eq_nil_iff.2 fun s hs => by simpa using h s hs, spanSum_nil]

theorem countOf_cons (lens : List Nat) (k s : Nat) (ss : List Nat) :
    countOf lens k (s :: ss) = countOf lens k ss + if lens.getD s 0 = k then 1 else 0 := by
  simp only [countOf, List.countP_cons, decide_eq_true_eq]

theorem spanShorter_succ (lens : List Nat) (k : Nat) (ss : List Nat) :
    spanShorter lens (k + 1) ss = spanShorter lens k ss + countOf lens k ss * 2 ^ (15 - k) := by
  induction ss with
  | nil => simp [spanShorter, countOf]
  | cons s ss ih =>
    rw [spanShorter_cons, spanShorter_cons, countOf_cons, ih]
    obtain hlt | heq | hgt := Nat.lt_trichotomy (lens.getD s 0) k
    · rw [if_pos hlt, if_pos (Nat.lt_succ_of_lt hlt), if_neg hlt.ne]
      ring
    · rw [if_neg heq.not_lt, if_pos (Nat.lt_succ_of_le heq.le), if_pos heq, codeSpan, heq]
      ring
    · rw [if_neg hgt.not_gt, if_neg (by omega), if_neg hgt.ne']
      ring

/-- Every code of the symbols `ss`, the first of them at the place `p`, that starts before `stop` has at most `k` bits. -/
def Fits (lens : List Nat) (k stop : Nat) : Nat → List Nat → Prop
  | _, [] => True
  | p, s :: ss => (p < stop → lens.getD s 0 ≤ k) ∧ Fits lens k stop (p + codeSpan lens s) ss

theorem fits_of_le {k : Nat} (h : ∀ s ∈ ss, lens.getD s 0 ≤ k) (stop p : Nat) : Fits lens k stop p ss := by
  induction ss generalizing p with
  | nil => trivial
  | cons s ss ih => exact ⟨fun _ => h s (by simp), ih (fun s' hs' => h s' (List.mem_cons_of_mem _ hs')) _⟩

theorem fits_of_stop_le {k stop p : Nat} (h : stop ≤ p) (ss : List Nat) : Fits lens k stop p ss := by
  induction ss generalizing p with
  | nil => trivial
  | cons s ss ih => exact ⟨fun hlt => absurd hlt (Nat.not_lt.2 h), ih (h.trans (Nat.le_add_right _ _))⟩

/-- Where the codes of at most `k` bits reach to `stop`, a longer one starts after it. -/
theorem fits_of_spanShorter {k stop p : Nat} (hsorted : ss.Pairwise fun s s' => lens.getD s 0 ≤ lens.getD s' 0)
    (h : stop ≤ p + spanShorter lens (k + 1) ss) : Fits lens k stop p ss := by
  induction ss generalizing p with
  | nil => trivial
  | cons s ss ih =>
    obtain ⟨hs, hss⟩ := List.pairwise_cons.1 hsorted
    by_cases hlen : lens.getD s 0 ≤ k
    · refine ⟨fun _ => hlen, ih hss ?_⟩
      rw [spanShorter_cons, if_pos (by omega)] at h
      omega
    · rw [spanShorter_eq_zero (List.forall_mem_cons.2 ⟨by omega, fun s' hs' => by have := hs s' hs'; omega⟩)] at h
      exact fits_of_stop_le h _

/-- The widening loop stops at a width that holds every remaining code, or all the places of the root index. -/
theorem subWidth_ok {count : Cells Nat} {max w : Nat} (hmax : max ≤ 15)
    (hcount : ∀ k, 1 ≤ k → k ≤ 15 → Cells.find? count k = some (countOf lens k ss)) (fuel : Nat) {left : Int} {curr : Nat}
    (hpos : 1 ≤ curr + root) (hfuel : fuel + (curr + root) = max)
    (hleft : left * 2 ^ (15 - (curr + root)) = 2 ^ (15 - root) - spanShorter lens (curr + root) ss)
    (h : subWidth count max root fuel left curr = .ok w) :
    curr ≤ w ∧ w + root ≤ max ∧ (w + root = max ∨ 2 ^ (15 - root) ≤ spanShorter lens (root + w + 1) ss) := by
  induction fuel generalizing left curr with
  | zero =>
    cases h
    omega
  | succ fuel ih =>
    rw [subWidth, if_pos (by omega)] at h
    obtain ⟨n, hget, h⟩ := Except.bind_ok.1 h
    rw [Cells.get_nat (by omega) (hcount (curr + root) hpos (by omega))] at hget
    cases hget
    have hspan := spanShorter_succ lens (curr + root) ss
    have hleft' : (left - countOf lens (curr + root) ss) * 2 ^ (15 - (curr + root)) =
        2 ^ (15 - root) - spanShorter lens (curr + root + 1) ss := by
      rw [hspan, sub_mul, hleft]
      push_cast
      ring
    simp only at h
    split at h
    · next hle =>
      obtain rfl : curr = w := Except.ok.inj h
      refine ⟨le_rfl, by omega, .inr ?_⟩
      have hneg := mul_nonpos_of_nonpos_of_nonneg hle (show (0 : Int) ≤ 2 ^ (15 - (curr + root)) by positivity)
      rw [hleft', sub_nonpos] at hneg
      rw [Nat.add_comm root curr]
      exact_mod_cast hneg
    · have hnext : curr + 1 + root = curr + root + 1 := Nat.add_right_comm curr 1 root
      have hpow : (2 : Int) ^ (15 - (curr + root)) = 2 * 2 ^ (15 - (curr + root + 1)) := by
        rw [← pow_succ']
        congr 1
        omega
      obtain ⟨hcurr, hrest⟩ := ih (by omega) (by omega) (by rw [hnext, ← hleft', hpow]; ring) h
      exact ⟨by omega, hrest⟩

end

end Sys2Proof.Machine

/-! # The loop of R426 lays a complete set out -/

namespace Sys2Proof.Machine

open Sys2Proof.Claim

section
variable {kind : CodeKind} {lens : List Nat} {size root base : Nat} {t₀ : Cells Entry} {f g : FillState} {p s : Nat}

/-- The stream bits `v` lead to symbol `s`: at their root index, or through the sub-table that is linked from there. Only the
sub-table at hand reaches past the start of the block at hand. -/
def FillState.Leads (kind : CodeKind) (lens : List Nat) (size root base : Nat) (f : FillState) (s v : Nat) : Prop :=
  lens.getD s 0 ≤ root ∧ Cells.Holds size f.table (base + v % 2 ^ root) (symbolEntry kind s (lens.getD s 0)) ∨
  root < lens.getD s 0 ∧ ∃ w sub,
    Cells.Holds size f.table (base + v % 2 ^ root) ⟨.link w, root, sub⟩ ∧
    Cells.Holds size f.table (sub + v / 2 ^ root % 2 ^ w) (symbolEntry kind s (lens.getD s 0 - root)) ∧
    base + 2 ^ root ≤ sub ∧ (f.low = some (v % 2 ^ root) ∨ sub + 2 ^ w ≤ f.next)

/-- The invariant of R426's loop, where the next code starts at the place `p`: stream bits below it lead to their symbol, and
nothing was written outside the blocks. -/
structure FillState.Progress (kind : CodeKind) (lens : List Nat) (size root base : Nat) (t₀ : Cells Entry) (p : Nat)
    (f : FillState) : Prop where
  huff : f.huff = bitrev p 15
  outside : ∀ j, j < base ∨ f.next + 2 ^ f.curr ≤ j → Cells.find? f.table j = Cells.find? t₀ j
  leads : ∀ v, bitrev v 15 < p → ∃ s, startsWith lens s v ∧ f.Leads kind lens size root base s v

/-- The block at hand is the root table. -/
structure FillState.InRoot (root base : Nat) (f : FillState) : Prop where
  drop : f.drop = 0
  next : f.next = base
  curr : f.curr = root
  low : f.low = none

/-- The block at hand is the sub-table of the root index given. -/
structure FillState.InSub (size root base index : Nat) (f : FillState) : Prop where
  drop : f.drop = root
  next : base + 2 ^ root ≤ f.next
  low : f.low = some index
  link : Cells.Holds size f.table (base + index) ⟨.link f.curr, root, f.next⟩

/-! ## One code of the root table -/

section
variable {a : ArrayName} {table : Cells Entry} {count : Cells Nat}

theorem FillState.Progress.placeRoot (h : f.Progress kind lens size root base t₀ p) (hin : f.InRoot root base)
    (h1 : 1 ≤ lens.getD s 0) (h15 : lens.getD s 0 ≤ 15) (hshort : lens.getD s 0 ≤ root) (hstart : codeStart lens s = p)
    (hend : p + codeSpan lens s ≤ 2 ^ 15)
    (hfill : fillEntries a size (f.next + (f.huff >>> f.drop)) (2 ^ (lens.getD s 0 - f.drop))
      (symbolEntry kind s (lens.getD s 0 - f.drop)) (2 ^ (f.curr - (lens.getD s 0 - f.drop))) f.table = .ok table) :
    FillState.Progress kind lens size root base t₀ (p + codeSpan lens s)
      { f with table := table, count := count, huff := nextHuff f.huff (lens.getD s 0) } := by
  have hdvd : 2 ^ (15 - lens.getD s 0) ∣ p := hstart ▸ Nat.dvd_mul_right _ _
  have hpos := codeSpan_pos lens s
  obtain ⟨hdrop, hnext, hcurr, hlow⟩ := hin
  rw [h.huff, hdrop, hnext, hcurr] at hfill
  obtain ⟨hnew, hold, hrest⟩ := fillEntries_code h15 hdvd (by omega) (Nat.zero_le _) (by omega) hfill
  simp only [pow_zero, Nat.div_one, Nat.mod_one, Nat.sub_zero, forall_const] at hnew hold
  refine ⟨by rw [h.huff]; exact nextHuff_bitrev_of_dvd h15 hdvd, fun j hj => ?_, fun v hv => ?_⟩
  · rw [← h.outside j hj]
    exact hrest j (by rwa [hnext, hcurr] at hj)
  · by_cases hbefore : bitrev v 15 < p
    · obtain ⟨s', hs', ⟨hle, hentry⟩ | ⟨-, w, sub, -, -, hsub, hfree⟩⟩ := h.leads v hbefore
      · exact ⟨s', hs', .inl ⟨hle, hentry.of_eq (hold v hbefore)⟩⟩
      · have := Nat.two_pow_pos w
        have := Nat.two_pow_pos root
        rw [hlow, hnext] at hfree
        simp at hfree
        omega
    · have hin : codeStart lens s ≤ bitrev v 15 ∧ bitrev v 15 < codeStart lens s + codeSpan lens s := by omega
      exact ⟨s, (startsWith_iff h1 h15 (by omega) v).2 hin, .inl ⟨hshort, hnew v (Nat.not_lt.1 hbefore) hv⟩⟩

/-! ## One code of a sub-table -/

theorem FillState.Progress.placeSub (h : f.Progress kind lens size root base t₀ p)
    (hin : f.InSub size root base (bitrev p 15 % 2 ^ root))
    (h15 : lens.getD s 0 ≤ 15) (hlong : root < lens.getD s 0) (hfits : lens.getD s 0 ≤ root + f.curr)
    (hstart : codeStart lens s = p) (hend : p + codeSpan lens s ≤ 2 ^ 15)
    (hfill : fillEntries a size (f.next + (f.huff >>> f.drop)) (2 ^ (lens.getD s 0 - f.drop))
      (symbolEntry kind s (lens.getD s 0 - f.drop)) (2 ^ (f.curr - (lens.getD s 0 - f.drop))) f.table = .ok table) :
    let f' := { f with table := table, count := count, huff := nextHuff f.huff (lens.getD s 0) }
    FillState.Progress kind lens size root base t₀ (p + codeSpan lens s) f' ∧
      f'.InSub size root base (bitrev p 15 % 2 ^ root) := by
  have hdvd : 2 ^ (15 - lens.getD s 0) ∣ p := hstart ▸ Nat.dvd_mul_right _ _
  have hpos := codeSpan_pos lens s
  obtain ⟨hdrop, hnext, hlow, hlink⟩ := hin
  rw [h.huff, hdrop] at hfill
  obtain ⟨hnew, hold, hrest⟩ := fillEntries_code h15 hdvd (by omega) hlong.le hfits hfill
  have hroot : ∀ j, j < 2 ^ root → Cells.find? table (base + j) = Cells.find? f.table (base + j) := fun j hj =>
    hrest _ (.inl (by omega))
  have hmod : ∀ v, v % 2 ^ root < 2 ^ root := fun v => Nat.mod_lt v (Nat.two_pow_pos _)
  have hlink' : Cells.Holds size table (base + bitrev p 15 % 2 ^ root) ⟨.link f.curr, root, f.next⟩ :=
    hlink.of_eq (hroot _ (hmod _))
  refine ⟨⟨by rw [h.huff]; exact nextHuff_bitrev_of_dvd h15 hdvd, fun j hj => ?_, fun v hv => ?_⟩, hdrop, hnext, hlow, hlink'⟩
  · rw [← h.outside j hj]
    exact hrest j (hj.imp_left fun hlt => hlt.trans_le (Nat.le_of_add_right_le hnext))
  · by_cases hbefore : bitrev v 15 < p
    · obtain ⟨s', hs', ⟨hle, hentry⟩ | ⟨hlong', w, sub, hl, hentry, hsub, hfree⟩⟩ := h.leads v hbefore
      · exact ⟨s', hs', .inl ⟨hle, hentry.of_eq (hroot _ (hmod v))⟩⟩
      · refine ⟨s', hs', .inr ⟨hlong', w, sub, hl.of_eq (hroot _ (hmod v)), hentry.of_eq ?_, hsub, hfree⟩⟩
        obtain hsame | hbelow := hfree
        · obtain heq : bitrev p 15 % 2 ^ root = v % 2 ^ root := Option.some.inj (hlow.symm.trans hsame)
          have hsame := hlink.inj (heq ▸ hl)
          simp only [Entry.mk.injEq, EntryOp.link.injEq, true_and] at hsame
          obtain ⟨rfl, rfl⟩ := hsame
          exact hold v heq.symm hbefore
        · have := Nat.mod_lt (v / 2 ^ root) (Nat.two_pow_pos w)
          exact hrest _ (.inl (by omega))
    · have hstarts : startsWith lens s v :=
        (startsWith_iff (by omega) h15 (by omega) v).2 (by omega)
      have heq : bitrev p 15 % 2 ^ root = v % 2 ^ root := by
        rw [← (mod_eq_bitrev_iff h15 hdvd (by omega) v).2 ⟨Nat.not_lt.1 hbefore, hv⟩,
          Nat.mod_mod_of_dvd _ (Nat.pow_dvd_pow 2 hlong.le)]
      refine ⟨s, hstarts, .inr ⟨hlong, f.curr, f.next, heq ▸ hlink', hnew v (Nat.not_lt.1 hbefore) hv, hnext, .inl ?_⟩⟩
      rw [← heq]
      exact hlow

/-! ## A new sub-table -/

theorem FillState.Progress.openSub {w : Nat} (h : f.Progress kind lens size root base t₀ p) (hroot : root ≤ 15)
    (hdvd : 2 ^ (15 - root) ∣ p) (hlt : p < 2 ^ 15) (hblock : f.InRoot root base ∨ ∃ i, f.InSub size root base i)
    (hset : Cells.set a size f.table ((base + bitrev p 15 % 2 ^ root : Nat) : Int) ⟨.link w, root, f.next + 2 ^ f.curr⟩ = .ok table) :
    let f' : FillState := ⟨table, count, f.huff, f.next + 2 ^ f.curr, w, root, some (bitrev p 15 % 2 ^ root)⟩
    FillState.Progress kind lens size root base t₀ p f' ∧ f'.InSub size root base (bitrev p 15 % 2 ^ root) := by
  have hnext : base + 2 ^ root ≤ f.next + 2 ^ f.curr := by
    obtain ⟨-, hnext, hcurr, -⟩ | ⟨i, -, hnext, -, -⟩ := hblock
    · rw [hnext, hcurr]
    · exact hnext.trans (Nat.le_add_right _ _)
  have hmod : ∀ v, v % 2 ^ root < 2 ^ root := fun v => Nat.mod_lt v (Nat.two_pow_pos _)
  obtain ⟨k, hk, hsize, rfl⟩ := Cells.set_ok hset
  obtain rfl : base + bitrev p 15 % 2 ^ root = k := by exact_mod_cast hk
  have hold : ∀ j, j ≠ base + bitrev p 15 % 2 ^ root →
      Cells.find? (Cells.put f.table (base + bitrev p 15 % 2 ^ root) ⟨.link w, root, f.next + 2 ^ f.curr⟩) j =
        Cells.find? f.table j := fun j hj => Cells.find?_put_ne _ _ hj
  refine ⟨⟨h.huff, fun j hj => ?_, fun v hv => ?_⟩, rfl, hnext, rfl, hsize, Cells.find?_put_same ..⟩
  · have := hmod (bitrev p 15)
    have := Nat.two_pow_pos w
    simp only at hj
    rw [hold j (by omega), h.outside j (by omega)]
  · have hne : base + v % 2 ^ root ≠ base + bitrev p 15 % 2 ^ root := by
      intro heq
      rw [Nat.mod_eq_of_lt (bitrev_lt_of_dvd hroot hdvd)] at heq
      have := ((mod_eq_bitrev_iff hroot hdvd hlt v).1 (Nat.add_left_cancel heq)).1
      omega
    obtain ⟨s', hs', ⟨hle, hentry⟩ | ⟨hlong', w', sub, hl, hentry, hsub, hfree⟩⟩ := h.leads v hv
    · exact ⟨s', hs', .inl ⟨hle, hentry.of_eq (hold _ hne)⟩⟩
    · have hbelow : sub + 2 ^ w' ≤ f.next + 2 ^ f.curr := by
        obtain hsame | hbelow := hfree
        · obtain ⟨-, -, -, hlow⟩ | ⟨i, -, -, hlow, hlink⟩ := hblock
          · rw [hlow] at hsame
            cases hsame
          · obtain rfl : i = v % 2 ^ root := Option.some.inj (hlow.symm.trans hsame)
            have hsame := hlink.inj hl
            simp only [Entry.mk.injEq, EntryOp.link.injEq, true_and] at hsame
            obtain ⟨rfl, rfl⟩ := hsame
            exact le_rfl
        · exact hbelow.trans (Nat.le_add_right _ _)
      have := hmod (bitrev p 15)
      exact ⟨s', hs', .inr ⟨hlong', w', sub, hl.of_eq (hold _ hne), hentry.of_eq (hold _ (by omega)), hsub, .inr hbelow⟩⟩

end

/-! ## The loop -/

/-- What the loop leaves of a code of symbol `s` but its entries: the counts and the next code (R426). -/
def FillState.step (lens : List Nat) (s : Nat) (table : Cells Entry) (n : Nat) (f : FillState) : FillState :=
  { f with table := table, count := Cells.put f.count (lens.getD s 0) (n - 1), huff := nextHuff f.huff (lens.getD s 0) }

/-- The block the next symbol goes into: a new sub-table where it has a root index of its own (R426). -/
def FillState.nextBlock (lens : List Nat) (a : ArrayName) (size root max base : Nat) : List Nat → FillState → Except Fault FillState
  | [], f => .ok f
  | s :: _, f =>
    let l := lens.getD s 0
    if root < l ∧ f.low ≠ some (f.huff % 2 ^ root) then do
      let drop := if f.drop = 0 then root else f.drop
      let next := f.next + 2 ^ f.curr
      let curr ← subWidth f.count max drop (max - (l - drop + drop)) ((2 ^ (l - drop) : Nat) : Int) (l - drop)
      let low := f.huff % 2 ^ root
      let table ← Cells.set a size f.table ((base + low : Nat) : Int) ⟨.link curr, root, next⟩
      .ok ⟨table, f.count, f.huff, next, curr, drop, some low⟩
    else .ok f

/-- One round of the loop: the entries of a code, then the block of the next one. -/
theorem fillTable_cons {a : ArrayName} {max n : Nat} (hl : lens.getD s 0 ≤ 15) (hn : Cells.find? f.count (lens.getD s 0) = some n)
    (ss : List Nat) :
    fillTable kind lens a size root max base (s :: ss) f =
      (do
        let table ← fillEntries a size (f.next + (f.huff >>> f.drop)) (2 ^ (lens.getD s 0 - f.drop))
          (symbolEntry kind s (lens.getD s 0 - f.drop)) (2 ^ (f.curr - (lens.getD s 0 - f.drop))) f.table
        let f ← (f.step lens s table n).nextBlock lens a size root max base ss
        fillTable kind lens a size root max base ss f) := by
  conv_lhs => unfold fillTable
  simp only [Cells.get_nat (Nat.lt_succ_of_le hl) hn, Cells.set_nat f.count _ (Nat.lt_succ_of_le hl), Except.ok_bind]
  cases ss with
  | nil => rfl
  | cons s' ss =>
    refine congrArg _ (funext fun table => ?_)
    rw [FillState.nextBlock]
    by_cases hopen : root < lens.getD s' 0 ∧ (f.step lens s table n).low ≠ some ((f.step lens s table n).huff % 2 ^ root)
    · simp only [if_pos hopen, bind_assoc, Except.ok_bind]
      exact if_pos hopen
    · simp only [if_neg hopen, Except.ok_bind]
      exact if_neg hopen

/-- What the loop has before it: the symbols `ss` that remain, in canonical order, and their counts. -/
structure Remaining (lens : List Nat) (max p : Nat) (count : Cells Nat) (ss : List Nat) : Prop where
  placed : Placed lens p ss
  ends : p + spanSum lens ss ≤ 2 ^ 15
  lengths : ∀ s ∈ ss, 1 ≤ lens.getD s 0 ∧ lens.getD s 0 ≤ max
  sorted : ss.Pairwise fun s s' => lens.getD s 0 ≤ lens.getD s' 0
  counts : ∀ k, 1 ≤ k → k ≤ 15 → Cells.find? count k = some (countOf lens k ss)

theorem Remaining.tail {max : Nat} {count : Cells Nat} {ss : List Nat} (h : Remaining lens max p count (s :: ss)) :
    Remaining lens max (p + codeSpan lens s) (Cells.put count (lens.getD s 0) (countOf lens (lens.getD s 0) (s :: ss) - 1)) ss where
  placed := h.placed.2
  ends := by have := h.ends; rw [spanSum_cons] at this; omega
  lengths := fun s' hs' => h.lengths s' (List.mem_cons_of_mem _ hs')
  sorted := (List.pairwise_cons.1 h.sorted).2
  counts := fun k hk hk' => by
    rw [Cells.find?_put]
    split
    · next heq => rw [heq, countOf_cons, if_pos rfl, Nat.add_sub_cancel]
    · next hne => rw [h.counts k hk hk', countOf_cons, if_neg (Ne.symm hne), Nat.add_zero]

theorem Remaining.head_lt {max : Nat} {count : Cells Nat} {ss : List Nat} (h : Remaining lens max p count (s :: ss)) :
    p < 2 ^ 15 := by
  have hend := h.ends
  have hpos := codeSpan_pos lens s
  rw [spanSum_cons] at hend
  omega

/-- The block at hand is the one of a code of length `l` at the place `p`, and it is wide enough for those of the symbols `ss`,
from the place `q` on, that have its root index. -/
def FillState.InBlock (lens : List Nat) (size root base l p q : Nat) (ss : List Nat) (f : FillState) : Prop :=
  l ≤ root ∧ f.InRoot root base ∨
  root < l ∧ f.InSub size root base (bitrev p 15 % 2 ^ root) ∧
    ∃ stop, (∀ x < 2 ^ 15, bitrev x 15 % 2 ^ root = bitrev p 15 % 2 ^ root → x < stop) ∧
      Fits lens (root + f.curr) stop q ss

section
variable {a : ArrayName} {max : Nat} {table : Cells Entry} {ss : List Nat}

theorem FillState.Progress.place (h : f.Progress kind lens size root base t₀ p) (hmax : max ≤ 15)
    (hss : Remaining lens max p f.count (s :: ss)) (hin : f.InBlock lens size root base (lens.getD s 0) p p (s :: ss))
    (hfill : fillEntries a size (f.next + (f.huff >>> f.drop)) (2 ^ (lens.getD s 0 - f.drop))
      (symbolEntry kind s (lens.getD s 0 - f.drop)) (2 ^ (f.curr - (lens.getD s 0 - f.drop))) f.table = .ok table) (n : Nat) :
    (f.step lens s table n).Progress kind lens size root base t₀ (p + codeSpan lens s) ∧
      (f.step lens s table n).InBlock lens size root base (lens.getD s 0) p (p + codeSpan lens s) ss := by
  obtain ⟨hstart, -⟩ := hss.placed
  obtain ⟨h1, hlmax⟩ := hss.lengths s (by simp)
  have h15 := hlmax.trans hmax
  have hend : p + codeSpan lens s ≤ 2 ^ 15 := by
    have := hss.ends
    rw [spanSum_cons] at this
    omega
  obtain ⟨hshort, hin⟩ | ⟨hlong, hin, stop, hstop, hfits, hfits'⟩ := hin
  · exact ⟨h.placeRoot hin h1 h15 hshort hstart hend hfill, .inl ⟨hshort, { hin with }⟩⟩
  · obtain ⟨hprog, hin'⟩ := h.placeSub hin h15 hlong (hfits (hstop p hss.head_lt rfl)) hstart hend hfill
    exact ⟨hprog, .inr ⟨hlong, hin', stop, hstop, hfits'⟩⟩

/-- A new sub-table is wide enough for its codes. -/
theorem FillState.Progress.openBlock {l : Nat} (h : f.Progress kind lens size root base t₀ p) (hmax : max ≤ 15)
    (hss : Remaining lens max p f.count (s :: ss)) (hlong : root < lens.getD s 0) (hdvd : 2 ^ (15 - root) ∣ p)
    {q : Nat} (hin : f.InBlock lens size root base l q p (s :: ss)) (hnew : f.low ≠ some (f.huff % 2 ^ root))
    (hnext : f.nextBlock lens a size root max base (s :: ss) = .ok g) :
    g.Progress kind lens size root base t₀ p ∧ g.InBlock lens size root base (lens.getD s 0) p p (s :: ss) ∧ g.count = f.count := by
  obtain ⟨h1, hlmax⟩ := hss.lengths s (by simp)
  have hlt := hss.head_lt
  have hdrop : (if f.drop = 0 then root else f.drop) = root := by
    obtain ⟨-, hin⟩ | ⟨-, hin, -⟩ := hin
    · exact if_pos hin.drop
    · rw [hin.drop]
      split <;> omega
  simp only [FillState.nextBlock, if_pos (And.intro hlong hnew), hdrop] at hnext
  obtain ⟨w, hw, hnext⟩ := Except.bind_ok.1 hnext
  obtain ⟨table, hset, hnext⟩ := Except.bind_ok.1 hnext
  cases hnext
  rw [h.huff] at hset
  obtain ⟨hprog, hsub⟩ := h.openSub (count := f.count) (by omega) hdvd hlt
    (hin.imp And.right fun ⟨_, hsub, _⟩ => ⟨_, hsub⟩) hset
  rw [h.huff] at *
  have hstop : ∀ x < 2 ^ 15, bitrev x 15 % 2 ^ root = bitrev p 15 % 2 ^ root → x < p + 2 ^ (15 - root) := by
    intro x hx heq
    rw [Nat.mod_eq_of_lt (bitrev_lt_of_dvd (by omega) hdvd)] at heq
    have := ((mod_eq_bitrev_iff (by omega) hdvd hlt _).1 heq).2
    rwa [bitrev_bitrev, Nat.mod_eq_of_lt hx] at this
  have hnone : spanShorter lens (lens.getD s 0) (s :: ss) = 0 :=
    spanShorter_eq_zero (List.forall_mem_cons.2 ⟨le_rfl, (List.pairwise_cons.1 hss.sorted).1⟩)
  have hsum : lens.getD s 0 - root + root = lens.getD s 0 := Nat.sub_add_cancel hlong.le
  have hspace : (((2 ^ (lens.getD s 0 - root) : Nat) : Int)) * 2 ^ (15 - (lens.getD s 0 - root + root)) =
      2 ^ (15 - root) - spanShorter lens (lens.getD s 0 - root + root) (s :: ss) := by
    rw [hsum, hnone]
    push_cast
    rw [← pow_add, sub_zero]
    congr 1
    omega
  obtain ⟨-, hwmax, hwide⟩ := subWidth_ok hmax hss.counts _ (by omega) (by omega) hspace hw
  refine ⟨hprog, .inr ⟨hlong, hsub, _, hstop, ?_⟩, rfl⟩
  obtain hall | hspan := hwide
  · exact fits_of_le (fun t ht => by have := (hss.lengths t ht).2; simp only; omega) _ _
  · exact fits_of_spanShorter hss.sorted (by simp only; omega)

/-- After a code at `p`, the block of the next one. -/
theorem FillState.Progress.nextBlock {s' : Nat} (hmax : max ≤ 15) (h15 : lens.getD s 0 ≤ 15) (hp : codeSpan lens s ∣ p)
    (h : f.Progress kind lens size root base t₀ (p + codeSpan lens s)) (hlen : lens.getD s 0 ≤ lens.getD s' 0)
    (hss : Remaining lens max (p + codeSpan lens s) f.count (s' :: ss))
    (hin : f.InBlock lens size root base (lens.getD s 0) p (p + codeSpan lens s) (s' :: ss))
    (hnext : f.nextBlock lens a size root max base (s' :: ss) = .ok g) :
    g.Progress kind lens size root base t₀ (p + codeSpan lens s) ∧
      g.InBlock lens size root base (lens.getD s' 0) (p + codeSpan lens s) (p + codeSpan lens s) (s' :: ss) ∧
      g.count = f.count := by
  by_cases hopen : root < lens.getD s' 0 ∧ f.low ≠ some (f.huff % 2 ^ root)
  · obtain ⟨hlong, hnew⟩ := hopen
    refine h.openBlock hmax hss hlong ?_ hin hnew hnext
    obtain ⟨hshort, -⟩ | ⟨hlong, hsub, -⟩ := hin
    · exact (Nat.pow_dvd_pow 2 (by omega)).trans (Nat.dvd_add hp (dvd_refl (codeSpan lens s)))
    · refine dvd_of_root_changes hlong h15 hp hss.head_lt fun heq => hnew ?_
      rw [hsub.low, h.huff]
      exact congrArg some heq
  · simp only [FillState.nextBlock, if_neg hopen] at hnext
    cases hnext
    refine ⟨h, ?_, rfl⟩
    obtain ⟨hshort, hroot⟩ | ⟨hlong, hsub, stop, hstop, hfits⟩ := hin
    · refine .inl ⟨?_, hroot⟩
      by_contra hlong
      exact hopen ⟨Nat.not_le.1 hlong, by rw [hroot.low]; exact Option.some_ne_none _ |>.symm⟩
    · have heq : bitrev p 15 % 2 ^ root = bitrev (p + codeSpan lens s) 15 % 2 ^ root := by
        by_contra hne
        refine hopen ⟨hlong.trans_le hlen, ?_⟩
        rw [hsub.low, h.huff]
        exact fun h => hne (Option.some.inj h)
      exact .inr ⟨hlong.trans_le hlen, heq ▸ hsub, stop, heq ▸ hstop, hfits⟩

/-- A loop that answers keeps the invariant to its end. -/
theorem fillTable_progress (hmax : max ≤ 15) (h : f.Progress kind lens size root base t₀ p) (hss : Remaining lens max p f.count ss)
    (hin : ∀ s ∈ ss.head?, f.InBlock lens size root base (lens.getD s 0) p p ss)
    (hrun : fillTable kind lens a size root max base ss f = .ok g) :
    g.Progress kind lens size root base t₀ (p + spanSum lens ss) := by
  induction ss generalizing f p with
  | nil => cases hrun; exact h
  | cons s rest ih =>
    obtain ⟨h1, hlmax⟩ := hss.lengths s (by simp)
    have h15 := hlmax.trans hmax
    have hp : codeSpan lens s ∣ p := hss.placed.1 ▸ Nat.dvd_mul_right _ _
    rw [fillTable_cons h15 (hss.counts _ h1 h15)] at hrun
    obtain ⟨table, hfill, hrun⟩ := Except.bind_ok.1 hrun
    obtain ⟨f', hnext, hrun⟩ := Except.bind_ok.1 hrun
    obtain ⟨hprog, hblock⟩ := h.place hmax hss (hin s rfl) hfill (countOf lens (lens.getD s 0) (s :: rest))
    rw [spanSum_cons, ← Nat.add_assoc]
    cases rest with
    | nil =>
      cases hnext
      cases hrun
      exact hprog
    | cons s' rest =>
      have hlen : lens.getD s 0 ≤ lens.getD s' 0 := (List.pairwise_cons.1 hss.sorted).1 s' (by simp)
      obtain ⟨hprog', hblock', hcount⟩ := hprog.nextBlock hmax h15 hp hlen hss.tail hblock hnext
      refine ih hprog' (hcount ▸ hss.tail) (fun t ht => ?_) hrun
      cases ht
      exact hblock'

end

end

end Sys2Proof.Machine

/-! # HDT.BUILD lays a complete set out -/

namespace Sys2Proof.Machine

open Sys2Proof.Claim

section
variable {kind : CodeKind} {lens : List Nat} {a : ArrayName} {size root base : Nat} {t table : Cells Entry} {count : Cells Nat}

/-! ## What the loop starts from (R421, R424) -/

theorem map_getD_range (lens : List Nat) : (List.range lens.length).map (fun s => lens.getD s 0) = lens :=
  List.ext_getElem (by simp) fun i _ h => by rw [List.getElem_map, List.getElem_range, List.getD_eq_getElem lens 0 h]

theorem length_symbolsOfLength (lens : List Nat) (l : Nat) : (symbolsOfLength lens l).length = lengthCount lens l := by
  conv_rhs => rw [lengthCount, ← map_getD_range lens, List.filter_map, List.length_map]
  rfl

theorem countOf_sortedSymbols {k : Nat} (h1 : 1 ≤ k) (h15 : k ≤ 15) : countOf lens k (sortedSymbols lens) = lengthCount lens k := by
  have hself : countOf lens k (symbolsOfLength lens k) = lengthCount lens k := by
    rw [← length_symbolsOfLength]
    exact List.countP_eq_length.2 fun s hs => decide_eq_true (mem_symbolsOfLength.1 hs).2
  have hother : ∀ l, l ≠ k → countOf lens k (symbolsOfLength lens l) = 0 := fun l hne =>
    List.countP_eq_zero.2 fun s hs => by simpa only [(mem_symbolsOfLength.1 hs).2, decide_eq_true_eq] using hne
  rw [countOf, sortedSymbols, List.countP_flatMap]
  refine (List.sum_map_eq_nsmul_single k _ fun l hne _ => hother l hne).trans ?_
  rw [List.count_eq_one_of_mem List.nodup_range' (List.mem_range'_1.2 ⟨h1, by omega⟩), one_smul]
  exact hself

theorem sortedSymbols_remaining (h : ∀ l ∈ lens, l ≤ 15) (hk : kraft lens = 2 ^ 15) :
    Remaining lens (maxLength lens) 0 (histogram lens) (sortedSymbols lens) where
  placed := sortedSymbols_placed lens
  ends := by rw [spanSum_sortedSymbols_eq_kraft h, hk, Nat.zero_add]
  lengths := fun s hs => by
    obtain ⟨l, hl, hs⟩ := List.mem_flatMap.1 hs
    obtain ⟨hlt, rfl⟩ := mem_symbolsOfLength.1 hs
    refine ⟨(List.mem_range'_1.1 hl).1, le_maxLength h ?_⟩
    rw [List.getD_eq_getElem _ _ hlt]
    exact List.getElem_mem hlt
  sorted := sortedSymbols_sorted lens
  counts := fun k h1 h15 => by rw [find?_histogram lens h15, countOf_sortedSymbols h1 h15]

/-- The loop of a build starts at the root table. -/
def FillState.start (lens : List Nat) (root base : Nat) (t : Cells Entry) : FillState :=
  ⟨t, histogram lens, 0, base, root, 0, none⟩

theorem FillState.start_inRoot : (FillState.start lens root base t).InRoot root base := ⟨rfl, rfl, rfl, rfl⟩

theorem FillState.start_progress : (FillState.start lens root base t).Progress kind lens size root base t 0 :=
  ⟨show 0 = bitrev 0 15 by decide, fun _ _ => rfl, fun _ hv => absurd hv (Nat.not_lt_zero _)⟩

/-- The first code in canonical order is the shortest. -/
theorem head_sortedSymbols {s : Nat} (hs : s ∈ (sortedSymbols lens).head?) : lens.getD s 0 = minLength lens := by
  have hin : s ∈ sortedSymbols lens := List.mem_of_mem_head? hs
  obtain ⟨h1, h15⟩ := mem_sortedSymbols.1 hin
  obtain ⟨l, -, hsl⟩ := List.mem_flatMap.1 hin
  obtain ⟨hlt, -⟩ := mem_symbolsOfLength.1 hsl
  have hget := List.getD_eq_getElem lens 0 hlt
  have hused : lens.getD s 0 ∈ usedLengths lens := mem_usedLengths.2 ⟨h1, h15, hget ▸ List.getElem_mem hlt⟩
  refine le_antisymm ?_ (minLength_le hused)
  obtain ⟨hm1, hm15, hmem⟩ := mem_usedLengths.1 (minLength_mem (List.ne_nil_of_mem hused))
  obtain ⟨s', hlt', hlen⟩ := List.mem_iff_getElem.1 hmem
  rw [← List.getD_eq_getElem lens 0 hlt'] at hlen
  have hin' : s' ∈ sortedSymbols lens := mem_sortedSymbols.2 ⟨hlen ▸ hm1, hlen ▸ hm15⟩
  have hsorted := sortedSymbols_sorted lens
  cases hss : sortedSymbols lens with
  | nil => rw [hss] at hin; cases hin
  | cons t ss =>
    rw [hss] at hs hin' hsorted
    obtain rfl : t = s := Option.some.inj hs
    obtain rfl | hin' := List.mem_cons.1 hin'
    · exact hlen.le
    · exact hlen ▸ (List.pairwise_cons.1 hsorted).1 s' hin'

/-! ## The table (R426) -/

/-- The loop of a complete set ends with no code left over, so the build is what the loop leaves. -/
theorem buildEntries_eq_fillTable (h : ∀ l ∈ lens, l ≤ 15) (hk : kraft lens = 2 ^ 15) (hmin : minLength lens ≤ root)
    {g : FillState}
    (hfill : fillTable kind lens a size root (maxLength lens) base (sortedSymbols lens) (FillState.start lens root base t) = .ok g) :
    g.Progress kind lens size root base t (2 ^ 15) ∧ buildEntries kind lens a size root base t = .ok (g.table, g.count) := by
  have hend := fillTable_progress (maxLength_le lens) FillState.start_progress (sortedSymbols_remaining h hk)
    (fun s hs => .inl ⟨(head_sortedSymbols hs).trans_le hmin, FillState.start_inRoot⟩) hfill
  rw [spanSum_sortedSymbols_eq_kraft h, hk, Nat.zero_add] at hend
  have hhuff : g.huff = 0 := hend.huff.trans (by decide)
  unfold FillState.start at hfill
  refine ⟨hend, ?_⟩
  simp only [buildEntries, hfill, Except.ok_bind]
  exact if_neg (not_not.2 hhuff)

/-- Codes that all fit the root width are written inside the root table. -/
theorem fillTable_short {max : Nat} (hsize : base + 2 ^ root ≤ size) (ss : List Nat) {f : FillState} (hin : f.InRoot root base)
    (hlens : ∀ s ∈ ss, 1 ≤ lens.getD s 0 ∧ lens.getD s 0 ≤ 15 ∧ lens.getD s 0 ≤ root)
    (hsorted : ss.Pairwise fun s s' => lens.getD s 0 ≤ lens.getD s' 0) (hhuff : ∀ s ∈ ss, f.huff < 2 ^ lens.getD s 0)
    (hcount : ∀ k, 1 ≤ k → k ≤ 15 → ∃ n, Cells.find? f.count k = some n) :
    ∃ g, fillTable kind lens a size root max base ss f = .ok g ∧ g.InRoot root base := by
  induction ss generalizing f with
  | nil => exact ⟨f, rfl, hin⟩
  | cons s rest ih =>
    obtain ⟨h1, h15, hroot⟩ := hlens s (by simp)
    obtain ⟨hrest, hsorted'⟩ := List.pairwise_cons.1 hsorted
    obtain ⟨n, hn⟩ := hcount _ h1 h15
    have hlt := hhuff s (by simp)
    have hplaces : ∀ m < 2 ^ (f.curr - (lens.getD s 0 - f.drop)),
        f.next + (f.huff >>> f.drop) + m * 2 ^ (lens.getD s 0 - f.drop) < size := by
      intro m hm
      rw [hin.drop, hin.curr, Nat.sub_zero] at hm
      rw [hin.drop, hin.next, Nat.sub_zero, Nat.shiftRight_zero]
      have hle : (m + 1) * 2 ^ lens.getD s 0 ≤ 2 ^ (root - lens.getD s 0) * 2 ^ lens.getD s 0 := Nat.mul_le_mul_right _ hm
      rw [← Nat.pow_add, Nat.sub_add_cancel hroot, Nat.succ_mul] at hle
      omega
    obtain ⟨table, htable⟩ := fillEntries_total (a := a) (e := symbolEntry kind s (lens.getD s 0 - f.drop)) f.table hplaces
    have hstay : (f.step lens s table n).nextBlock lens a size root max base rest = .ok (f.step lens s table n) := by
      cases rest with
      | nil => rfl
      | cons s' rest => exact if_neg fun hopen => Nat.not_lt.2 (hlens s' (by simp)).2.2 hopen.1
    obtain ⟨g, hg, hgin⟩ := ih (f := f.step lens s table n) { hin with }
      (fun s' hs' => hlens s' (List.mem_cons_of_mem _ hs')) hsorted'
      (fun s' hs' => (nextHuff_lt _ _).trans_le (Nat.pow_le_pow_right (by decide) (hrest s' hs'))) fun k hk hk' => by
        obtain ⟨m, hm⟩ := hcount k hk hk'
        simp only [FillState.step, Cells.find?_put]
        split
        · exact ⟨_, rfl⟩
        · exact ⟨m, hm⟩
    refine ⟨g, ?_, hgin⟩
    rw [fillTable_cons h15 hn, htable, Except.ok_bind, hstay, Except.ok_bind, hg]

/-- A complete set whose codes fit the root width is built, and nothing past its root table is written. -/
theorem buildEntries_short (h : ∀ l ∈ lens, l ≤ 15) (hk : kraft lens = 2 ^ 15) (hroot : ∀ l ∈ lens, l ≤ root)
    (hsize : base + 2 ^ root ≤ size) (t : Cells Entry) :
    ∃ table count, buildEntries kind lens a size root base t = .ok (table, count) ∧
      ∀ i, base + 2 ^ root ≤ i → Cells.find? table i = Cells.find? t i := by
  have hss := sortedSymbols_remaining h hk
  have hmax : maxLength lens ≤ root := by
    rw [maxLength_eq_foldr h]
    exact List.max_le_of_forall_le lens root hroot
  have hne : maxLength lens ≠ 0 := fun hzero => by
    have := (maxLength_eq_zero h).1 hzero
    omega
  obtain ⟨g, hfill, hin⟩ := fillTable_short (kind := kind) (a := a) (max := maxLength lens) hsize (sortedSymbols lens)
    (f := FillState.start lens root base t) FillState.start_inRoot
    (fun s hs => ⟨(hss.lengths s hs).1, (hss.lengths s hs).2.trans (maxLength_le lens), (hss.lengths s hs).2.trans hmax⟩)
    hss.sorted (fun s _ => Nat.two_pow_pos _) fun k hk hk' => ⟨_, hss.counts k hk hk'⟩
  obtain ⟨hend, hbuild⟩ := buildEntries_eq_fillTable h hk ((minLength_le (maxLength_mem hne)).trans hmax) hfill
  exact ⟨g.table, g.count, hbuild, fun i hi => hend.outside i (.inr (by rw [hin.next, hin.curr]; exact hi))⟩

/-- A build of a complete set leads any stream bits to their symbol, and writes nothing below its table. -/
theorem buildEntries_leads (h : ∀ l ∈ lens, l ≤ 15) (hk : kraft lens = 2 ^ 15) (hmin : minLength lens ≤ root)
    (hbuild : buildEntries kind lens a size root base t = .ok (table, count)) :
    (∀ i < base, Cells.find? table i = Cells.find? t i) ∧
    ∀ v, ∃ s, startsWith lens s v ∧
      (lens.getD s 0 ≤ root → Cells.Holds size table (base + v % 2 ^ root) (symbolEntry kind s (lens.getD s 0))) ∧
      (root < lens.getD s 0 → ∃ w sub,
        Cells.Holds size table (base + v % 2 ^ root) ⟨.link w, root, sub⟩ ∧
        Cells.Holds size table (sub + v % 2 ^ (root + w) / 2 ^ root) (symbolEntry kind s (lens.getD s 0 - root))) := by
  obtain ⟨g, hfill, -⟩ := Except.bind_ok.1 (show _ >>= _ = _ from hbuild)
  obtain ⟨hend, hbuild'⟩ := buildEntries_eq_fillTable h hk hmin hfill
  rw [hbuild] at hbuild'
  cases hbuild'
  refine ⟨fun i hi => hend.outside i (.inl hi), fun v => ?_⟩
  obtain ⟨s, hs, ⟨hle, hentry⟩ | ⟨hlt, w, sub, hlink, hentry, -⟩⟩ := hend.leads v (bitrev_lt v 15)
  · exact ⟨s, hs, fun _ => hentry, fun hlt => absurd hlt (Nat.not_lt.2 hle)⟩
  · refine ⟨s, hs, fun hle => absurd hlt (Nat.not_lt.2 hle), fun _ => ⟨w, sub, hlink, ?_⟩⟩
    rwa [Nat.pow_add, Nat.mod_mul_right_div_self]

end

/-! ## The build (R420) -/

section
variable {k : CodeKind} {lens : List Nat} {t ht : DecodeTables} {root : Nat}

theorem DecodeTables.entry_ref_setArena {a : Cells Entry} {i : Nat} {e : Entry} (harena : ht.arenaOf k = a)
    (h : Cells.Holds k.arenaSize a i e) : ht.entry (k.ref root).store i = .ok e := by
  subst harena
  cases k <;> exact Cells.get_nat h.1 h.2

/-- What HDT.BUILD leaves in the tables is what `buildEntries` makes. -/
structure DecodeTables.BuiltBy (k : CodeKind) (lens : List Nat) (root : Nat) (t ht : DecodeTables) : Prop where
  entries : ∃ count, buildEntries k lens k.arenaName k.arenaSize root k.base (t.arenaOf k) = .ok (ht.arenaOf k, count)
  other : if k = .codes then ht.arena = t.arena else ht.clArena = t.clArena

theorem DecodeTables.BuiltBy.laidOut (h : DecodeTables.BuiltBy k lens root t ht) (h15 : ∀ l ∈ lens, l ≤ 15) (hk : kraft lens = 2 ^ 15)
    (hmin : minLength lens ≤ root) : laidOut ht (k.ref root) k lens := by
  obtain ⟨count, hbuild⟩ := h.entries
  intro v
  obtain ⟨s, hs, hshort, hlong⟩ := (buildEntries_leads h15 hk hmin hbuild).2 v
  refine ⟨s, hs, fun o ho => startsWith_unique h15 hk.le ho hs, fun hle => ?_, fun hlt => ?_⟩
  · exact DecodeTables.entry_ref_setArena rfl (hshort hle)
  · obtain ⟨w, sub, hlink, hentry⟩ := hlong hlt
    exact ⟨w, sub, DecodeTables.entry_ref_setArena rfl hlink, DecodeTables.entry_ref_setArena rfl hentry⟩

theorem kraft_le {m : Nat} (h : ∀ l ∈ lens, l ≠ 0 → m ≤ l) : kraft lens ≤ lens.length * 2 ^ (15 - m) := by
  induction lens with
  | nil => exact Nat.zero_le _
  | cons x lens ih =>
    have hx : (if x = 0 then 0 else 2 ^ (15 - x)) ≤ 2 ^ (15 - m) := by
      split
      · exact Nat.zero_le _
      · next hne =>
        have := h x (by simp) hne
        exact Nat.pow_le_pow_right (by decide) (by omega)
    rw [kraft_cons, List.length_cons, Nat.succ_mul, Nat.add_comm]
    exact Nat.add_le_add (ih fun l hl => h l (List.mem_cons_of_mem _ hl)) hx

/-- The shortest code of a complete set of few symbols is short. -/
theorem minLength_le_of_complete (h15 : ∀ l ∈ lens, l ≤ 15) (hk : kraft lens = 2 ^ 15) {n : Nat} (hn : n < 15)
    (hlen : lens.length < 2 ^ (n + 1)) : minLength lens ≤ n := by
  by_contra hlt
  have hle := kraft_le fun l hl hne => (Nat.not_le.1 hlt).trans_le (minLength_le (mem_usedLengths.2 ⟨by omega, h15 l hl, hl⟩))
  have hpow : 2 ^ 15 = 2 ^ (n + 1) * 2 ^ (15 - (n + 1)) := by rw [← Nat.pow_add, Nat.add_sub_cancel' hn]
  rw [hk, hpow] at hle
  exact Nat.not_lt.2 (Nat.le_of_mul_le_mul_right hle (Nat.two_pow_pos _)) hlen

/-- A complete set is accepted, with the root width of R421. -/
theorem buildTable_complete (h15 : ∀ l ∈ lens, l ≤ 15) (hk : kraft lens = 2 ^ 15) (hmin : minLength lens ≤ k.rootReq)
    (hroot : min k.rootReq (lens.foldr max 0) = root) (t : DecodeTables) :
    buildTable k lens t =
      (do
        let (a, count) ← buildEntries k lens k.arenaName k.arenaSize root k.base (t.arenaOf k)
        .ok (.complete, root, { t.setArena k a with
          count := count, offs := finalOffsets lens, work := writeWork t.work 0 (sortedSymbols lens) })) := by
  have hacc : acceptance k lens = .complete := by rw [acceptance_eq h15, if_neg (by omega), if_neg (by omega), if_pos hk]
  have hne : maxLength lens ≠ 0 := fun hzero => by
    have := (maxLength_eq_zero h15).1 hzero
    omega
  have hwidth : rootWidth lens k.rootReq = root := by
    have := minLength_le (maxLength_mem hne)
    rw [← hroot, ← maxLength_eq_foldr h15, rootWidth]
    omega
  rw [buildTable_accepted (.inl hacc) t hwidth, hacc]

theorem DecodeTables.builtBy_setArena {a : Cells Entry} {count offs work c : Cells Nat}
    (h : buildEntries k lens k.arenaName k.arenaSize root k.base (t.arenaOf k) = .ok (a, c)) :
    DecodeTables.BuiltBy k lens root t { t.setArena k a with count := count, offs := offs, work := work } := by
  cases k <;> exact ⟨⟨c, h⟩, rfl⟩

end

/-! ## The command (R420) -/

section
variable {kind : BitVec 2} {n : BitVec 9} {s : State} {d : Inflate}

/-- A legal set has too few symbols for all its codes to exceed the root width. -/
theorem length_lt_of_wellFormed (h : (Instr.hdtBuild kind n).wellFormed = true) :
    (codeKindOf kind).rootReq < 15 ∧ n.toNat < 2 ^ ((codeKindOf kind).rootReq + 1) ∧
      (codeKindOf kind).base + 2 ^ (codeKindOf kind).rootReq ≤ (codeKindOf kind).arenaSize := by
  simp only [Instr.wellFormed, Bool.or_eq_true, Bool.and_eq_true, beq_iff_eq, decide_eq_true_eq] at h
  obtain (⟨rfl, hn⟩ | ⟨⟨rfl, -⟩, hn⟩) | ⟨⟨rfl, -⟩, hn⟩ := h
  · exact ⟨by decide, hn.trans_lt (by decide), by decide⟩
  · exact ⟨by decide, hn.trans_lt (by decide), by decide⟩
  · exact ⟨by decide, hn.trans_lt (by decide), by decide⟩

/-- A build that answers did not stop with a model fault. -/
theorem buildTable_ok_of_answers (h : s.isInflate d) (hlegal : (Instr.hdtBuild kind n).wellFormed = true)
    (hn : n.toNat ≤ s.port.input.length) (h15 : ∀ l ∈ (s.port.input.take n.toNat).map BitVec.toNat, l ≤ 15)
    (hans : answers (exec (.hdtBuild kind n) s)) :
    ∃ r, buildTable (codeKindOf kind) ((s.port.input.take n.toNat).map BitVec.toNat) d.ht = .ok r := by
  obtain ⟨u, hu⟩ := hans
  rw [exec_hdtBuild hlegal, State.inflateCommand_of h, Inflate.builds_of_legal hn h15] at hu
  cases hb : buildTable (codeKindOf kind) ((s.port.input.take n.toNat).map BitVec.toNat) d.ht with
  | ok r => exact ⟨r, rfl⟩
  | error f => rw [hb] at hu; cases hu

end

/-- Settles O31: the loop of R426 keeps the invariant that the codes placed so far are laid out, and a complete set fills the
code space. -/
theorem buildLaysOutCanonicalCodes : Obligations.BuildLaysOutCanonicalCodes := by
  intro kind n s d h hlegal hn hbytes lens k root built hk
  have h15 : ∀ l ∈ lens, l ≤ 15 := List.forall_mem_map.2 hbytes
  obtain ⟨hreq, hlen, hsize⟩ := length_lt_of_wellFormed hlegal
  have hlength : lens.length = n.toNat := by simp [lens, hn]
  have hmin : minLength lens ≤ k.rootReq := minLength_le_of_complete h15 hk hreq (hlength ▸ hlen)
  have hbuild := buildTable_complete h15 hk hmin (root := root) rfl d.ht
  have hminroot : minLength lens ≤ root := by
    have hne : maxLength lens ≠ 0 := fun hzero => by
      have := (maxLength_eq_zero h15).1 hzero
      omega
    exact le_min hmin (maxLength_eq_foldr h15 ▸ minLength_le (maxLength_mem hne))
  have hbuilt : ∀ table count, buildEntries k lens k.arenaName k.arenaSize root k.base (d.ht.arenaOf k) = .ok (table, count) →
      ∃ ht, built ht ∧ ht.arenaOf k = table := by
    intro table count hentries
    rw [hentries] at hbuild
    have hby := DecodeTables.builtBy_setArena (count := count) (offs := finalOffsets lens)
      (work := writeWork d.ht.work 0 (sortedSymbols lens)) hentries
    have harena : DecodeTables.arenaOf { d.ht.setArena k table with
        count := count, offs := finalOffsets lens, work := writeWork d.ht.work 0 (sortedSymbols lens) } k = table := by
      cases k <;> rfl
    refine ⟨_, ⟨hby.laidOut h15 hk hminroot, ?_, hby.other, completes_hdtBuild h hlegal hn h15 hbuild⟩, harena⟩
    rw [harena]
    exact (buildEntries_leads h15 hk hminroot hentries).1
  refine ⟨fun hshort => ?_, fun hans => ?_⟩
  · have hfits : ∀ l ∈ lens, l ≤ root := fun l hl => le_min (hshort l hl) (maxLength_eq_foldr h15 ▸ le_maxLength h15 hl)
    have hroom : k.base + 2 ^ root ≤ k.arenaSize :=
      (Nat.add_le_add_left (Nat.pow_le_pow_right (by decide) (Nat.min_le_left _ _)) _).trans hsize
    obtain ⟨table, count, hentries, hpast⟩ := buildEntries_short h15 hk hfits hroom (d.ht.arenaOf k)
    obtain ⟨ht, hht, rfl⟩ := hbuilt table count hentries
    exact ⟨ht, hht, hpast⟩
  · obtain ⟨r, hr⟩ := buildTable_ok_of_answers h hlegal hn h15 hans
    rw [hbuild] at hr
    obtain ⟨⟨table, count⟩, hentries, -⟩ := Except.bind_ok.1 hr
    obtain ⟨ht, hht, -⟩ := hbuilt table count hentries
    exact ⟨ht, hht⟩

end Sys2Proof.Machine

/-! # The fixed tables

The lengths of R262 and R263 are complete sets, so the builder lays them out, and at every index the closed form of the fixed table
is the entry of the symbol whose code the index starts with (R440). -/

namespace Sys2Proof.Machine

open Sys2Proof.Claim

/-! ## The fixed codes are canonical (R260, R262, R263) -/

theorem fixedLLLens_eq : fixedLLLens = List.replicate 144 8 ++ (List.replicate 112 9 ++ (List.replicate 24 7 ++ List.replicate 8 8)) := by
  decide +kernel

theorem fixedLLLens_getD {s : Nat} (h : s < 288) : fixedLLLens.getD s 0 = fixedLLLen s := by
  rw [List.getD_eq_getElem _ _ (by simpa [fixedLLLens] using h)]
  simp [fixedLLLens]

/-- The fixed lengths `l` among the first `s`. -/
theorem length_filter_take_fixedLLLens (s l : Nat) :
    ((fixedLLLens.take s).filter fun x => x == l).length =
      (if 8 = l then min s 144 else 0) + ((if 9 = l then min (s - 144) 112 else 0) +
        ((if 7 = l then min (s - 256) 24 else 0) + if 8 = l then min (s - 280) 8 else 0)) := by
  rw [← List.countP_eq_length_filter, ← List.count, fixedLLLens_eq]
  simp only [List.take_append, List.take_replicate, List.count_append, List.count_replicate, List.length_replicate, beq_iff_eq,
    Nat.sub_sub]

/-- The four ranges of R262. -/
theorem fixedLL_cases {s : Nat} (h : s < 288) :
    s < 144 ∧ fixedLLLen s = 8 ∧ fixedLLCode s = 48 + s ∨
    (144 ≤ s ∧ s < 256) ∧ fixedLLLen s = 9 ∧ fixedLLCode s = 400 + (s - 144) ∨
    (256 ≤ s ∧ s < 280) ∧ fixedLLLen s = 7 ∧ fixedLLCode s = s - 256 ∨
    (280 ≤ s ∧ s < 288) ∧ fixedLLLen s = 8 ∧ fixedLLCode s = 192 + (s - 280) := by
  unfold fixedLLLen fixedLLCode
  split_ifs <;> omega

theorem canonicalCode_fixedLL {s : Nat} (h : s < 288) : canonicalCode fixedLLLens s = fixedLLCode s := by
  have hall : fixedLLLens.take 288 = fixedLLLens := List.take_of_length_le (by simp [fixedLLLens])
  have hcounts : ∀ l, (fixedLLLens.filter fun x => x == l).length =
      (if 8 = l then 144 else 0) + ((if 9 = l then 112 else 0) + ((if 7 = l then 24 else 0) + if 8 = l then 8 else 0)) := by
    intro l
    conv_lhs => rw [← hall]
    exact length_filter_take_fixedLLLens 288 l
  simp only [canonicalCode, fixedLLLens_getD h, hcounts, length_filter_take_fixedLLLens]
  obtain ⟨hr, hlen, hcode⟩ | ⟨hr, hlen, hcode⟩ | ⟨hr, hlen, hcode⟩ | ⟨hr, hlen, hcode⟩ := fixedLL_cases h
  · rw [hlen, hcode]
    simp [List.range']
    omega
  · rw [hlen, hcode]
    simp [List.range']
    omega
  · rw [hlen, hcode]
    simp [List.range']
    omega
  · rw [hlen, hcode]
    simp [List.range']
    omega

theorem fixedLLLens_le : ∀ l ∈ fixedLLLens, l ≤ 9 := by decide +kernel

theorem kraft_fixedLLLens : kraft fixedLLLens = 2 ^ 15 := by decide +kernel

theorem canonicalCode_replicate {n l s : Nat} (h : s < n) : canonicalCode (List.replicate n l) s = s := by
  have hlen : (List.replicate n l).getD s 0 = l := by rw [List.getD_eq_getElem _ _ (by simpa using h), List.getElem_replicate]
  have hshort : ∀ k ∈ List.range' 1 (l - 1), ((List.replicate n l).filter fun x => x == k).length * 2 ^ (l - k) = 0 := by
    intro k hk
    have hne : l ≠ k := by have := List.mem_range'_1.1 hk; omega
    simp [hne]
  simp only [canonicalCode, hlen]
  rw [List.map_congr_left hshort, List.take_replicate, Nat.min_eq_left h.le]
  simp

theorem kraft_replicate : kraft (List.replicate 32 5) = 2 ^ 15 := by decide +kernel

/-! ## The closed forms (R440) -/

/-- The closed form finds the symbol whose code the stream bits start with. -/
theorem fixedLLEntry_spec (v : Nat) :
    ∃ s < 288, fixedLLCode s = bitrev v (fixedLLLen s) ∧ fixedLLEntry v = symbolEntry .lens s (fixedLLLen s) := by
  have h9 := bitrev_lt v 9
  have h8 : bitrev v 9 / 2 = bitrev v 8 := bitrev_div_two_pow (l := 8) (by omega) v
  have h7 : bitrev v 9 / 4 = bitrev v 7 := bitrev_div_two_pow (l := 7) (by omega) v
  have hof : ∀ s l, s < 288 → fixedLLLen s = l → fixedLLCode s = bitrev v l → fixedLLEntry v = symbolEntry .lens s l →
      ∃ s < 288, fixedLLCode s = bitrev v (fixedLLLen s) ∧ fixedLLEntry v = symbolEntry .lens s (fixedLLLen s) := by
    rintro s l hs rfl hcode hentry
    exact ⟨s, hs, hcode, hentry⟩
  by_cases h1 : bitrev v 7 < 24
  · have hr := fixedLL_cases (s := 256 + bitrev v 7) (by omega)
    exact hof (256 + bitrev v 7) 7 (by omega) (by omega) (by omega) (if_pos h1)
  by_cases h2 : bitrev v 8 < 0xC0
  · have hr := fixedLL_cases (s := bitrev v 8 - 0x30) (by omega)
    exact hof (bitrev v 8 - 0x30) 8 (by omega) (by omega) (by omega) (by rw [fixedLLEntry, if_neg h1, if_pos h2])
  by_cases h3 : bitrev v 8 < 0xC8
  · have hr := fixedLL_cases (s := 280 + (bitrev v 8 - 0xC0)) (by omega)
    exact hof (280 + (bitrev v 8 - 0xC0)) 8 (by omega) (by omega) (by omega) (by rw [fixedLLEntry, if_neg h1, if_neg h2, if_pos h3])
  · have hr := fixedLL_cases (s := 144 + (bitrev v 9 - 0x190)) (by omega)
    exact hof (144 + (bitrev v 9 - 0x190)) 9 (by omega) (by omega) (by omega) (by rw [fixedLLEntry, if_neg h1, if_neg h2, if_neg h3])

theorem fixedLLEntry_startsWith (v : Nat) :
    ∃ s, startsWith fixedLLLens s v ∧ fixedLLEntry v = symbolEntry .lens s (fixedLLLens.getD s 0) := by
  obtain ⟨s, hs, hcode, hentry⟩ := fixedLLEntry_spec v
  have hlen := fixedLLLens_getD hs
  refine ⟨s, ⟨?_, ?_⟩, hlen ▸ hentry⟩
  · have hr := fixedLL_cases hs
    rw [coded, hlen]
    omega
  · rw [canonicalField, hlen, canonicalCode_fixedLL hs, hcode, bitrev_bitrev]

theorem fixedDEntry_startsWith (v : Nat) :
    ∃ s, startsWith (List.replicate 32 5) s v ∧ fixedDEntry v = symbolEntry .dists s ((List.replicate 32 5).getD s 0) := by
  have hlt : bitrev v 5 < 32 := bitrev_lt v 5
  have hlen : (List.replicate 32 5).getD (bitrev v 5) 0 = 5 := by
    rw [List.getD_eq_getElem _ _ (by simpa using hlt), List.getElem_replicate]
  refine ⟨bitrev v 5, ⟨?_, ?_⟩, ?_⟩
  · rw [coded, hlen]
    decide
  · rw [canonicalField, hlen, canonicalCode_replicate hlt, bitrev_bitrev]
  · rw [hlen]
    rfl

/-- The builder's table of a complete set, against a closed form of its entries. -/
theorem buildEntries_closedForm {kind : CodeKind} {lens : List Nat} {a : ArrayName} {root : Nat} {entry : Nat → Entry}
    (hroot : root ≤ 15) (hle : ∀ l ∈ lens, l ≤ root) (hk : kraft lens = 2 ^ 15)
    (hentry : ∀ v, ∃ s, startsWith lens s v ∧ entry v = symbolEntry kind s (lens.getD s 0)) :
    ∃ table counts, buildEntries kind lens a (2 ^ root) root 0 [] = .ok (table, counts) ∧
      ∀ i < 2 ^ root, Cells.find? table i = some (entry i) := by
  have h15 : ∀ l ∈ lens, l ≤ 15 := fun l hl => (hle l hl).trans hroot
  have hmin : minLength lens ≤ root := by
    by_cases hused : usedLengths lens = []
    · rw [minLength, hused]
      exact Nat.zero_le _
    · exact hle _ (mem_usedLengths.1 (minLength_mem hused)).2.2
  obtain ⟨table, counts, hbuild, -⟩ := buildEntries_short (kind := kind) (a := a) (base := 0) h15 hk hle (Nat.zero_add _).le []
  refine ⟨table, counts, hbuild, fun i hi => ?_⟩
  obtain ⟨s, hs, hshort, -⟩ := (buildEntries_leads h15 hk hmin hbuild).2 i
  obtain ⟨s', hs', he⟩ := hentry i
  obtain rfl := startsWith_unique h15 hk.le hs hs'
  have := (hshort (getD_le hle s)).2
  rwa [Nat.zero_add, Nat.mod_eq_of_lt hi, ← he] at this

theorem exec_hdtFixed (s : State) : exec .hdtFixed s = s.inflateCommand true fun d p =>
    .done .ok 0 0 { d with llRef := some fixedLLRef, dRef := some fixedDRef } p := rfl

/-- Settles O32: the fixed lengths are complete sets, and the closed forms are the entries of their canonical codes. -/
theorem fixedTablesInstalled : Obligations.FixedTablesInstalled := by
  have hdist : ∀ l ∈ List.replicate 32 5, l ≤ 5 := fun l hl => (List.eq_of_mem_replicate hl).le
  refine ⟨fun s _ h => completes_of_inflate (st := .ok) (p := s.startPort) h (exec_hdtFixed s) rfl rfl, ?_, ?_⟩
  · exact buildEntries_closedForm (root := 5) (by decide) hdist kraft_replicate fixedDEntry_startsWith
  · exact buildEntries_closedForm (root := 9) (by decide) fixedLLLens_le kraft_fixedLLLens fixedLLEntry_startsWith

end Sys2Proof.Machine

/-! # HDT.DECODE reads one code

A walk of R430 looks entries up by the bits buffered so far, with zeros above them. While the code is not complete, the entry it
finds is that of a longer code, or a link; with the code's bits buffered it is the code's own, whatever follows (R435). -/

namespace Sys2Proof.Machine

open Sys2Proof.Claim

/-! ## The cursor while bytes are pulled (R300) -/

section
variable {bc : BitCursor} {n m : Nat} {input : List Byte}

theorem bitsOf_push (h : bc.Ok) (hc : bc.bitCount ≤ 24) (b : Byte) (bs : List Byte) : bitsOf (bc.push b) bs = bitsOf bc (b :: bs) := by
  unfold bitsOf
  rw [BitCursor.push_value h hc, streamValue]
  show _ + 2 ^ (bc.bitCount + 8) * _ = _
  rw [Nat.pow_add]
  ring

theorem bitsOf_mod_bitCount (h : bc.Ok) (input : List Byte) : bitsOf bc input % 2 ^ bc.bitCount = bc.bitBuffer.toNat := by
  rw [bitsOf, Nat.add_mul_mod_self_left, Nat.mod_eq_of_lt h]

theorem bitsOf_pull (n : Nat) (h : bc.Ok) (input : List Byte) :
    bitsOf (bc.pull n input).1 (bc.pull n input).2 = bitsOf bc input := by
  induction input generalizing bc with
  | nil => rfl
  | cons b rest ih =>
    rw [BitCursor.pull]
    split
    · next hlt => rw [ih (BitCursor.push_ok h b), bitsOf_push h hlt.2]
    · rfl

theorem BitCursor.pull_available (n : Nat) (bc : BitCursor) (input : List Byte) :
    (bc.pull n input).1.bitCount + 8 * (bc.pull n input).2.length = bc.bitCount + 8 * input.length := by
  induction input generalizing bc with
  | nil => rfl
  | cons b rest ih =>
    rw [BitCursor.pull]
    split
    · rw [ih, List.length_cons]
      show bc.bitCount + 8 + _ = _
      omega
    · rfl

/-- A pull goes on where a shorter one stopped. -/
theorem BitCursor.pull_pull (hnm : n ≤ m) (bc : BitCursor) (input : List Byte) :
    (bc.pull n input).1.pull m (bc.pull n input).2 = bc.pull m input := by
  induction input generalizing bc with
  | nil => rfl
  | cons b rest ih =>
    rw [BitCursor.pull]
    split
    · next hlt =>
      rw [ih]
      conv_rhs => rw [BitCursor.pull, if_pos ⟨by omega, hlt.2⟩]
    · rfl

theorem BitCursor.drop_drop (bc : BitCursor) (n m : Nat) : (bc.drop n).drop m = bc.drop (n + m) := by
  simp only [BitCursor.drop, BitVec.shiftRight_add, Nat.sub_sub]

end

/-! ## One walk (R430) -/

/-- Of the stream bits `v`, `look` finds the entry `e` with `n` bits buffered, and with fewer one that needs more; the first
`skip` bits are buffered. -/
structure Finds (look : BitCursor → Except Fault Entry) (skip n v : Nat) (e : Entry) : Prop where
  early : ∀ bc : BitCursor, bc.bitBuffer.toNat = v % 2 ^ bc.bitCount → skip ≤ bc.bitCount → bc.bitCount < n →
    ∃ e', look bc = .ok e' ∧ bc.bitCount < skip + e'.bits
  found : ∀ bc : BitCursor, bc.bitBuffer.toNat = v % 2 ^ bc.bitCount → n ≤ bc.bitCount → look bc = .ok e
  bits : skip + e.bits = n

theorem walk_of_finds {look : BitCursor → Except Fault Entry} {skip n v : Nat} {e : Entry} (hf : Finds look skip n v e) (hn : n ≤ 25)
    (input : List Byte) {bc : BitCursor} (h : bc.Ok) (hv : bitsOf bc input = v) (hskip : skip ≤ bc.bitCount) :
    walk look skip bc input =
      .ok (if n ≤ bc.bitCount + 8 * input.length then some e else none, (bc.pull n input).1, (bc.pull n input).2) := by
  have hbuf : bc.bitBuffer.toNat = v % 2 ^ bc.bitCount := by rw [← hv, bitsOf_mod_bitCount h]
  have hbits := hf.bits
  induction input generalizing bc with
  | nil =>
    by_cases hle : n ≤ bc.bitCount
    · simp [walk, hf.found bc hbuf hle, hbits, hle, BitCursor.pull]
    · obtain ⟨e', hlook, hlt⟩ := hf.early bc hbuf hskip (Nat.not_le.1 hle)
      simp [walk, hlook, Nat.not_le.2 hlt, hle, BitCursor.pull]
  | cons b rest ih =>
    by_cases hle : n ≤ bc.bitCount
    · rw [walk, hf.found bc hbuf hle, Except.ok_bind, if_pos (hbits ▸ hle), if_pos (hle.trans (Nat.le_add_right _ _)),
        BitCursor.pull, if_neg fun hlt => absurd hle (Nat.not_le.2 hlt.1)]
    · obtain ⟨e', hlook, hlt⟩ := hf.early bc hbuf hskip (Nat.not_le.1 hle)
      have hpush := BitCursor.push_ok h b
      have hbits' : bitsOf (bc.push b) rest = v := (bitsOf_push h (by omega) b rest).trans hv
      have hpull : bc.pull n (b :: rest) = (bc.push b).pull n rest := by rw [BitCursor.pull, if_pos ⟨by omega, by omega⟩]
      have hcount : (bc.push b).bitCount = bc.bitCount + 8 := rfl
      have havail : bc.bitCount + 8 * (b :: rest).length = (bc.push b).bitCount + 8 * rest.length := by
        rw [hcount, List.length_cons]
        omega
      rw [walk, hlook, Except.ok_bind, if_neg (Nat.not_le.2 hlt), hpull, havail]
      exact ih hpush hbits' (by omega) (by rw [← hbits', bitsOf_mod_bitCount hpush])

/-! ## One symbol (R430) -/

section
variable {c : Dec} {r : TableRef} {n root w sub : Nat} {e : Entry}

/-- The bits that decoding through the entry `e` drops for it: none where it is invalid. -/
def Entry.dropped (e : Entry) : Nat := if e.op = .invalid then 0 else e.bits

theorem Entry.dropped_le (e : Entry) : e.dropped ≤ e.bits := by
  unfold Entry.dropped
  split
  · exact Nat.zero_le _
  · exact le_rfl

theorem dropEntry_eq (e : Entry) (bc : BitCursor) : dropEntry e bc = bc.drop e.dropped := by
  unfold dropEntry Entry.dropped
  split
  · simp [BitCursor.drop]
  · rfl

/-- What a decode that finds `e` with `n` bits answers: it drops `m` of them, or asks for more input. -/
def Dec.decoded (c : Dec) (n m : Nat) (e : Entry) : Option Entry × Dec :=
  if n ≤ c.u.bc.bitCount + 8 * c.port.input.length then (some e, c.pulled n m) else (none, c.pulled n 0)

theorem Dec.pulled_eq (hn : n ≤ 25) (h : c.u.bc.Ok) :
    c.u.bc.pull n c.port.input = ((c.pulled n 0).u.bc, (c.pulled n 0).port.input) := BitCursor.pull_eq hn h _

theorem Dec.drop_pulled (hn : n ≤ 25) (h : c.u.bc.Ok) (m : Nat) : (c.pulled n 0).u.bc.drop m = (c.pulled n m).u.bc :=
  BitCursor.drop_cursorAfter (bitsOf_take_lt hn h _) m

/-- A code that the root table holds. -/
theorem Dec.decodeSym_root (h : c.u.bc.Ok) (hn : n ≤ 25)
    (hf : Finds (c.u.ht.lookRoot r) 0 n (bitsOf c.u.bc c.port.input) e) (hlink : ∀ w, e.op ≠ .link w) :
    c.decodeSym r = .ok (c.decoded n e.dropped e) := by
  rw [Dec.decodeSym, walk_of_finds hf hn c.port.input h rfl (Nat.zero_le _), Dec.pulled_eq hn h, Except.ok_bind, Dec.decoded]
  by_cases hle : n ≤ c.u.bc.bitCount + 8 * c.port.input.length
  · simp only [if_pos hle, dropEntry_eq, Dec.drop_pulled hn h]
    cases hop : e.op with
    | link w => exact absurd hop (hlink w)
    | _ => rfl
  · simp only [if_neg hle]
    rfl

/-- A code that a sub-table holds. -/
theorem Dec.decodeSym_sub (h : c.u.bc.Ok) (hn : n ≤ 25) (hroot : root ≤ n)
    (hf : Finds (c.u.ht.lookRoot r) 0 root (bitsOf c.u.bc c.port.input) ⟨.link w, root, sub⟩)
    (hf' : Finds (c.u.ht.lookSub r.store sub root w) root n (bitsOf c.u.bc c.port.input) e) :
    c.decodeSym r = .ok (c.decoded n (root + e.dropped) e) := by
  have hn' : root ≤ 25 := hroot.trans hn
  rw [Dec.decodeSym, walk_of_finds hf hn' c.port.input h rfl (Nat.zero_le _), Except.ok_bind, Dec.decoded]
  by_cases hle : root ≤ c.u.bc.bitCount + 8 * c.port.input.length
  · have hhas : root ≤ (c.u.bc.pull root c.port.input).1.bitCount := by
      rw [Dec.pulled_eq hn' h]
      exact of_decide_eq_true (Dec.pulled_has hle)
    simp only [if_pos hle]
    rw [walk_of_finds hf' hn _ (BitCursor.pull_ok root h _) (bitsOf_pull root h _) hhas, BitCursor.pull_available,
      BitCursor.pull_pull hroot, Dec.pulled_eq hn h, Except.ok_bind]
    by_cases hle' : n ≤ c.u.bc.bitCount + 8 * c.port.input.length
    · simp only [if_pos hle', dropEntry_eq]
      rw [BitCursor.drop_drop, Dec.drop_pulled hn h]
      rfl
    · simp only [if_neg hle']
      rfl
  · have hlt : c.u.bc.bitCount + 8 * c.port.input.length < root := Nat.not_le.1 hle
    rw [if_neg hle, if_neg (by omega), Dec.pulled_eq hn' h, Dec.pulled_of_starved hlt, Dec.pulled_of_starved (hlt.trans_le hroot)]

end

/-! ## The command (R208, R430) -/

section
variable {table : BitVec 2} {s : State} {d : Inflate} {r : TableRef} {n m : Nat} {e e' : Entry}

theorem EntryOp.resultCode_of_ne_link {op : EntryOp} (h : ∀ w, op ≠ .link w) : ∃ code, op.resultCode = some code := by
  cases op with
  | link w => exact absurd rfl (h w)
  | _ => exact ⟨_, rfl⟩

/-- The body of HDT.DECODE. -/
def Inflate.decodes (table : BitVec 2) (d : Inflate) (p : Port) : Reply Inflate :=
  match d.refOf (codeKindOf table) with
  | none => .raised (.stream .badOperand) d p
  | some r =>
    Reply.ofExcept (Dec.decodeSym ⟨d, p⟩ r) fun (e?, c) =>
      match e? with
      | none => .done .needMoreInput 15 0 c.u c.port
      | some e =>
        let pulled := 8 * (p.input.length - c.port.input.length)
        c.answer (e.op.code + 65536 * e.val) (d.bc.bitCount + pulled - c.u.bc.bitCount)

theorem exec_hdtDecode (ht : table.toNat ≤ 2) (s : State) :
    exec (.hdtDecode table) s = s.inflateCommand true (Inflate.decodes table) := by
  rw [← State.inflateCommand_legal (i := .hdtDecode table) (decide_eq_true ht)]
  rfl

/-- What a decode answers, as the statement writes it. Only the operation and the value of the entry are answered. -/
theorem readsEntry_of_decoded (h : s.isInflate d) (ht : table.toNat ≤ 2) (href : d.refOf (codeKindOf table) = some r)
    (hdec : Dec.decodeSym ⟨d, s.startPort⟩ r = .ok (Dec.decoded ⟨d, s.startPort⟩ n m e')) (hm : m ≤ n)
    (hop : e'.op = e.op) (hval : e'.val = e.val) (hlink : ∀ w, e.op ≠ .link w) : readsEntry table s d e n m := by
  have hx := exec_hdtDecode ht s
  refine ⟨fun hlt => ?_, fun hle => ?_⟩
  · refine completes_of_inflate (st := .needMoreInput) (p := { s.startPort with input := [] }) h hx ?_ rfl
    rw [Inflate.decodes, href]
    have hdecoded : Dec.decoded ⟨d, s.startPort⟩ n m e' = (none, Dec.pulled ⟨d, s.startPort⟩ n 0) := if_neg (Nat.not_le.2 hlt)
    simp only [hdec, hdecoded, Reply.ofExcept_ok]
    rw [Dec.pulled_of_starved hlt]
    rfl
  · obtain ⟨code, hcode⟩ := EntryOp.resultCode_of_ne_link hlink
    refine ⟨code, hcode, ?_⟩
    have hlen := length_take_pullCount hle
    have hbits := le_bitCount_add_pullCount d.bc n
    have hdropped : d.bc.bitCount + 8 * (s.port.input.length - (s.port.input.drop (pullCount d.bc n)).length) -
        (cursorAfter d.bc (s.port.input.take (pullCount d.bc n)) m).bitCount = m := by
      rw [List.length_take] at hlen
      simp only [cursorAfter, List.length_drop, List.length_take]
      omega
    refine completes_of_inflate (st := .ok) (p := (Dec.pulled ⟨d, s.startPort⟩ n m).port) h hx ?_ rfl
    rw [Inflate.decodes, href]
    have hdecoded : Dec.decoded ⟨d, s.startPort⟩ n m e' = (some e', Dec.pulled ⟨d, s.startPort⟩ n m) := if_pos hle
    simp only [hdec, hdecoded, Reply.ofExcept_ok, Dec.answer, Dec.pulled, State.startPort_input, hdropped, hval, hop,
      EntryOp.code_of_resultCode hcode]

end

/-! ## Tables that hold canonical codes (R435) -/

section
variable {t : DecodeTables} {r : TableRef} {k : CodeKind} {lens : List Nat} {s v c : Nat}

/-- The bits of an entry do not tell its operation or its value, and no symbol's entry is a link (R425). -/
theorem symbolEntry_eq (k : CodeKind) (s b b' : Nat) :
    symbolEntry k s b = { symbolEntry k s b' with bits := b } ∧ ∀ w, (symbolEntry k s b).op ≠ .link w := by
  cases k with
  | codes => exact ⟨rfl, fun w => by simp [symbolEntry]⟩
  | lens => unfold symbolEntry; split_ifs <;> simp
  | dists => unfold symbolEntry; split_ifs <;> simp

theorem symbolEntry_bits (k : CodeKind) (s b : Nat) : (symbolEntry k s b).bits = b := by rw [(symbolEntry_eq k s b b).1]

theorem symbolEntry_op (k : CodeKind) (s b b' : Nat) : (symbolEntry k s b).op = (symbolEntry k s b').op := by
  rw [(symbolEntry_eq k s b b').1]

theorem symbolEntry_val (k : CodeKind) (s b b' : Nat) : (symbolEntry k s b).val = (symbolEntry k s b').val := by
  rw [(symbolEntry_eq k s b b').1]

theorem symbolEntry_ne_link (k : CodeKind) (s b w : Nat) : (symbolEntry k s b).op ≠ .link w := (symbolEntry_eq k s b b).2 w

/-- In a table that holds a code, stream bits start with the code of one symbol. -/
theorem laidOut_unique (hlaid : laidOut t r k lens) {s' : Nat} (hs : startsWith lens s v) (hs' : startsWith lens s' v) : s = s' := by
  obtain ⟨u, -, hunique, -⟩ := hlaid v
  rw [hunique s hs, hunique s' hs']

/-- Behind a link stands the sub-table of the codes that are longer than the root width. -/
theorem laidOut_sub_of_link (hlaid : laidOut t r k lens) {w sub : Nat}
    (hlink : t.entry r.store (r.start + v % 2 ^ r.root) = .ok ⟨.link w, r.root, sub⟩) :
    ∃ s, startsWith lens s v ∧ r.root < lens.getD s 0 ∧
      t.entry r.store (sub + v % 2 ^ (r.root + w) / 2 ^ r.root) = .ok (symbolEntry k s (lens.getD s 0 - r.root)) := by
  obtain ⟨s, hs, -, hshort, hlong⟩ := hlaid v
  have hlt : r.root < lens.getD s 0 := by
    by_contra hle
    have hentry := (hshort (Nat.not_lt.1 hle)).symm.trans hlink
    exact symbolEntry_ne_link k s _ w (by rw [Except.ok.inj hentry])
  obtain ⟨w', sub', hlink', hentry⟩ := hlong hlt
  have heq := Except.ok.inj (hlink'.symm.trans hlink)
  simp only [Entry.mk.injEq, EntryOp.link.injEq, true_and] at heq
  obtain ⟨rfl, rfl⟩ := heq
  exact ⟨s, hs, hlt, hentry⟩

/-- A code that is complete within the first `c` bits is theirs, whatever follows. -/
theorem startsWith_mod (h : lens.getD s 0 ≤ c) : startsWith lens s (v % 2 ^ c) ↔ startsWith lens s v := by
  rw [startsWith, startsWith, Nat.mod_mod_of_dvd _ (Nat.pow_dvd_pow 2 h)]

/-- A code of the root table is found there. -/
theorem finds_root (hlaid : laidOut t r k lens) (hs : startsWith lens s v) (hle : lens.getD s 0 ≤ r.root) :
    Finds (t.lookRoot r) 0 (lens.getD s 0) v (symbolEntry k s (lens.getD s 0)) where
  early bc hbuf _ hlt := by
    obtain ⟨s', hs', -, hshort, hlong⟩ := hlaid bc.bitBuffer.toNat
    by_cases hroot : lens.getD s' 0 ≤ r.root
    · refine ⟨_, hshort hroot, ?_⟩
      rw [symbolEntry_bits, Nat.zero_add]
      by_contra hge
      rw [hbuf, startsWith_mod (Nat.not_lt.1 hge)] at hs'
      rw [laidOut_unique hlaid hs' hs] at hge
      exact hge hlt
    · obtain ⟨w, sub, hlink, -⟩ := hlong (Nat.not_le.1 hroot)
      exact ⟨_, hlink, by show bc.bitCount < 0 + r.root; omega⟩
  found bc hbuf hge := by
    obtain ⟨s', -, hunique, hshort, -⟩ := hlaid bc.bitBuffer.toNat
    rw [← startsWith_mod hge, ← hbuf] at hs
    obtain rfl := hunique s hs
    exact hshort hle
  bits := by rw [symbolEntry_bits, Nat.zero_add]

/-- A longer code is found through the link at its root index, in the sub-table it leads to. -/
theorem finds_sub (hlaid : laidOut t r k lens) (hs : startsWith lens s v) (hlt : r.root < lens.getD s 0) :
    ∃ w sub, Finds (t.lookRoot r) 0 r.root v ⟨.link w, r.root, sub⟩ ∧
      Finds (t.lookSub r.store sub r.root w) r.root (lens.getD s 0) v (symbolEntry k s (lens.getD s 0 - r.root)) := by
  obtain ⟨s', hs', -, -, hlong⟩ := hlaid v
  obtain rfl := laidOut_unique hlaid hs' hs
  obtain ⟨w, sub, hlink, -⟩ := hlong hlt
  have hroot : ∀ bc : BitCursor, bc.bitBuffer.toNat = v % 2 ^ bc.bitCount → r.root ≤ bc.bitCount →
      bc.bitBuffer.toNat % 2 ^ r.root = v % 2 ^ r.root := fun bc hbuf hge => by
    rw [hbuf, Nat.mod_mod_of_dvd _ (Nat.pow_dvd_pow 2 hge)]
  refine ⟨w, sub, ⟨fun bc hbuf _ hlow => ?_, fun bc hbuf hge => ?_, Nat.zero_add _⟩,
    ⟨fun bc hbuf hge hlow => ?_, fun bc hbuf hge => ?_, ?_⟩⟩
  · obtain ⟨s'', hs'', -, hshort, hlong'⟩ := hlaid bc.bitBuffer.toNat
    by_cases hfits : lens.getD s'' 0 ≤ r.root
    · refine ⟨_, hshort hfits, ?_⟩
      rw [symbolEntry_bits, Nat.zero_add]
      by_contra hge
      rw [hbuf, startsWith_mod (Nat.not_lt.1 hge)] at hs''
      rw [laidOut_unique hlaid hs'' hs] at hfits
      omega
    · obtain ⟨w', sub', hlink', -⟩ := hlong' (Nat.not_le.1 hfits)
      exact ⟨_, hlink', by show bc.bitCount < 0 + r.root; omega⟩
  · show t.entry r.store (r.start + bc.bitBuffer.toNat % 2 ^ r.root) = _
    rw [hroot bc hbuf hge, hlink]
  · obtain ⟨s'', hs'', hlt', hentry⟩ := laidOut_sub_of_link hlaid (hroot bc hbuf hge ▸ hlink)
    refine ⟨_, hentry, ?_⟩
    rw [symbolEntry_bits, Nat.add_sub_cancel' hlt'.le]
    by_contra hge'
    rw [hbuf, startsWith_mod (Nat.not_lt.1 hge')] at hs''
    rw [laidOut_unique hlaid hs'' hs] at hge'
    exact hge' hlow
  · obtain ⟨s'', hs'', hlt', hentry⟩ := laidOut_sub_of_link hlaid (hroot bc hbuf (hlt.le.trans hge) ▸ hlink)
    have hs := hs
    rw [← startsWith_mod hge, ← hbuf] at hs
    rw [laidOut_unique hlaid hs'' hs] at hentry
    exact hentry
  · rw [symbolEntry_bits, Nat.add_sub_cancel' hlt.le]

end

end Sys2Proof.Machine

/-! # HDT.DECODE through each table

The fixed tables hold the canonical codes of the fixed lengths, so one argument decodes through them and through built tables; the
tables of two one-bit entries need no code. -/

namespace Sys2Proof.Machine

open Sys2Proof.Claim

section
variable {table : BitVec 2} {s : State} {d : Inflate} {r : TableRef} {k : CodeKind} {lens : List Nat} {sym : Nat}

/-- A table of entries in closed form holds the codes of a complete set that fits the root width. -/
theorem laidOut_closedForm {t : DecodeTables} {entry : Nat → Entry} (hroot : r.root ≤ 15) (hle : ∀ l ∈ lens, l ≤ r.root)
    (hk : kraft lens = 2 ^ 15) (ht : ∀ i < 2 ^ r.root, t.entry r.store (r.start + i) = .ok (entry i))
    (hentry : ∀ v, ∃ s, startsWith lens s v ∧ entry v = symbolEntry k s (lens.getD s 0)) : laidOut t r k lens := by
  intro v
  obtain ⟨s, hs, he⟩ := hentry (v % 2 ^ r.root)
  rw [startsWith_mod (getD_le hle s)] at hs
  refine ⟨s, hs, fun s' hs' => startsWith_unique (fun l hl => (hle l hl).trans hroot) hk.le hs' hs, fun _ => ?_, fun hlt => ?_⟩
  · rw [ht _ (Nat.mod_lt _ (Nat.two_pow_pos _)), he]
  · exact absurd (getD_le hle s) (Nat.not_le.2 hlt)

theorem DecodeTables.entry_fixedLL (t : DecodeTables) {i : Nat} (h : i < 512) : t.entry .fixedLL (0 + i) = .ok (fixedLLEntry i) := by
  rw [DecodeTables.entry, Nat.zero_add, checkIndex_nat h]
  rfl

theorem DecodeTables.entry_fixedD (t : DecodeTables) {i : Nat} (h : i < 32) : t.entry .fixedD (0 + i) = .ok (fixedDEntry i) := by
  rw [DecodeTables.entry, Nat.zero_add, checkIndex_nat h]
  rfl

theorem laidOut_fixedLL (t : DecodeTables) : laidOut t ⟨.fixedLL, 0, 9⟩ .lens fixedLLLens :=
  laidOut_closedForm (by decide) fixedLLLens_le kraft_fixedLLLens (fun _ hi => t.entry_fixedLL hi) fixedLLEntry_startsWith

theorem laidOut_fixedD (t : DecodeTables) : laidOut t ⟨.fixedD, 0, 5⟩ .dists (List.replicate 32 5) :=
  laidOut_closedForm (by decide) (fun _ hl => (List.eq_of_mem_replicate hl).le) kraft_replicate
    (fun _ hi => t.entry_fixedD hi) fixedDEntry_startsWith

variable (h : s.isInflate d) (hd : d.bc.Ok) (ht : table.toNat ≤ 2) (href : d.refOf (codeKindOf table) = some r)
include h hd ht href

/-- Decoding a code that the root table holds. -/
theorem readsEntry_of_root (hlaid : laidOut d.ht r k lens) (h15 : ∀ l ∈ lens, l ≤ 15)
    (hs : startsWith lens sym (bitsOf d.bc s.port.input)) (hle : lens.getD sym 0 ≤ r.root) :
    readsEntry table s d (symbolEntry k sym (lens.getD sym 0)) (lens.getD sym 0) (symbolEntry k sym (lens.getD sym 0)).dropped := by
  have hdec := Dec.decodeSym_root (c := ⟨d, s.startPort⟩) hd ((getD_le h15 sym).trans (by decide)) (finds_root hlaid hs hle)
    (symbolEntry_ne_link k sym _)
  refine readsEntry_of_decoded h ht href hdec ?_ rfl rfl (symbolEntry_ne_link k sym _)
  exact (Entry.dropped_le _).trans (symbolEntry_bits k sym _).le

/-- Decoding a code that a sub-table holds: the root table's link has dropped the root width before the entry is found. -/
theorem readsEntry_of_sub (hlaid : laidOut d.ht r k lens) (h15 : ∀ l ∈ lens, l ≤ 15)
    (hs : startsWith lens sym (bitsOf d.bc s.port.input)) (hlt : r.root < lens.getD sym 0) :
    readsEntry table s d (symbolEntry k sym (lens.getD sym 0)) (lens.getD sym 0)
      (r.root + (symbolEntry k sym (lens.getD sym 0 - r.root)).dropped) := by
  obtain ⟨w, sub, hlink, hsub⟩ := finds_sub hlaid hs hlt
  have hdec := Dec.decodeSym_sub (c := ⟨d, s.startPort⟩) hd ((getD_le h15 sym).trans (by decide)) hlt.le hlink hsub
  refine readsEntry_of_decoded h ht href hdec ?_ (symbolEntry_op ..) (symbolEntry_val ..) (symbolEntry_ne_link k sym _)
  have hdropped := Entry.dropped_le (symbolEntry k sym (lens.getD sym 0 - r.root))
  rw [symbolEntry_bits] at hdropped
  omega

/-- Decoding through a table that holds canonical codes. -/
theorem readsEntry_of_laidOut (hlaid : laidOut d.ht r k lens) (h15 : ∀ l ∈ lens, l ≤ 15)
    (hs : startsWith lens sym (bitsOf d.bc s.port.input)) :
    readsEntry table s d (symbolEntry k sym (lens.getD sym 0)) (lens.getD sym 0)
      (if (symbolEntry k sym (lens.getD sym 0)).op ≠ .invalid then lens.getD sym 0
        else if lens.getD sym 0 ≤ r.root then 0 else r.root) := by
  by_cases hle : lens.getD sym 0 ≤ r.root
  · have hreads := readsEntry_of_root h hd ht href hlaid h15 hs hle
    rw [Entry.dropped, symbolEntry_bits] at hreads
    rwa [if_pos hle, ite_not]
  · have hreads := readsEntry_of_sub h hd ht href hlaid h15 hs (Nat.not_le.1 hle)
    rw [Entry.dropped, symbolEntry_bits, symbolEntry_op k sym _ (lens.getD sym 0), add_ite, Nat.add_zero,
      Nat.add_sub_cancel' (Nat.le_of_not_le hle)] at hreads
    rwa [if_neg hle, ite_not]

/-- Decoding through a table of closed-form entries, which a fixed table is. -/
theorem readsEntry_of_closedForm {entry : Nat → Entry} {size : Nat} (hsize : 2 ^ r.root = size) (hlaid : laidOut d.ht r k lens)
    (hroot : r.root ≤ 15) (hle : ∀ l ∈ lens, l ≤ r.root)
    (hentry : ∀ v, ∃ s, startsWith lens s v ∧ entry v = symbolEntry k s (lens.getD s 0)) :
    let e := entry (bitsOf d.bc s.port.input % size)
    readsEntry table s d e e.bits e.dropped := by
  subst hsize
  obtain ⟨sym, hs, he⟩ := hentry (bitsOf d.bc s.port.input % 2 ^ r.root)
  rw [startsWith_mod (getD_le hle sym)] at hs
  have hreads := readsEntry_of_root h hd ht href hlaid (fun l hl => (hle l hl).trans hroot) hs (getD_le hle sym)
  simp only [he]
  rwa [symbolEntry_bits]

/-- Decoding through a table of two one-bit entries. -/
theorem readsEntry_of_oneBit {e : Nat → Entry} (hroot : r.root = 1)
    (hentry : ∀ i < 2, d.ht.entry r.store (r.start + i) = .ok (e i) ∧ (e i).bits = 1 ∧ ∀ w, (e i).op ≠ .link w) :
    let v := bitsOf d.bc s.port.input
    readsEntry table s d (e (v % 2)) 1 (e (v % 2)).dropped := by
  intro v
  obtain ⟨-, hbits, hlink⟩ := hentry (v % 2) (Nat.mod_lt v two_pos)
  have hlook : ∀ bc : BitCursor, d.ht.lookRoot r bc = .ok (e (bc.bitBuffer.toNat % 2)) := fun bc => by
    rw [DecodeTables.lookRoot, hroot]
    exact (hentry _ (Nat.mod_lt _ two_pos)).1
  have hf : Finds (d.ht.lookRoot r) 0 1 v (e (v % 2)) := by
    refine ⟨fun bc _ _ hlt => ⟨_, hlook bc, ?_⟩, fun bc hbuf hge => ?_, by rw [hbits]⟩
    · rwa [(hentry _ (Nat.mod_lt _ two_pos)).2.1]
    · rw [hlook, hbuf, Nat.mod_mod_of_dvd _ (dvd_pow_self 2 (by omega))]
  have hdec := Dec.decodeSym_root (c := ⟨d, s.startPort⟩) hd (by decide) hf hlink
  exact readsEntry_of_decoded h ht href hdec (hbits ▸ Entry.dropped_le _) rfl rfl hlink

end

/-- Settles O33: what one walk finds, in the root table or behind a link, for every table the statement names. -/
theorem decodeReadsOneCode : Obligations.DecodeReadsOneCode := by
  intro table s d h hd ht
  refine ⟨fun _ href => ?_, fun _ href => ?_, fun r k lens sym href hlaid h15 hs => ?_, fun r e href hroot hentry => ?_,
    fun href => ?_⟩
  · exact readsEntry_of_closedForm h hd ht href (by decide) (laidOut_fixedLL d.ht) (by decide) fixedLLLens_le fixedLLEntry_startsWith
  · exact readsEntry_of_closedForm h hd ht href (by decide) (laidOut_fixedD d.ht) (by decide)
      (fun _ hl => (List.eq_of_mem_replicate hl).le) fixedDEntry_startsWith
  · exact readsEntry_of_laidOut h hd ht href hlaid h15 hs
  · exact readsEntry_of_oneBit h hd ht href hroot hentry
  · exact raises_of_inflate (p := s.startPort) h (exec_hdtDecode ht s) (by rw [Inflate.decodes, href]) rfl

end Sys2Proof.Machine

/-! # INF.STEP as a sequence of micro-steps

The loop of R470 drains the window before each micro-step. From one drained state to the next it makes one micro-step, and what
INF.STEP answers is read off the state where the steps end. -/

namespace Sys2Proof.Machine

open Sys2Proof.Claim

/-! ## Engine commands that raise in their body (R212) -/

section
variable {i : Instr} {s : State} {d u : Inflate} {e : Latch} {p : Port}

/-- An inflate engine command whose body raises, as the statements write it (R212). -/
theorem fails_of_inflate {body : Inflate → Port → Reply Inflate} (h : s.isInflate d)
    (hx : exec i s = s.inflateCommand true body) (hb : body d s.startPort = .failed e u p)
    (hp : p.space = s.port.space - p.output.length) :
    fails i s e (e.reason * 16 + e.status.code) (.inflate { u with mode := .error }) p.input p.output := by
  rw [fails, hx, State.inflateCommand_of h, hb, State.commit, State.raiseEngine_eq_after hp]
  rfl

theorem exec_infStep (s : State) : exec .infStep s = s.inflateCommand true fun d p => inflateStep ⟨d, p⟩ := rfl

theorem exec_infSetDict (s : State) : exec .infSetDict s = s.inflateCommand true fun d p =>
    if d.mode ≠ .needDict then .failed (.stream .dictNotAllowed) d p
    else
      let p' := { p with input := [] }
      if adler32 p.input ≠ d.dictSum then .failed (.data .dictMismatch) d p'
      else .done .ok 0 0 { d with sw := d.sw.seed p.input, mode := .type } p' := rfl

/-- Settles O34: the two tags are answered before the loop. -/
theorem finishedAndWaitingDecoders : Obligations.FinishedAndWaitingDecoders := by
  intro s d h
  refine ⟨fun hm => ?_, fun hm => ?_⟩
  · exact completes_of_inflate (st := .streamEnd) (p := s.startPort) h (exec_infStep s) (if_pos hm) rfl
  · refine completes_of_inflate (st := .needDictionary) (p := s.startPort) h (exec_infStep s) ?_ rfl
    rw [inflateStep, if_neg (by simp [hm]), if_pos hm]
    rfl

end

/-! ## Dictionaries (R532) -/

theorem adlerSums_append (as bs : List Byte) (ab : Nat × Nat) : adlerSums (as ++ bs) ab = adlerSums bs (adlerSums as ab) := by
  induction as generalizing ab with
  | nil => rfl
  | cons a as ih => exact ih _

/-- The loop of R7 computes the two sums. -/
theorem adlerSums_eq (bs : List Byte) : adlerSums bs (1, 0) = (adlerA bs, adlerB bs) := by
  induction bs using List.reverseRecOn with
  | nil => rfl
  | append_singleton bs b ih =>
    have hA : adlerA (bs ++ [b]) = (adlerA bs + b.toNat) % 65521 := by
      simp only [adlerA, List.map_append, List.sum_append, List.map_cons, List.map_nil, List.sum_cons, List.sum_nil]
      omega
    have htake : ∀ n ∈ List.range bs.length, adlerA ((bs ++ [b]).take (n + 1)) = adlerA (bs.take (n + 1)) := fun n hn => by
      rw [List.take_append_of_le_length (List.mem_range.1 hn)]
    have hB : adlerB (bs ++ [b]) = (adlerB bs + adlerA (bs ++ [b])) % 65521 := by
      simp only [adlerB, List.length_append, List.length_singleton, List.range_succ, List.map_append, List.sum_append,
        List.map_congr_left htake, List.map_cons, List.map_nil, List.sum_cons, List.sum_nil, Nat.add_zero, Nat.mod_add_mod]
      rw [List.take_of_length_le (by simp)]
    rw [adlerSums_append, ih, hB, hA]
    rfl

theorem adler32_ne_iff (bs : List Byte) (sum : Word) : adler32 bs ≠ sum ↔ sum.toNat ≠ adlerB bs * 65536 + adlerA bs := by
  have hA : adlerA bs < 65521 := Nat.mod_lt _ (by decide)
  have hB : adlerB bs < 65521 := Nat.mod_lt _ (by decide)
  rw [adler32, adlerSums_eq, ne_eq, ne_eq, ← BitVec.toNat_inj, BitVec.toNat_ofNat, Nat.mod_eq_of_lt (by omega), eq_comm]

/-- Settles O37: the three branches of R532; a seed leaves what SEED leaves (R386). -/
theorem setDictChecksTheSum : Obligations.SetDictChecksTheSum := by
  intro s d h hw cap k
  refine ⟨fun hm => ?_, fun hm hsum => ?_, fun hm hsum => ?_⟩
  · exact fails_of_inflate (p := s.startPort) h (exec_infSetDict s) (if_pos hm) rfl
  · refine fails_of_inflate (p := { s.startPort with input := [] }) h (exec_infSetDict s) ?_ rfl
    rw [if_neg (not_not.2 hm)]
    exact if_pos ((adler32_ne_iff _ _).2 hsum)
  · obtain ⟨buffer, ⟨hin, hout⟩, hseed⟩ := SlidingWindow.seed_eq hw s.port.input
    refine ⟨buffer, hin, hout, ?_⟩
    refine completes_of_inflate (st := .ok) (p := { s.startPort with input := [] }) h (exec_infSetDict s) ?_ rfl
    rw [if_neg (not_not.2 hm), State.startPort_input, hseed]
    exact if_neg (mt (adler32_ne_iff _ _).1 (not_not.2 hsum))

end Sys2Proof.Machine

/-! # The window as a history

Bytes put into the window one after another append to its history; the window keeps its end, as far back as its capacity goes
(R70, R380). What a match copies and what a drain delivers are read off that history (R382, R384). -/

namespace Sys2Proof.Machine

open Sys2Proof.Claim

/-- The window after the bytes `x` were put into it, of which `u` undelivered ones are left (R380, R384). -/
def SlidingWindow.fed (w : SlidingWindow) (x : List Byte) (u : Nat) : SlidingWindow :=
  { x.foldl SlidingWindow.put w with undelivered := u }

section
variable {w : SlidingWindow} {x : List Byte} {u : Nat}

/-! ## The fields of the window -/

@[simp] theorem SlidingWindow.fed_undelivered : (w.fed x u).undelivered = u := rfl

theorem SlidingWindow.fed_nil (w : SlidingWindow) : w.fed [] w.undelivered = w := rfl

theorem SlidingWindow.fed_put (w : SlidingWindow) (x : List Byte) (u : Nat) (b : Byte) :
    (w.fed x u).put b = w.fed (x ++ [b]) (u + 1) := by
  simp only [SlidingWindow.fed, List.foldl_append, List.foldl_cons, List.foldl_nil]
  rfl

theorem SlidingWindow.fed_concat (w : SlidingWindow) (x : List Byte) (u v : Nat) (b : Byte) :
    w.fed (x ++ [b]) u = { (w.fed x v).put b with undelivered := u } := by
  rw [SlidingWindow.fed_put]
  rfl

@[simp] theorem SlidingWindow.fed_wbits (w : SlidingWindow) (x : List Byte) (u : Nat) : (w.fed x u).wbits = w.wbits := by
  induction x using List.reverseRecOn with
  | nil => rfl
  | append_singleton x b ih =>
    rw [SlidingWindow.fed_concat w x u u]
    exact ih

@[simp] theorem SlidingWindow.fed_capacity (w : SlidingWindow) (x : List Byte) (u : Nat) : (w.fed x u).capacity = w.capacity :=
  congrArg (2 ^ ·) (w.fed_wbits x u)

/-- The cursor, the history and the canonical form do not depend on what is delivered. -/
theorem SlidingWindow.fed_spec (h : w.Ok) (x : List Byte) (u : Nat) :
    (w.fed x u).writeCursor = (w.writeCursor + x.length) % w.capacity ∧
      (w.fed x u).whave = min w.capacity (w.whave + x.length) ∧ Memory.wf (w.fed x u).buffer ∧
      Cells.below w.capacity (w.fed x u).buffer := by
  induction x using List.reverseRecOn generalizing u with
  | nil => exact ⟨(Nat.mod_eq_of_lt h.cursor).symm, (Nat.min_eq_right h.whave).symm, h.canonical, h.inside⟩
  | append_singleton x b ih =>
    obtain ⟨hcursor, hwhave, hwf, hbelow⟩ := ih u
    have hlt := Nat.mod_lt (w.writeCursor + x.length) w.capacity_pos
    rw [← hcursor] at hlt
    rw [SlidingWindow.fed_concat w x u u]
    refine ⟨?_, ?_, Memory.wf_write hwf _ _, Cells.below_write hbelow hlt⟩
    · show ((w.fed x u).writeCursor + 1) % (w.fed x u).capacity = _
      rw [hcursor, SlidingWindow.fed_capacity, Nat.mod_add_mod, List.length_append]
      rfl
    · show min (w.fed x u).capacity ((w.fed x u).whave + 1) = _
      rw [hwhave, SlidingWindow.fed_capacity, List.length_append]
      simp only [List.length_singleton]
      omega

theorem SlidingWindow.fed_ok (h : w.Ok) (hu : u ≤ min w.capacity (w.whave + x.length)) : (w.fed x u).Ok := by
  obtain ⟨hcursor, hwhave, hwf, hbelow⟩ := SlidingWindow.fed_spec h x u
  refine ⟨?_, ?_, ?_, ?_, ?_, hwf, ?_⟩
  · rw [SlidingWindow.fed_wbits]; exact h.wbits_low
  · rw [SlidingWindow.fed_wbits]; exact h.wbits_high
  · rw [hcursor, SlidingWindow.fed_capacity]; exact Nat.mod_lt _ w.capacity_pos
  · rw [hwhave]; exact hu
  · rw [hwhave, SlidingWindow.fed_capacity]; exact Nat.min_le_left _ _
  · rwa [SlidingWindow.fed_capacity]

/-! ## Bytes counted back from the cursor (R165) -/

@[simp] theorem length_historyOf (w : SlidingWindow) : (historyOf w).length = w.whave := by simp [historyOf]

theorem SlidingWindow.byteBack_one_put (h : w.Ok) (b : Byte) : (w.put b).byteBack 1 = b := by
  have hindex : (w.put b).indexBack 1 = w.writeCursor := by
    rw [SlidingWindow.indexBack_eq (show 1 ≤ (w.put b).capacity from w.capacity_pos)]
    show ((w.writeCursor + 1) % w.capacity + w.capacity - 1) % w.capacity = _
    rw [Nat.add_sub_assoc w.capacity_pos, Nat.mod_add_mod, show w.writeCursor + 1 + (w.capacity - 1) = w.writeCursor + w.capacity by
      have := w.capacity_pos; omega, Nat.add_mod_right, Nat.mod_eq_of_lt h.cursor]
  rw [SlidingWindow.byteBack, hindex, SlidingWindow.read_put h, if_pos rfl]

theorem SlidingWindow.byteBack_succ_put (h : w.Ok) (b : Byte) {k : Nat} (h1 : 1 ≤ k) (hk : k < w.capacity) :
    (w.put b).byteBack (k + 1) = w.byteBack k := by
  have hindex : (w.put b).indexBack (k + 1) = w.indexBack k := by
    rw [SlidingWindow.indexBack_eq (show k + 1 ≤ (w.put b).capacity from hk), SlidingWindow.indexBack_eq hk.le]
    show ((w.writeCursor + 1) % w.capacity + w.capacity - (k + 1)) % w.capacity = _
    rw [Nat.add_sub_assoc hk, Nat.mod_add_mod]
    congr 1
    omega
  have hne : w.indexBack k ≠ w.writeCursor := fun heq => by
    rw [SlidingWindow.indexBack_eq hk.le, Nat.add_sub_assoc hk.le] at heq
    have hzero : (w.writeCursor + 0) % w.capacity = w.writeCursor := Nat.mod_eq_of_lt h.cursor
    have := eq_of_add_mod_eq (by omega) w.capacity_pos (heq.trans hzero.symm)
    omega
  rw [SlidingWindow.byteBack, hindex, SlidingWindow.read_put h, if_neg hne, SlidingWindow.byteBack]

theorem SlidingWindow.byteBack_eq_historyOf (h : w.Ok) {k : Nat} (h1 : 1 ≤ k) (hk : k ≤ w.whave) :
    w.byteBack k = (historyOf w).getD (w.whave - k) 0 := by
  have hcap : w.capacity = 2 ^ w.wbits := rfl
  have hw := h.whave
  rw [List.getD_eq_getElem _ _ (by rw [length_historyOf]; omega), SlidingWindow.byteBack, SlidingWindow.indexBack_eq (hk.trans hw)]
  simp only [historyOf, List.getElem_map, List.getElem_range, ← hcap]
  rw [show w.writeCursor + w.capacity - w.whave + (w.whave - k) = w.writeCursor + w.capacity - k by omega]

/-- The history of a window that was fed is the old one and the bytes after it, as far back as the capacity goes. -/
theorem SlidingWindow.byteBack_fed (h : w.Ok) (x : List Byte) (u : Nat) {k : Nat} (h1 : 1 ≤ k) (hk : k ≤ min w.capacity (w.whave + x.length)) :
    (w.fed x u).byteBack k = (historyOf w ++ x).getD (w.whave + x.length - k) 0 := by
  induction x using List.reverseRecOn generalizing u k with
  | nil =>
    have hw := h.whave
    rw [List.append_nil, List.length_nil, Nat.add_zero, ← SlidingWindow.byteBack_eq_historyOf h h1 (by simpa using hk.trans (Nat.min_le_right _ _))]
    rfl
  | append_singleton x b ih =>
    have hok : (w.fed x 0).Ok := SlidingWindow.fed_ok h (Nat.zero_le _)
    have hput : (w.fed (x ++ [b]) u).byteBack k = ((w.fed x 0).put b).byteBack k := by rw [SlidingWindow.fed_concat w x u 0]; rfl
    rw [List.length_append, List.length_singleton] at hk ⊢
    rw [hput, ← List.append_assoc]
    obtain rfl | ⟨j, rfl, hj⟩ : k = 1 ∨ ∃ j, k = j + 1 ∧ 1 ≤ j := by
      obtain rfl | h2 := Nat.eq_or_lt_of_le h1
      · exact .inl rfl
      · exact .inr ⟨k - 1, by omega, by omega⟩
    · rw [SlidingWindow.byteBack_one_put hok, show w.whave + (x.length + 1) - 1 = (historyOf w ++ x).length by simp]
      simp
    · rw [SlidingWindow.byteBack_succ_put hok b hj (by rw [SlidingWindow.fed_capacity]; omega), ih 0 hj (by omega),
        List.getD_append (historyOf w ++ x) [b] _ _ (by rw [List.length_append, length_historyOf]; omega)]
      congr 1
      omega

/-! ## What a drain delivers (R384) -/

theorem SlidingWindow.indexBack_add {k i : Nat} (hk : k ≤ w.capacity) (hi : i ≤ k) :
    (w.indexBack k + i) % w.capacity = w.indexBack (k - i) := by
  rw [SlidingWindow.indexBack_eq hk, SlidingWindow.indexBack_eq ((Nat.sub_le _ _).trans hk), Nat.mod_add_mod]
  congr 1
  omega

/-- The oldest undelivered bytes stand in the history before the other undelivered ones. -/
theorem SlidingWindow.oldest_fed (h : w.Ok) (hu : u ≤ min w.capacity (w.whave + x.length)) {n : Nat} (hn : n ≤ u) :
    (w.fed x u).oldest n = ((historyOf w ++ x).drop (w.whave + x.length - u)).take n := by
  refine List.ext_getElem (by simp; omega) fun i hi _ => ?_
  rw [SlidingWindow.oldest_length] at hi
  have hread : Memory.read (w.fed x u).buffer (((w.fed x u).indexBack u + i) % (w.fed x u).capacity) = (w.fed x u).byteBack (u - i) := by
    rw [SlidingWindow.indexBack_add (by rw [SlidingWindow.fed_capacity]; omega) (by omega), SlidingWindow.byteBack]
  have hlt : w.whave + x.length - (u - i) < (historyOf w ++ x).length := by
    rw [List.length_append, length_historyOf]
    omega
  simp only [SlidingWindow.oldest, List.getElem_map, List.getElem_range, SlidingWindow.fed_undelivered, hread, List.getElem_take,
    List.getElem_drop]
  rw [SlidingWindow.byteBack_fed h x u (by omega) (by omega), List.getD_eq_getElem _ _ hlt]
  congr 1
  omega

/-! ## The buffer -/

theorem SlidingWindow.fed_untouched (h : w.Ok) (x : List Byte) (u : Nat) {j : Nat}
    (hj : ∀ q < x.length, j ≠ (w.writeCursor + q) % w.capacity) :
    Memory.read (w.fed x u).buffer j = Memory.read w.buffer j := by
  induction x using List.reverseRecOn generalizing u with
  | nil => rfl
  | append_singleton x b ih =>
    rw [List.length_append, List.length_singleton] at hj
    have hok : (w.fed x 0).Ok := SlidingWindow.fed_ok h (Nat.zero_le _)
    have hput : (w.fed (x ++ [b]) u).buffer = ((w.fed x 0).put b).buffer := by rw [SlidingWindow.fed_concat w x u 0]
    rw [hput, SlidingWindow.read_put hok, (SlidingWindow.fed_spec h x 0).1, if_neg (hj _ (Nat.lt_succ_self _)),
      ih 0 fun q hq => hj q (by omega)]

/-- The buffer after the bytes `x`: the last of them, as many as the window holds, stand before the cursor, and nothing else
was written. -/
theorem SlidingWindow.fed_buffer (h : w.Ok) (x : List Byte) (u : Nat) :
    let k := min x.length w.capacity
    (∀ i < k, Memory.read (w.fed x u).buffer ((w.writeCursor + x.length - k + i) % w.capacity) = x.getD (x.length - k + i) 0) ∧
      ∀ j, (∀ i < k, j ≠ (w.writeCursor + x.length - k + i) % w.capacity) →
        Memory.read (w.fed x u).buffer j = Memory.read w.buffer j := by
  intro k
  have hk : k ≤ x.length := Nat.min_le_left _ _
  have hkcap : k ≤ w.capacity := Nat.min_le_right _ _
  refine ⟨fun i hi => ?_, fun j hj => SlidingWindow.fed_untouched h x u fun q hq heq => ?_⟩
  · have hback := SlidingWindow.byteBack_fed h x u (k := k - i) (by omega) (by omega)
    rw [SlidingWindow.byteBack, SlidingWindow.indexBack_eq (by rw [SlidingWindow.fed_capacity]; omega),
      (SlidingWindow.fed_spec h x u).1, SlidingWindow.fed_capacity, Nat.add_sub_assoc (by omega), Nat.mod_add_mod] at hback
    rw [show w.whave + x.length - (k - i) = (historyOf w).length + (x.length - k + i) by rw [length_historyOf]; omega,
      List.getD_append_right _ _ _ _ (Nat.le_add_right _ _), Nat.add_sub_cancel_left] at hback
    rw [← hback, show w.writeCursor + x.length + (w.capacity - (k - i)) = w.writeCursor + x.length - k + i + w.capacity by omega,
      Nat.add_mod_right]
  · by_cases hlate : x.length - k ≤ q
    · refine hj (q - (x.length - k)) (by omega) (heq.trans ?_)
      congr 1
      omega
    · have hcap : k = w.capacity := by omega
      refine hj ((q + w.capacity * x.length - (x.length - k)) % w.capacity) (by rw [hcap]; exact Nat.mod_lt _ w.capacity_pos) (heq.trans ?_)
      have hle : x.length ≤ w.capacity * x.length := Nat.le_mul_of_pos_left _ w.capacity_pos
      rw [Nat.add_mod_mod, show w.writeCursor + x.length - k + (q + w.capacity * x.length - (x.length - k)) =
        w.writeCursor + q + w.capacity * x.length by omega, Nat.add_mul_mod_self_left]

/-- A window that was fed and drained, as the statements write it. -/
theorem SlidingWindow.fed_delivers (h : w.Ok) (x : List Byte) : delivers w (w.fed x 0) x := by
  obtain ⟨hcursor, hwhave, -⟩ := SlidingWindow.fed_spec h x 0
  refine ⟨rfl, hwhave, hcursor, fun i hi => ?_⟩
  have hcap : w.capacity = 2 ^ w.wbits := rfl
  rw [← hcap] at hi ⊢
  have hbuffer := (SlidingWindow.fed_buffer h x 0).1 (min x.length w.capacity - (i + 1)) (by omega)
  rwa [show w.writeCursor + x.length - min x.length w.capacity + (min x.length w.capacity - (i + 1)) =
    w.writeCursor + (x.length - 1 - i) by omega, show x.length - min x.length w.capacity + (min x.length w.capacity - (i + 1)) =
    x.length - 1 - i by omega] at hbuffer

theorem SlidingWindow.fed_eq (h : w.Ok) (x : List Byte) (u : Nat) :
    w.fed x u = ⟨w.wbits, (w.fed x u).buffer, (w.writeCursor + x.length) % w.capacity, u, min w.capacity (w.whave + x.length)⟩ := by
  obtain ⟨hcursor, hwhave, -⟩ := SlidingWindow.fed_spec h x u
  rw [← hcursor, ← hwhave, ← SlidingWindow.fed_wbits w x u]
  rfl

end

end Sys2Proof.Machine

/-! # What INF.STEP answers

Between two drained states the loop of R470 makes one micro-step. A state that the loop reaches within its bound and that ends it
says what INF.STEP answers. -/

namespace Sys2Proof.Machine

open Sys2Proof.Claim

/-- The bits the decoder has before it: those of its cursor and those of the slice. -/
def Dec.avail (c : Dec) : Nat := c.u.bc.bitCount + 8 * c.port.input.length

/-- From the drained state `c` the loop makes `n` micro-steps, with a drain after each, to `c'`. -/
inductive Dec.Steps : Dec → Nat → Dec → Prop
  | refl (c : Dec) : Dec.Steps c 0 c
  | cons {c c₁ c' : Dec} {n : Nat} (h : micro c = .advanced c₁) (hs : Dec.Steps c₁.winDrain n c') : Dec.Steps c (n + 1) c'

/-- The loop reaches `c'` from `c` with at most `k` micro-steps. -/
def Dec.Reaches (c : Dec) (k : Nat) (c' : Dec) : Prop := ∃ n ≤ k, Dec.Steps c n c'

section
variable {c c₁ c₂ c' : Dec} {n m k k' : Nat}

theorem Dec.Reaches.refl (c : Dec) : c.Reaches 0 c := ⟨0, le_rfl, .refl c⟩

theorem Dec.Reaches.mono (h : c.Reaches k c') (hk : k ≤ k') : c.Reaches k' c' :=
  h.imp fun _ hn => ⟨hn.1.trans hk, hn.2⟩

theorem Dec.Steps.trans (h : c.Steps n c₁) (h' : c₁.Steps m c') : c.Steps (n + m) c' := by
  induction h with
  | refl c => rwa [Nat.zero_add]
  | cons h hs ih => rw [Nat.add_right_comm]; exact .cons h (ih h')

theorem Dec.Reaches.trans (h : c.Reaches k c₁) (h' : c₁.Reaches k' c') : c.Reaches (k + k') c' := by
  obtain ⟨n, hn, hs⟩ := h
  obtain ⟨m, hm, hs'⟩ := h'
  exact ⟨n + m, Nat.add_le_add hn hm, hs.trans hs'⟩

theorem Dec.Reaches.one (h : micro c = .advanced c₁) (hd : c₁.winDrain = c') : c.Reaches 1 c' :=
  ⟨1, le_rfl, .cons h (hd ▸ .refl _)⟩

/-! ## Drained states (R384) -/

theorem Dec.winDrain_of_drained (h : c.u.sw.drainCount c.port.space = 0) : c.winDrain = c := by
  simp only [Dec.winDrain, h, SlidingWindow.oldest, List.range_zero, List.map_nil, Nat.sub_zero, Port.emit, List.append_nil,
    List.length_nil]

theorem Dec.winDrain_drained (c : Dec) : c.winDrain.u.sw.drainCount c.winDrain.port.space = 0 := by
  simp only [Dec.winDrain, SlidingWindow.drainCount, Port.emit_space, SlidingWindow.oldest_length]
  omega

@[simp] theorem Dec.winDrain_winDrain (c : Dec) : c.winDrain.winDrain = c.winDrain := Dec.winDrain_of_drained c.winDrain_drained

theorem Dec.Steps.drained (h : c.Steps n c') (hc : c.winDrain = c) : c'.winDrain = c' := by
  induction h with
  | refl c => exact hc
  | cons h hs ih => exact ih (Dec.winDrain_winDrain _)

/-! ## The loop (R470) -/

/-- Once there was progress, the loop does not tell a state from the drained one. -/
theorem inflateLoop_winDrain (fuel : Nat) (c : Dec) : inflateLoop fuel true c.winDrain = inflateLoop fuel true c := by
  cases fuel with
  | zero => rfl
  | succ fuel => simp only [inflateLoop, Dec.winDrain_winDrain, Bool.true_or]

theorem inflateLoop_steps (h : c.Steps n c') (hc : c.winDrain = c) (fuel : Nat) :
    inflateLoop (n + fuel) true c = inflateLoop fuel true c' := by
  induction h with
  | refl c => rw [Nat.zero_add]
  | cons h hs ih =>
    rw [Nat.add_right_comm, inflateLoop, hc, h]
    exact (inflateLoop_winDrain _ _).symm.trans (ih (Dec.winDrain_winDrain _))

/-- The state in which the loop makes its last micro-step, and whether there was progress before it. -/
theorem inflateLoop_start (h : c.winDrain.Steps n c') (fuel : Nat) :
    ∃ p c₀, inflateLoop (n + fuel) false c = inflateLoop fuel p c₀ ∧ c₀.winDrain = c' ∧
      (p || decide (0 < c₀.u.sw.drainCount c₀.port.space)) = decide (0 < n ∨ 0 < c.u.sw.drainCount c.port.space) := by
  have hdrained := h.drained (Dec.winDrain_winDrain c)
  cases h with
  | refl => exact ⟨false, c, by rw [Nat.zero_add], rfl, by simp⟩
  | cons h hs =>
    refine ⟨true, c', ?_, hdrained, by simp⟩
    rw [Nat.add_right_comm, inflateLoop, h]
    exact (inflateLoop_winDrain _ _).symm.trans (inflateLoop_steps hs (Dec.winDrain_winDrain _) _)

/-! ## The step (R470) -/

section
variable (hdone : c.u.mode ≠ .done) (hdict : c.u.mode ≠ .needDict)
include hdone hdict

theorem inflateStep_loop : inflateStep c =
    match inflateLoop (inflateFuel c) false c with
    | .fault f => .fault f
    | .raised r c' => .failed (.data r) c'.u c'.port
    | .exit progressed k c' =>
      if c'.u.mode = .done then .done .streamEnd 0 0 c'.u c'.port
      else if progressed ∨ c'.port.input.length < c.port.input.length then .done .ok 0 0 c'.u c'.port
      else if k = some .output then .transient .needMoreOutput
      else .transient .needMoreInput := by
  unfold inflateStep
  exact (if_neg hdone).trans (if_neg hdict)

theorem inflateStep_of_done (h : c.winDrain.Reaches k c') (hk : k < inflateFuel c) (hm : c'.u.mode = .done) :
    inflateStep c = .done .streamEnd 0 0 c'.u c'.port := by
  obtain ⟨n, hn, hs⟩ := h
  obtain ⟨fuel, hfuel⟩ := Nat.exists_eq_add_of_lt (hn.trans_lt hk)
  obtain ⟨p, c₀, hloop, rfl, -⟩ := inflateLoop_start hs (fuel + 1)
  have hmicro : micro c₀.winDrain = .doneStop c₀.winDrain := by rw [micro, hm]
  rw [inflateStep_loop hdone hdict, hfuel, Nat.add_assoc, hloop, inflateLoop, hmicro]
  exact if_pos hm

theorem inflateStep_of_raised {r : DataReason} (h : c.winDrain.Reaches k c') (hk : k < inflateFuel c) (hm : micro c' = .raised r c₂) :
    inflateStep c = .failed (.data r) c₂.u c₂.port := by
  obtain ⟨n, hn, hs⟩ := h
  obtain ⟨fuel, hfuel⟩ := Nat.exists_eq_add_of_lt (hn.trans_lt hk)
  obtain ⟨p, c₀, hloop, rfl, -⟩ := inflateLoop_start hs (fuel + 1)
  rw [inflateStep_loop hdone hdict, hfuel, Nat.add_assoc, hloop, inflateLoop, hm]

theorem inflateStep_of_fault {f : Fault} (h : c.winDrain.Reaches k c') (hk : k < inflateFuel c) (hm : micro c' = .fault f) :
    inflateStep c = .fault f := by
  obtain ⟨n, hn, hs⟩ := h
  obtain ⟨fuel, hfuel⟩ := Nat.exists_eq_add_of_lt (hn.trans_lt hk)
  obtain ⟨p, c₀, hloop, rfl, -⟩ := inflateLoop_start hs (fuel + 1)
  rw [inflateStep_loop hdone hdict, hfuel, Nat.add_assoc, hloop, inflateLoop, hm]

/-- A step that blocks answers Ok where bits were read or bytes delivered before, or bytes are pulled at the block. -/
theorem inflateStep_of_blocked {kind : BlockKind} (h : c.winDrain.Reaches k c') (hk : k < inflateFuel c)
    (hm : micro c' = .blocked kind c₂) (hmode : c₂.u.mode ≠ .done)
    (hprogress : c'.avail < c.avail ∨ 0 < c.u.sw.drainCount c.port.space ∨ c₂.port.input.length < c.port.input.length) :
    inflateStep c = .done .ok 0 0 c₂.u c₂.port := by
  obtain ⟨n, hn, hs⟩ := h
  have hpos : c'.avail < c.avail → 0 < n := fun hlt => by
    cases hs with
    | refl => exact absurd hlt (lt_irrefl _)
    | cons => exact Nat.succ_pos _
  obtain ⟨fuel, hfuel⟩ := Nat.exists_eq_add_of_lt (hn.trans_lt hk)
  obtain ⟨p, c₀, hloop, rfl, hp⟩ := inflateLoop_start hs (fuel + 1)
  rw [inflateStep_loop hdone hdict, hfuel, Nat.add_assoc, hloop, inflateLoop, hm]
  simp only [hp, if_neg hmode]
  refine if_pos ?_
  rw [decide_eq_true_eq]
  tauto

/-- A step that blocks at once, with nothing delivered or pulled. -/
theorem inflateStep_of_idle {kind : BlockKind} (hm : micro c = .blocked kind c) (hdrained : c.u.sw.drainCount c.port.space = 0)
    (hk : 0 < inflateFuel c) :
    inflateStep c = .transient (if kind = .output then .needMoreOutput else .needMoreInput) := by
  obtain ⟨fuel, hfuel⟩ := Nat.exists_eq_add_of_lt hk
  rw [inflateStep_loop hdone hdict, hfuel, Nat.zero_add, inflateLoop, Dec.winDrain_of_drained hdrained, hm]
  simp only [if_neg hdone, hdrained, lt_irrefl, decide_false, Bool.or_false, Bool.false_eq_true, or_self, if_false]
  cases kind <;> rfl

end

end

/-! ## The command -/

section
variable {s : State} {d u : Inflate} {p : Port}

theorem completes_infStep {st : Status} (h : s.isInflate d) (hb : inflateStep ⟨d, s.startPort⟩ = .done st 0 0 u p) :
    completes .infStep s st.code 0 0 (.inflate u) p.input p.output := by
  have ht := inflateStep_transfers ⟨d, s.startPort⟩
  rw [hb] at ht
  cases ht with
  | done ht =>
    have := ht.slots
    exact completes_of_inflate h (exec_infStep s) hb (by simp only [State.startPort_output, State.startPort_space, List.length_nil] at this; omega)

theorem fails_infStep {r : DataReason} (h : s.isInflate d) (hb : inflateStep ⟨d, s.startPort⟩ = .failed (.data r) u p) :
    fails .infStep s (.data r) (r.code * 16 + 6) (.inflate { u with mode := .error }) p.input p.output := by
  have ht := inflateStep_transfers ⟨d, s.startPort⟩
  rw [hb] at ht
  cases ht with
  | failed ht =>
    have := ht.slots
    exact fails_of_inflate h (exec_infStep s) hb (by simp only [State.startPort_output, State.startPort_space, List.length_nil] at this; omega)

theorem not_answers_infStep {f : Fault} (h : s.isInflate d) (hb : inflateStep ⟨d, s.startPort⟩ = .fault f) :
    ¬answers (exec .infStep s) := by
  rintro ⟨t, ht⟩
  rw [exec_infStep, State.inflateCommand_of h, hb] at ht
  cases ht

end

end Sys2Proof.Machine

/-! # A decoder past a part of its stream

`Dec.past` is the drained state in which the first `w` bits of the stream were dropped and the bytes `x` were put into the window.
Its cursor, its slice, its window and its output are functions of the state at the start, so a micro-step is a step from one such
state to another. -/

namespace Sys2Proof.Machine

open Sys2Proof.Claim

/-! ## Pulls into a cursor with room (R300) -/

/-- While the cursor holds fewer than `n` bits, there is room for a byte. -/
def BitCursor.Room (bc : BitCursor) (n : Nat) : Prop := ∀ j, bc.bitCount + 8 * j < n → bc.bitCount + 8 * j ≤ 24

section
variable {bc : BitCursor} {n m w : Nat} {input got : List Byte}

theorem BitCursor.room_of_le (hn : n ≤ 25) : bc.Room n := fun j hj => by omega

/-- A cursor at a byte boundary has room for four bytes. -/
theorem BitCursor.room_of_aligned (hn : n ≤ 32) (h : bc.bitCount % 8 = 0) : bc.Room n := fun j hj => by omega

theorem BitCursor.pull_eq_of_room (hroom : bc.Room n) (h : bc.Ok) (input : List Byte) :
    bc.pull n input = (cursorAfter bc (input.take (pullCount bc n)) 0, input.drop (pullCount bc n)) := by
  induction input generalizing bc with
  | nil => simp [BitCursor.pull]
  | cons b rest ih =>
    rw [BitCursor.pull]
    by_cases hlt : bc.bitCount < n
    · have h24 := hroom 0 hlt
      have hpush : (bc.push b).Room n := fun j hj => by
        have := hroom (j + 1)
        simp only [BitCursor.push] at hj ⊢
        omega
      have hk : pullCount bc n = pullCount (bc.push b) n + 1 := by
        simp only [pullCount, BitCursor.push]
        omega
      rw [if_pos ⟨hlt, h24⟩, ih hpush (BitCursor.push_ok h b), hk, List.take_succ_cons, List.drop_succ_cons,
        Claim.cursorAfter_cons h h24]
    · have hk : pullCount bc n = 0 := by
        simp only [pullCount]
        omega
      rw [if_neg fun h => hlt h.1, hk, List.take_zero, List.drop_zero, cursorAfter_nil_zero]

/-- The bits held after a pull fit the buffer. -/
theorem bitsOf_take_lt_of_room (hroom : bc.Room n) (h : bc.Ok) (input : List Byte) :
    bitsOf bc (input.take (pullCount bc n)) < 2 ^ 32 := by
  by_cases hk : pullCount bc n = 0
  · rw [hk, List.take_zero, bitsOf_nil]
    exact bc.bitBuffer.isLt
  · have h24 := hroom (pullCount bc n - 1) (by unfold pullCount at hk ⊢; omega)
    have hlen := List.length_take_le (pullCount bc n) input
    exact (bitsOf_lt h _).trans_le (Nat.pow_le_pow_right (by decide) (by omega))

/-! ## One part after another -/

theorem pullCount_zero (bc : BitCursor) : pullCount bc 0 = 0 := by
  unfold pullCount
  omega

theorem pullCount_le (h : n ≤ bc.bitCount + 8 * input.length) : pullCount bc n ≤ input.length := by
  rw [← length_take_pullCount h]
  exact List.length_take_le' _ _

/-- The bits left in the cursor fit its buffer. -/
theorem bitsOf_take_div_lt (h : bc.Ok) (w : Nat) (input : List Byte) : bitsOf bc (input.take (pullCount bc w)) / 2 ^ w < 2 ^ 32 := by
  by_cases hk : pullCount bc w = 0
  · rw [hk, List.take_zero, bitsOf_nil]
    exact (Nat.div_le_self _ _).trans_lt bc.bitBuffer.isLt
  · refine Nat.div_lt_of_lt_mul ((bitsOf_lt h _).trans_le ?_)
    have hlen := List.length_take_le (pullCount bc w) input
    have hcount : 8 * pullCount bc w ≤ w - bc.bitCount + 7 := Nat.mul_div_le _ _
    rw [← Nat.pow_add]
    exact Nat.pow_le_pow_right (by decide) (by omega)

section
variable (h : bc.Ok) (hw : w ≤ bc.bitCount + 8 * input.length)
include h hw

theorem bitsOf_cursorAfter (got : List Byte) :
    bitsOf (cursorAfter bc (input.take (pullCount bc w)) w) got = bitsOf bc (input.take (pullCount bc w) ++ got) / 2 ^ w := by
  have hlen := length_take_pullCount hw
  have hle := le_bitCount_add_pullCount bc w
  have hsplit : 2 ^ (bc.bitCount + 8 * pullCount bc w) = 2 ^ w * 2 ^ (bc.bitCount + 8 * pullCount bc w - w) := by
    rw [← Nat.pow_add, Nat.add_sub_cancel' hle]
  have hbuf : (cursorAfter bc (input.take (pullCount bc w)) w).bitBuffer.toNat = bitsOf bc (input.take (pullCount bc w)) / 2 ^ w := by
    rw [cursorAfter, BitVec.toNat_ofNat, Nat.mod_eq_of_lt (bitsOf_take_div_lt h w input)]
  rw [bitsOf_append, hlen, hsplit, Nat.mul_assoc, Nat.add_mul_div_left _ _ (Nat.two_pow_pos w), bitsOf, hbuf]
  simp only [cursorAfter, hlen]

theorem bitsOf_cursorAfter_drop :
    bitsOf (cursorAfter bc (input.take (pullCount bc w)) w) (input.drop (pullCount bc w)) = bitsOf bc input / 2 ^ w := by
  rw [bitsOf_cursorAfter h hw, List.take_append_drop]

theorem cursorAfter_ok : (cursorAfter bc (input.take (pullCount bc w)) w).Ok := by
  have hlen := length_take_pullCount hw
  have hle := le_bitCount_add_pullCount bc w
  show (BitVec.ofNat 32 _).toNat < 2 ^ (bc.bitCount + 8 * (input.take (pullCount bc w)).length - w)
  rw [BitVec.toNat_ofNat, Nat.mod_eq_of_lt (bitsOf_take_div_lt h w input)]
  refine Nat.div_lt_of_lt_mul ?_
  rw [← Nat.pow_add, Nat.add_sub_cancel' (hlen.symm ▸ hle)]
  exact bitsOf_lt h _

theorem cursorAfter_cursorAfter (got : List Byte) (m : Nat) :
    cursorAfter (cursorAfter bc (input.take (pullCount bc w)) w) got m =
      cursorAfter bc (input.take (pullCount bc w) ++ got) (w + m) := by
  have hlen := length_take_pullCount hw
  have hle := le_bitCount_add_pullCount bc w
  conv_lhs => rw [cursorAfter, bitsOf_cursorAfter h hw, Nat.div_div_eq_div_mul, ← Nat.pow_add]
  simp only [cursorAfter, List.length_append, hlen, BitCursor.mk.injEq, true_and]
  omega

omit h in
theorem pullCount_cursorAfter (n : Nat) :
    pullCount bc w + pullCount (cursorAfter bc (input.take (pullCount bc w)) w) n = pullCount bc (w + n) := by
  have hlen := length_take_pullCount hw
  have hle := le_bitCount_add_pullCount bc w
  show pullCount bc w + (n - (bc.bitCount + 8 * (input.take (pullCount bc w)).length - w) + 7) / 8 = pullCount bc (w + n)
  rw [hlen]
  unfold pullCount at *
  omega

end

end

/-! ## Drops from a pulled cursor -/

section
variable {c : Dec} {n m j : Nat} {k : Dec → Micro}

/-- The stream's bits as a number (R153). -/
def Dec.bits (c : Dec) : Nat := bitsOf c.u.bc c.port.input

theorem BitCursor.drop_cursorAfter_of_lt {bc : BitCursor} {got : List Byte} (h : bitsOf bc got < 2 ^ 32) (m j : Nat) :
    (cursorAfter bc got m).drop j = cursorAfter bc got (m + j) := by
  rw [← BitCursor.drop_cursorAfter h m, BitCursor.drop_drop, BitCursor.drop_cursorAfter h]

theorem Dec.pulled_drop_of_room (h : c.u.bc.Ok) (hroom : c.u.bc.Room n) (m j : Nat) : (c.pulled n m).drop j = c.pulled n (m + j) := by
  simp only [Dec.drop, Dec.pulled, BitCursor.drop_cursorAfter_of_lt (bitsOf_take_lt_of_room hroom h _)]

/-- A field inside the bits pulled is the stream's (R301). -/
theorem Dec.pulled_peek_of_room (h : c.u.bc.Ok) (hroom : c.u.bc.Room n) (hle : n ≤ c.avail) (hj : m + j ≤ n) :
    (c.pulled n m).peek j = c.bits / 2 ^ m % 2 ^ j := by
  have hlt := bitsOf_take_lt_of_room hroom h c.port.input
  show (BitVec.ofNat 32 (bitsOf c.u.bc (c.port.input.take (pullCount c.u.bc n)) / 2 ^ m)).toNat % 2 ^ j = _
  rw [BitVec.toNat_ofNat, Nat.mod_eq_of_lt ((Nat.div_le_self _ _).trans_lt hlt), ← Nat.mod_mul_right_div_self,
    ← Nat.mod_mul_right_div_self, ← Nat.pow_add]
  have hmod := bitsOf_take_mod hle
  rw [← Nat.mod_mod_of_dvd _ (Nat.pow_dvd_pow 2 hj), hmod, Nat.mod_mod_of_dvd _ (Nat.pow_dvd_pow 2 hj)]
  rfl

/-- With the bits it needs a micro-step goes on (R300). -/
theorem Dec.needing_eq (h : c.u.bc.Ok) (hroom : c.u.bc.Room n) (hle : n ≤ c.avail) : c.needing n k = k (c.pulled n 0) := by
  have hpull : c.pull n = c.pulled n 0 := by simp only [Dec.pull, Dec.pulled, BitCursor.pull_eq_of_room hroom h]
  rw [Dec.needing, hpull]
  exact if_pos (Dec.pulled_has hle)

/-- With too few bits a micro-step blocks, with every byte pulled. -/
theorem Dec.needing_starved (h : c.u.bc.Ok) (hn : n ≤ 25) (hlt : c.avail < n) :
    c.needing n k = .blocked .input ⟨{ c.u with bc := cursorAfter c.u.bc c.port.input 0 }, { c.port with input := [] }⟩ := by
  rw [Dec.needing, Dec.pull_eq_pulled hn h]
  exact (if_neg (by rw [Dec.pulled_has_of_starved hlt]; exact Bool.false_ne_true)).trans (by rw [Dec.pulled_of_starved hlt])

end

/-! ## Past a part of the stream -/

/-- The undelivered bytes, oldest first (R70). -/
def Dec.pending (c : Dec) : List Byte := (historyOf c.u.sw).drop (c.u.sw.whave - c.u.sw.undelivered)

/-- What the drains deliver when the bytes `x` are put into the window: the oldest bytes, as many as the output space holds. -/
def Dec.delivered (c : Dec) (x : List Byte) : List Byte := (c.pending ++ x).take c.port.space

/-- The bytes then left undelivered. -/
def Dec.owed (c : Dec) (x : List Byte) : Nat := (c.pending ++ x).length - (c.delivered x).length

/-- The decoder `c` past `w` bits of its stream and the bytes `x`, all of them offered to the output, with the engine's own fields
as in `e`. -/
def Dec.past (c : Dec) (w : Nat) (x : List Byte) (e : Inflate) : Dec where
  u :=
    { e with
      bc := cursorAfter c.u.bc (c.port.input.take (pullCount c.u.bc w)) w
      sw := c.u.sw.fed x (c.owed x) }
  port :=
    { input := c.port.input.drop (pullCount c.u.bc w)
      space := c.port.space - (c.delivered x).length
      output := c.port.output ++ c.delivered x }

/-- The stream goes on after `w` bits with the bit fields `fs`. -/
def Dec.Next (c : Dec) : Nat → List (Nat × Nat) → Prop
  | w, [] => w ≤ c.avail
  | w, f :: fs => c.bits / 2 ^ w % 2 ^ f.2 = f.1 ∧ c.Next (w + f.2) fs

section
variable {c : Dec} {w n m : Nat} {x : List Byte} {e : Inflate} {f : Nat × Nat} {fs gs : List (Nat × Nat)}

theorem Dec.Next.le (h : c.Next w fs) : w + packedWidth fs ≤ c.avail := by
  induction fs generalizing w with
  | nil => exact h
  | cons f fs ih =>
    rw [packedWidth, ← Nat.add_assoc]
    exact ih h.2

theorem packedWidth_append (fs gs : List (Nat × Nat)) : packedWidth (fs ++ gs) = packedWidth fs + packedWidth gs := by
  induction fs with
  | nil => exact (Nat.zero_add _).symm
  | cons f fs ih => simp only [List.cons_append, packedWidth, ih, Nat.add_assoc]

theorem packedWidth_concat (fs : List (Nat × Nat)) (f : Nat × Nat) : packedWidth (fs ++ [f]) = packedWidth fs + f.2 := packedWidth_append ..

theorem Dec.next_append : c.Next w (fs ++ gs) ↔ c.Next w fs ∧ c.Next (w + packedWidth fs) gs := by
  induction fs generalizing w with
  | nil => exact ⟨fun h => ⟨(Nat.le_add_right _ _).trans h.le, h⟩, And.right⟩
  | cons f fs ih => simp only [List.cons_append, Dec.Next, ih, packedWidth, and_assoc, ← Nat.add_assoc]

/-- Bit fields whose values fit their widths stand in the stream where their joint value does. -/
theorem Dec.next_of_mod (hfits : ∀ f ∈ fs, f.1 < 2 ^ f.2) (hle : w + packedWidth fs ≤ c.avail)
    (hv : c.bits / 2 ^ w % 2 ^ packedWidth fs = packedValue fs) : c.Next w fs := by
  induction fs generalizing w with
  | nil => exact hle
  | cons f fs ih =>
    obtain ⟨hf, hfs⟩ := List.forall_mem_cons.1 hfits
    rw [packedWidth, packedValue, Nat.pow_add] at hv
    rw [packedWidth, ← Nat.add_assoc] at hle
    refine ⟨?_, ih hfs hle ?_⟩
    · have hmod := congrArg (· % 2 ^ f.2) hv
      simp only [Nat.add_mul_mod_self_left, Nat.mod_mod_of_dvd _ (Nat.dvd_mul_right (2 ^ f.2) _), Nat.mod_eq_of_lt hf] at hmod
      exact hmod
    · have hdiv := congrArg (· / 2 ^ f.2) hv
      simp only [Nat.mod_mul_right_div_self, Nat.add_mul_div_left _ _ (Nat.two_pow_pos f.2), Nat.div_eq_of_lt hf, Nat.zero_add] at hdiv
      rwa [Nat.pow_add, ← Nat.div_div_eq_div_mul]

/-! ## The stream after its first bits -/

theorem Dec.past_mode : (c.past w x e).u.mode = e.mode := rfl

theorem Dec.avail_past (hw : w ≤ c.avail) : (c.past w x e).avail = c.avail - w := by
  have hlen := length_take_pullCount (bc := c.u.bc) hw
  have hle := le_bitCount_add_pullCount c.u.bc w
  have hk := pullCount_le (bc := c.u.bc) hw
  unfold Dec.avail at *
  simp only [Dec.past, cursorAfter, List.length_drop, hlen]
  omega

variable (h : c.u.bc.Ok)
include h

theorem Dec.past_cursor_ok (hw : w ≤ c.avail) : (c.past w x e).u.bc.Ok := cursorAfter_ok h hw

theorem Dec.bits_past (hw : w ≤ c.avail) : (c.past w x e).bits = c.bits / 2 ^ w := bitsOf_cursorAfter_drop h hw

/-- The decoder past `w` bits after it took the bytes `Need(n)` pulls and dropped `m` bits. -/
theorem Dec.pulled_past (hw : w ≤ c.avail) (n m : Nat) :
    (c.past w x e).pulled n m =
      { u := { (c.past w x e).u with bc := cursorAfter c.u.bc (c.port.input.take (pullCount c.u.bc (w + n))) (w + m) }
        port := { (c.past w x e).port with input := c.port.input.drop (pullCount c.u.bc (w + n)) } } := by
  have hcount := pullCount_cursorAfter (bc := c.u.bc) hw n
  simp only [Dec.pulled, Dec.past, cursorAfter_cursorAfter h hw, List.drop_drop]
  rw [← hcount, List.take_add]

theorem Dec.pulled_past_self (hw : w ≤ c.avail) (n : Nat) : (c.past w x e).pulled n n = c.past (w + n) x e := Dec.pulled_past h hw n n

theorem Dec.past_starved (hw : w ≤ c.avail) :
    cursorAfter (c.past w x e).u.bc (c.past w x e).port.input 0 = cursorAfter c.u.bc c.port.input w := by
  simp only [Dec.past, cursorAfter_cursorAfter h hw, List.take_append_drop, Nat.add_zero]

end

/-! ## Drains between micro-steps (R384) -/

section
variable {c : Dec} {w : Nat} {x : List Byte} {e : Inflate}

theorem Dec.length_pending (h : c.u.sw.Ok) : c.pending.length = c.u.sw.undelivered := by
  have := h.undelivered
  rw [Dec.pending, List.length_drop, length_historyOf]
  omega

theorem Dec.owed_concat_le (h : c.u.sw.Ok) (hroom : c.owed x < c.u.sw.capacity) :
    c.owed x + 1 ≤ min c.u.sw.capacity (c.u.sw.whave + (x.length + 1)) := by
  have := h.undelivered
  have hlen := Dec.length_pending h
  unfold Dec.owed at *
  rw [List.length_append] at *
  omega

/-- What a drain adds to what was delivered after one more byte. -/
theorem Dec.delivered_concat (c : Dec) (x : List Byte) (b : Byte) :
    c.delivered (x ++ [b]) = c.delivered x ++
      ((c.pending ++ (x ++ [b])).drop (c.delivered x).length).take (min (c.owed x + 1) (c.port.space - (c.delivered x).length)) := by
  simp only [Dec.owed, Dec.delivered]
  rw [← List.append_assoc]
  generalize c.pending ++ x = q
  have hlen : (q.take c.port.space).length = min c.port.space q.length := List.length_take
  rw [hlen]
  by_cases hle : c.port.space ≤ q.length
  · rw [List.take_append_of_le_length hle, Nat.min_eq_left hle, Nat.sub_self, Nat.min_zero, List.take_zero, List.append_nil]
  · have hlt : q.length < c.port.space := Nat.lt_of_not_le hle
    rw [Nat.min_eq_right hlt.le, List.take_of_length_le hlt.le, List.drop_left, List.take_of_length_le (by simpa using hlt),
      List.take_of_length_le]
    simp only [List.length_singleton]
    omega

theorem Dec.winDrain_past (c : Dec) (w : Nat) (x : List Byte) (e : Inflate) : (c.past w x e).winDrain = c.past w x e := by
  refine Dec.winDrain_of_drained ?_
  simp only [Dec.past, SlidingWindow.drainCount, SlidingWindow.fed_undelivered, Dec.owed, Dec.delivered, List.length_take]
  omega

/-- The drained state after one more byte was put into the window. -/
theorem Dec.winDrain_past_put (h : c.u.sw.Ok) (hroom : c.owed x < c.u.sw.capacity) (b : Byte) :
    ((c.past w x e).edit fun d => { d with sw := d.sw.put b }).winDrain = c.past w (x ++ [b]) e := by
  have hu := Dec.owed_concat_le h hroom
  have hpend := Dec.length_pending h
  have hput : ((c.past w x e).edit fun d => { d with sw := d.sw.put b }) =
      { u := { (c.past w x e).u with sw := c.u.sw.fed (x ++ [b]) (c.owed x + 1) }, port := (c.past w x e).port } := by
    simp only [Dec.edit, Dec.past, SlidingWindow.fed_put]
  have hold : (historyOf c.u.sw ++ (x ++ [b])).drop (c.u.sw.whave + (x ++ [b]).length - (c.owed x + 1)) =
      (c.pending ++ (x ++ [b])).drop (c.delivered x).length := by
    have hund := h.undelivered
    have hlen : c.u.sw.whave + (x ++ [b]).length - (c.owed x + 1) = (c.u.sw.whave - c.u.sw.undelivered) + (c.delivered x).length := by
      have hle : (c.delivered x).length ≤ (c.pending ++ x).length := by
        rw [Dec.delivered, List.length_take]
        exact Nat.min_le_right _ _
      simp only [Dec.owed, List.length_append, List.length_singleton] at hle ⊢
      omega
    rw [hlen, ← List.drop_drop, Dec.pending, List.drop_append_of_le_length (by rw [length_historyOf]; exact Nat.sub_le _ _)]
  have holdest : ∀ n ≤ c.owed x + 1, (c.u.sw.fed (x ++ [b]) (c.owed x + 1)).oldest n =
      ((c.pending ++ (x ++ [b])).drop (c.delivered x).length).take n := fun n hn => by
    rw [SlidingWindow.oldest_fed h (by simpa using hu) hn, hold]
  have hconcat := Dec.delivered_concat c x b
  have hlen := congrArg List.length hconcat
  have hspace : (((c.pending ++ (x ++ [b])).drop (c.delivered x).length).take
      (min (c.owed x + 1) (c.port.space - (c.delivered x).length))).length = min (c.owed x + 1) (c.port.space - (c.delivered x).length) := by
    have : c.owed x + 1 = ((c.pending ++ (x ++ [b])).drop (c.delivered x).length).length := by
      have hle : (c.delivered x).length ≤ (c.pending ++ x).length := by
        rw [Dec.delivered, List.length_take]
        exact Nat.min_le_right _ _
      simp only [Dec.owed, List.length_drop, List.length_append, List.length_singleton] at hle ⊢
      omega
    rw [List.length_take, ← this]
    omega
  rw [hput]
  have howed : c.owed (x ++ [b]) = c.owed x + 1 - min (c.owed x + 1) (c.port.space - (c.delivered x).length) := by
    have hle : (c.delivered x).length ≤ (c.pending ++ x).length := by
      rw [Dec.delivered, List.length_take]
      exact Nat.min_le_right _ _
    rw [List.length_append, hspace] at hlen
    simp only [Dec.owed, List.length_append, List.length_singleton] at hle hlen ⊢
    omega
  simp only [Dec.winDrain, SlidingWindow.drainCount, SlidingWindow.fed_undelivered, Dec.past, Port.emit]
  rw [holdest _ (Nat.min_le_left _ _), hspace, howed, hconcat, List.length_append, hspace, List.append_assoc, Nat.sub_sub]
  rfl

/-- A decoder with nothing undelivered and room for the bytes `x` delivers them. -/
theorem Dec.delivered_of_room (h : c.u.sw.undelivered = 0) (hx : x.length ≤ c.port.space) : c.delivered x = x ∧ c.owed x = 0 := by
  have hnil : c.pending = [] := by
    rw [Dec.pending, h]
    exact List.drop_of_length_le (by simp)
  have hd : c.delivered x = x := by rw [Dec.delivered, hnil, List.nil_append, List.take_of_length_le hx]
  exact ⟨hd, by rw [Dec.owed, hd, hnil, List.nil_append, Nat.sub_self]⟩

end

end Sys2Proof.Machine

/-! # Block headers, stored blocks and the end of the stream

The micro-steps of R480 to R483, R500 and R502 from a state past a part of the stream, and the answer where a final block ends or
the next header is not complete. -/

namespace Sys2Proof.Machine

open Sys2Proof.Claim

section
variable {c : Dec} {w k : Nat} {x : List Byte} {e : Inflate} {fs : List (Nat × Nat)}

/-! ## Room in the window (R380) -/

theorem Dec.owed_eq (h : c.u.sw.Ok) (x : List Byte) : c.owed x = c.u.sw.undelivered + x.length - c.port.space := by
  rw [Dec.owed, Dec.delivered, List.length_take, List.length_append, Dec.length_pending h]
  omega

theorem Dec.past_full (hroom : c.owed x < c.u.sw.capacity) : (c.past w x e).u.sw.full = false := by
  refine decide_eq_false (Nat.not_le.2 ?_)
  show c.owed x < (c.u.sw.fed x (c.owed x)).capacity
  rwa [SlidingWindow.fed_capacity]

theorem Dec.owed_concat_lt (h : c.u.sw.Ok) {b : Byte} {bs : List Byte} (hroom : c.owed (x ++ b :: bs) ≤ c.u.sw.capacity) :
    c.owed x < c.u.sw.capacity := by
  have := c.u.sw.capacity_pos
  rw [Dec.owed_eq h] at *
  rw [List.length_append, List.length_cons] at hroom
  omega

theorem Dec.winDrain_eq_past (h : c.u.sw.Ok) : c.winDrain = c.past 0 [] c.u := by
  have hpend := Dec.length_pending h
  have hund := h.undelivered
  have hcount : c.u.sw.drainCount c.port.space = (c.delivered []).length := by
    rw [Dec.delivered, List.append_nil, List.length_take, hpend, SlidingWindow.drainCount, Nat.min_comm]
  have holdest : c.u.sw.oldest (c.u.sw.drainCount c.port.space) = c.delivered [] := by
    have hold := SlidingWindow.oldest_fed (x := []) (u := c.u.sw.undelivered) h
      (le_min (hund.trans h.whave) hund) (n := c.u.sw.drainCount c.port.space) (Nat.min_le_left _ _)
    rw [SlidingWindow.fed_nil, List.append_nil, List.length_nil, Nat.add_zero] at hold
    rw [hold, Dec.delivered, List.append_nil, ← Dec.pending, SlidingWindow.drainCount, ← hpend, List.take_eq_take_iff]
    omega
  have howed : c.u.sw.undelivered - c.u.sw.drainCount c.port.space = c.owed [] := by
    rw [hcount, Dec.owed, List.append_nil, hpend]
  simp only [Dec.winDrain, Dec.past, holdest, howed, pullCount_zero, List.take_zero, List.drop_zero, cursorAfter_nil_zero, Port.emit]
  rfl

/-! ## Alignment (R304) -/

/-- The bits from the `w`-th on to the next byte boundary. -/
def Dec.padding (c : Dec) (w : Nat) : Nat := (c.u.bc.bitCount + 7 * w) % 8

theorem Dec.bitCount_past_mod (hw : w ≤ c.avail) : (c.past w x e).u.bc.bitCount % 8 = c.padding w := by
  have hlen := length_take_pullCount (bc := c.u.bc) hw
  have hle := le_bitCount_add_pullCount c.u.bc w
  simp only [Dec.past, cursorAfter, hlen, Dec.padding]
  omega

theorem Dec.pullCount_padding (c : Dec) (w : Nat) : pullCount c.u.bc (w + c.padding w) = pullCount c.u.bc w := by
  unfold pullCount Dec.padding
  omega

theorem Dec.align_past (h : c.u.bc.Ok) (hw : w ≤ c.avail) : (c.past w x e).align = c.past (w + c.padding w) x e := by
  have hdrop : (c.past w x e).u.bc.drop (c.padding w) = (c.past (w + c.padding w) x e).u.bc := by
    rw [BitCursor.drop_eq_cursorAfter]
    simp only [Dec.past, cursorAfter_cursorAfter h hw, List.append_nil, Dec.pullCount_padding]
  rw [Dec.align, BitCursor.align, BitCursor.alignCount, Dec.bitCount_past_mod hw, hdrop]
  simp only [Dec.past, Dec.pullCount_padding]

variable (h : c.u.bc.Ok)
include h

/-! ## Fields (R300 to R303) -/

section
variable {n : Nat} (hroom : (c.past w x e).u.bc.Room n)
include hroom

theorem Dec.needing_past {k : Dec → Micro} (hle : w + n ≤ c.avail) :
    (c.past w x e).needing n k = k ((c.past w x e).pulled n 0) := by
  have hw := (Nat.le_add_right w n).trans hle
  exact Dec.needing_eq (Dec.past_cursor_ok h hw) hroom (by rw [Dec.avail_past hw]; omega)

theorem Dec.peek_past {m j : Nat} (hle : w + n ≤ c.avail) (hj : m + j ≤ n) :
    ((c.past w x e).pulled n m).peek j = c.bits / 2 ^ (w + m) % 2 ^ j := by
  have hw := (Nat.le_add_right w n).trans hle
  rw [Dec.pulled_peek_of_room (Dec.past_cursor_ok h hw) hroom (by rw [Dec.avail_past hw]; omega) hj, Dec.bits_past h hw,
    Nat.div_div_eq_div_mul, ← Nat.pow_add]

theorem Dec.drop_past (hw : w ≤ c.avail) (m j : Nat) : ((c.past w x e).pulled n m).drop j = (c.past w x e).pulled n (m + j) :=
  Dec.pulled_drop_of_room (Dec.past_cursor_ok h hw) hroom m j

end

/-! ## TYPE (R480, R481) -/

theorem micro_type {t b : Nat} (hm : e.mode = .type) (hb : b < 2) (hnext : c.Next w ((2 * t + b, 3) :: fs)) :
    micro (c.past w x e) =
      if t = 0 then .advanced (c.past (w + 3 + c.padding (w + 3)) x { e with last := b == 1, mode := .storedLen })
      else if t = 1 then
        .advanced (c.past (w + 3) x { e with last := b == 1, llRef := some fixedLLRef, dRef := some fixedDRef, mode := .len })
      else if t = 2 then .advanced (c.past (w + 3) x { e with last := b == 1, mode := .table })
      else .raised .badBlockType (c.past (w + 3) x { e with last := b == 1 }) := by
  have hle := (Nat.le_add_right _ _).trans hnext.2.le
  have hw : w ≤ c.avail := by omega
  have hroom : (c.past w x e).u.bc.Room 3 := BitCursor.room_of_le (by decide)
  have hv : c.bits / 2 ^ w % 8 = 2 * t + b := hnext.1
  have hlast : ((c.past w x e).pulled 3 0).peek 1 = b := by
    rw [Dec.peek_past h hroom hle (by decide)]
    simp only [Nat.add_zero]
    omega
  have htype : ((c.past w x e).pulled 3 1).peek 2 = t := by
    rw [Dec.peek_past h hroom hle (by decide), Nat.pow_add, ← Nat.div_div_eq_div_mul]
    omega
  have hdrop : ((c.past w x e).pulled 3 1).drop 2 = c.past (w + 3) x e :=
    (Dec.drop_past h hroom hw 1 2).trans (Dec.pulled_past_self h hw 3)
  have hedit : (((c.past w x e).pulled 3 1).edit fun d => { d with last := b == 1 }).drop 2 =
      c.past (w + 3) x { e with last := b == 1 } := congrArg (fun c => Dec.edit c fun d => { d with last := b == 1 }) hdrop
  have hpeek : (((c.past w x e).pulled 3 1).edit fun d => { d with last := b == 1 }).peek 2 = t := htype
  have hmicro : micro (c.past w x e) = microType (c.past w x e) := by rw [micro, Dec.past_mode, hm]
  rw [hmicro, microType, Dec.needing_past h hroom hle]
  simp only [hlast, Dec.drop_past h hroom hw, Nat.zero_add, hpeek, hedit, Dec.align_past h hle]
  rfl

/-! ## Stored blocks (R482, R483) -/

theorem micro_storedLen {len nlen : Nat} (hm : e.mode = .storedLen) (hpad : c.padding w = 0)
    (hnext : c.Next w ((len, 16) :: (nlen, 16) :: fs)) :
    micro (c.past w x e) =
      if len ≠ 0xFFFF - nlen then .raised .storedLenMismatch (c.past (w + 32) x e)
      else .advanced (c.past (w + 32) x { e with length := len, mode := if len = 0 then .blockEnd else .storedCopy }) := by
  obtain ⟨hlen, hnlen, hrest⟩ := hnext
  have hle : w + 32 ≤ c.avail := by have := hrest.le; simp only at this; omega
  have hw : w ≤ c.avail := by omega
  have hroom : (c.past w x e).u.bc.Room 32 :=
    BitCursor.room_of_aligned le_rfl (by rw [Dec.bitCount_past_mod hw, hpad])
  have hlen' : ((c.past w x e).pulled 32 0).peek 16 = len := (Dec.peek_past h hroom hle (by decide)).trans hlen
  have hnlen' : ((c.past w x e).pulled 32 16).peek 16 = nlen := (Dec.peek_past h hroom hle (by decide)).trans hnlen
  have hmicro : micro (c.past w x e) = microStoredLen (c.past w x e) := by rw [micro, Dec.past_mode, hm]
  rw [hmicro, microStoredLen, Dec.needing_past h hroom hle]
  simp only [hlen', Dec.drop_past h hroom hw, Nat.zero_add, hnlen', Nat.reduceAdd, Dec.pulled_past_self h hw]
  rfl

variable (hsw : c.u.sw.Ok)
include hsw

theorem reaches_storedCopy {b : Byte} (hm : e.mode = .storedCopy) (hroom : c.owed x < c.u.sw.capacity)
    (hnext : c.Next w ((b.toNat, 8) :: fs)) :
    (c.past w x e).Reaches 1 (c.past (w + 8) (x ++ [b])
      { e with length := e.length - 1, mode := if e.length - 1 = 0 then .blockEnd else .storedCopy }) := by
  have hle := (Nat.le_add_right _ _).trans hnext.2.le
  have hw : w ≤ c.avail := by omega
  have hbc : (c.past w x e).u.bc.Room 8 := BitCursor.room_of_le (by decide)
  have hpeek : ((c.past w x e).pulled 8 0).peek 8 = b.toNat := (Dec.peek_past h hbc hle (by decide)).trans hnext.1
  have hmicro : micro (c.past w x e) = microStoredCopy (c.past w x e) := by rw [micro, Dec.past_mode, hm]
  refine .one (c₁ := (c.past (w + 8) x { e with
    length := e.length - 1, mode := if e.length - 1 = 0 then .blockEnd else .storedCopy }).edit fun d => { d with sw := d.sw.put b })
    ?_ (Dec.winDrain_past_put hsw hroom b)
  rw [hmicro, microStoredCopy, if_neg (by rw [Dec.past_full hroom]; decide), Dec.needing_past h hbc hle]
  simp only [hpeek, Dec.drop_past h hbc hw, Nat.zero_add, Dec.pulled_past_self h hw, BitVec.ofNat_toNat, BitVec.setWidth_eq]
  refine congrArg Micro.advanced ?_
  by_cases hlast : e.length - 1 = 0
  · simp only [if_pos hlast]
    exact if_pos hlast
  · simp only [if_neg hlast, ← hm]
    exact if_neg hlast

/-- Bytes of a stored block before its last one. -/
theorem reaches_storedCopies (bs : List Byte) {w : Nat} {x : List Byte} {e : Inflate} (hm : e.mode = .storedCopy) (hlen : bs.length < e.length)
    (hroom : c.owed (x ++ bs) ≤ c.u.sw.capacity) (hnext : c.Next w (bs.map fun b => (b.toNat, 8))) :
    (c.past w x e).Reaches bs.length (c.past (w + 8 * bs.length) (x ++ bs) { e with length := e.length - bs.length }) := by
  induction bs generalizing w x e with
  | nil =>
    rw [List.append_nil]
    exact .refl _
  | cons b bs ih =>
    rw [List.length_cons] at hlen
    have hone := reaches_storedCopy h hsw hm (Dec.owed_concat_lt hsw hroom) hnext
    rw [if_neg (by omega), ← hm] at hone
    have hrest := ih (w := w + 8) (x := x ++ [b]) (e := { e with length := e.length - 1 }) hm (by simp only; omega) (by simpa using hroom) hnext.2
    rw [List.append_assoc, List.singleton_append, Nat.add_assoc, show 8 + 8 * bs.length = 8 * (bs.length + 1) by omega] at hrest
    refine ((hone.trans hrest).mono (by rw [List.length_cons]; omega)).imp fun n hn => ⟨hn.1, ?_⟩
    have hsub : e.length - 1 - bs.length = e.length - (bs.length + 1) := by omega
    simpa only [List.length_cons, hsub] using hn.2

/-- The bit fields of a stored block whose header ends `pad` bits before a byte boundary. -/
def storedFields (last pad padBits : Nat) (bs : List Byte) : List (Nat × Nat) :=
  [(last, 3), (padBits, pad), (bs.length, 16), (65535 - bs.length, 16)] ++ bs.map fun b => (b.toNat, 8)

omit h hsw in
theorem packedWidth_bytes (bs : List Byte) : packedWidth (bs.map fun b => (b.toNat, 8)) = 8 * bs.length := by
  induction bs with
  | nil => rfl
  | cons b bs ih => simp only [List.map_cons, packedWidth, ih, List.length_cons]; omega

/-- A stored block, from its header to its end. -/
theorem reaches_stored {last padBits : Nat} {bs : List Byte} (hm : e.mode = .type) (hlast : last < 2) (hlen : bs.length ≤ 65535)
    (hroom : c.owed (x ++ bs) ≤ c.u.sw.capacity) (hnext : c.Next w (storedFields last (c.padding (w + 3)) padBits bs)) :
    (c.past w x e).Reaches (bs.length + 2) (c.past (w + (35 + c.padding (w + 3)) + 8 * bs.length) (x ++ bs)
      { e with last := last == 1, length := 0, mode := .blockEnd }) := by
  have hle := (Nat.le_add_right _ _).trans hnext.2.le
  have hpad : c.padding (w + 3 + c.padding (w + 3)) = 0 := by unfold Dec.padding; omega
  have htype := micro_type (e := e) (x := x) (t := 0) h hm hlast (by rw [Nat.mul_zero, Nat.zero_add]; exact hnext)
  rw [if_pos rfl] at htype
  obtain ⟨-, -, hlens⟩ := hnext
  have hstored := micro_storedLen (x := x) (e := { e with last := last == 1, mode := .storedLen }) h rfl hpad hlens
  rw [if_neg (by omega)] at hstored
  have hhead := (Dec.Reaches.one htype (Dec.winDrain_past ..)).trans (Dec.Reaches.one hstored (Dec.winDrain_past ..))
  have hwidth : w + (35 + c.padding (w + 3)) = w + 3 + c.padding (w + 3) + 32 := by omega
  rw [hwidth]
  have hbytes : c.Next (w + 3 + c.padding (w + 3) + 32) (bs.map fun b => (b.toNat, 8)) := hlens.2.2
  obtain rfl | ⟨ys, b, rfl⟩ := List.eq_nil_or_concat' bs
  · rw [List.append_nil]
    exact hhead
  · have hlen0 : (ys ++ [b]).length ≠ 0 := by simp
    rw [if_neg hlen0] at hhead
    rw [List.map_append, Dec.next_append, packedWidth_bytes] at hbytes
    rw [← List.append_assoc] at hroom
    have hprefix : c.owed (x ++ ys) < c.u.sw.capacity := Dec.owed_concat_lt hsw hroom
    have hcopies := reaches_storedCopies (e := { e with last := last == 1, length := (ys ++ [b]).length, mode := .storedCopy }) h hsw ys rfl
      (by simp) hprefix.le hbytes.1
    have hfinal := reaches_storedCopy (e := { e with last := last == 1, length := (ys ++ [b]).length - ys.length, mode := .storedCopy }) h hsw rfl
      hprefix hbytes.2
    rw [List.length_append, List.length_singleton, Nat.add_sub_cancel_left, Nat.sub_self, if_pos rfl, List.append_assoc, Nat.add_assoc _ (8 * _) 8,
      show 8 * ys.length + 8 = 8 * (ys.length + 1) by omega] at hfinal
    rw [List.length_append, List.length_singleton] at hcopies hhead ⊢
    rw [Nat.add_sub_cancel_left] at hcopies
    exact ((hhead.trans hcopies).trans hfinal).mono (by omega)

omit h hsw in
/-- The end of a block (R500). -/
theorem reaches_blockEnd (hm : e.mode = .blockEnd) :
    (c.past w x e).Reaches 1 (c.past w x { e with mode := if e.last then .drain else .type }) := by
  refine .one ?_ (Dec.winDrain_past ..)
  have hmicro : micro (c.past w x e) = microBlockEnd (c.past w x e) := by rw [micro, Dec.past_mode, hm]
  exact hmicro

omit h hsw in
theorem reaches_nextHeader (hm : e.mode = .blockEnd) (hlast : e.last = false) :
    (c.past w x e).Reaches 1 (c.past w x { e with mode := .type }) := by
  have hend := reaches_blockEnd (c := c) (w := w) (x := x) hm
  rwa [if_neg (by rw [hlast]; decide)] at hend

/-! ## The end of the stream and the next header (R500, R502) -/

omit hsw in
theorem reaches_done (hm : e.mode = .blockEnd) (hlast : e.last = true) (hw : w ≤ c.avail) (howed : c.owed x = 0) :
    (c.past w x e).Reaches 2 (c.past (w + c.padding w) x { e with mode := .done }) := by
  have hend := reaches_blockEnd (c := c) (w := w) (x := x) hm
  have hmode : (if e.last then Mode.drain else Mode.type) = .drain := by rw [hlast]; rfl
  rw [hmode] at hend
  refine hend.trans (.one (c₁ := c.past (w + c.padding w) x { e with mode := .done }) ?_ (Dec.winDrain_past ..))
  have hmicro : micro (c.past w x { e with mode := .drain }) = microDrain (c.past w x { e with mode := .drain }) := rfl
  have hempty : (c.past w x { e with mode := .drain }).u.sw.undelivered = 0 := howed
  rw [hmicro, microDrain, hempty, if_neg (lt_irrefl 0), Dec.align_past h hw]
  rfl

omit hsw in
/-- TYPE blocks where fewer than 3 bits are left, with every byte pulled. -/
theorem micro_type_starved (hm : e.mode = .type) (hw : w ≤ c.avail) (hlt : c.avail < w + 3) :
    micro (c.past w x e) = .blocked .input
      { u := { (c.past w x e).u with bc := cursorAfter c.u.bc c.port.input w }, port := { (c.past w x e).port with input := [] } } := by
  have hmicro : micro (c.past w x e) = microType (c.past w x e) := by rw [micro, Dec.past_mode, hm]
  rw [hmicro, microType, Dec.needing_starved (Dec.past_cursor_ok h hw) (by decide) (by rw [Dec.avail_past hw]; omega),
    Dec.past_starved h hw]

end

end Sys2Proof.Machine

/-! # Streams of stored blocks

A stored block stands in bytes, so its header's fields are read off bytes (R481 to R483); what the window holds after its bytes and
what was delivered is the state past them. -/

namespace Sys2Proof.Machine

open Sys2Proof.Claim

/-! ## What the command answers -/

section
variable {s : State} {d : Inflate} {w k : Nat} {x : List Byte} {e : Inflate}

theorem lt_inflateFuel (h : k ≤ 1000 * (Dec.avail c + 1)) : k + 2 < inflateFuel c := by
  unfold inflateFuel Dec.avail at *
  omega

variable (h : s.isInflate d) (hd : d.mode ≠ .done) (hdict : d.mode ≠ .needDict)
include h hd hdict

/-- A final block that ends with its bytes delivered. -/
theorem completes_of_finalBlock (hbc : d.bc.Ok) (hr : (Dec.mk d s.startPort).winDrain.Reaches k ((Dec.mk d s.startPort).past w x e))
    (hk : k ≤ 1000 * ((Dec.mk d s.startPort).avail + 1)) (hm : e.mode = .blockEnd) (hlast : e.last = true)
    (hw : w ≤ (Dec.mk d s.startPort).avail) (howed : (Dec.mk d s.startPort).owed x = 0) :
    completes .infStep s 1 0 0
      (.inflate ((Dec.mk d s.startPort).past (w + (Dec.mk d s.startPort).padding w) x { e with mode := .done }).u)
      (s.port.input.drop (pullCount d.bc w)) ((Dec.mk d s.startPort).delivered x) := by
  have hb := inflateStep_of_done hd hdict (hr.trans (reaches_done hbc hm hlast hw howed)) (lt_inflateFuel hk) rfl
  have hinput : ((Dec.mk d s.startPort).past (w + (Dec.mk d s.startPort).padding w) x { e with mode := .done }).port.input =
      s.port.input.drop (pullCount d.bc w) := congrArg (List.drop · _) (Dec.pullCount_padding _ w)
  have hc := completes_infStep h hb
  rw [hinput] at hc
  exact hc

/-- A header that is not complete. -/
theorem completes_of_starvedHeader (hbc : d.bc.Ok) (hr : (Dec.mk d s.startPort).winDrain.Reaches k ((Dec.mk d s.startPort).past w x e))
    (hk : k ≤ 1000 * ((Dec.mk d s.startPort).avail + 1)) (hm : e.mode = .type) (hpos : 0 < w)
    (hw : w ≤ (Dec.mk d s.startPort).avail) (hlt : (Dec.mk d s.startPort).avail < w + 3) :
    completes .infStep s 0 0 0
      (.inflate { ((Dec.mk d s.startPort).past w x e).u with bc := cursorAfter d.bc s.port.input w }) []
      ((Dec.mk d s.startPort).delivered x) := by
  have hb := inflateStep_of_blocked hd hdict hr (Nat.lt_of_add_right_lt (lt_inflateFuel hk)) (micro_type_starved hbc hm hw hlt)
    (by show e.mode ≠ .done; rw [hm]; decide) (.inl (by rw [Dec.avail_past hw]; omega))
  exact completes_infStep h hb

end

/-! ## Fields in bytes (R153, R242, R482) -/

section
variable {c : Dec} {w : Nat} {fs : List (Nat × Nat)}

theorem Dec.next_split {a b v : Nat} (h : c.Next w ((v, a + b) :: fs)) : c.Next w ((v % 2 ^ a, a) :: (v / 2 ^ a, b) :: fs) := by
  obtain ⟨hv, hrest⟩ := h
  simp only at hv
  refine ⟨?_, ?_, ?_⟩
  · rw [← hv, Nat.mod_mod_of_dvd _ (Nat.pow_dvd_pow 2 (Nat.le_add_right a b))]
  · show c.bits / 2 ^ (w + a) % 2 ^ b = v / 2 ^ a
    rw [← hv, Nat.pow_add 2 a, Nat.mod_mul_right_div_self, Nat.div_div_eq_div_mul, ← Nat.pow_add]
  · simpa only [Nat.add_assoc] using hrest

theorem Dec.next_merge {a b u v : Nat} (h : c.Next w ((u, a) :: (v, b) :: fs)) : c.Next w ((u + 2 ^ a * v, a + b) :: fs) := by
  obtain ⟨hu, hv, hrest⟩ := h
  simp only at hu hv
  refine ⟨?_, by simpa only [Nat.add_assoc] using hrest⟩
  rw [Nat.pow_add 2 a, Nat.mod_mul, hu, Nat.div_div_eq_div_mul, ← Nat.pow_add, hv]

theorem Dec.next_bytesOf_two {v : Nat} (hv : v < 65536) (h : c.Next w ((bytesOf v 2).map (fun b => (b.toNat, 8)) ++ fs)) :
    c.Next w ((v, 16) :: fs) := by
  have hm := Dec.next_merge (fs := fs) h
  simp only [BitVec.toNat_ofNat] at hm
  rwa [show v % 2 ^ 8 + 2 ^ 8 * (v / 256 % 2 ^ 8) = v by omega] at hm

/-- A stored block in bytes is its fields. -/
theorem Dec.next_storedFields {head : Byte} {bs : List Byte} (hlen : bs.length ≤ 65535)
    (h : c.Next w ((storedBytes head bs).map (fun b => (b.toNat, 8)) ++ fs)) :
    c.Next w (storedFields (head.toNat % 8) 5 (head.toNat / 8) bs ++ fs) := by
  simp only [storedBytes, List.map_append, List.map_cons, List.cons_append, List.append_assoc] at h
  obtain ⟨hlast, hpad, hlens⟩ := Dec.next_split (a := 3) (b := 5) h
  obtain ⟨hl, hnlen⟩ := Dec.next_bytesOf_two (by omega) hlens
  exact ⟨hlast, hpad, hl, Dec.next_bytesOf_two (by omega) hnlen⟩

theorem length_storedBytes (head : Byte) (bs : List Byte) : (storedBytes head bs).length = 5 + bs.length := by
  simp only [storedBytes, List.length_cons, List.length_append, length_bytesOf, Nat.succ_add, Nat.zero_add]

theorem length_storedBlocks (blocks : List (Byte × List Byte)) :
    (blocks.flatMap fun b => storedBytes b.1 b.2).length = 5 * blocks.length + (blocks.flatMap Prod.snd).length := by
  induction blocks with
  | nil => rfl
  | cons b blocks ih =>
    simp only [List.flatMap_cons, List.length_append, length_storedBytes, ih, List.length_cons]
    omega

/-- The bytes of the slice after a byte boundary. -/
theorem Dec.next_of_bytes {bs rest : List Byte} (hbuf : c.u.bc.bitBuffer = 0) (hcount : c.u.bc.bitCount = 0)
    (hinput : c.port.input = bs ++ rest) : c.Next 0 (bs.map fun b => (b.toNat, 8)) := by
  have hvalue : packedValue (bs.map fun b => (b.toNat, 8)) = streamValue bs := by
    clear hinput
    induction bs with
    | nil => rfl
    | cons b bs ih => simp only [List.map_cons, packedValue, streamValue, ih, Nat.reducePow]
  refine Dec.next_of_mod (fun f hf => ?_) ?_ ?_
  · obtain ⟨b, -, rfl⟩ := List.mem_map.1 hf
    exact b.isLt
  · rw [packedWidth_bytes, Dec.avail, hinput, List.length_append]
    omega
  · rw [packedWidth_bytes, Nat.pow_zero, Nat.div_one, hvalue, Dec.bits, bitsOf, hbuf, hcount, hinput, streamValue_append]
    have hzero : (0 : BitVec 32).toNat = 0 := rfl
    rw [hzero, Nat.pow_zero, Nat.one_mul, Nat.zero_add, Nat.add_mul_mod_self_left]
    exact Nat.mod_eq_of_lt (streamValue_lt bs)

theorem cursorAfter_bytes {bc : BitCursor} {input : List Byte} {n : Nat} (hbuf : bc.bitBuffer = 0) (hcount : bc.bitCount = 0)
    (hn : n ≤ input.length) : cursorAfter bc (input.take n) (8 * n) = ⟨0, 0, bc.bytePosition + n⟩ := by
  have hlen : (input.take n).length = n := by rw [List.length_take, Nat.min_eq_left hn]
  have hok : bc.Ok := by rw [BitCursor.Ok, hbuf, hcount]; decide
  have hlt := bitsOf_lt hok (input.take n)
  rw [hcount, hlen, Nat.zero_add] at hlt
  simp only [cursorAfter, hlen, hcount, Nat.div_eq_of_lt hlt, Nat.zero_add, Nat.sub_self]
  rfl

theorem pullCount_bytes {bc : BitCursor} (hcount : bc.bitCount = 0) (n : Nat) : pullCount bc (8 * n) = n := by
  unfold pullCount
  omega

end

/-! ## Stored blocks, one after another -/

section
variable {c : Dec} (h : c.u.bc.Ok) (hsw : c.u.sw.Ok)
include h hsw

/-- Stored blocks of which none is final, then one more. -/
theorem reaches_storedBlocks (blocks : List (Byte × List Byte)) (final : Byte) (bytes : List Byte) {w : Nat} {x : List Byte}
    {e : Inflate} (hm : e.mode = .type) (hpad : c.padding w = 0)
    (hblocks : ∀ b ∈ blocks, b.1.toNat % 8 = 0 ∧ b.2.length ≤ 65535) (hfinal : final.toNat % 8 < 2) (hlen : bytes.length ≤ 65535)
    (hroom : c.owed (x ++ (blocks.flatMap Prod.snd ++ bytes)) ≤ c.u.sw.capacity)
    (hnext : c.Next w ((blocks.flatMap (fun b => storedBytes b.1 b.2) ++ storedBytes final bytes).map fun b => (b.toNat, 8))) :
    (c.past w x e).Reaches (8 * (5 * (blocks.length + 1) + (blocks.flatMap Prod.snd ++ bytes).length))
      (c.past (w + 8 * (5 * (blocks.length + 1) + (blocks.flatMap Prod.snd ++ bytes).length)) (x ++ (blocks.flatMap Prod.snd ++ bytes))
        { e with last := final.toNat % 8 == 1, length := 0, mode := .blockEnd }) := by
  have hpad3 : c.padding (w + 3) = 5 := by unfold Dec.padding at *; omega
  induction blocks generalizing w x e with
  | nil =>
    rw [List.flatMap_nil, List.nil_append] at hnext hroom
    rw [← List.append_nil (List.map _ _)] at hnext
    have hfields := Dec.next_storedFields hlen hnext
    rw [List.append_nil] at hfields
    have hone := reaches_stored (e := e) h hsw hm hfinal hlen hroom (hpad3.symm ▸ hfields)
    rw [hpad3] at hone
    rw [List.flatMap_nil, List.nil_append, List.length_nil, Nat.mul_add 8, ← Nat.add_assoc]
    exact hone.mono (by omega)
  | cons b blocks ih =>
    obtain ⟨hlast, hb⟩ := hblocks b (by simp)
    simp only [List.flatMap_cons, List.map_append, List.append_assoc] at hnext hroom
    obtain ⟨hfields, hrest⟩ := Dec.next_append.1 (Dec.next_storedFields hb hnext)
    have hwidth : packedWidth (storedFields (b.1.toNat % 8) 5 (b.1.toNat / 8) b.2) = 40 + 8 * b.2.length := by
      rw [storedFields, packedWidth_append, packedWidth_bytes]
      simp only [packedWidth]
    rw [hwidth, ← Nat.add_assoc] at hrest
    have hroom' : c.owed (x ++ b.2) ≤ c.u.sw.capacity := by
      refine le_trans ?_ hroom
      simp only [Dec.owed_eq hsw, List.length_append]
      omega
    have hone := reaches_stored (e := e) h hsw hm (by omega) hb hroom' (hpad3.symm ▸ hfields)
    rw [hpad3, hlast] at hone
    have hend := reaches_blockEnd (c := c) (w := w + (35 + 5) + 8 * b.2.length) (x := x ++ b.2)
      (e := { e with last := 0 == 1, length := 0, mode := .blockEnd }) rfl
    have hmore := ih (w := w + (35 + 5) + 8 * b.2.length) (x := x ++ b.2) (e := { e with last := 0 == 1, length := 0, mode := .type })
      rfl (by unfold Dec.padding at *; omega) (fun b hb => hblocks b (List.mem_cons_of_mem _ hb)) (by rwa [List.append_assoc])
      (by simpa only [List.map_append] using hrest) (by unfold Dec.padding at *; omega)
    refine ((hone.trans hend).trans hmore).mono ?_ |>.imp fun n hn => ⟨hn.1, ?_⟩
    · simp only [List.flatMap_cons, List.length_append, List.length_cons]
      omega
    · have hw : w + (35 + 5) + 8 * b.2.length + 8 * (5 * (blocks.length + 1) + (blocks.flatMap Prod.snd ++ bytes).length) =
          w + 8 * (5 * ((b :: blocks).length + 1) + ((b :: blocks).flatMap Prod.snd ++ bytes).length) := by
        simp only [List.flatMap_cons, List.length_append, List.length_cons]
        omega
      have hx : x ++ b.2 ++ (blocks.flatMap Prod.snd ++ bytes) = x ++ ((b :: blocks).flatMap Prod.snd ++ bytes) := by
        simp only [List.flatMap_cons, List.append_assoc]
      rw [← hw, ← hx]
      exact hn.2

/-! ## A stored block that runs out (R470, R472) -/

omit h hsw in
/-- STORED_COPY at a full window, or without a byte to copy, changes nothing. -/
theorem micro_storedCopy_blocked {n : Nat} {x : List Byte} {e : Inflate} (hbuf : c.u.bc.bitBuffer = 0) (hcount : c.u.bc.bitCount = 0)
    (hm : e.mode = .storedCopy) (hn : n ≤ c.port.input.length) (hroom : c.owed x ≤ c.u.sw.capacity)
    (hout : c.owed x < c.u.sw.capacity → n = c.port.input.length) :
    micro (c.past (8 * n) x e) =
      .blocked (if c.owed x = c.u.sw.capacity then .output else .input) (c.past (8 * n) x e) := by
  have hok : c.u.bc.Ok := by rw [BitCursor.Ok, hbuf, hcount]; decide
  have hw : 8 * n ≤ c.avail := by rw [Dec.avail]; omega
  have hmicro : micro (c.past (8 * n) x e) = microStoredCopy (c.past (8 * n) x e) := by rw [micro, Dec.past_mode, hm]
  rw [hmicro, microStoredCopy]
  by_cases hfull : c.owed x = c.u.sw.capacity
  · have hf : (c.past (8 * n) x e).u.sw.full = true := by
      refine decide_eq_true ?_
      show (c.u.sw.fed x (c.owed x)).capacity ≤ c.owed x
      rw [SlidingWindow.fed_capacity, hfull]
    rw [if_pos hf, if_pos hfull]
  · have hlt := lt_of_le_of_ne hroom hfull
    obtain rfl := hout hlt
    have hempty : (c.past (8 * c.port.input.length) x e).port.input = [] :=
      List.drop_eq_nil_of_le (by rw [pullCount_bytes hcount])
    rw [if_neg (by rw [Dec.past_full hlt]; decide), if_neg hfull,
      Dec.needing_starved (Dec.past_cursor_ok hok hw) (by decide) (by rw [Dec.avail_past hw, Dec.avail]; omega), hempty, cursorAfter_nil_zero,
      ← hempty]

end

/-! ## The state after bytes -/

section
variable {s : State} {d e : Inflate} {n : Nat} {x : List Byte}

/-- The decoder past whole bytes of its slice, with its window written out. -/
theorem past_bytes (hsw : d.sw.Ok) (hbuf : d.bc.bitBuffer = 0) (hcount : d.bc.bitCount = 0) (hn : n ≤ s.port.input.length) :
    ((Dec.mk d s.startPort).past (8 * n) x e).u =
      { e with
        bc := ⟨0, 0, d.bc.bytePosition + n⟩
        sw := ⟨d.sw.wbits, (d.sw.fed x ((Dec.mk d s.startPort).owed x)).buffer, (d.sw.writeCursor + x.length) % d.sw.capacity,
          (Dec.mk d s.startPort).owed x, min d.sw.capacity (d.sw.whave + x.length)⟩ } := by
  rw [← SlidingWindow.fed_eq hsw]
  simp only [Dec.past, State.startPort_input, pullCount_bytes hcount, cursorAfter_bytes hbuf hcount hn]

theorem transient_of_infStep {st : Status} (h : s.isInflate d) (hb : inflateStep ⟨d, s.startPort⟩ = .transient st) :
    exec .infStep s =
      .next (after s none st.code s.codec.regs.result0 s.codec.regs.result1 (.inflate d) s.port.input []) := by
  rw [exec_infStep, State.inflateCommand_of h, hb, State.commit, State.transient_eq_after h.1, h.2]

end

/-! ## Whole stored blocks (R480 to R483, R500, R502) -/

section
variable {s : State} {d : Inflate} {blocks : List (Byte × List Byte)} {x : List Byte} (h : s.isInflate d) (hsw : d.sw.Ok) (hm : d.mode = .type)
  (hbuf : d.bc.bitBuffer = 0) (hcount : d.bc.bitCount = 0) (hund : d.sw.undelivered = 0)
  (hblocks : ∀ b ∈ blocks, b.1.toNat % 8 = 0 ∧ b.2.length ≤ 65535) (hspace : x.length ≤ s.port.space)
include h hsw hm hbuf hcount hund hblocks hspace

/-- Stored blocks of which only the last is final end the stream. -/
theorem completes_storedStream {final : Byte} {bytes rest : List Byte} (hfinal : final.toNat % 8 = 1) (hlen : bytes.length ≤ 65535)
    (hx : x = blocks.flatMap Prod.snd ++ bytes)
    (hinput : s.port.input = blocks.flatMap (fun b => storedBytes b.1 b.2) ++ storedBytes final bytes ++ rest) :
    completes .infStep s 1 0 0
      (.inflate { d with
        mode := .done
        last := true
        length := 0
        bc := ⟨0, 0, d.bc.bytePosition + 5 * (blocks.length + 1) + x.length⟩
        sw := ⟨d.sw.wbits, (d.sw.fed x 0).buffer, (d.sw.writeCursor + x.length) % d.sw.capacity, 0,
          min d.sw.capacity (d.sw.whave + x.length)⟩ })
      rest x := by
  have hok : d.bc.Ok := by rw [BitCursor.Ok, hbuf, hcount]; decide
  obtain ⟨hdelivered, howed⟩ := Dec.delivered_of_room (c := ⟨d, s.startPort⟩) hund hspace
  have hlength : s.port.input.length = 5 * (blocks.length + 1) + x.length + rest.length := by
    simp only [hinput, hx, List.length_append, length_storedBlocks, length_storedBytes]
    omega
  have hr := reaches_storedBlocks (c := ⟨d, s.startPort⟩) (x := []) (w := 0) (e := d) hok hsw blocks final bytes hm
    (by simp only [Dec.padding, hcount]) hblocks (by omega) hlen (by rw [List.nil_append, ← hx, howed]; exact Nat.zero_le _)
    (Dec.next_of_bytes hbuf hcount hinput)
  rw [← Dec.winDrain_eq_past hsw, Nat.zero_add, List.nil_append, hfinal, ← hx] at hr
  have hdone := completes_of_finalBlock h (by rw [hm]; decide) (by rw [hm]; decide) hok hr
    (by simp only [Dec.avail, State.startPort_input]; omega) rfl rfl (by simp only [Dec.avail, State.startPort_input]; omega) howed
  have hpad : (Dec.mk d s.startPort).padding (8 * (5 * (blocks.length + 1) + x.length)) = 0 := by
    simp only [Dec.padding, hcount]
    omega
  rw [hpad, Nat.add_zero, past_bytes hsw hbuf hcount (by omega), howed, hdelivered, pullCount_bytes hcount, hinput,
    List.drop_left' (by simp only [hx, List.length_append, length_storedBlocks, length_storedBytes]; omega)] at hdone
  rw [Nat.add_assoc d.bc.bytePosition]
  exact hdone

/-- Stored blocks that are not final leave the decoder before the next header. -/
theorem completes_storedBlocks (hne : blocks ≠ []) (hx : x = blocks.flatMap Prod.snd)
    (hinput : s.port.input = blocks.flatMap (fun b => storedBytes b.1 b.2)) :
    completes .infStep s 0 0 0
      (.inflate { d with last := false, length := 0, bc := ⟨0, 0, d.bc.bytePosition + s.port.input.length⟩, sw := d.sw.fed x 0 }) [] x := by
  have hok : d.bc.Ok := by rw [BitCursor.Ok, hbuf, hcount]; decide
  obtain ⟨hdelivered, howed⟩ := Dec.delivered_of_room (c := ⟨d, s.startPort⟩) hund hspace
  obtain ⟨init, b, hb⟩ := (List.eq_nil_or_concat' blocks).resolve_left hne
  rw [hb, List.flatMap_append, List.flatMap_singleton] at hinput hx
  obtain ⟨hzero, hlen⟩ := hblocks b (by simp [hb])
  have hlength : s.port.input.length = 5 * (init.length + 1) + x.length := by
    simp only [hinput, hx, List.length_append, length_storedBlocks, length_storedBytes]
    omega
  have hr := reaches_storedBlocks (c := ⟨d, s.startPort⟩) (x := []) (w := 0) (e := d) hok hsw init b.1 b.2 hm
    (by simp only [Dec.padding, hcount]) (fun a ha => hblocks a (by simp [hb, ha])) (by omega) hlen
    (by rw [List.nil_append, ← hx, howed]; exact Nat.zero_le _)
    (Dec.next_of_bytes (rest := []) hbuf hcount (by rw [List.append_nil]; exact hinput))
  rw [← Dec.winDrain_eq_past hsw, Nat.zero_add, List.nil_append, hzero, ← hx, ← hlength] at hr
  have hwait := completes_of_starvedHeader h (by rw [hm]; decide) (by rw [hm]; decide) hok (hr.trans (reaches_blockEnd rfl))
    (by simp only [Dec.avail, State.startPort_input]; omega) rfl (by omega) (by simp only [Dec.avail, State.startPort_input]; omega)
    (by simp only [Dec.avail, State.startPort_input]; omega)
  have hbc := cursorAfter_bytes (input := s.port.input) hbuf hcount le_rfl
  rw [List.take_length] at hbc
  simp only [Dec.past, howed, hdelivered, hbc] at hwait
  rwa [hm]

end

/-! ## A stored block that runs out of input or space (R470, R472, R766) -/

/-- The bytes of a stored block that the loop copies: as far as input and space both go. -/
def copiedCount (s : State) (d : Inflate) : Nat := min s.port.input.length (d.sw.capacity + s.port.space - d.sw.undelivered)

section
variable {s : State} {d : Inflate} {n : Nat} (h : s.isInflate d) (hsw : d.sw.Ok) (hm : d.mode = .storedCopy)
  (hbuf : d.bc.bitBuffer = 0) (hcount : d.bc.bitCount = 0) (hn : n = copiedCount s d)
include hsw hn

theorem undelivered_le_capacity : d.sw.undelivered ≤ d.sw.capacity ∧ n ≤ s.port.input.length :=
  ⟨hsw.undelivered.trans hsw.whave, hn ▸ Nat.min_le_left _ _⟩

theorem owed_copied : (Dec.mk d s.startPort).owed (s.port.input.take n) = d.sw.undelivered + n - s.port.space := by
  rw [Dec.owed_eq hsw, List.length_take, Nat.min_eq_left (undelivered_le_capacity hsw hn).2]
  rfl

theorem length_delivered_copied : ((Dec.mk d s.startPort).delivered (s.port.input.take n)).length = min s.port.space (d.sw.undelivered + n) := by
  have hpending : (Dec.mk d s.startPort).pending.length = d.sw.undelivered := Dec.length_pending hsw
  rw [Dec.delivered, List.length_take, List.length_append, hpending, List.length_take,
    Nat.min_eq_left (undelivered_le_capacity hsw hn).2]
  rfl

include hm hbuf hcount

omit hm in
/-- Past the bytes copied the copy blocks, at a full window or at the end of the slice. -/
theorem micro_copied {e : Inflate} (hm : e.mode = .storedCopy) :
    micro ((Dec.mk d s.startPort).past (8 * n) (s.port.input.take n) e) =
      .blocked (if d.sw.undelivered + n - s.port.space = d.sw.capacity then .output else .input)
        ((Dec.mk d s.startPort).past (8 * n) (s.port.input.take n) e) := by
  obtain ⟨hund, hle⟩ := undelivered_le_capacity hsw hn
  have howed := owed_copied hsw hn
  rw [copiedCount] at hn
  have hblocked := micro_storedCopy_blocked (c := ⟨d, s.startPort⟩) (x := s.port.input.take n) hbuf hcount hm hle
    (howed.trans_le (show _ ≤ d.sw.capacity by omega))
    (fun hlt => by change _ < d.sw.capacity at hlt; rw [howed] at hlt; show n = s.port.input.length; omega)
  rwa [howed] at hblocked

include h

/-- Nothing was copied or delivered. -/
theorem transient_of_storedCopy (hzero : n = 0) (hnone : min s.port.space d.sw.undelivered = 0) :
    exec .infStep s = .next (after s none (if d.sw.undelivered = d.sw.capacity then 4 else 3) s.codec.regs.result0 s.codec.regs.result1
      (.inflate d) s.port.input []) := by
  have hidle := micro_copied hsw hbuf hcount hn hm
  have hdrained : d.sw.drainCount s.startPort.space = 0 := (Nat.min_comm _ _).trans hnone
  have hstart : (Dec.mk d s.startPort).past (8 * 0) (s.port.input.take 0) d = ⟨d, s.startPort⟩ :=
    (Dec.winDrain_eq_past hsw).symm.trans (Dec.winDrain_of_drained hdrained)
  have hcap := d.sw.capacity_pos
  have hfull : d.sw.undelivered + 0 - s.port.space = d.sw.capacity ↔ d.sw.undelivered = d.sw.capacity := by omega
  rw [hzero, hstart] at hidle
  have hb := inflateStep_of_idle (by rw [hm]; decide) (by rw [hm]; decide) hidle hdrained
    (Nat.zero_lt_of_lt (lt_inflateFuel (Nat.zero_le _)))
  rw [transient_of_infStep h hb]
  by_cases hwindow : d.sw.undelivered = d.sw.capacity
  · simp only [hfull, if_pos hwindow, if_true]
    rfl
  · simp only [hfull, if_neg hwindow]
    rfl

/-- Bytes were copied or delivered, and the window holds what is not delivered. -/
theorem completes_storedCopy (hlt : n < d.length) (hpos : n + min s.port.space (d.sw.undelivered + n) ≠ 0) :
    completes .infStep s 0 0 0
      (.inflate { d with
        length := d.length - n
        bc := ⟨0, 0, d.bc.bytePosition + n⟩
        sw := ⟨d.sw.wbits, (d.sw.fed (s.port.input.take n) (d.sw.undelivered + n - s.port.space)).buffer, (d.sw.writeCursor + n) % d.sw.capacity,
          d.sw.undelivered + n - s.port.space, min d.sw.capacity (d.sw.whave + n)⟩ })
      (s.port.input.drop n) ((Dec.mk d s.startPort).delivered (s.port.input.take n)) := by
  have hok : d.bc.Ok := by rw [BitCursor.Ok, hbuf, hcount]; decide
  have hmode : d.mode ≠ .done ∧ d.mode ≠ .needDict := by rw [hm]; decide
  obtain ⟨hund, hle⟩ := undelivered_le_capacity hsw hn
  have howed := owed_copied hsw hn
  have htake : (s.port.input.take n).length = n := by rw [List.length_take, Nat.min_eq_left hle]
  have hfuel : n < inflateFuel ⟨d, s.startPort⟩ := by
    simp only [inflateFuel, State.startPort_input]
    omega
  have hr := reaches_storedCopies (c := ⟨d, s.startPort⟩) (x := []) (w := 0) (e := d) hok hsw (s.port.input.take n) hm
    (htake.symm ▸ hlt) (by rw [List.nil_append, howed]; rw [copiedCount] at hn; show _ ≤ d.sw.capacity; omega)
    (Dec.next_of_bytes (rest := s.port.input.drop n) hbuf hcount (List.take_append_drop ..).symm)
  rw [← Dec.winDrain_eq_past hsw, Nat.zero_add, List.nil_append, htake] at hr
  have hprogress : ((Dec.mk d s.startPort).past (8 * n) (s.port.input.take n) { d with length := d.length - n }).avail <
        (Dec.mk d s.startPort).avail ∨
      0 < d.sw.drainCount s.startPort.space := by
    rw [Dec.avail_past (by simp only [Dec.avail, State.startPort_input]; omega)]
    simp only [Dec.avail, State.startPort_input]
    show _ ∨ 0 < min d.sw.undelivered s.port.space
    omega
  have hb := inflateStep_of_blocked hmode.1 hmode.2 hr hfuel (micro_copied hsw hbuf hcount hn hm) hmode.1 (or_assoc.1 (.inl hprogress))
  have hc := completes_infStep h hb
  have hinput : ((Dec.mk d s.startPort).past (8 * n) (s.port.input.take n) { d with length := d.length - n }).port.input =
      s.port.input.drop n := congrArg (List.drop · _) (pullCount_bytes hcount n)
  rw [past_bytes hsw hbuf hcount hle, howed, htake, hinput] at hc
  exact hc

end

/-- Settles O35: the blocks are read one after another to the end of the last; a block that runs out is copied up to a full window
or the end of the slice, and blocks there. -/
theorem storedStreamDecodes : Obligations.StoredStreamDecodes := by
  refine ⟨?_, ?_, ?_⟩
  · intro s d blocks final bytes rest h hsw hm hbuf hcount hund hblocks hfinal hlen x hspace hinput cap k
    obtain ⟨hinside, houtside⟩ := SlidingWindow.fed_buffer hsw x 0
    exact ⟨_, hinside, houtside, completes_storedStream h hsw hm hbuf hcount hund hblocks hspace hfinal hlen rfl hinput⟩
  · intro s d blocks h hsw hm hbuf hcount hund hne hblocks x hspace hinput
    exact ⟨d.sw.fed x 0, SlidingWindow.fed_delivers hsw x, SlidingWindow.fed_wbits ..,
      completes_storedBlocks h hsw hm hbuf hcount hund hblocks hspace hne rfl hinput⟩
  · intro s d h hsw hm hbuf hcount cap held n out k hlt
    have hn : n = copiedCount s d := rfl
    have hlen : out.length = min s.port.space (held + n) := length_delivered_copied hsw hn
    refine ⟨fun hzero => ?_, fun hpos => ?_⟩
    · have hnone : n = 0 := by omega
      exact transient_of_storedCopy h hsw hm hbuf hcount hn hnone (by rw [hlen, hnone] at hzero; simpa using hzero)
    · have hle : n ≤ s.port.input.length := Nat.min_le_left _ _
      obtain ⟨hinside, houtside⟩ := SlidingWindow.fed_buffer hsw (s.port.input.take n) (held + n - s.port.space)
      rw [List.length_take, Nat.min_eq_left hle] at hinside houtside
      refine ⟨_, fun i hi => ?_, houtside, ?_⟩
      · rw [List.getD_eq_getElem?_getD, ← List.getElem?_take_of_lt (j := n) (by omega), ← List.getD_eq_getElem?_getD]
        exact hinside i hi
      · rw [hlen, show held + n - min s.port.space (held + n) = held + n - s.port.space by omega]
        exact completes_storedCopy h hsw hm hbuf hcount hn hlt (hlen ▸ hpos)

end Sys2Proof.Machine

/-! # Codes, tokens and tables

What a decode reads where the stream goes on with a symbol's code (R430), for tables that hold canonical codes and for those of two
one-bit entries; and the bit fields of lengths and distances (R264, R265, R267). -/

namespace Sys2Proof.Machine

open Sys2Proof.Claim

/-! ## What a decode reads (R430) -/

/-- The bits that stay in the cursor where a code of length `l`, read through a table of the root width given, leads to `e`. -/
def Entry.kept (e : Entry) (root l : Nat) : Nat := if e.op = .invalid then undropped root l else 0

/-- Through the reference `r`, a decode reads the bit field `f` as the operation and, where it is valid, the value of `e`, and keeps
the last `kept` bits of the field in the cursor. -/
def DecodeTables.Reads (t : DecodeTables) (r : TableRef) (f : Nat × Nat) (e : Entry) (kept : Nat) : Prop :=
  ∀ c : Dec, c.u.ht = t → c.u.bc.Ok → f.2 ≤ c.avail → c.bits % 2 ^ f.2 = f.1 →
    ∃ e' : Entry, e'.op = e.op ∧ (e.op ≠ .invalid → e'.val = e.val) ∧ c.decodeSym r = .ok (some e', c.pulled f.2 (f.2 - kept))

section
variable {t : DecodeTables} {r : TableRef} {k : CodeKind} {lens : List Nat} {sym : Nat}

theorem Dec.decoded_of_le {c : Dec} {n : Nat} (h : n ≤ c.avail) (m : Nat) (e : Entry) : c.decoded n m e = (some e, c.pulled n m) :=
  if_pos h

theorem reads_of_laidOut (hlaid : laidOut t r k lens) (h15 : ∀ l ∈ lens, l ≤ 15) (hs : coded lens sym) :
    t.Reads r (canonicalField lens sym) (symbolEntry k sym 0) ((symbolEntry k sym 0).kept r.root (lens.getD sym 0)) := by
  intro c ht hok hle hbits
  subst ht
  change lens.getD sym 0 ≤ c.avail at hle
  have hstarts : startsWith lens sym (bitsOf c.u.bc c.port.input) := ⟨hs, hbits⟩
  have h25 : lens.getD sym 0 ≤ 25 := (getD_le h15 sym).trans (by decide)
  by_cases hroot : lens.getD sym 0 ≤ r.root
  · have hdec := Dec.decodeSym_root hok h25 (finds_root hlaid hstarts hroot) (symbolEntry_ne_link k sym _)
    refine ⟨symbolEntry k sym (lens.getD sym 0), symbolEntry_op .., fun _ => symbolEntry_val .., ?_⟩
    rw [hdec, Dec.decoded_of_le hle, Entry.dropped, symbolEntry_op k sym _ 0, symbolEntry_bits, Entry.kept, undropped, if_pos hroot]
    split_ifs
    · rw [canonicalField, Nat.sub_self]
    · rfl
  · have hlt := Nat.not_le.1 hroot
    obtain ⟨w, sub, hlink, hsub⟩ := finds_sub hlaid hstarts hlt
    have hdec := Dec.decodeSym_sub hok h25 hlt.le hlink hsub
    refine ⟨symbolEntry k sym (lens.getD sym 0 - r.root), symbolEntry_op .., fun _ => symbolEntry_val .., ?_⟩
    rw [hdec, Dec.decoded_of_le hle, Entry.dropped, symbolEntry_op k sym _ 0, symbolEntry_bits, Entry.kept, undropped, if_neg hroot]
    split_ifs
    · rw [canonicalField, Nat.sub_sub_self hlt.le, Nat.add_zero]
    · rw [canonicalField, Nat.add_sub_cancel' hlt.le, Nat.sub_zero]

theorem reads_of_oneBit {e : Nat → Entry} {bit : Nat} (ht : oneBit t r e) (hbit : bit < 2) (hlink : ∀ w, (e bit).op ≠ .link w) :
    t.Reads r (bit, 1) (e bit) ((e bit).kept 1 1) := by
  obtain ⟨hroot, hentry⟩ := ht
  intro c ht hok hle hbits
  subst ht
  have hlook : ∀ bc : BitCursor, c.u.ht.lookRoot r bc = .ok (e (bc.bitBuffer.toNat % 2)) := fun bc => by
    rw [DecodeTables.lookRoot, hroot]
    exact (hentry _ (Nat.mod_lt _ two_pos)).1
  have hf : Finds (c.u.ht.lookRoot r) 0 1 (bitsOf c.u.bc c.port.input) (e bit) := by
    refine ⟨fun bc _ _ hlt => ⟨_, hlook bc, ?_⟩, fun bc hbuf hge => ?_, by rw [(hentry bit hbit).2]⟩
    · rwa [(hentry _ (Nat.mod_lt _ two_pos)).2]
    · rw [hlook, hbuf, Nat.mod_mod_of_dvd _ (dvd_pow_self 2 (by omega))]
      exact congrArg (fun i => Except.ok (e i)) hbits
  refine ⟨e bit, rfl, fun _ => rfl, ?_⟩
  rw [Dec.decodeSym_root hok (by decide) hf hlink, Dec.decoded_of_le hle, Entry.dropped, (hentry bit hbit).2, Entry.kept, undropped, if_pos le_rfl]
  split_ifs <;> rfl

end

/-! ## Lengths and distances (R264, R265, R267) -/

/-- In a rising table the bases of at most `v` are the first ones. -/
theorem le_iff_lt_length_filter {bases : List Nat} (hs : bases.Pairwise (· < ·)) (v : Nat) {i : Nat} (hi : i < bases.length) :
    bases.getD i 0 ≤ v ↔ i < (bases.filter fun b => b ≤ v).length := by
  induction bases generalizing i with
  | nil => exact absurd hi (Nat.not_lt_zero i)
  | cons b bases ih =>
    obtain ⟨hb, hs⟩ := List.pairwise_cons.1 hs
    by_cases hle : b ≤ v
    · rw [List.filter_cons_of_pos (by simpa using hle), List.length_cons]
      cases i with
      | zero => simpa using hle
      | succ i => simpa using ih hs (Nat.lt_of_succ_lt_succ hi)
    · have hnone : bases.filter (fun b => b ≤ v) = [] :=
        List.filter_eq_nil_iff.2 fun b' hb' => by
          have := hb b' hb'
          simp only [decide_eq_true_eq]
          omega
      rw [List.filter_cons_of_neg (by simpa using hle), hnone]
      refine ⟨fun h => ?_, fun h => absurd h (Nat.not_lt_zero i)⟩
      cases i with
      | zero => exact absurd h hle
      | succ i =>
        have hi := Nat.lt_of_succ_lt_succ hi
        have hmem := hb _ (List.getElem_mem hi)
        rw [List.getD_cons_succ, List.getD_eq_getElem _ _ hi] at h
        omega

/-- A distance lies in the range of its code. -/
theorem distCode_spec {dist : Nat} (h1 : 1 ≤ dist) (h2 : dist ≤ 32768) :
    distCode (dist - 1) < 30 ∧ tableAt distBase (distCode (dist - 1)) ≤ dist ∧
      dist < tableAt distBase (distCode (dist - 1)) + 2 ^ tableAt distExtra (distCode (dist - 1)) := by
  have hsorted : distBase.Pairwise (· < ·) := by decide
  have hlt := distCode_lt (dist - 1)
  have hcode : distCode (dist - 1) = (distBase.filter fun b => b ≤ dist).length - 1 := by
    rw [distCode, largestBase, Nat.sub_add_cancel h1]
  have hpos : 0 < (distBase.filter fun b => b ≤ dist).length := (le_iff_lt_length_filter hsorted dist (i := 0) (by decide)).1 h1
  refine ⟨hlt, (le_iff_lt_length_filter hsorted dist hlt).2 (by omega), ?_⟩
  by_cases hnext : distCode (dist - 1) + 1 < 30
  · have hstep : ∀ e < 29, tableAt distBase (e + 1) = tableAt distBase e + 2 ^ tableAt distExtra e := by decide
    rw [← hstep _ (by omega), ← Nat.not_le, tableAt, le_iff_lt_length_filter hsorted dist hnext]
    omega
  · rw [show distCode (dist - 1) = 29 by omega]
    exact h2.trans_lt (by decide)

/-- A match length lies in the range of its code. -/
theorem lengthCode_spec {lc : Nat} (h : lc < 256) :
    lengthCode lc < 29 ∧ tableAt lenBase (lengthCode lc) ≤ lc + 3 ∧
      lc + 3 < tableAt lenBase (lengthCode lc) + 2 ^ tableAt lenExtra (lengthCode lc) := by
  revert lc
  decide +kernel

/-- The bit fields of `n` extra bits of the value `v`. -/
def extraFields (v n : Nat) : List (Nat × Nat) := if n = 0 then [] else [(v, n)]

theorem packedWidth_extraFields (v n : Nat) : packedWidth (extraFields v n) = n := by
  unfold extraFields
  split_ifs with h
  · exact h.symm
  · rfl

theorem lengthFields_eq (llf : Nat → Nat × Nat) (lc : Nat) :
    lengthFields llf lc =
      llf (257 + lengthCode lc) :: extraFields (lc + 3 - tableAt lenBase (lengthCode lc)) (tableAt lenExtra (lengthCode lc)) := rfl

theorem distFields_eq (ddf : Nat → Nat × Nat) (dist : Nat) :
    distFields ddf dist =
      ddf (distCode (dist - 1)) ::
        extraFields (dist - tableAt distBase (distCode (dist - 1))) (tableAt distExtra (distCode (dist - 1))) := rfl

theorem Dec.next_extraFields {c : Dec} {w v n : Nat} {fs : List (Nat × Nat)} (hv : v < 2 ^ n) (h : c.Next w (extraFields v n ++ fs)) :
    c.bits / 2 ^ w % 2 ^ n = v ∧ c.Next (w + n) fs := by
  unfold extraFields at h
  split_ifs at h with hn
  · subst hn
    rw [Nat.pow_zero, Nat.lt_one_iff] at hv
    rw [hv, Nat.pow_zero, Nat.mod_one]
    exact ⟨rfl, h⟩
  · exact h

end Sys2Proof.Machine

/-! # Tokens

The micro-steps of R510 to R520 from a state past a part of the stream, and the tokens of a block one after another. -/

namespace Sys2Proof.Machine

open Sys2Proof.Claim

/-! ## Replayed tokens (R382) -/

section
variable {dist n : Nat} {h : List Byte} {toks more : List (Nat × Nat)}

theorem length_copyBack (dist n : Nat) (h : List Byte) : (copyBack dist n h).length = h.length + n := by
  induction n generalizing h with
  | zero => rfl
  | succ n ih =>
    rw [copyBack, ih, List.length_append, List.length_singleton]
    omega

theorem replay_append (h : List Byte) (toks more : List (Nat × Nat)) : replay h (toks ++ more) = replay (replay h toks) more := by
  induction toks generalizing h with
  | nil => rfl
  | cons t toks ih => exact ih _

theorem length_le_length_replay (h : List Byte) (toks : List (Nat × Nat)) : h.length ≤ (replay h toks).length := by
  induction toks generalizing h with
  | nil => exact le_rfl
  | cons t toks ih =>
    refine le_trans ?_ (ih _)
    split_ifs
    · simp
    · rw [length_copyBack]
      omega

end

section
variable {c : Dec} {w : Nat} {x : List Byte} {e : Inflate} {fs : List (Nat × Nat)} {f : Nat × Nat} {r : TableRef} {ent : Entry} {kept : Nat}

/-! ## One micro-step (R510 to R520) -/

theorem Dec.decodeVia_past (h : c.u.bc.Ok) (k : CodeKind) (hreads : e.ht.Reads r f ent kept) (hnext : c.Next w (f :: fs)) :
    ∃ e' : Entry, e'.op = ent.op ∧ (ent.op ≠ .invalid → e'.val = ent.val) ∧
      (c.past w x e).decodeVia k (some r) = .ok (some e', (c.past w x e).pulled f.2 (f.2 - kept)) := by
  have hle := (Nat.le_add_right _ _).trans hnext.2.le
  have hw : w ≤ c.avail := by omega
  exact hreads (c.past w x e) rfl (Dec.past_cursor_ok h hw) (by rw [Dec.avail_past hw]; omega) (by rw [Dec.bits_past h hw]; exact hnext.1)

/-- LEN, by the operation of the entry it reads. -/
theorem microLen_of_decode {c c' : Dec} {e : Entry} (hfull : c.u.sw.full = false) (hdec : c.decodeVia .lens c.u.llRef = .ok (some e, c')) :
    (e.op = .lit → microLen c = .advanced (c'.edit fun d => { d with sw := d.sw.put (BitVec.ofNat 8 e.val) })) ∧
      (e.op = .eob → microLen c = .advanced (c'.goto .blockEnd)) ∧
      (∀ n, e.op = .len n → microLen c = .advanced ((c'.edit fun d => { d with length := e.val, extra := n }).goto .lenExt)) ∧
      (e.op = .invalid → microLen c = .raised .badLitlenCode c') := by
  rw [microLen, if_neg (by rw [hfull]; decide), hdec]
  refine ⟨fun hop => ?_, fun hop => ?_, fun n hop => ?_, fun hop => ?_⟩ <;> simp only [Micro.ofExcept, hop]

/-- DIST, by the operation of the entry it reads. -/
theorem microDist_of_decode {c c' : Dec} {e : Entry} (hdec : c.decodeVia .dists c.u.dRef = .ok (some e, c')) :
    (∀ n, e.op = .dist n → microDist c = .advanced ((c'.edit fun d => { d with dist := e.val, extra := n }).goto .distExt)) ∧
      (e.op = .invalid → microDist c = .raised .badDistCode c') := by
  rw [microDist, hdec]
  refine ⟨fun n hop => ?_, fun hop => ?_⟩ <;> simp [Micro.ofExcept, Entry.distExtra, hop]

theorem reaches_of_micro {w' : Nat} {x' : List Byte} {e' : Inflate} (hm : micro (c.past w x e) = .advanced (c.past w' x' e')) :
    (c.past w x e).Reaches 1 (c.past w' x' e') := .one hm (Dec.winDrain_past ..)

section
variable (h : c.u.bc.Ok)
include h

/-- LEN past a part of the stream, with room in the window. -/
theorem micro_len (hm : e.mode = .len) (href : e.llRef = some r) (hroom : c.owed x < c.u.sw.capacity)
    (hreads : e.ht.Reads r f ent kept) (hnext : c.Next w (f :: fs)) :
    let c' := (c.past w x e).pulled f.2 (f.2 - kept)
    (ent.op = .lit → micro (c.past w x e) = .advanced (c'.edit fun d => { d with sw := d.sw.put (BitVec.ofNat 8 ent.val) })) ∧
      (ent.op = .eob → micro (c.past w x e) = .advanced (c'.goto .blockEnd)) ∧
      (∀ n, ent.op = .len n →
        micro (c.past w x e) = .advanced ((c'.edit fun d => { d with length := ent.val, extra := n }).goto .lenExt)) ∧
      (ent.op = .invalid → micro (c.past w x e) = .raised .badLitlenCode c') := by
  obtain ⟨e', hop, hval, hdec⟩ := Dec.decodeVia_past (x := x) h .lens hreads hnext
  rw [← href] at hdec
  have hmicro : micro (c.past w x e) = microLen (c.past w x e) := by rw [micro, Dec.past_mode, hm]
  obtain ⟨hlit, heob, hlen, hinvalid⟩ := microLen_of_decode (Dec.past_full hroom) hdec
  rw [hop, ← hmicro] at hlit heob hlen hinvalid
  refine ⟨fun hl => ?_, heob, fun n hn => ?_, hinvalid⟩
  · rw [hlit hl, hval (by rw [hl]; decide)]
  · rw [hlen n hn, hval (by rw [hn]; simp)]

/-- The extra bits of a symbol. -/
theorem Dec.extra_past {v : Nat} (hn : e.extra ≤ 25) (hv : v < 2 ^ e.extra) (hnext : c.Next w (extraFields v e.extra ++ fs)) :
    let c' := (c.past w x e).pulled e.extra 0
    (∀ k, (c.past w x e).needing e.extra k = k c') ∧ c'.peek e.extra = v ∧ c'.drop e.extra = c.past (w + e.extra) x e := by
  obtain ⟨hbits, hrest⟩ := Dec.next_extraFields hv hnext
  have hle := (Nat.le_add_right _ _).trans hrest.le
  have hw := (Nat.le_add_right _ _).trans hle
  have hbc : (c.past w x e).u.bc.Room e.extra := BitCursor.room_of_le hn
  refine ⟨fun k => Dec.needing_past h hbc hle, (Dec.peek_past h hbc hle (Nat.zero_add _).le).trans hbits, ?_⟩
  rw [Dec.drop_past h hbc hw, Nat.zero_add, Dec.pulled_past_self h hw]

theorem micro_lenExt {v : Nat} (hm : e.mode = .lenExt) (hn : e.extra ≤ 25) (hv : v < 2 ^ e.extra)
    (hnext : c.Next w (extraFields v e.extra ++ fs)) :
    micro (c.past w x e) = .advanced (c.past (w + e.extra) x { e with length := e.length + v, mode := .dist }) := by
  obtain ⟨hneed, hpeek, hdrop⟩ := Dec.extra_past (x := x) h hn hv hnext
  have hmicro : micro (c.past w x e) = microLenExt (c.past w x e) := by rw [micro, Dec.past_mode, hm]
  rw [hmicro, microLenExt]
  refine (hneed _).trans ?_
  show Micro.advanced (((((c.past w x e).pulled e.extra 0).drop e.extra).edit
    fun d => { d with length := d.length + ((c.past w x e).pulled e.extra 0).peek e.extra }).goto .dist) = _
  rw [hpeek, hdrop]
  rfl

/-- DIST past a part of the stream. -/
theorem micro_dist (hm : e.mode = .dist) (href : e.dRef = some r) (hreads : e.ht.Reads r f ent kept) (hnext : c.Next w (f :: fs)) :
    let c' := (c.past w x e).pulled f.2 (f.2 - kept)
    (∀ n, ent.op = .dist n →
        micro (c.past w x e) = .advanced ((c'.edit fun d => { d with dist := ent.val, extra := n }).goto .distExt)) ∧
      (ent.op = .invalid → micro (c.past w x e) = .raised .badDistCode c') := by
  obtain ⟨e', hop, hval, hdec⟩ := Dec.decodeVia_past (x := x) h .dists hreads hnext
  rw [← href] at hdec
  have hmicro : micro (c.past w x e) = microDist (c.past w x e) := by rw [micro, Dec.past_mode, hm]
  obtain ⟨hdist, hinvalid⟩ := microDist_of_decode hdec
  rw [hop, ← hmicro] at hdist hinvalid
  refine ⟨fun n hn => ?_, hinvalid⟩
  rw [hdist n hn, hval (by rw [hn]; simp)]

/-- DISTEXT past a part of the stream, with the check of R518. -/
theorem micro_distExt (hsw : c.u.sw.Ok) {v : Nat} (hm : e.mode = .distExt) (hn : e.extra ≤ 25) (hv : v < 2 ^ e.extra)
    (hnext : c.Next w (extraFields v e.extra ++ fs)) :
    micro (c.past w x e) =
      if min c.u.sw.capacity (c.u.sw.whave + x.length) < e.dist + v then
        .raised .distTooFar (c.past (w + e.extra) x { e with dist := e.dist + v })
      else .advanced (c.past (w + e.extra) x { e with dist := e.dist + v, mode := .matchCopy }) := by
  obtain ⟨hneed, hpeek, hdrop⟩ := Dec.extra_past (x := x) h hn hv hnext
  have hmicro : micro (c.past w x e) = microDistExt (c.past w x e) := by rw [micro, Dec.past_mode, hm]
  have hwhave : (c.past (w + e.extra) x e).u.sw.whave = min c.u.sw.capacity (c.u.sw.whave + x.length) :=
    (SlidingWindow.fed_spec hsw x (c.owed x)).2.1
  rw [hmicro, microDistExt, ← hwhave]
  refine (hneed _).trans ?_
  have hedit : (((c.past w x e).pulled e.extra 0).drop e.extra).edit
      (fun d => { d with dist := d.dist + ((c.past w x e).pulled e.extra 0).peek e.extra }) =
        c.past (w + e.extra) x { e with dist := e.dist + v } := by
    rw [hpeek, hdrop]
    rfl
  exact (congrArg (fun c' : Dec => if c'.u.sw.whave < c'.u.dist then Micro.raised .distTooFar c' else .advanced (c'.goto .matchCopy)) hedit)

end

/-! ## Symbols with their extra bits -/

section
variable (h : c.u.bc.Ok) (hroom : c.owed x < c.u.sw.capacity)
include h hroom

section
variable (hm : e.mode = .len) (href : e.llRef = some r) (hreads : e.ht.Reads r f ent 0)
include hm href hreads

theorem reaches_literal (hsw : c.u.sw.Ok) (hop : ent.op = .lit) (hnext : c.Next w (f :: fs)) :
    (c.past w x e).Reaches 1 (c.past (w + f.2) (x ++ [BitVec.ofNat 8 ent.val]) e) := by
  have hmicro := (micro_len h hm href hroom hreads hnext).1 hop
  rw [Nat.sub_zero, Dec.pulled_past_self h ((Nat.le_add_right _ _).trans hnext.le)] at hmicro
  exact .one hmicro (Dec.winDrain_past_put hsw hroom _)

theorem reaches_endOfBlock (hop : ent.op = .eob) (hnext : c.Next w (f :: fs)) :
    (c.past w x e).Reaches 1 (c.past (w + f.2) x { e with mode := .blockEnd }) := by
  have hmicro := (micro_len h hm href hroom hreads hnext).2.1 hop
  rw [Nat.sub_zero, Dec.pulled_past_self h ((Nat.le_add_right _ _).trans hnext.le)] at hmicro
  exact reaches_of_micro hmicro

theorem reaches_length {v n : Nat} (hop : ent.op = .len n) (hn : n ≤ 25) (hv : v < 2 ^ n)
    (hnext : c.Next w (f :: extraFields v n ++ fs)) :
    (c.past w x e).Reaches 2 (c.past (w + f.2 + n) x { e with length := ent.val + v, extra := n, mode := .dist }) := by
  have hmicro := (micro_len h hm href hroom hreads hnext).2.2.1 n hop
  rw [Nat.sub_zero, Dec.pulled_past_self h ((Nat.le_add_right _ _).trans hnext.le)] at hmicro
  have hone := reaches_of_micro (e' := { e with length := ent.val, extra := n, mode := .lenExt }) hmicro
  exact hone.trans (reaches_of_micro (micro_lenExt h rfl hn hv hnext.2))

end

omit hroom in
theorem reaches_distance {n : Nat} (hm : e.mode = .dist) (href : e.dRef = some r) (hreads : e.ht.Reads r f ent 0) (hop : ent.op = .dist n)
    (hnext : c.Next w (f :: fs)) :
    (c.past w x e).Reaches 1 (c.past (w + f.2) x { e with dist := ent.val, extra := n, mode := .distExt }) := by
  have hmicro := (micro_dist (x := x) h hm href hreads hnext).1 n hop
  rw [Nat.sub_zero, Dec.pulled_past_self h ((Nat.le_add_right _ _).trans hnext.le)] at hmicro
  exact reaches_of_micro hmicro

end

/-! ## Matches (R520) -/

section
variable (hsw : c.u.sw.Ok) (hund : c.u.sw.undelivered = 0)
include hsw hund

omit hsw in
theorem owed_lt_capacity (hspace : x.length ≤ c.port.space) : c.owed x < c.u.sw.capacity := by
  rw [(Dec.delivered_of_room hund hspace).2]
  exact c.u.sw.capacity_pos

/-- MATCH puts the byte of the history that stands `dist` back. -/
theorem reaches_matchByte {n : Nat} (hm : e.mode = .matchCopy) (hlen : e.length = n + 1) (h1 : 1 ≤ e.dist)
    (hdist : e.dist ≤ min c.u.sw.capacity (c.u.sw.whave + x.length)) (hspace : x.length ≤ c.port.space) :
    (c.past w x e).Reaches 1 (c.past w (x ++ [(historyOf c.u.sw ++ x).getD ((historyOf c.u.sw ++ x).length - e.dist) 0])
      { e with length := n, mode := if n = 0 then .len else .matchCopy }) := by
  have hroom := owed_lt_capacity hund hspace
  have hbyte : (c.past w x e).u.sw.byteBack e.dist =
      (historyOf c.u.sw ++ x).getD ((historyOf c.u.sw ++ x).length - e.dist) 0 := by
    rw [List.length_append, length_historyOf]
    exact SlidingWindow.byteBack_fed hsw x _ h1 hdist
  rw [← hbyte]
  refine .one ?_ (Dec.winDrain_past_put hsw hroom _)
  have hlen' : e.length - 1 = n := by omega
  have hmicro : micro (c.past w x e) = microMatch (c.past w x e) := by rw [micro, Dec.past_mode, hm]
  rw [hmicro, microMatch, if_neg (by rw [Dec.past_full hroom]; decide)]
  refine congrArg Micro.advanced ?_
  show (if e.length - 1 = 0 then _ else _) = _
  rw [hlen']
  by_cases hn : n = 0
  · rw [if_pos hn, if_pos hn, ← hlen']
    rfl
  · rw [if_neg hn, if_neg hn, ← hlen', ← hm]
    rfl

/-- A match copies its bytes one after another. -/
theorem reaches_matchCopy (n : Nat) {x : List Byte} {e : Inflate} (hm : e.mode = .matchCopy) (hlen : e.length = n + 1) (h1 : 1 ≤ e.dist)
    (hdist : e.dist ≤ min c.u.sw.capacity (c.u.sw.whave + x.length)) (hspace : x.length + (n + 1) ≤ c.port.space) :
    ∃ y, copyBack e.dist (n + 1) (historyOf c.u.sw ++ x) = historyOf c.u.sw ++ (x ++ y) ∧
      (c.past w x e).Reaches (n + 1) (c.past w (x ++ y) { e with length := 0, mode := .len }) := by
  induction n generalizing x e with
  | zero => exact ⟨_, by rw [copyBack, copyBack, List.append_assoc], reaches_matchByte hsw hund hm hlen h1 hdist (by omega)⟩
  | succ n ih =>
    have hone := reaches_matchByte (w := w) hsw hund hm hlen h1 hdist (by omega)
    rw [if_neg (Nat.succ_ne_zero n)] at hone
    rw [copyBack]
    generalize (historyOf c.u.sw ++ x).getD ((historyOf c.u.sw ++ x).length - e.dist) 0 = b at hone ⊢
    have hlength : (x ++ [b]).length = x.length + 1 := by rw [List.length_append, List.length_singleton]
    obtain ⟨y, hcopy, hy⟩ := ih (x := x ++ [b]) (e := { e with length := n + 1, mode := .matchCopy }) rfl rfl h1
      (by simp only [hlength]; omega) (by rw [hlength]; omega)
    rw [List.append_assoc, List.singleton_append] at hcopy hy
    exact ⟨b :: y, by rw [List.append_assoc, hcopy], (hone.trans hy).mono (by omega)⟩

end

end

end Sys2Proof.Machine

/-! # Blocks with codes

The tokens of a block, read through any tables that hold its codes, and its end (R500 to R520). -/

namespace Sys2Proof.Machine

open Sys2Proof.Claim

/-! ## The codes of a block -/

/-- The tables `t` and the references hold the codes of a block: where a symbol has a bit field, a decode reads it as the symbol's
entry. -/
structure DecodeTables.Holds (t : DecodeTables) (lref dref : Option TableRef) (llf ddf : Nat → Nat × Nat) (lroot droot : Nat) : Prop where
  ll : ∃ r, lref = some r ∧ ∀ sym < 288, (llf sym).2 ≠ 0 →
    t.Reads r (llf sym) (symbolEntry .lens sym 0) ((symbolEntry .lens sym 0).kept lroot (llf sym).2)
  dd : ∃ r, dref = some r ∧ ∀ sym < 32, (ddf sym).2 ≠ 0 →
    t.Reads r (ddf sym) (symbolEntry .dists sym 0) ((symbolEntry .dists sym 0).kept droot (ddf sym).2)

section
variable {t : DecodeTables} {lref dref : Option TableRef} {llf ddf : Nat → Nat × Nat} {lroot droot sym : Nat}
  (hh : t.Holds lref dref llf ddf lroot droot)
include hh

theorem DecodeTables.Holds.literal (h : sym < 256) (hf : (llf sym).2 ≠ 0) : ∃ r, lref = some r ∧ t.Reads r (llf sym) ⟨.lit, 0, sym⟩ 0 := by
  obtain ⟨r, href, hreads⟩ := hh.ll
  have he : symbolEntry .lens sym 0 = ⟨.lit, 0, sym⟩ := if_pos h
  exact ⟨r, href, by simpa [he, Entry.kept] using hreads sym (by omega) hf⟩

theorem DecodeTables.Holds.endOfBlock (hf : (llf 256).2 ≠ 0) : ∃ r, lref = some r ∧ t.Reads r (llf 256) ⟨.eob, 0, 0⟩ 0 := by
  obtain ⟨r, href, hreads⟩ := hh.ll
  exact ⟨r, href, by simpa [symbolEntry, Entry.kept] using hreads 256 (by decide) hf⟩

theorem DecodeTables.Holds.length (h : sym < 29) (hf : (llf (257 + sym)).2 ≠ 0) :
    ∃ r, lref = some r ∧ t.Reads r (llf (257 + sym)) ⟨.len (tableAt lenExtra sym), 0, tableAt lenBase sym⟩ 0 := by
  obtain ⟨r, href, hreads⟩ := hh.ll
  have he : symbolEntry .lens (257 + sym) 0 = ⟨.len (tableAt lenExtra sym), 0, tableAt lenBase sym⟩ := by
    rw [symbolEntry, if_neg (by omega), if_neg (by omega), if_pos (by omega), Nat.add_sub_cancel_left]
  exact ⟨r, href, by simpa [he, Entry.kept] using hreads (257 + sym) (by omega) hf⟩

theorem DecodeTables.Holds.distance (h : sym < 30) (hf : (ddf sym).2 ≠ 0) :
    ∃ r, dref = some r ∧ t.Reads r (ddf sym) ⟨.dist (tableAt distExtra sym), 0, tableAt distBase sym⟩ 0 := by
  obtain ⟨r, href, hreads⟩ := hh.dd
  have he : symbolEntry .dists sym 0 = ⟨.dist (tableAt distExtra sym), 0, tableAt distBase sym⟩ := if_pos h
  exact ⟨r, href, by simpa [he, Entry.kept] using hreads sym (by omega) hf⟩

theorem DecodeTables.Holds.badLength (h : sym = 286 ∨ sym = 287) (hf : (llf sym).2 ≠ 0) :
    ∃ r, lref = some r ∧ t.Reads r (llf sym) ⟨.invalid, 0, 0⟩ (undropped lroot (llf sym).2) := by
  obtain ⟨r, href, hreads⟩ := hh.ll
  have he : symbolEntry .lens sym 0 = ⟨.invalid, 0, 0⟩ := by
    rw [symbolEntry, if_neg (by omega), if_neg (by omega), if_neg (by omega)]
  exact ⟨r, href, by simpa [he, Entry.kept] using hreads sym (by omega) hf⟩

theorem DecodeTables.Holds.badDistance (h : sym = 30 ∨ sym = 31) (hf : (ddf sym).2 ≠ 0) :
    ∃ r, dref = some r ∧ t.Reads r (ddf sym) ⟨.invalid, 0, 0⟩ (undropped droot (ddf sym).2) := by
  obtain ⟨r, href, hreads⟩ := hh.dd
  have he : symbolEntry .dists sym 0 = ⟨.invalid, 0, 0⟩ := by rw [symbolEntry, if_neg (by omega)]
  exact ⟨r, href, by simpa [he, Entry.kept] using hreads sym (by omega) hf⟩

end

/-! ## Bit fields that fit -/

/-- The value of each bit field fits its width. -/
def FieldsFit (fs : List (Nat × Nat)) : Prop := ∀ f ∈ fs, f.1 < 2 ^ f.2

section
variable {llf ddf : Nat → Nat × Nat} {fs gs : List (Nat × Nat)} {lc dist : Nat}

theorem fieldsFit_append : FieldsFit (fs ++ gs) ↔ FieldsFit fs ∧ FieldsFit gs := List.forall_mem_append

theorem fieldsFit_cons {f : Nat × Nat} : FieldsFit (f :: fs) ↔ f.1 < 2 ^ f.2 ∧ FieldsFit fs := List.forall_mem_cons

theorem fieldsFit_nil : FieldsFit [] := List.forall_mem_nil _

theorem fieldsFit_singleton {f : Nat × Nat} (h : f.1 < 2 ^ f.2) : FieldsFit [f] := fieldsFit_cons.2 ⟨h, fieldsFit_nil⟩

theorem fits_extraFields {v n : Nat} (h : v < 2 ^ n) : FieldsFit (extraFields v n) := by
  unfold extraFields
  split_ifs
  · exact fieldsFit_nil
  · exact fieldsFit_singleton h

theorem fits_lengthFields (hl : ∀ sym, (llf sym).1 < 2 ^ (llf sym).2) (hlc : lc < 256) : FieldsFit (lengthFields llf lc) := by
  obtain ⟨-, hle, hlt⟩ := lengthCode_spec hlc
  exact fieldsFit_cons.2 ⟨hl _, fits_extraFields (by omega)⟩

theorem fits_distFields (hd : ∀ sym, (ddf sym).1 < 2 ^ (ddf sym).2) (h1 : 1 ≤ dist) (h2 : dist ≤ 32768) : FieldsFit (distFields ddf dist) := by
  obtain ⟨-, hle, hlt⟩ := distCode_spec h1 h2
  exact fieldsFit_cons.2 ⟨hd _, fits_extraFields (by omega)⟩

theorem Dec.next_of_streams {s : State} {d : Inflate} (hfits : FieldsFit fs) (h : streams d s fs) : Dec.Next ⟨d, s.startPort⟩ 0 fs := by
  refine Dec.next_of_mod hfits (by rw [Nat.zero_add]; exact h.1) ?_
  rw [Nat.pow_zero, Nat.div_one]
  exact h.2

end

/-! ## Tokens, one after another -/

/-- The symbols of a token have bit fields. -/
def fieldCoded (llf ddf : Nat → Nat × Nat) (t : Nat × Nat) : Prop :=
  (t.1 = 0 → (llf t.2).2 ≠ 0) ∧ (t.1 ≠ 0 → (llf (257 + lengthCode t.2)).2 ≠ 0 ∧ (ddf (distCode (t.1 - 1))).2 ≠ 0)

theorem replayable_append {cap : Nat} {toks more : List (Nat × Nat)} {h : List Byte} (hr : replayable cap h.length (toks ++ more)) :
    replayable cap h.length toks ∧ replayable cap (replay h toks).length more := by
  induction toks generalizing h with
  | nil => exact ⟨trivial, hr⟩
  | cons t toks ih =>
    obtain ⟨hlt, hrest⟩ := hr
    rw [replayable, replay]
    split_ifs at hrest ⊢
    · rw [← List.length_singleton (a := BitVec.ofNat 8 t.2), ← List.length_append] at hrest ⊢
      exact ⟨⟨hlt, (ih hrest).1⟩, (ih hrest).2⟩
    · rw [Nat.add_assoc, ← length_copyBack t.1] at hrest ⊢
      exact ⟨⟨hlt, hrest.1, (ih hrest.2).1⟩, (ih hrest.2).2⟩

/-- The bit fields of tokens. -/
def tokensFields (llf ddf : Nat → Nat × Nat) (toks : List (Nat × Nat)) : List (Nat × Nat) :=
  toks.flatMap fun t => tokenFields llf ddf t.1 t.2

theorem tokensFields_cons (llf ddf : Nat → Nat × Nat) (t : Nat × Nat) (toks : List (Nat × Nat)) :
    tokensFields llf ddf (t :: toks) = tokenFields llf ddf t.1 t.2 ++ tokensFields llf ddf toks := rfl

theorem fits_tokensFields {llf ddf : Nat → Nat × Nat} (hl : ∀ sym, (llf sym).1 < 2 ^ (llf sym).2) (hd : ∀ sym, (ddf sym).1 < 2 ^ (ddf sym).2)
    {cap : Nat} (hcap : cap ≤ 32768) {n : Nat} {toks : List (Nat × Nat)} (h : replayable cap n toks) : FieldsFit (tokensFields llf ddf toks) := by
  induction toks generalizing n with
  | nil => exact fieldsFit_nil
  | cons t toks ih =>
    obtain ⟨hlt, hrest⟩ := h
    rw [tokensFields_cons, fieldsFit_append, tokenFields]
    split_ifs at hrest ⊢ with ht
    · exact ⟨fieldsFit_singleton (hl _), ih hrest⟩
    · exact ⟨fieldsFit_append.2 ⟨fits_lengthFields hl hlt, fits_distFields hd (by omega) (by omega)⟩, ih hrest.2⟩

theorem fits_bodyFields {llf ddf : Nat → Nat × Nat} (hl : ∀ sym, (llf sym).1 < 2 ^ (llf sym).2) (hd : ∀ sym, (ddf sym).1 < 2 ^ (ddf sym).2)
    {cap : Nat} (hcap : cap ≤ 32768) {n : Nat} {toks : List (Nat × Nat)} (h : replayable cap n toks) : FieldsFit (bodyFields llf ddf toks) :=
  fieldsFit_append.2 ⟨fits_tokensFields hl hd hcap h, fieldsFit_singleton (hl 256)⟩

section
variable {c : Dec} {w : Nat} {x : List Byte} {e : Inflate} {fs : List (Nat × Nat)} {llf ddf : Nat → Nat × Nat} {lroot droot : Nat}
  (h : c.u.bc.Ok) (hsw : c.u.sw.Ok) (hund : c.u.sw.undelivered = 0) (hh : e.ht.Holds e.llRef e.dRef llf ddf lroot droot)
include h hund hh

/-- A match's length, from the symbol `257 + code` and extra bits of the value `v`. -/
theorem reaches_lengthSymbol {code v : Nat} (hm : e.mode = .len) (hspace : x.length ≤ c.port.space) (hcode : code < 29)
    (hv : v < 2 ^ tableAt lenExtra code) (hf : (llf (257 + code)).2 ≠ 0)
    (hnext : c.Next w (llf (257 + code) :: extraFields v (tableAt lenExtra code) ++ fs)) :
    (c.past w x e).Reaches 2 (c.past (w + packedWidth (llf (257 + code) :: extraFields v (tableAt lenExtra code))) x
      { e with length := tableAt lenBase code + v, extra := tableAt lenExtra code, mode := .dist }) := by
  obtain ⟨r, href, hreads⟩ := hh.length hcode hf
  have hextra : ∀ code < 29, tableAt lenExtra code ≤ 25 := by decide
  have hr := reaches_length h (owed_lt_capacity hund hspace) hm href hreads rfl (hextra code hcode) hv hnext
  rwa [packedWidth, packedWidth_extraFields, ← Nat.add_assoc]

omit hund in
/-- A match's distance up to its extra bits. -/
theorem reaches_distSymbol {code : Nat} (hm : e.mode = .dist) (hcode : code < 30) (hf : (ddf code).2 ≠ 0) (hnext : c.Next w (ddf code :: fs)) :
    (c.past w x e).Reaches 1 (c.past (w + (ddf code).2) x
      { e with dist := tableAt distBase code, extra := tableAt distExtra code, mode := .distExt }) := by
  obtain ⟨r, href, hreads⟩ := hh.distance hcode hf
  exact reaches_distance h hm href hreads rfl hnext

/-- A match up to its distance's extra bits. -/
theorem reaches_distExt {code v lc dist : Nat} (hm : e.mode = .len) (hspace : x.length ≤ c.port.space) (hcode : code < 29)
    (hv : v < 2 ^ tableAt lenExtra code) (hlen : tableAt lenBase code + v = lc + 3) (h1 : 1 ≤ dist) (h2 : dist ≤ 32768)
    (hf : (llf (257 + code)).2 ≠ 0) (hf' : (ddf (distCode (dist - 1))).2 ≠ 0)
    (hnext : c.Next w (llf (257 + code) :: extraFields v (tableAt lenExtra code) ++ (distFields ddf dist ++ fs))) :
    let w' := w + packedWidth (llf (257 + code) :: extraFields v (tableAt lenExtra code)) + (ddf (distCode (dist - 1))).2
    (c.past w x e).Reaches 3 (c.past w' x { e with
        length := lc + 3, dist := tableAt distBase (distCode (dist - 1)), extra := tableAt distExtra (distCode (dist - 1)), mode := .distExt }) ∧
      c.Next w' (extraFields (dist - tableAt distBase (distCode (dist - 1))) (tableAt distExtra (distCode (dist - 1))) ++ fs) := by
  intro w'
  have hlength := reaches_lengthSymbol h hund hh hm hspace hcode hv hf hnext
  have hnext' := (Dec.next_append.1 hnext).2
  rw [distFields_eq, List.cons_append] at hnext'
  have hsymbol := reaches_distSymbol (x := x)
    (e := { e with length := tableAt lenBase code + v, extra := tableAt lenExtra code, mode := .dist }) h hh rfl
    (distCode_spec h1 h2).1 hf' hnext'
  rw [hlen] at hlength hsymbol
  exact ⟨hlength.trans hsymbol, hnext'.2⟩

include hsw

omit hund hh in
/-- The check of R518, past a match's distance. -/
theorem micro_distance {l dist : Nat} (h1 : 1 ≤ dist) (h2 : dist ≤ 32768)
    (hnext : c.Next w (extraFields (dist - tableAt distBase (distCode (dist - 1))) (tableAt distExtra (distCode (dist - 1))) ++ fs)) :
    micro (c.past w x { e with
        length := l, dist := tableAt distBase (distCode (dist - 1)), extra := tableAt distExtra (distCode (dist - 1)), mode := .distExt }) =
      if min c.u.sw.capacity (c.u.sw.whave + x.length) < dist then
        .raised .distTooFar (c.past (w + tableAt distExtra (distCode (dist - 1))) x
          { e with length := l, dist := dist, extra := tableAt distExtra (distCode (dist - 1)), mode := .distExt })
      else .advanced (c.past (w + tableAt distExtra (distCode (dist - 1))) x
        { e with length := l, dist := dist, extra := tableAt distExtra (distCode (dist - 1)), mode := .matchCopy }) := by
  obtain ⟨hcode, hbase, hlt⟩ := distCode_spec h1 h2
  have hextra : ∀ code < 30, tableAt distExtra code ≤ 25 := by decide
  have hbits : dist - tableAt distBase (distCode (dist - 1)) < 2 ^ tableAt distExtra (distCode (dist - 1)) := by omega
  have hmicro := micro_distExt (x := x) (e := { e with
    length := l, dist := tableAt distBase (distCode (dist - 1)), extra := tableAt distExtra (distCode (dist - 1)), mode := .distExt })
    h hsw rfl (hextra _ hcode) hbits hnext
  simp only [Nat.add_sub_cancel' hbase] at hmicro
  exact hmicro

/-- A match, its length from the symbol `257 + code` and extra bits of the value `v`. -/
theorem reaches_match {code v lc dist : Nat} (hm : e.mode = .len) (hcode : code < 29) (hv : v < 2 ^ tableAt lenExtra code)
    (hlen : tableAt lenBase code + v = lc + 3) (h1 : 1 ≤ dist) (hdist : dist ≤ min c.u.sw.capacity (c.u.sw.whave + x.length))
    (hspace : x.length + (lc + 3) ≤ c.port.space) (hf : (llf (257 + code)).2 ≠ 0) (hf' : (ddf (distCode (dist - 1))).2 ≠ 0)
    (hnext : c.Next w (llf (257 + code) :: extraFields v (tableAt lenExtra code) ++ (distFields ddf dist ++ fs))) :
    ∃ y, copyBack dist (lc + 3) (historyOf c.u.sw ++ x) = historyOf c.u.sw ++ (x ++ y) ∧
      (c.past w x e).Reaches (lc + 7)
        (c.past (w + packedWidth (llf (257 + code) :: extraFields v (tableAt lenExtra code) ++ distFields ddf dist)) (x ++ y)
          { e with length := 0, dist := dist, extra := tableAt distExtra (distCode (dist - 1)), mode := .len }) := by
  have hcap : c.u.sw.capacity ≤ 2 ^ 15 := Nat.pow_le_pow_right two_pos hsw.wbits_high
  obtain ⟨hsymbols, hnext'⟩ := reaches_distExt (x := x) h hund hh hm (by omega) hcode hv hlen h1 (by omega) hf hf' hnext
  have hdistance := micro_distance (x := x) (e := e) (l := lc + 3) h hsw h1 (by omega) hnext'
  rw [if_neg (by omega)] at hdistance
  obtain ⟨y, hcopy, hy⟩ := reaches_matchCopy
    (w := w + packedWidth (llf (257 + code) :: extraFields v (tableAt lenExtra code)) + (ddf (distCode (dist - 1))).2 +
      tableAt distExtra (distCode (dist - 1)))
    (e := { e with length := lc + 3, dist := dist, extra := tableAt distExtra (distCode (dist - 1)), mode := .matchCopy }) hsw hund (lc + 2)
    (x := x) rfl rfl h1 hdist (by omega)
  refine ⟨y, hcopy, ?_⟩
  have hwidth : w + packedWidth (llf (257 + code) :: extraFields v (tableAt lenExtra code) ++ distFields ddf dist) =
      w + packedWidth (llf (257 + code) :: extraFields v (tableAt lenExtra code)) + (ddf (distCode (dist - 1))).2 +
        tableAt distExtra (distCode (dist - 1)) := by
    simp only [packedWidth_append, distFields_eq, packedWidth, packedWidth_extraFields]
    omega
  rw [hwidth]
  exact ((hsymbols.trans (reaches_of_micro hdistance)).trans hy).mono (by omega)

omit hh in
/-- The tokens of a block. -/
theorem reaches_tokens (toks : List (Nat × Nat)) {w : Nat} {x : List Byte} {e : Inflate} (hh : e.ht.Holds e.llRef e.dRef llf ddf lroot droot)
    (hm : e.mode = .len) (hrep : replayable c.u.sw.capacity (c.u.sw.whave + x.length) toks) (hcoded : ∀ t ∈ toks, fieldCoded llf ddf t)
    (hspace : (replay (historyOf c.u.sw ++ x) toks).length ≤ c.u.sw.whave + c.port.space)
    (hnext : c.Next w (tokensFields llf ddf toks ++ fs)) :
    ∃ y l ds n, replay (historyOf c.u.sw ++ x) toks = historyOf c.u.sw ++ y ∧
      (c.past w x e).Reaches (300 * packedWidth (tokensFields llf ddf toks))
        (c.past (w + packedWidth (tokensFields llf ddf toks)) y { e with length := l, dist := ds, extra := n, mode := .len }) := by
  induction toks generalizing w x e with
  | nil =>
    refine ⟨x, e.length, e.dist, e.extra, rfl, ?_⟩
    rw [← hm]
    exact .refl _
  | cons t toks ih =>
    obtain ⟨⟨hlit, hmatch⟩, hcodeds⟩ := List.forall_mem_cons.1 hcoded
    obtain ⟨hlc, hrep⟩ := hrep
    rw [tokensFields_cons, List.append_assoc] at hnext
    rw [replay] at hspace ⊢
    rw [tokensFields_cons, packedWidth_append, ← Nat.add_assoc]
    have hgrown := (length_le_length_replay _ toks).trans hspace
    by_cases ht : t.1 = 0
    · rw [if_pos ht] at hrep hspace hgrown ⊢
      rw [tokenFields, if_pos ht] at hnext ⊢
      obtain ⟨r, href, hreads⟩ := hh.literal hlc (hlit ht)
      rw [List.append_assoc] at hspace hgrown ⊢
      simp only [List.length_append, List.length_singleton, length_historyOf] at hgrown
      have hone := reaches_literal h (owed_lt_capacity hund (x := x) (by omega)) hm href hreads hsw rfl hnext
      obtain ⟨y, l, ds, n, hreplay, hy⟩ := ih hh hm (by rwa [List.length_append]) hcodeds hspace hnext.2
      have hpos := Nat.pos_of_ne_zero (hlit ht)
      exact ⟨y, l, ds, n, hreplay, (hone.trans hy).mono (by simp only [packedWidth]; omega)⟩
    · rw [if_neg ht] at hrep hspace hgrown ⊢
      rw [tokenFields, if_neg ht, lengthFields_eq] at hnext ⊢
      obtain ⟨hll, hdd⟩ := hmatch ht
      obtain ⟨hcode, hbase, hlt⟩ := lengthCode_spec hlc
      rw [length_copyBack, List.length_append, length_historyOf] at hgrown
      rw [List.append_assoc] at hnext
      obtain ⟨y, hcopy, hy⟩ := reaches_match (x := x) h hsw hund hh hm hcode (by omega) (Nat.add_sub_cancel' hbase)
        (Nat.one_le_iff_ne_zero.2 ht) hrep.1 (by omega) hll hdd hnext
      have hlength := congrArg List.length hcopy
      simp only [length_copyBack, List.length_append] at hlength
      rw [hcopy] at hspace ⊢
      rw [← List.append_assoc] at hnext
      obtain ⟨z, l, ds, n, hreplay, hz⟩ := ih
        (e := { e with length := 0, dist := t.1, extra := tableAt distExtra (distCode (t.1 - 1)), mode := .len }) hh rfl
        (by rw [List.length_append]; convert hrep.2 using 1; omega) hcodeds hspace
        (Dec.next_append.1 hnext).2
      have hpos := Nat.pos_of_ne_zero hll
      exact ⟨z, l, ds, n, hreplay, (hy.trans hz).mono (by simp only [packedWidth_append, packedWidth]; omega)⟩

omit hh in
/-- The tokens of a block and its end. -/
theorem reaches_body (toks : List (Nat × Nat)) {w : Nat} {x : List Byte} {e : Inflate} (hh : e.ht.Holds e.llRef e.dRef llf ddf lroot droot)
    (hm : e.mode = .len) (hrep : replayable c.u.sw.capacity (c.u.sw.whave + x.length) toks) (hcoded : ∀ t ∈ toks, fieldCoded llf ddf t)
    (heob : (llf 256).2 ≠ 0) (hspace : (replay (historyOf c.u.sw ++ x) toks).length ≤ c.u.sw.whave + c.port.space)
    (hnext : c.Next w (bodyFields llf ddf toks)) :
    ∃ y e', replay (historyOf c.u.sw ++ x) toks = historyOf c.u.sw ++ y ∧ e'.mode = .blockEnd ∧ e'.last = e.last ∧
      (c.past w x e).Reaches (300 * packedWidth (bodyFields llf ddf toks)) (c.past (w + packedWidth (bodyFields llf ddf toks)) y e') := by
  obtain ⟨y, l, ds, n, hreplay, hy⟩ := reaches_tokens h hsw hund toks hh hm hrep hcoded hspace hnext
  obtain ⟨r, href, hreads⟩ := hh.endOfBlock heob
  rw [hreplay, List.length_append, length_historyOf] at hspace
  have hend := reaches_endOfBlock (e := { e with length := l, dist := ds, extra := n, mode := .len }) h (owed_lt_capacity hund (x := y) (by omega))
    rfl href hreads rfl (Dec.next_append.1 hnext).2
  refine ⟨y, { e with length := l, dist := ds, extra := n, mode := .blockEnd }, hreplay, rfl, rfl, ?_⟩
  have hpos := Nat.pos_of_ne_zero heob
  have hwidth : packedWidth (bodyFields llf ddf toks) = packedWidth (tokensFields llf ddf toks) + (llf 256).2 := packedWidth_append ..
  rw [hwidth, ← Nat.add_assoc]
  exact (hy.trans hend).mono (by omega)

end

end Sys2Proof.Machine

/-! # What INF.STEP answers for a block

From the state the loop reaches at a block's end, or where it raises, to the answer as the statements write it (R500, R502, R776). -/

namespace Sys2Proof.Machine

open Sys2Proof.Claim

theorem laidOut_holds {t : DecodeTables} {lref dref : TableRef} {ll dd : List Nat} (hll : laidOut t lref .lens ll)
    (hdd : laidOut t dref .dists dd) (h15 : ∀ l ∈ ll, l ≤ 15) (h15' : ∀ l ∈ dd, l ≤ 15) :
    t.Holds (some lref) (some dref) (canonicalField ll) (canonicalField dd) lref.root dref.root :=
  ⟨⟨lref, rfl, fun _ _ hs => reads_of_laidOut hll h15 hs⟩, ⟨dref, rfl, fun _ _ hs => reads_of_laidOut hdd h15' hs⟩⟩

theorem canonicalField_fits (lens : List Nat) (sym : Nat) : (canonicalField lens sym).1 < 2 ^ (canonicalField lens sym).2 := bitrev_lt ..

theorem canonicalField_fixedLL {sym : Nat} (h : sym < 288) : canonicalField fixedLLLens sym = fixedLLField sym := by
  rw [canonicalField, canonicalCode_fixedLL h, fixedLLLens_getD h, fixedLLField]

theorem canonicalField_fixedD {sym : Nat} (h : sym < 32) : canonicalField (List.replicate 32 5) sym = fixedDistField sym := by
  have hlen : (List.replicate 32 5).getD sym 0 = 5 := by rw [List.getD_replicate _ h]
  rw [canonicalField, canonicalCode_replicate h, hlen, fixedDistField]

theorem fixed_holds (t : DecodeTables) : t.Holds (some fixedLLRef) (some fixedDRef) fixedLLField fixedDistField 9 5 := by
  refine ⟨⟨_, rfl, fun sym hsym hs => ?_⟩, ⟨_, rfl, fun sym hsym hs => ?_⟩⟩
  · rw [← canonicalField_fixedLL hsym] at hs ⊢
    exact reads_of_laidOut (laidOut_fixedLL t) (fun l hl => (fixedLLLens_le l hl).trans (by decide)) hs
  · rw [← canonicalField_fixedD hsym] at hs ⊢
    exact reads_of_laidOut (laidOut_fixedD t) (fun l hl => (List.eq_of_mem_replicate hl).le.trans (by decide)) hs

theorem fixedLLField_fits (sym : Nat) : (fixedLLField sym).1 < 2 ^ (fixedLLField sym).2 := bitrev_lt ..

theorem fixedDistField_fits (sym : Nat) : (fixedDistField sym).1 < 2 ^ (fixedDistField sym).2 := bitrev_lt ..

theorem fixedLLField_width (sym : Nat) : (fixedLLField sym).2 ≠ 0 := by
  show fixedLLLen sym ≠ 0
  unfold fixedLLLen
  split_ifs <;> decide

theorem fieldCoded_fixed (t : Nat × Nat) : fieldCoded fixedLLField fixedDistField t :=
  ⟨fun _ => fixedLLField_width _, fun _ => ⟨fixedLLField_width _, by show 5 ≠ 0; decide⟩⟩

/-! ## The end of a block (R500, R502) -/

/-- Where the stream goes on with the bit fields `fs`, the loop reads them to the end of a block, and the bytes of the tokens are
delivered. -/
def Dec.ReadsBlock (c : Dec) (last : Bool) (fs toks : List (Nat × Nat)) : Prop :=
  c.Next 0 fs → ∃ x e, replay (historyOf c.u.sw) toks = historyOf c.u.sw ++ x ∧ e.mode = .blockEnd ∧ e.last = last ∧
    c.winDrain.Reaches (300 * packedWidth fs) (c.past (packedWidth fs) x e)

section
variable {s : State} {d e : Inflate} {fs toks : List (Nat × Nat)} {x : List Byte} {last : Bool} (h : s.isInflate d) (hok : d.bc.Ok) (hsw : d.sw.Ok)
  (hund : d.sw.undelivered = 0) (hmode : d.mode ≠ .done ∧ d.mode ≠ .needDict) (hspace : x.length ≤ s.port.space)
include h hok hsw hund hmode hspace

section
variable (hr : (Dec.mk d s.startPort).winDrain.Reaches (300 * packedWidth fs) ((Dec.mk d s.startPort).past (packedWidth fs) x e))
  (hm : e.mode = .blockEnd) (hle : packedWidth fs ≤ (Dec.mk d s.startPort).avail)
  (hx : replay (historyOf d.sw) toks = historyOf d.sw ++ x)
include hr hm hle hx

theorem decodesTo_of_reaches (hlast : e.last = true) : decodesTo s d fs toks := by
  obtain ⟨hdelivered, howed⟩ := Dec.delivered_of_room (c := ⟨d, s.startPort⟩) hund hspace
  have hdone := completes_of_finalBlock h hmode.1 hmode.2 hok hr (by omega) hm hlast hle howed
  have hout : (replay (historyOf d.sw) toks).drop d.sw.whave = x := by rw [hx, List.drop_left' (length_historyOf _)]
  rw [hdelivered] at hdone
  have hlen := length_take_pullCount (bc := d.bc) hle
  have hbits := le_bitCount_add_pullCount d.bc (packedWidth fs)
  have hpad : (d.bc.bitCount + 8 * (s.port.input.take (pullCount d.bc (packedWidth fs))).length - packedWidth fs) % 8 =
      (Dec.mk d s.startPort).padding (packedWidth fs) := by
    rw [State.startPort_input] at hlen
    rw [hlen]
    show _ = (d.bc.bitCount + 7 * packedWidth fs) % 8
    omega
  rw [decodesTo, hout]
  refine ⟨_, hdone, rfl, ?_, ?_⟩
  · have hpull := (Dec.mk d s.startPort).pullCount_padding (packedWidth fs)
    simp only [Dec.past, hpull, hpad]
    rfl
  · simp only [Dec.past, howed]
    exact SlidingWindow.fed_delivers hsw x

theorem awaitsHeader_of_reaches (hlast : e.last = false) (hpos : 0 < packedWidth fs)
    (hlt : d.bc.bitCount + 8 * s.port.input.length < packedWidth fs + 3) : awaitsHeader s d fs toks := by
  obtain ⟨hdelivered, howed⟩ := Dec.delivered_of_room (c := ⟨d, s.startPort⟩) hund hspace
  have hout : (replay (historyOf d.sw) toks).drop d.sw.whave = x := by rw [hx, List.drop_left' (length_historyOf _)]
  have hend := reaches_nextHeader (c := ⟨d, s.startPort⟩) (w := packedWidth fs) (x := x) hm hlast
  have hwait := completes_of_starvedHeader h hmode.1 hmode.2 hok (hr.trans hend) (by omega) rfl hpos hle hlt
  rw [hdelivered] at hwait
  rw [awaitsHeader, hout]
  refine ⟨_, hwait, rfl, hlast, rfl, ?_⟩
  simp only [Dec.past, howed]
  exact SlidingWindow.fed_delivers hsw x

end

omit hspace
variable (hblock : Dec.ReadsBlock ⟨d, s.startPort⟩ last fs toks)
include hblock

/-- The block after a block that is not final, with the fixed codes. -/
theorem decodesTo_of_readsBlock {more : List (Nat × Nat)} (hfits : FieldsFit fs) (hrep : replayable (2 ^ d.sw.wbits) d.sw.whave (toks ++ more))
    (hspace : (replay (historyOf d.sw) (toks ++ more)).length - d.sw.whave ≤ s.port.space) (hlast : last = false)
    (hstreams : streams d s (fs ++ [(3, 3)] ++ bodyFields fixedLLField fixedDistField more)) :
    decodesTo s d (fs ++ [(3, 3)] ++ bodyFields fixedLLField fixedDistField more) (toks ++ more) := by
  have hcap : 2 ^ d.sw.wbits ≤ 2 ^ 15 := Nat.pow_le_pow_right two_pos hsw.wbits_high
  have hmoreFits := fits_bodyFields fixedLLField_fits fixedDistField_fits hcap
    (replayable_append (h := historyOf d.sw) (by rwa [length_historyOf])).2
  have hnext := Dec.next_of_streams (fieldsFit_append.2 ⟨fieldsFit_append.2 ⟨hfits, fieldsFit_singleton (by decide)⟩, hmoreFits⟩) hstreams
  obtain ⟨hhead, hmore⟩ := Dec.next_append.1 hnext
  obtain ⟨hfs, htype⟩ := Dec.next_append.1 hhead
  rw [packedWidth_append, Nat.zero_add] at hmore
  rw [Nat.zero_add] at htype
  obtain ⟨x, e, hx, hm, hlast', hr⟩ := hblock hfs
  have hend := reaches_nextHeader (c := ⟨d, s.startPort⟩) (w := packedWidth fs) (x := x) hm (hlast'.trans hlast)
  have hfixed := micro_type (c := ⟨d, s.startPort⟩) (x := x) (e := { e with mode := .type }) (t := 1) (b := 1) hok rfl (by decide) htype
  rw [if_neg (by decide), if_pos rfl] at hfixed
  rw [replay_append, hx] at hspace
  have hrep' := (replayable_append (h := historyOf d.sw) (by rwa [length_historyOf])).2
  rw [hx, List.length_append, length_historyOf] at hrep'
  obtain ⟨y, e', hy, hm', hlast'', hr'⟩ := reaches_body (c := ⟨d, s.startPort⟩)
    (e := { e with last := true, llRef := some fixedLLRef, dRef := some fixedDRef, mode := .len }) hok hsw hund more (fixed_holds _) rfl hrep'
    (fun t _ => fieldCoded_fixed t) (fixedLLField_width _) (by show _ ≤ d.sw.whave + s.port.space; omega) hmore
  have hlength := congrArg List.length hy
  rw [List.length_append, length_historyOf] at hlength
  have hall := ((hr.trans hend).trans (reaches_of_micro hfixed)).trans hr'
  have hwidth : packedWidth (fs ++ [(3, 3)] ++ bodyFields fixedLLField fixedDistField more) =
      packedWidth fs + packedWidth [(3, 3)] + packedWidth (bodyFields fixedLLField fixedDistField more) := by
    rw [packedWidth_append, packedWidth_append]
  have hthree : packedWidth [(3, 3)] = 3 := rfl
  rw [← hwidth] at hall
  refine decodesTo_of_reaches (x := y) h hok hsw hund hmode ?_ (hall.mono (by rw [hwidth]; omega)) hm' ((Nat.zero_add _).symm.trans_le hnext.le)
    (by rw [replay_append, hx, hy]) hlast''
  change (replay (historyOf d.sw ++ x) more).length = d.sw.whave + y.length at hlength
  change (replay (historyOf d.sw ++ x) more).length - d.sw.whave ≤ s.port.space at hspace
  omega

/-- A block that the loop reads to its end ends the stream, or the next header follows. -/
theorem blockEnds_of_readsBlock (hfits : FieldsFit fs) (hpos : 0 < packedWidth fs)
    (hspace : (replay (historyOf d.sw) toks).length - d.sw.whave ≤ s.port.space) : blockEnds s d last fs toks := by
  have hroom : ∀ {y}, replay (historyOf d.sw) toks = historyOf d.sw ++ y → y.length ≤ s.port.space := fun hy => by
    rw [hy, List.length_append, length_historyOf] at hspace
    omega
  cases last with
  | true =>
    intro hstreams
    have hnext := Dec.next_of_streams hfits hstreams
    obtain ⟨x, e, hx, hm, hlast, hr⟩ := hblock hnext
    exact decodesTo_of_reaches h hok hsw hund hmode (hroom hx) hr hm ((Nat.zero_add _).symm.trans_le hnext.le) hx hlast
  | false =>
    refine ⟨fun more hrep hspace => decodesTo_of_readsBlock h hok hsw hund hmode hblock hfits hrep hspace rfl, fun hstreams hlt => ?_⟩
    have hnext := Dec.next_of_streams hfits hstreams
    obtain ⟨x, e, hx, hm, hlast, hr⟩ := hblock hnext
    exact awaitsHeader_of_reaches h hok hsw hund hmode (hroom hx) hr hm ((Nat.zero_add _).symm.trans_le hnext.le) hx hlast hpos hlt

end

/-! ## DataErrors (R776) -/

theorem Latch.data_word (r : DataReason) : (Latch.data r).word.toNat = r.code * 16 + 6 := by
  cases r <;> rfl

section
variable {s : State} {d e e' : Inflate} {fs : List (Nat × Nat)} {x : List Byte} {r : DataReason} {w w' n kept k : Nat}
  (h : s.isInflate d) (hok : d.bc.Ok) (hsw : d.sw.Ok) (hund : d.sw.undelivered = 0) (hmode : d.mode ≠ .done ∧ d.mode ≠ .needDict)
  (hspace : x.length ≤ s.port.space) (hr : (Dec.mk d s.startPort).winDrain.Reaches k ((Dec.mk d s.startPort).past w x e))
  (hk : k ≤ 1000 * ((Dec.mk d s.startPort).avail + 1))
include h hok hund hmode hspace hr hk

/-- The state of a raise, from the micro-step that makes it. -/
theorem fails_of_reaches (hle : w' ≤ (Dec.mk d s.startPort).avail)
    (hm : micro ((Dec.mk d s.startPort).past w x e) = .raised r (((Dec.mk d s.startPort).past w' x e').pulled n kept)) :
    fails .infStep s (.data r) (Latch.data r).word.toNat
      (.inflate { e' with
        mode := .error
        bc := cursorAfter d.bc (s.port.input.take (pullCount d.bc (w' + n))) (w' + kept)
        sw := d.sw.fed x 0 })
      (s.port.input.drop (pullCount d.bc (w' + n))) x := by
  obtain ⟨hdelivered, howed⟩ := Dec.delivered_of_room (c := ⟨d, s.startPort⟩) hund hspace
  have hb := inflateStep_of_raised hmode.1 hmode.2 hr (Nat.lt_of_add_right_lt (lt_inflateFuel hk)) hm
  have hfails := fails_infStep h hb
  rw [Dec.pulled_past hok hle] at hfails
  simp only [Dec.past, howed, hdelivered] at hfails
  rwa [Latch.data_word]

theorem rejects_of_reaches (hle : packedWidth fs ≤ (Dec.mk d s.startPort).avail) (hwidth : w' + n = packedWidth fs) (hkept : kept ≤ n)
    (hm : micro ((Dec.mk d s.startPort).past w x e) = .raised r (((Dec.mk d s.startPort).past w' x e').pulled n (n - kept))) :
    rejects s d r fs kept x := by
  have hfails := fails_of_reaches h hok hund hmode hspace hr hk (by omega) hm
  rw [hwidth, show w' + (n - kept) = packedWidth fs - kept by omega] at hfails
  refine ⟨_, rfl, rfl, rfl, fun hx => ?_, hfails⟩
  rw [hx, ← hund, SlidingWindow.fed_nil]

/-- A raise with every bit of the micro-step dropped. -/
theorem fails_of_past (hle : w' ≤ (Dec.mk d s.startPort).avail)
    (hm : micro ((Dec.mk d s.startPort).past w x e) = .raised r ((Dec.mk d s.startPort).past w' x e')) :
    fails .infStep s (.data r) (Latch.data r).word.toNat
      (.inflate { e' with
        mode := .error
        bc := cursorAfter d.bc (s.port.input.take (pullCount d.bc w')) w'
        sw := d.sw.fed x 0 })
      (s.port.input.drop (pullCount d.bc w')) x := by
  have hm' : micro ((Dec.mk d s.startPort).past w x e) = .raised r (((Dec.mk d s.startPort).past w' x e').pulled 0 0) := by
    rw [Dec.pulled_past_self hok hle]
    exact hm
  exact fails_of_reaches (n := 0) (kept := 0) h hok hund hmode hspace hr hk hle hm'

theorem rejects_of_past (hle : packedWidth fs ≤ (Dec.mk d s.startPort).avail)
    (hm : micro ((Dec.mk d s.startPort).past w x e) = .raised r ((Dec.mk d s.startPort).past (packedWidth fs) x e')) :
    rejects s d r fs 0 x := by
  refine ⟨_, rfl, rfl, rfl, fun hx => ?_, fails_of_past h hok hund hmode hspace hr hk hle hm⟩
  rw [hx, ← hund, SlidingWindow.fed_nil]

end

end Sys2Proof.Machine

/-! # Blocks of literals and matches

A block with codes decodes from its first token on, through whatever tables hold its codes (R510 to R520); the fixed codes are read
from the header on. -/

namespace Sys2Proof.Machine

open Sys2Proof.Claim

theorem undropped_le (root l : Nat) : undropped root l ≤ l := by
  unfold undropped
  split_ifs
  · exact le_rfl
  · exact Nat.sub_le _ _

theorem drop_replay {w : SlidingWindow} {toks : List (Nat × Nat)} {x : List Byte} (h : replay (historyOf w) toks = historyOf w ++ x) :
    (replay (historyOf w) toks).drop w.whave = x := by rw [h, List.drop_left' (length_historyOf w)]

/-- Where the stream goes on with the bit fields `head`, the loop reads them up to the first token of a block, with tables that hold
the block's codes. -/
def Dec.ReadsHead (c : Dec) (head : List (Nat × Nat)) (last : Bool) (llf ddf : Nat → Nat × Nat) (lroot droot : Nat) : Prop :=
  c.Next 0 head → ∃ e, e.mode = .len ∧ e.last = last ∧ e.ht.Holds e.llRef e.dRef llf ddf lroot droot ∧
    c.winDrain.Reaches (300 * packedWidth head) (c.past (packedWidth head) [] e)

section
variable {c : Dec} {head fs toks : List (Nat × Nat)} {last : Bool} {llf ddf : Nat → Nat × Nat} {lroot droot : Nat}
  (h : c.u.bc.Ok) (hsw : c.u.sw.Ok) (hund : c.u.sw.undelivered = 0) (hhead : c.ReadsHead head last llf ddf lroot droot)
  (hrep : replayable c.u.sw.capacity c.u.sw.whave toks) (hcoded : ∀ t ∈ toks, fieldCoded llf ddf t)
include h hsw hund hhead hrep hcoded

/-- The loop past a block's header and tokens. -/
theorem readsTokens (hspace : ((replay (historyOf c.u.sw) toks).drop c.u.sw.whave).length ≤ c.port.space)
    (hnext : c.Next 0 (head ++ tokensFields llf ddf toks ++ fs)) :
    ∃ x e, replay (historyOf c.u.sw) toks = historyOf c.u.sw ++ x ∧ x.length ≤ c.port.space ∧ e.mode = .len ∧ e.last = last ∧
      e.ht.Holds e.llRef e.dRef llf ddf lroot droot ∧ c.Next (packedWidth (head ++ tokensFields llf ddf toks)) fs ∧
      c.winDrain.Reaches (300 * packedWidth (head ++ tokensFields llf ddf toks))
        (c.past (packedWidth (head ++ tokensFields llf ddf toks)) x e) := by
  have hrest := (Dec.next_append.1 hnext).2
  rw [List.append_assoc] at hnext
  obtain ⟨hfs, htoks⟩ := Dec.next_append.1 hnext
  rw [Nat.zero_add] at htoks hrest
  obtain ⟨e, hm, hlast, hh, hr⟩ := hhead hfs
  rw [List.length_drop] at hspace
  obtain ⟨x, l, ds, n, hreplay, hy⟩ := reaches_tokens (x := []) h hsw hund toks hh hm hrep hcoded (by rw [List.append_nil]; omega) htoks
  rw [List.append_nil] at hreplay
  rw [hreplay, List.length_append, length_historyOf] at hspace
  refine ⟨x, { e with length := l, dist := ds, extra := n, mode := .len }, hreplay, by omega, rfl, hlast, hh, hrest, ?_⟩
  rw [packedWidth_append]
  exact (hr.trans hy).mono (by omega)

theorem readsBlock_of_readsHead (heob : (llf 256).2 ≠ 0)
    (hspace : ((replay (historyOf c.u.sw) toks).drop c.u.sw.whave).length ≤ c.port.space) :
    c.ReadsBlock last (head ++ bodyFields llf ddf toks) toks := by
  intro hnext
  rw [show head ++ bodyFields llf ddf toks = head ++ tokensFields llf ddf toks ++ [llf 256] from (List.append_assoc ..).symm] at *
  obtain ⟨x, e, hreplay, hx, hm, hlast, hh, hrest, hr⟩ := readsTokens h hsw hund hhead hrep hcoded hspace hnext
  obtain ⟨r, href, hreads⟩ := hh.endOfBlock heob
  have hend := reaches_endOfBlock h (owed_lt_capacity hund hx) hm href hreads rfl hrest
  have hpos := Nat.pos_of_ne_zero heob
  have hwidth : packedWidth (head ++ tokensFields llf ddf toks ++ [llf 256]) = packedWidth (head ++ tokensFields llf ddf toks) + (llf 256).2 :=
    packedWidth_append ..
  refine ⟨x, { e with mode := .blockEnd }, hreplay, rfl, hlast, ?_⟩
  rw [hwidth]
  exact (hr.trans hend).mono (by omega)

/-- A match of 258 bytes, read from the symbol 284 and the extra value 31 (R264, R512). -/
theorem readsBlock_of_symbol284 {dist : Nat} (h1 : 1 ≤ dist)
    (hdist : dist ≤ min c.u.sw.capacity (c.u.sw.whave + ((replay (historyOf c.u.sw) toks).drop c.u.sw.whave).length))
    (hspace : ((replay (historyOf c.u.sw) toks).drop c.u.sw.whave).length + 258 ≤ c.port.space) (heob : (llf 256).2 ≠ 0)
    (hf : (llf 284).2 ≠ 0) (hf' : (ddf (distCode (dist - 1))).2 ≠ 0) :
    c.ReadsBlock last (head ++ tokensFields llf ddf toks ++ [llf 284, (31, 5)] ++ distFields ddf dist ++ [llf 256]) (toks ++ [(dist, 255)]) := by
  intro hnext
  have hnext' := hnext
  rw [List.append_assoc, List.append_assoc] at hnext'
  obtain ⟨x, e, hreplay, hx, hm, hlast, hh, hrest, hr⟩ := readsTokens h hsw hund hhead hrep hcoded (by omega) hnext'
  rw [drop_replay hreplay] at hdist hspace
  have hextra : extraFields 31 (tableAt lenExtra 27) = [(31, 5)] := rfl
  obtain ⟨y, hcopy, hy⟩ := reaches_match (x := x) (code := 27) (v := 31) (lc := 255) h hsw hund hh hm (by decide) (by decide) (by decide) h1 hdist
    hspace hf hf' (by rw [hextra]; exact hrest)
  rw [hextra] at hy
  have hlength := congrArg List.length hcopy
  rw [length_copyBack, List.length_append, List.length_append, List.length_append] at hlength
  obtain ⟨r, href, hreads⟩ := hh.endOfBlock heob
  have hlastNext := (Dec.next_append.1 hnext).2
  have hwidth : packedWidth (head ++ tokensFields llf ddf toks ++ [llf 284, (31, 5)] ++ distFields ddf dist) =
      packedWidth (head ++ tokensFields llf ddf toks) + packedWidth ([llf 284, (31, 5)] ++ distFields ddf dist) := by
    rw [List.append_assoc (head ++ _), packedWidth_append (head ++ _)]
  rw [Nat.zero_add, hwidth] at hlastNext
  have hend := reaches_endOfBlock (c := c) (x := x ++ y) (e := { e with
    length := 0, dist := dist, extra := tableAt distExtra (distCode (dist - 1)), mode := .len })
    h (owed_lt_capacity hund (by rw [List.length_append]; omega)) rfl href hreads rfl hlastNext
  refine ⟨x ++ y, { e with length := 0, dist := dist, extra := tableAt distExtra (distCode (dist - 1)), mode := .blockEnd }, ?_, rfl, hlast, ?_⟩
  · have hne : ¬ dist = 0 := by omega
    rw [replay_append, hreplay, replay, replay, if_neg hne, hcopy]
  · have hpos := Nat.pos_of_ne_zero hf
    have hfive : packedWidth ([llf 284, (31, 5)] ++ distFields ddf dist) = (llf 284).2 + 5 + packedWidth (distFields ddf dist) := by
      rw [packedWidth_append]
      rfl
    rw [packedWidth_append, hwidth]
    exact ((hr.trans hy).trans hend).mono (by omega)

end

/-! ## DataErrors (R510, R514, R518, R776) -/

section
variable {s : State} {d : Inflate} {head toks : List (Nat × Nat)} {last : Bool} {llf ddf : Nat → Nat × Nat} {lroot droot : Nat}
  (h : s.isInflate d) (hok : d.bc.Ok) (hsw : d.sw.Ok) (hund : d.sw.undelivered = 0) (hmode : d.mode ≠ .done ∧ d.mode ≠ .needDict)
include h hok hund hmode

section
variable {e : Inflate} {w k kept : Nat} {x : List Byte} {f : Nat × Nat} {fs : List (Nat × Nat)} {r : TableRef} {ent : Entry}
  (hx : x.length ≤ s.port.space) (hr : (Dec.mk d s.startPort).winDrain.Reaches k ((Dec.mk d s.startPort).past w x e))
  (hk : k ≤ 1000 * ((Dec.mk d s.startPort).avail + 1)) (hnext : Dec.Next ⟨d, s.startPort⟩ w [f]) (hwidth : w + f.2 = packedWidth fs)
  (hkept : kept ≤ f.2) (hreads : e.ht.Reads r f ent kept) (hop : ent.op = .invalid)
include hx hr hk hnext hwidth hkept hreads hop

/-- An invalid entry where a literal or a length is due. -/
theorem rejects_badLitlenCode (hm : e.mode = .len) (href : e.llRef = some r) : rejects s d .badLitlenCode fs kept x :=
  rejects_of_reaches h hok hund hmode hx hr hk (hwidth ▸ hnext.le) hwidth hkept
    ((micro_len hok hm href (owed_lt_capacity hund hx) hreads hnext).2.2.2 hop)

/-- An invalid entry where a distance is due. -/
theorem rejects_badDistCode (hm : e.mode = .dist) (href : e.dRef = some r) : rejects s d .badDistCode fs kept x :=
  rejects_of_reaches h hok hund hmode hx hr hk (hwidth ▸ hnext.le) hwidth hkept ((micro_dist hok hm href hreads hnext).2 hop)

end

variable (hhead : Dec.ReadsHead ⟨d, s.startPort⟩ head last llf ddf lroot droot)
  (hrep : replayable (2 ^ d.sw.wbits) d.sw.whave toks) (hcoded : ∀ t ∈ toks, fieldCoded llf ddf t)
  (hspace : ((replay (historyOf d.sw) toks).drop d.sw.whave).length ≤ s.port.space)
include hsw hhead hrep hcoded hspace

theorem rejects_symbol286 {sym : Nat} (hsym : sym = 286 ∨ sym = 287) (hf : (llf sym).2 ≠ 0)
    (hnext : Dec.Next ⟨d, s.startPort⟩ 0 (head ++ tokensFields llf ddf toks ++ [llf sym])) :
    rejects s d .badLitlenCode (head ++ tokensFields llf ddf toks ++ [llf sym]) (undropped lroot (llf sym).2)
      ((replay (historyOf d.sw) toks).drop d.sw.whave) := by
  obtain ⟨x, e, hreplay, hx, hm, -, hh, hrest, hr⟩ := readsTokens hok hsw hund hhead hrep hcoded hspace hnext
  obtain ⟨r, href, hreads⟩ := hh.badLength hsym hf
  rw [drop_replay hreplay]
  exact rejects_badLitlenCode h hok hund hmode hx hr (by have := hrest.le; omega) hrest (packedWidth_concat ..).symm (undropped_le ..) hreads rfl
    hm href

omit h hmode in
/-- The loop past a match's length. -/
theorem readsLength {lc : Nat} {fs : List (Nat × Nat)} (hlc : lc < 256) (hf : (llf (257 + lengthCode lc)).2 ≠ 0)
    (hnext : Dec.Next ⟨d, s.startPort⟩ 0 (head ++ tokensFields llf ddf toks ++ lengthFields llf lc ++ fs)) :
    let w := packedWidth (head ++ tokensFields llf ddf toks ++ lengthFields llf lc)
    ∃ e, e.mode = .dist ∧ e.ht.Holds e.llRef e.dRef llf ddf lroot droot ∧ Dec.Next ⟨d, s.startPort⟩ w fs ∧
      (Dec.mk d s.startPort).winDrain.Reaches (300 * w)
        ((Dec.mk d s.startPort).past w ((replay (historyOf d.sw) toks).drop d.sw.whave) e) := by
  intro w
  have hrest' := (Dec.next_append.1 hnext).2
  rw [Nat.zero_add] at hrest'
  rw [List.append_assoc] at hnext
  obtain ⟨x, e, hreplay, hx, hm, -, hh, hrest, hr⟩ := readsTokens hok hsw hund hhead hrep hcoded hspace hnext
  obtain ⟨hcode, hbase, hlt⟩ := lengthCode_spec hlc
  have hlength := reaches_lengthSymbol (x := x) hok hund hh hm hx hcode (v := lc + 3 - tableAt lenBase (lengthCode lc)) (by omega) hf hrest
  rw [drop_replay hreplay]
  have hwidth : w = packedWidth (head ++ tokensFields llf ddf toks) + packedWidth (lengthFields llf lc) := packedWidth_append ..
  have hpos : 0 < packedWidth (lengthFields llf lc) := by
    rw [lengthFields_eq, packedWidth]
    omega
  refine ⟨{ e with
    length := tableAt lenBase (lengthCode lc) + (lc + 3 - tableAt lenBase (lengthCode lc)), extra := tableAt lenExtra (lengthCode lc),
    mode := .dist }, rfl, hh, hrest', ?_⟩
  rw [hwidth]
  exact (hr.trans hlength).mono (by omega)

theorem rejects_distSymbol30 {sym lc : Nat} (hsym : sym = 30 ∨ sym = 31) (hlc : lc < 256) (hf : (llf (257 + lengthCode lc)).2 ≠ 0)
    (hf' : (ddf sym).2 ≠ 0) (hnext : Dec.Next ⟨d, s.startPort⟩ 0 (head ++ tokensFields llf ddf toks ++ lengthFields llf lc ++ [ddf sym])) :
    rejects s d .badDistCode (head ++ tokensFields llf ddf toks ++ lengthFields llf lc ++ [ddf sym]) (undropped droot (ddf sym).2)
      ((replay (historyOf d.sw) toks).drop d.sw.whave) := by
  obtain ⟨e, hm, hh, hrest, hr⟩ := readsLength hok hsw hund hhead hrep hcoded hspace hlc hf hnext
  obtain ⟨r, href, hreads⟩ := hh.badDistance hsym hf'
  exact rejects_badDistCode h hok hund hmode hspace hr (by have := hrest.le; omega) hrest (packedWidth_concat ..).symm (undropped_le ..) hreads
    rfl hm href

theorem fails_distTooFar {dist lc : Nat} (hlc : lc < 256) (h1 : 1 ≤ dist) (h2 : dist ≤ 32768)
    (hfar : min (2 ^ d.sw.wbits) (d.sw.whave + ((replay (historyOf d.sw) toks).drop d.sw.whave).length) < dist)
    (hf : (llf (257 + lengthCode lc)).2 ≠ 0) (hf' : (ddf (distCode (dist - 1))).2 ≠ 0)
    (hnext : Dec.Next ⟨d, s.startPort⟩ 0 (head ++ tokensFields llf ddf toks ++ tokenFields llf ddf dist lc)) :
    ∃ d' : Inflate, d'.mode = .error ∧ d'.dist = dist ∧ d'.length = lc + 3 ∧ d'.sw.undelivered = 0 ∧
      fails .infStep s (.data .distTooFar) 0xB6 (.inflate d')
        (s.port.input.drop (pullCount d.bc (packedWidth (head ++ tokensFields llf ddf toks ++ tokenFields llf ddf dist lc))))
        ((replay (historyOf d.sw) toks).drop d.sw.whave) := by
  have hfields : tokenFields llf ddf dist lc = llf (257 + lengthCode lc) :: extraFields (lc + 3 - tableAt lenBase (lengthCode lc))
      (tableAt lenExtra (lengthCode lc)) ++ (distFields ddf dist ++ []) := by
    rw [tokenFields, if_neg (by omega), lengthFields_eq, List.append_nil]
  rw [hfields] at hnext ⊢
  obtain ⟨x, e, hreplay, hx, hm, -, hh, hrest, hr⟩ := readsTokens hok hsw hund hhead hrep hcoded hspace hnext
  rw [drop_replay hreplay] at hfar ⊢
  obtain ⟨hcode, hbase, hlt⟩ := lengthCode_spec hlc
  obtain ⟨hsymbols, hnext'⟩ := reaches_distExt (x := x) hok hund hh hm hx hcode (by omega) (Nat.add_sub_cancel' hbase) h1 h2 hf hf' hrest
  have hdistance := micro_distance (x := x) (e := e) (l := lc + 3) hok hsw h1 h2 hnext'
  have hwidth : packedWidth (head ++ tokensFields llf ddf toks ++ (llf (257 + lengthCode lc) ::
      extraFields (lc + 3 - tableAt lenBase (lengthCode lc)) (tableAt lenExtra (lengthCode lc)) ++ (distFields ddf dist ++ []))) =
      packedWidth (head ++ tokensFields llf ddf toks) + packedWidth (llf (257 + lengthCode lc) ::
        extraFields (lc + 3 - tableAt lenBase (lengthCode lc)) (tableAt lenExtra (lengthCode lc))) + (ddf (distCode (dist - 1))).2 +
        tableAt distExtra (distCode (dist - 1)) := by
    rw [List.append_nil, packedWidth_append, packedWidth_append (_ :: _), distFields_eq, packedWidth.eq_2 (ddf _), packedWidth_extraFields]
    omega
  rw [hwidth]
  have hle := hnext'.le
  rw [List.append_nil, packedWidth_extraFields] at hle
  exact ⟨_, rfl, rfl, rfl, rfl, fails_of_past h hok hund hmode hx (hr.trans hsymbols) (by omega) hle (hdistance.trans (if_pos hfar))⟩

end

/-! ## The statement -/

/-- A decoder that stands before the first token of a block. -/
theorem readsHead_nil {s : State} {d : Inflate} {llf ddf : Nat → Nat × Nat} {lroot droot : Nat} (hsw : d.sw.Ok) (hm : d.mode = .len)
    (hh : d.ht.Holds d.llRef d.dRef llf ddf lroot droot) : Dec.ReadsHead ⟨d, s.startPort⟩ [] d.last llf ddf lroot droot :=
  fun _ => ⟨d, hm, rfl, hh, by rw [Dec.winDrain_eq_past hsw]; exact .refl _⟩

/-- A decoder that stands before the header of a block with the fixed codes. -/
theorem readsHead_fixed {s : State} {d : Inflate} (hok : d.bc.Ok) (hsw : d.sw.Ok) (hm : d.mode = .type) (last : Bool) :
    Dec.ReadsHead ⟨d, s.startPort⟩ [(if last then 3 else 2, 3)] last fixedLLField fixedDistField 9 5 := by
  have hhead : ∀ b < 2, Dec.ReadsHead ⟨d, s.startPort⟩ [(2 * 1 + b, 3)] (b == 1) fixedLLField fixedDistField 9 5 := fun b hb hnext => by
    have hmicro := micro_type (x := []) hok hm hb hnext
    rw [if_neg (by decide), if_pos rfl] at hmicro
    refine ⟨{ d with last := b == 1, llRef := some fixedLLRef, dRef := some fixedDRef, mode := .len }, rfl, rfl, fixed_holds _, ?_⟩
    rw [Dec.winDrain_eq_past hsw]
    exact (reaches_of_micro hmicro).mono (by simp only [packedWidth]; omega)
  cases last with
  | true => exact hhead 1 (by decide)
  | false => exact hhead 0 (by decide)

theorem tokensFields_of_literals {llf ddf : Nat → Nat × Nat} {toks : List (Nat × Nat)} (h : ∀ t ∈ toks, t.1 = 0) :
    tokensFields llf ddf toks = toks.map fun t => llf t.2 := by
  induction toks with
  | nil => rfl
  | cons t toks ih =>
    obtain ⟨ht, htoks⟩ := List.forall_mem_cons.1 h
    rw [tokensFields_cons, ih htoks, tokenFields, if_pos ht]
    rfl

/-- A bit that leads to an invalid entry, as the field of the distance symbol 30, which is invalid, too. -/
def bitAs30 (bit sym : Nat) : Nat × Nat := if sym = 30 then (bit, 1) else (0, 0)

theorem bitAs30_fits {bit : Nat} (hbit : bit < 2) (sym : Nat) : (bitAs30 bit sym).1 < 2 ^ (bitAs30 bit sym).2 := by
  unfold bitAs30
  split_ifs
  · exact hbit
  · exact one_pos

theorem bitAs30_holds {t : DecodeTables} {lr dr : Option TableRef} {ll : List Nat} {lref dref : TableRef} {e : Nat → Entry} {bit : Nat}
    (hlref : lr = some lref) (hdref : dr = some dref) (hll : laidOut t lref .lens ll) (h15 : ∀ l ∈ ll, l ≤ 15)
    (hone : oneBit t dref e) (hbit : bit < 2) (hop : (e bit).op = .invalid) :
    t.Holds lr dr (canonicalField ll) (bitAs30 bit) lref.root 1 := by
  refine ⟨⟨lref, hlref, fun _ _ hs => reads_of_laidOut hll h15 hs⟩, ⟨dref, hdref, fun sym _ hs => ?_⟩⟩
  obtain rfl : sym = 30 := by
    by_contra hne
    exact hs (by rw [bitAs30, if_neg hne])
  intro c ht hok hle hbits
  obtain ⟨e', hop', -, hdec⟩ := reads_of_oneBit hone hbit (fun w => by rw [hop]; simp) c ht hok hle hbits
  rw [Entry.kept, if_pos hop] at hdec
  exact ⟨e', hop'.trans hop, fun hne => absurd rfl hne, hdec⟩

section
variable {s : State} {d : Inflate} {e : Nat → Entry} {bit : Nat} {lref : TableRef} (h : s.isInflate d) (hok : d.bc.Ok) (hsw : d.sw.Ok)
  (hund : d.sw.undelivered = 0) (hm : d.mode = .len)
include h hok hsw hund hm

/-- An invalid entry of a literal/length table of two one-bit entries. -/
theorem rejects_oneBitLitlen (hlref : d.llRef = some lref) (hone : oneBit d.ht lref e) (hbit : bit < 2) (hop : (e bit).op = .invalid)
    (hstreams : streams d s [(bit, 1)]) : rejects s d .badLitlenCode [(bit, 1)] 1 [] := by
  have hr : (Dec.mk d s.startPort).winDrain.Reaches 0 ((Dec.mk d s.startPort).past 0 [] d) := by
    rw [Dec.winDrain_eq_past hsw]
    exact .refl _
  have hreads := reads_of_oneBit hone hbit (fun w => by rw [hop]; simp)
  have hkept : (e bit).kept 1 1 = 1 := by rw [Entry.kept, if_pos hop]; rfl
  rw [hkept] at hreads
  exact rejects_badLitlenCode h hok hund (by rw [hm]; decide) (Nat.zero_le _) hr (Nat.zero_le _)
    (Dec.next_of_streams (fieldsFit_singleton (by simpa using hbit)) hstreams) rfl le_rfl hreads hop hm hlref

/-- After literals and a match length, an invalid entry of a distance table of two one-bit entries. -/
theorem rejects_oneBitDist {ll : List Nat} {dref : TableRef} {lc : Nat} {toks : List (Nat × Nat)}
    (hrep : replayable (2 ^ d.sw.wbits) d.sw.whave toks) (hspace : ((replay (historyOf d.sw) toks).drop d.sw.whave).length ≤ s.port.space)
    (hlref : d.llRef = some lref) (hdref : d.dRef = some dref) (hll : laidOut d.ht lref .lens ll) (h15 : ∀ l ∈ ll, l ≤ 15)
    (hone : oneBit d.ht dref e) (hlits : ∀ t ∈ toks, t.1 = 0 ∧ coded ll t.2) (hlc : lc < 256) (hf : coded ll (257 + lengthCode lc))
    (hbit : bit < 2) (hop : (e bit).op = .invalid)
    (hstreams : streams d s ((toks.map fun t => canonicalField ll t.2) ++ lengthFields (canonicalField ll) lc ++ [(bit, 1)])) :
    rejects s d .badDistCode ((toks.map fun t => canonicalField ll t.2) ++ lengthFields (canonicalField ll) lc ++ [(bit, 1)]) 1
      ((replay (historyOf d.sw) toks).drop d.sw.whave) := by
  have hcap : 2 ^ d.sw.wbits ≤ 2 ^ 15 := Nat.pow_le_pow_right two_pos hsw.wbits_high
  have hfields : (toks.map fun t => canonicalField ll t.2) ++ lengthFields (canonicalField ll) lc ++ [(bit, 1)] =
      [] ++ tokensFields (canonicalField ll) (bitAs30 bit) toks ++ lengthFields (canonicalField ll) lc ++ [bitAs30 bit 30] := by
    rw [tokensFields_of_literals fun t ht => (hlits t ht).1]
    rfl
  have hcoded : ∀ t ∈ toks, fieldCoded (canonicalField ll) (bitAs30 bit) t := fun t ht =>
    ⟨fun _ => (hlits t ht).2, fun hne => absurd (hlits t ht).1 hne⟩
  have hhead := readsHead_nil (s := s) hsw hm (bitAs30_holds hlref hdref hll h15 hone hbit hop)
  rw [hfields] at hstreams ⊢
  exact rejects_distSymbol30 h hok hsw hund (by rw [hm]; decide) hhead hrep hcoded hspace (.inl rfl) hlc hf one_ne_zero
    (Dec.next_of_streams (fieldsFit_append.2 ⟨fieldsFit_append.2 ⟨fits_tokensFields (canonicalField_fits ll) (bitAs30_fits hbit) hcap hrep,
      fits_lengthFields (canonicalField_fits ll) hlc⟩, fieldsFit_singleton (by simpa [bitAs30] using hbit)⟩) hstreams)

end

/-- Settles O60: the loop reads the block's header and tokens, whatever tables hold the codes, and goes on from there to the block's end
or to the entry or the distance that raises. -/
theorem huffmanBlocksDecode : Obligations.HuffmanBlocksDecode := by
  intro s d toks h hok hsw hund hrep out hspace decodes
  have hcap : 2 ^ d.sw.wbits ≤ 2 ^ 15 := Nat.pow_le_pow_right two_pos hsw.wbits_high
  have hlen : d.mode = .len → d.mode ≠ .done ∧ d.mode ≠ .needDict := fun hm => by rw [hm]; decide
  have hdecodes : ∀ head last llf ddf lroot droot, d.mode ≠ .done ∧ d.mode ≠ .needDict → FieldsFit head →
      (∀ sym, (llf sym).1 < 2 ^ (llf sym).2) → (∀ sym, (ddf sym).1 < 2 ^ (ddf sym).2) →
      Dec.ReadsHead ⟨d, s.startPort⟩ head last llf ddf lroot droot → (∀ t ∈ toks, fieldCoded llf ddf t) → (llf 256).2 ≠ 0 →
      decodes head last llf ddf lroot droot := by
    intro head last llf ddf lroot droot hmode hfits hl hd hhead hcoded heob
    have hbefore : FieldsFit (head ++ tokensFields llf ddf toks) := fieldsFit_append.2 ⟨hfits, fits_tokensFields hl hd hcap hrep⟩
    have hpos := Nat.pos_of_ne_zero heob
    dsimp only [decodes]
    refine ⟨?_, fun dist h1 hdist hspace' hf hf' => ?_, ?_, fun sym hsym hf hstreams => ?_, fun sym lc hsym hlc hf hf' hstreams => ?_⟩
    · refine blockEnds_of_readsBlock h hok hsw hund hmode (readsBlock_of_readsHead hok hsw hund hhead hrep hcoded heob hspace)
        (fieldsFit_append.2 ⟨hfits, fits_bodyFields hl hd hcap hrep⟩) ?_ (by rwa [← List.length_drop])
      simp only [packedWidth_append, bodyFields, packedWidth]
      omega
    · have hwidth := Nat.pos_of_ne_zero hf
      have hne : ¬dist = 0 := by omega
      refine blockEnds_of_readsBlock h hok hsw hund hmode
        (readsBlock_of_symbol284 hok hsw hund hhead hrep hcoded h1 hdist hspace' heob hf hf')
        (fieldsFit_append.2 ⟨fieldsFit_append.2 ⟨fieldsFit_append.2 ⟨hbefore, fieldsFit_cons.2 ⟨hl 284, fieldsFit_singleton (by decide)⟩⟩,
          fits_distFields hd h1 (by omega)⟩, fieldsFit_singleton (hl 256)⟩) ?_ ?_
      · simp only [packedWidth_append, packedWidth]
        omega
      · rw [replay_append, replay, replay, if_neg hne, length_copyBack]
        simp only [out, List.length_drop] at hspace'
        omega
    · intro dist lc hlc h1 h2 hfar hf hf' hstreams
      have hfits' : FieldsFit (head ++ tokensFields llf ddf toks ++ tokenFields llf ddf dist lc) := by
        refine fieldsFit_append.2 ⟨hbefore, ?_⟩
        rw [tokenFields, if_neg (by omega)]
        exact fieldsFit_append.2 ⟨fits_lengthFields hl hlc, fits_distFields hd h1 h2⟩
      exact fails_distTooFar h hok hsw hund hmode hhead hrep hcoded hspace hlc h1 h2 hfar hf hf' (Dec.next_of_streams hfits' hstreams)
    · exact rejects_symbol286 h hok hsw hund hmode hhead hrep hcoded hspace hsym hf
        (Dec.next_of_streams (fieldsFit_append.2 ⟨hbefore, fieldsFit_singleton (hl sym)⟩) hstreams)
    · exact rejects_distSymbol30 h hok hsw hund hmode hhead hrep hcoded hspace hsym hlc hf hf'
        (Dec.next_of_streams (fieldsFit_append.2 ⟨fieldsFit_append.2 ⟨hbefore, fits_lengthFields hl hlc⟩, fieldsFit_singleton (hd sym)⟩) hstreams)
  refine ⟨fun hm last => ?_, ?_, ?_, ?_⟩
  · refine hdecodes _ _ _ _ _ _ (by rw [hm]; decide) (fieldsFit_singleton (by cases last <;> decide)) fixedLLField_fits fixedDistField_fits
      (readsHead_fixed hok hsw hm last) (fun t _ => fieldCoded_fixed t) (fixedLLField_width 256)
  · intro ll dd lref dref hm hlref hdref hll hdd h15 h15' heob hcoded
    have hh := laidOut_holds hll hdd h15 h15'
    rw [← hlref, ← hdref] at hh
    exact hdecodes _ _ _ _ _ _ (hlen hm) fieldsFit_nil (canonicalField_fits ll) (canonicalField_fits dd) (readsHead_nil hsw hm hh) hcoded heob
  · exact fun lref e bit hm hlref hone hbit hop hstreams => rejects_oneBitLitlen h hok hsw hund hm hlref hone hbit hop hstreams
  · intro ll lref dref e lc bit hm hlref hdref hll h15 hone hlits hlc hf hbit hop fields hstreams
    exact rejects_oneBitDist h hok hsw hund hm hrep hspace hlref hdref hll h15 hone hlits hlc hf hbit hop hstreams

end Sys2Proof.Machine

/-! # The size of a literal/length table (R76)

Each sub-table of R426 is as wide as the longest code in it, and the codes come in order of length. So the sub-tables of a complete
set have at most `n + 2^w - w - 1` entries, `n` the number of codes longer than the root width and `w` the greatest width; this
bounds the literal/length tables of a dynamic block by 852 entries, where its distance table starts. -/

namespace Sys2Proof.Machine

open Sys2Proof.Claim

/-! ## The width of a new block -/

section
variable {lens ss : List Nat} {root : Nat}

/-- The widening loop stops at the first width whose shorter codes leave a place free. -/
theorem subWidth_minimal {count : Cells Nat} {max w : Nat} (hmax : max ≤ 15)
    (hcount : ∀ k, 1 ≤ k → k ≤ 15 → Cells.find? count k = some (countOf lens k ss)) (fuel : Nat) {left : Int} {curr : Nat}
    (hpos : 1 ≤ curr + root) (hleft : left * 2 ^ (15 - (curr + root)) = 2 ^ (15 - root) - spanShorter lens (curr + root) ss)
    (h : subWidth count max root fuel left curr = .ok w) :
    w = curr ∨ spanShorter lens (root + w) ss < 2 ^ (15 - root) := by
  induction fuel generalizing left curr with
  | zero => exact .inl (Except.ok.inj h).symm
  | succ fuel ih =>
    rw [subWidth] at h
    split at h
    · obtain ⟨n, hget, h⟩ := Except.bind_ok.1 h
      rw [Cells.get_nat (by omega) (hcount (curr + root) hpos (by omega))] at hget
      cases hget
      simp only at h
      split at h
      · exact .inl (Except.ok.inj h).symm
      · next hlt =>
        have hspan := spanShorter_succ lens (curr + root) ss
        have hleft' : (left - countOf lens (curr + root) ss) * 2 ^ (15 - (curr + root)) =
            2 ^ (15 - root) - spanShorter lens (curr + root + 1) ss := by
          rw [hspan, sub_mul, hleft]
          push_cast
          ring
        have hnext : curr + 1 + root = curr + root + 1 := Nat.add_right_comm curr 1 root
        have hpow : (2 : Int) ^ (15 - (curr + root)) = 2 * 2 ^ (15 - (curr + root + 1)) := by
          rw [← pow_succ']
          congr 1
          omega
        obtain rfl | hmore := ih (by omega) (by rw [hnext, ← hleft', hpow]; ring) h
        · right
          have hposInt := mul_pos (not_le.1 hlt) (show (0 : Int) < 2 ^ (15 - (curr + root)) by positivity)
          rw [hleft', sub_pos] at hposInt
          rw [Nat.add_comm root, hnext]
          exact_mod_cast hposInt
        · exact .inr hmore
    · exact .inl (Except.ok.inj h).symm

end

/-! ## The places left in a block -/

/-- The places of the root index of `p`, from `p` on. -/
def blockRest (root p : Nat) : Nat := 2 ^ (15 - root) - p % 2 ^ (15 - root)

section
variable {root p span : Nat}

theorem blockRest_pos (root p : Nat) : 0 < blockRest root p := Nat.sub_pos_of_lt (Nat.mod_lt _ (Nat.two_pow_pos _))

theorem blockRest_of_dvd (h : 2 ^ (15 - root) ∣ p) : blockRest root p = 2 ^ (15 - root) := by
  rw [blockRest, Nat.mod_eq_zero_of_dvd h, Nat.sub_zero]

theorem dvd_blockRest (hspan : span ∣ 2 ^ (15 - root)) (hp : span ∣ p) : span ∣ blockRest root p :=
  Nat.dvd_sub hspan ((Nat.dvd_mod_iff hspan).2 hp)

/-- A code takes its places from the block, or the block ends with it. -/
theorem blockRest_add (hspan : span ∣ 2 ^ (15 - root)) (hp : span ∣ p) (hpos : 0 < span) :
    2 ^ (15 - root) ∣ p + span ∧ blockRest root p = span ∨
      ¬ 2 ^ (15 - root) ∣ p + span ∧ blockRest root (p + span) + span = blockRest root p := by
  have hrest := dvd_blockRest hspan hp
  have hle := Nat.le_of_dvd (blockRest_pos root p) hrest
  have hmod := Nat.mod_add_div p (2 ^ (15 - root))
  have hlt := Nat.mod_lt p (Nat.two_pow_pos (15 - root))
  unfold blockRest at *
  generalize 2 ^ (15 - root) = Q at *
  obtain heq | hne := Nat.eq_or_lt_of_le hle
  · left
    refine ⟨⟨p / Q + 1, ?_⟩, heq.symm⟩
    rw [Nat.mul_add, Nat.mul_one]
    omega
  · right
    have hmod' : (p + span) % Q = p % Q + span := by
      rw [← Nat.mod_add_mod, Nat.mod_eq_of_lt (by omega)]
    rw [Nat.dvd_iff_mod_eq_zero, hmod']
    omega

end

/-! ## The entries of the sub-tables -/

/-- Before a code of length `l` at the place `p`, the first of the symbols `ss`, and after `n` codes longer than the root width: the
sub-tables have few entries for the codes so far and those that fit the rest of the block at hand, and that block is not wider than
its longest code. -/
def FillState.Sparse (lens : List Nat) (root base max n l p : Nat) (ss : List Nat) (f : FillState) : Prop :=
  l ≤ root ∧ n = 0 ∧ f.next + 2 ^ f.curr = base + 2 ^ root ∨
  root < l ∧ root + f.curr ≤ max ∧ (root + f.curr ≤ l ∨ spanShorter lens (root + f.curr) ss < blockRest root p) ∧
    ∃ e, f.next + 2 ^ f.curr = base + 2 ^ root + e ∧ 2 ∣ e ∧ e + 1 + (l - root) ≤ n + blockRest root p / 2 ^ (15 - l) + 2 ^ f.curr

/-- After `n` codes longer than the root width, the last of length `l`, at the end of a block. -/
def FillState.Full (root base max n l : Nat) (f : FillState) : Prop :=
  l ≤ root ∧ n = 0 ∧ f.next + 2 ^ f.curr = base + 2 ^ root ∨
  root + f.curr = l ∧ l ≤ max ∧ ∃ e, f.next + 2 ^ f.curr = base + 2 ^ root + e ∧ 2 ∣ e ∧ e + 1 + f.curr ≤ n + 2 ^ f.curr

/-- How many codes longer than the root width the symbol `s` has. -/
def longCount (lens : List Nat) (root s : Nat) : Nat := if root < lens.getD s 0 then 1 else 0

section
variable {lens ss : List Nat} {root base max n p s l : Nat} {f g : FillState}

/-- The last code of a block is as long as the block is wide. -/
theorem FillState.Sparse.full (h : f.Sparse lens root base max n (lens.getD s 0) p (s :: ss))
    (hfits : root < lens.getD s 0 → lens.getD s 0 ≤ root + f.curr) (hrest : root < lens.getD s 0 → blockRest root p = codeSpan lens s) :
    f.Full root base max (n + longCount lens root s) (lens.getD s 0) := by
  obtain ⟨hshort, hn, hnext⟩ | ⟨hlong, hmax, hwide, e, hnext, heven, hle⟩ := h
  · exact .inl ⟨hshort, by rw [hn, longCount, if_neg (Nat.not_lt.2 hshort)], hnext⟩
  · have hfits := hfits hlong
    have hrest := hrest hlong
    have heq : root + f.curr = lens.getD s 0 := by
      refine le_antisymm ?_ hfits
      obtain hwide | hwide := hwide
      · exact hwide
      · by_contra hlt
        rw [spanShorter_cons, if_pos (Nat.not_le.1 hlt), hrest] at hwide
        omega
    refine .inr ⟨heq, heq ▸ hmax, e, hnext, heven, ?_⟩
    rw [hrest, codeSpan, Nat.div_self (Nat.two_pow_pos _)] at hle
    rw [longCount, if_pos hlong]
    omega

/-- A code that does not end its block. -/
theorem FillState.Sparse.stay (h : f.Sparse lens root base max n (lens.getD s 0) p (s :: ss)) (hlong : root < lens.getD s 0)
    (hp : codeSpan lens s ∣ p) (hrest : blockRest root (p + codeSpan lens s) + codeSpan lens s = blockRest root p)
    (hl : lens.getD s 0 ≤ l) (hl15 : l ≤ 15) :
    f.Sparse lens root base max (n + longCount lens root s) l (p + codeSpan lens s) ss := by
  obtain ⟨hshort, -⟩ | ⟨-, hmax, hwide, e, hnext, heven, hle⟩ := h
  · omega
  · refine .inr ⟨by omega, hmax, ?_, e, hnext, heven, ?_⟩
    · obtain hwide | hwide := hwide
      · exact .inl (hwide.trans hl)
      · by_cases hshort : lens.getD s 0 < root + f.curr
        · rw [spanShorter_cons, if_pos hshort] at hwide
          exact .inr (by omega)
        · exact .inl ((Nat.not_lt.1 hshort).trans hl)
    · have hspan : codeSpan lens s = 2 ^ (15 - l) * 2 ^ (l - lens.getD s 0) := by
        rw [codeSpan, ← Nat.pow_add]
        congr 1
        omega
      obtain ⟨m, hm⟩ : codeSpan lens s ∣ blockRest root (p + codeSpan lens s) :=
        dvd_blockRest (Nat.pow_dvd_pow 2 (by omega)) (Nat.dvd_add hp dvd_rfl)
      have hmpos : 0 < m := by
        have := blockRest_pos root (p + codeSpan lens s)
        rw [hm] at this
        exact Nat.pos_of_mul_pos_left this
      rw [← hrest, hm, ← Nat.mul_succ, ← codeSpan, Nat.mul_div_cancel_left _ (codeSpan_pos lens s)] at hle
      rw [hm, hspan, Nat.mul_assoc, Nat.mul_div_cancel_left _ (Nat.two_pow_pos _), longCount, if_pos hlong]
      have hgrow : l - lens.getD s 0 + m ≤ 2 ^ (l - lens.getD s 0) * m := by
        have hlt : l - lens.getD s 0 < 2 ^ (l - lens.getD s 0) := Nat.lt_two_pow_self
        calc l - lens.getD s 0 + m ≤ (l - lens.getD s 0) * m + m := by
              exact Nat.add_le_add_right (Nat.le_mul_of_pos_right _ hmpos) m
          _ = (l - lens.getD s 0 + 1) * m := (Nat.succ_mul _ _).symm
          _ ≤ 2 ^ (l - lens.getD s 0) * m := Nat.mul_le_mul_right m hlt
      omega

theorem two_pow_add_sub_le {a b : Nat} (h : a ≤ b) : 2 ^ a + (b - a) ≤ 2 ^ b := by
  induction b, h using Nat.le_induction with
  | base => omega
  | succ b hab ih =>
    have := Nat.two_pow_pos b
    rw [Nat.pow_succ]
    omega

/-- A new block at the end of the one before. -/
theorem FillState.Full.open (h : f.Full root base max n (lens.getD s 0)) (hlong : root < l) (hl : lens.getD s 0 ≤ l) (hl15 : l ≤ 15)
    (hp : 2 ^ (15 - root) ∣ p) (hnext : g.next = f.next + 2 ^ f.curr) (hcurr : l - root ≤ g.curr) (hmax : root + g.curr ≤ max)
    (hwide : g.curr = l - root ∨ spanShorter lens (root + g.curr) ss < 2 ^ (15 - root)) :
    g.Sparse lens root base max n l p ss := by
  have hrest := blockRest_of_dvd hp
  have hdiv : 2 ^ (15 - root) / 2 ^ (15 - l) = 2 ^ (l - root) := by
    rw [Nat.pow_div (by omega) (by decide)]
    congr 1
    omega
  have heven : 2 ∣ 2 ^ g.curr := dvd_pow_self 2 (by omega)
  have hlt : l - root < 2 ^ (l - root) := Nat.lt_two_pow_self
  refine .inr ⟨hlong, hmax, ?_, ?_⟩
  · rw [hrest]
    exact hwide.imp_left fun heq => by omega
  · obtain ⟨-, hn, hroot⟩ | ⟨heq, -, e, hsub, heven', hle⟩ := h
    · exact ⟨2 ^ g.curr, by rw [hnext, hroot], heven, by rw [hrest, hdiv]; omega⟩
    · refine ⟨e + 2 ^ g.curr, by rw [hnext, hsub, Nat.add_assoc], Nat.dvd_add heven' heven, ?_⟩
      have := two_pow_add_sub_le (a := f.curr) (b := l - root) (by omega)
      rw [hrest, hdiv]
      omega

/-! ## The loop (R426) -/

section
variable {kind : CodeKind} {size : Nat} {t₀ : Cells Entry} {a : ArrayName} {s' : Nat}

theorem root_index_injective {x y : Nat} (hroot : root ≤ 15) (hx : x < 2 ^ 15) (hy : y < 2 ^ 15)
    (h : bitrev x 15 % 2 ^ root = bitrev y 15 % 2 ^ root) : x / 2 ^ (15 - root) = y / 2 ^ (15 - root) := by
  have hsplit : 2 ^ 15 = 2 ^ (15 - root) * 2 ^ root := by rw [← Nat.pow_add, Nat.sub_add_cancel hroot]
  rw [bitrev_mod_two_pow hroot hx, bitrev_mod_two_pow hroot hy] at h
  have := congrArg (bitrev · root) h
  simp only [bitrev_bitrev] at this
  rwa [Nat.mod_eq_of_lt (Nat.div_lt_of_lt_mul (hsplit ▸ hx)), Nat.mod_eq_of_lt (Nat.div_lt_of_lt_mul (hsplit ▸ hy))] at this

/-- A new block, and its width. -/
theorem FillState.nextBlock_open (hdrop : f.drop = 0 ∨ f.drop = root) (hlong : root < lens.getD s 0)
    (hnew : f.low ≠ some (f.huff % 2 ^ root)) (h : f.nextBlock lens a size root max base (s :: ss) = .ok g) :
    g.next = f.next + 2 ^ f.curr ∧
      subWidth f.count max root (max - (lens.getD s 0 - root + root)) ((2 ^ (lens.getD s 0 - root) : Nat) : Int) (lens.getD s 0 - root) =
        .ok g.curr := by
  have hdrop : (if f.drop = 0 then root else f.drop) = root := by
    split
    · rfl
    · next hne => exact hdrop.resolve_left hne
  simp only [FillState.nextBlock, if_pos (And.intro hlong hnew), hdrop] at h
  obtain ⟨w, hw, h⟩ := Except.bind_ok.1 h
  obtain ⟨table, -, h⟩ := Except.bind_ok.1 h
  cases h
  exact ⟨rfl, hw⟩

theorem FillState.InBlock.drop {q : Nat} (h : f.InBlock lens size root base l p q ss) : f.drop = 0 ∨ f.drop = root :=
  h.imp (fun h => h.2.drop) (fun h => h.2.1.drop)

theorem FillState.InBlock.fits (h : f.InBlock lens size root base (lens.getD s 0) p p (s :: ss)) (hlt : p < 2 ^ 15)
    (hlong : root < lens.getD s 0) : lens.getD s 0 ≤ root + f.curr := by
  obtain ⟨hshort, -⟩ | ⟨-, -, stop, hstop, hfits, -⟩ := h
  · omega
  · exact hfits (hstop p hlt rfl)

/-- The invariant past a code, at the next one. -/
theorem FillState.Sparse.nextBlock (hmax : max ≤ 15) (h15 : lens.getD s 0 ≤ 15) (hp : codeSpan lens s ∣ p) (hlt : p < 2 ^ 15)
    (hhuff : f.huff = bitrev (p + codeSpan lens s) 15) (hlen : lens.getD s 0 ≤ lens.getD s' 0)
    (hss : Remaining lens max (p + codeSpan lens s) f.count (s' :: ss))
    (hin : f.InBlock lens size root base (lens.getD s 0) p (p + codeSpan lens s) (s' :: ss))
    (hfits : root < lens.getD s 0 → lens.getD s 0 ≤ root + f.curr)
    (h : f.Sparse lens root base max n (lens.getD s 0) p (s :: s' :: ss))
    (hnext : f.nextBlock lens a size root max base (s' :: ss) = .ok g) :
    g.Sparse lens root base max (n + longCount lens root s) (lens.getD s' 0) (p + codeSpan lens s) (s' :: ss) := by
  have hmax' := (hss.lengths s' (by simp)).2
  have hlt' := hss.head_lt
  by_cases hopen : root < lens.getD s' 0 ∧ f.low ≠ some (f.huff % 2 ^ root)
  · obtain ⟨hlong, hnew⟩ := hopen
    have hdvd : 2 ^ (15 - root) ∣ p + codeSpan lens s := by
      obtain ⟨hshort, -⟩ | ⟨hlong, hsub, -⟩ := hin
      · exact (Nat.pow_dvd_pow 2 (by omega)).trans (Nat.dvd_add hp (dvd_refl (codeSpan lens s)))
      · refine dvd_of_root_changes hlong h15 hp hlt' fun heq => hnew ?_
        rw [hsub.low, hhuff]
        exact congrArg some heq
    have hfull := h.full hfits fun hlong =>
      ((blockRest_add (Nat.pow_dvd_pow 2 (by omega)) hp
        (codeSpan_pos lens s)).resolve_right fun h => h.1 hdvd).2
    obtain ⟨hg, hw⟩ := FillState.nextBlock_open hin.drop hlong hnew hnext
    have hsum : lens.getD s' 0 - root + root = lens.getD s' 0 := Nat.sub_add_cancel hlong.le
    have hnone : spanShorter lens (lens.getD s' 0) (s' :: ss) = 0 :=
      spanShorter_eq_zero (List.forall_mem_cons.2 ⟨le_rfl, (List.pairwise_cons.1 hss.sorted).1⟩)
    have hspace : (((2 ^ (lens.getD s' 0 - root) : Nat) : Int)) * 2 ^ (15 - (lens.getD s' 0 - root + root)) =
        2 ^ (15 - root) - spanShorter lens (lens.getD s' 0 - root + root) (s' :: ss) := by
      rw [hsum, hnone]
      push_cast
      rw [← pow_add, sub_zero]
      congr 1
      omega
    obtain ⟨hle, hwmax, -⟩ := subWidth_ok hmax hss.counts _ (by omega) (by omega) hspace hw
    exact hfull.open hlong hlen (by omega) hdvd hg hle (by omega) (subWidth_minimal hmax hss.counts _ (by omega) hspace hw)
  · simp only [FillState.nextBlock, if_neg hopen] at hnext
    cases hnext
    obtain ⟨hshort, hroot⟩ | ⟨hlong, hsub, -⟩ := hin
    · have hshort' : lens.getD s' 0 ≤ root := by
        by_contra hlong
        exact hopen ⟨Nat.not_le.1 hlong, by rw [hroot.low]; exact Option.some_ne_none _ |>.symm⟩
      obtain ⟨-, hn, hnext⟩ | ⟨hlong, -⟩ := h
      · exact .inl ⟨hshort', by rw [hn, longCount, if_neg (Nat.not_lt.2 hshort)], hnext⟩
      · omega
    · have hsame : bitrev p 15 % 2 ^ root = bitrev (p + codeSpan lens s) 15 % 2 ^ root := by
        by_contra hne
        refine hopen ⟨hlong.trans_le hlen, ?_⟩
        rw [hsub.low, hhuff]
        exact fun h => hne (Option.some.inj h)
      obtain ⟨hdvd, -⟩ | ⟨-, hrest⟩ := blockRest_add (root := root) (span := codeSpan lens s) (Nat.pow_dvd_pow 2 (by omega)) hp
        (codeSpan_pos lens s)
      · have hindex := root_index_injective (by omega) hlt hlt' hsame
        have hpos := codeSpan_pos lens s
        have hmul := Nat.div_mul_cancel hdvd
        rw [← hindex] at hmul
        have := Nat.div_mul_le_self p (2 ^ (15 - root))
        omega
      · exact h.stay hlong hp hrest hlen (by omega)

/-- The loop of a complete set ends in a full block. -/
theorem fillTable_full (hmax : max ≤ 15) (h : f.Progress kind lens size root base t₀ p) (hss : Remaining lens max p f.count (s :: ss))
    (hend : p + spanSum lens (s :: ss) = 2 ^ 15) (hin : f.InBlock lens size root base (lens.getD s 0) p p (s :: ss))
    (hsparse : f.Sparse lens root base max n (lens.getD s 0) p (s :: ss))
    (hrun : fillTable kind lens a size root max base (s :: ss) f = .ok g) :
    ∃ l q q', g.InBlock lens size root base l q q' [] ∧ g.Full root base max (n + ((s :: ss).map (longCount lens root)).sum) l := by
  induction ss generalizing f p n s with
  | nil =>
    obtain ⟨h1, hlmax⟩ := hss.lengths s (by simp)
    have h15 := hlmax.trans hmax
    rw [fillTable_cons h15 (hss.counts _ h1 h15)] at hrun
    obtain ⟨table, hfill, hrun⟩ := Except.bind_ok.1 hrun
    obtain ⟨-, hblock⟩ := h.place hmax hss hin hfill (countOf lens (lens.getD s 0) [s])
    cases hrun
    refine ⟨_, _, _, hblock, ?_⟩
    have hp : codeSpan lens s ∣ p := hss.placed.1 ▸ Nat.dvd_mul_right _ _
    have hdvd : 2 ^ (15 - root) ∣ p + codeSpan lens s := by
      rw [spanSum_cons, spanSum_nil, Nat.add_zero] at hend
      rw [hend]
      exact Nat.pow_dvd_pow 2 (Nat.sub_le _ _)
    rw [List.map_singleton, List.sum_singleton]
    exact hsparse.full (hin.fits hss.head_lt) fun hlong =>
      ((blockRest_add (Nat.pow_dvd_pow 2 (by omega)) hp
        (codeSpan_pos lens s)).resolve_right fun h => h.1 hdvd).2
  | cons s' rest ih =>
    obtain ⟨h1, hlmax⟩ := hss.lengths s (by simp)
    have h15 := hlmax.trans hmax
    have hp : codeSpan lens s ∣ p := hss.placed.1 ▸ Nat.dvd_mul_right _ _
    rw [fillTable_cons h15 (hss.counts _ h1 h15)] at hrun
    obtain ⟨table, hfill, hrun⟩ := Except.bind_ok.1 hrun
    obtain ⟨f', hnext, hrun⟩ := Except.bind_ok.1 hrun
    obtain ⟨hprog, hblock⟩ := h.place hmax hss hin hfill (countOf lens (lens.getD s 0) (s :: s' :: rest))
    have hlen : lens.getD s 0 ≤ lens.getD s' 0 := (List.pairwise_cons.1 hss.sorted).1 s' (by simp)
    obtain ⟨hprog', hblock', hcount⟩ := hprog.nextBlock hmax h15 hp hlen hss.tail hblock hnext
    have hsparse' := FillState.Sparse.nextBlock (f := f.step lens s table _) hmax h15 hp hss.head_lt hprog.huff hlen hss.tail hblock
      (hin.fits hss.head_lt) hsparse hnext
    rw [spanSum_cons, ← Nat.add_assoc] at hend
    rw [List.map_cons, List.sum_cons, ← Nat.add_assoc]
    exact ih hprog' (hcount ▸ hss.tail) hend hblock' hsparse' hrun

end

end

/-! ## Few symbols -/

section
variable {lens : List Nat} {root base max n l : Nat} {f : FillState}

theorem sortedSymbols_nodup (lens : List Nat) : (sortedSymbols lens).Nodup := by
  refine List.nodup_flatMap.2 ⟨fun l _ => List.nodup_range.filter _, ?_⟩
  refine (List.nodup_range' (s := 1) (n := 15)).imp fun {l l'} hne s hs hs' => hne ?_
  rw [← (mem_symbolsOfLength.1 hs).2, ← (mem_symbolsOfLength.1 hs').2]

theorem length_sortedSymbols_le (lens : List Nat) : (sortedSymbols lens).length ≤ lens.length := by
  rw [← List.length_range (n := lens.length)]
  refine ((sortedSymbols_nodup lens).subperm fun s hs => ?_).length_le
  obtain ⟨l, -, hs⟩ := List.mem_flatMap.1 hs
  exact List.mem_range.2 (mem_symbolsOfLength.1 hs).1

/-- Long codes take few places, so a complete set has two short ones. -/
theorem spanSum_add_le (ss : List Nat) (h1 : ∀ s ∈ ss, 1 ≤ lens.getD s 0) :
    spanSum lens ss + 16352 * (ss.map (longCount lens 9)).sum ≤ 16384 * ss.length := by
  induction ss with
  | nil => exact le_rfl
  | cons s ss ih =>
    obtain ⟨hs, hss⟩ := List.forall_mem_cons.1 h1
    have ih := ih hss
    have hone : codeSpan lens s + 16352 * longCount lens 9 s ≤ 16384 := by
      unfold codeSpan longCount
      split_ifs with hlong
      · have : 2 ^ (15 - lens.getD s 0) ≤ 2 ^ 5 := Nat.pow_le_pow_right two_pos (by omega)
        omega
      · have : 2 ^ (15 - lens.getD s 0) ≤ 2 ^ 14 := Nat.pow_le_pow_right two_pos (by omega)
        omega
    rw [spanSum_cons, List.map_cons, List.sum_cons, List.length_cons]
    omega

theorem longCount_le (h15 : ∀ l ∈ lens, l ≤ 15) (hk : kraft lens = 2 ^ 15) (hlen : lens.length ≤ 286) :
    ((sortedSymbols lens).map (longCount lens 9)).sum ≤ 284 := by
  have hsum := spanSum_add_le (lens := lens) (sortedSymbols lens) fun s hs => (mem_sortedSymbols.1 hs).1
  have := length_sortedSymbols_le lens
  rw [spanSum_sortedSymbols_eq_kraft h15, hk] at hsum
  omega

theorem longCount_sum_le (root : Nat) (hlen : lens.length ≤ 286) : ((sortedSymbols lens).map (longCount lens root)).sum ≤ 286 := by
  have hle := List.sum_le_card_nsmul ((sortedSymbols lens).map (longCount lens root)) 1 fun x hx => by
    obtain ⟨s, -, rfl⟩ := List.mem_map.1 hx
    unfold longCount
    split_ifs <;> decide
  rw [List.length_map, smul_eq_mul, Nat.mul_one] at hle
  exact hle.trans ((length_sortedSymbols_le lens).trans hlen)

theorem FillState.Full.le (h : f.Full 9 base max n l) (hmax : max ≤ 15) (hn : n ≤ 284) : f.next + 2 ^ f.curr ≤ base + 852 := by
  obtain ⟨-, -, hnext⟩ | ⟨heq, hl, e, hnext, heven, hle⟩ := h
  · omega
  · have hcurr : f.curr ≤ 6 := by omega
    interval_cases hc : f.curr <;> omega

end

section
variable {kind : CodeKind} {lens : List Nat} {a : ArrayName} {size root base : Nat} {t table : Cells Entry} {count : Cells Nat}

/-- A loop that answers ends in a block, and no block lies past the first 852 entries. -/
theorem fillTable_end (h15 : ∀ l ∈ lens, l ≤ 15) (hk : kraft lens = 2 ^ 15) (hlen : lens.length ≤ 286) (hmin : minLength lens ≤ root)
    (hroot : root = 9 ∨ root < 9 ∧ maxLength lens ≤ root) {g : FillState}
    (hfill : fillTable kind lens a size root (maxLength lens) base (sortedSymbols lens) (FillState.start lens root base t) = .ok g) :
    (g.InRoot root base ∨ ∃ i, g.InSub size root base i) ∧ g.next + 2 ^ g.curr ≤ base + 852 := by
  have hremaining := sortedSymbols_remaining h15 hk
  have hsum := spanSum_sortedSymbols_eq_kraft h15
  have hhead := @head_sortedSymbols lens
  have hlong := longCount_le h15 hk hlen
  have hlong' := longCount_sum_le root hlen
  rw [hk] at hsum
  cases hss : sortedSymbols lens with
  | nil =>
    rw [hss, spanSum_nil] at hsum
    omega
  | cons s ss =>
    rw [hss] at hremaining hsum hfill hlong hlong'
    have hshort : lens.getD s 0 ≤ root := (hhead (by rw [hss]; rfl)).trans_le hmin
    obtain ⟨l, q, q', hblock, hfull⟩ := fillTable_full (n := 0) (maxLength_le lens) FillState.start_progress hremaining
      ((Nat.zero_add _).trans hsum) (.inl ⟨hshort, FillState.start_inRoot⟩) (.inl ⟨hshort, rfl, rfl⟩) hfill
    refine ⟨hblock.imp And.right fun h => ⟨_, h.2.1⟩, ?_⟩
    rw [Nat.zero_add] at hfull
    obtain rfl | ⟨hlt, hmax⟩ := hroot
    · exact hfull.le (maxLength_le lens) hlong
    · have hpow : 2 ^ root ≤ 2 ^ 8 := Nat.pow_le_pow_right two_pos (by omega)
      obtain ⟨-, -, hnext⟩ | ⟨heq, hl, e, hnext, -, hle⟩ := hfull
      · omega
      · have hcurr : g.curr = 0 := by omega
        rw [hcurr, Nat.pow_zero] at hle hnext ⊢
        omega

/-- The literal/length table of a dynamic block lies in its first 852 entries. -/
theorem buildEntries_leads_below (h15 : ∀ l ∈ lens, l ≤ 15) (hk : kraft lens = 2 ^ 15) (hlen : lens.length ≤ 286)
    (hmin : minLength lens ≤ root) (hroot : root = 9 ∨ root < 9 ∧ maxLength lens ≤ root)
    (hbuild : buildEntries kind lens a size root base t = .ok (table, count)) :
    ∀ v, ∃ s, startsWith lens s v ∧
      (lens.getD s 0 ≤ root → Cells.Holds (base + 852) table (base + v % 2 ^ root) (symbolEntry kind s (lens.getD s 0))) ∧
      (root < lens.getD s 0 → ∃ w sub,
        Cells.Holds (base + 852) table (base + v % 2 ^ root) ⟨.link w, root, sub⟩ ∧
        Cells.Holds (base + 852) table (sub + v % 2 ^ (root + w) / 2 ^ root) (symbolEntry kind s (lens.getD s 0 - root))) := by
  obtain ⟨g, hfill, -⟩ := Except.bind_ok.1 (show _ >>= _ = _ from hbuild)
  obtain ⟨hend, hbuild'⟩ := buildEntries_eq_fillTable h15 hk hmin hfill
  rw [hbuild] at hbuild'
  cases hbuild'
  obtain ⟨hblock, hbound⟩ := fillTable_end h15 hk hlen hmin hroot hfill
  intro v
  have hindex : base + v % 2 ^ root < base + 852 := by
    have hmod := Nat.mod_lt v (Nat.two_pow_pos root)
    have hpow : 2 ^ root ≤ 2 ^ 9 := Nat.pow_le_pow_right two_pos (by omega)
    omega
  obtain ⟨s, hs, ⟨hle, -, hentry⟩ | ⟨hlt, w, sub, hlink, ⟨-, hentry⟩, hsub, hfree⟩⟩ := hend.leads v (bitrev_lt v 15)
  · exact ⟨s, hs, fun _ => ⟨hindex, hentry⟩, fun hlt => absurd hlt (Nat.not_lt.2 hle)⟩
  · refine ⟨s, hs, fun hle => absurd hlt (Nat.not_lt.2 hle), fun _ => ⟨w, sub, ⟨hindex, hlink.2⟩, ?_⟩⟩
    have hbelow : sub + 2 ^ w ≤ base + 852 := by
      obtain hsame | hbelow := hfree
      · obtain hin | ⟨i, hin⟩ := hblock
        · rw [hin.low] at hsame
          cases hsame
        · obtain rfl : i = v % 2 ^ root := Option.some.inj (hin.low.symm.trans hsame)
          have hsame := hin.link.inj hlink
          simp only [Entry.mk.injEq, EntryOp.link.injEq, true_and] at hsame
          obtain ⟨rfl, rfl⟩ := hsame
          exact hbound
      · have := Nat.two_pow_pos g.curr
        omega
    rw [Nat.pow_add, Nat.mod_mul_right_div_self]
    have hmod := Nat.mod_lt (v / 2 ^ root) (Nat.two_pow_pos w)
    exact ⟨by omega, hentry⟩

end

end Sys2Proof.Machine

/-! # The tables of a dynamic block

What the builds of R494 leave: a decode through the tables reads the canonical codes of the lengths (R422, R423, R426). -/

namespace Sys2Proof.Machine

open Sys2Proof.Claim

section
variable {k : CodeKind} {lens : List Nat} {t ht ht' : DecodeTables} {r : BuildResult} {root : Nat}

/-! ## The sets that are refused (R422) -/

theorem acceptance_of_not_acceptable (h15 : ∀ l ∈ lens, l ≤ 15) (h : ¬ acceptable lens) (k : CodeKind) :
    acceptance k lens = .oversubscribed ∨ acceptance k lens = .incomplete := by
  rw [acceptance_eq h15]
  by_cases hzero : kraft lens = 0
  · exact absurd (.inr ⟨hzero.trans_le (Nat.zero_le _), fun l hl => ((kraft_eq_zero.1 hzero) l hl).trans_le (Nat.zero_le _)⟩) h
  · rw [if_neg hzero]
    by_cases hover : 2 ^ 15 < kraft lens
    · exact .inl (if_pos hover)
    · have hne : kraft lens ≠ 2 ^ 15 := fun heq => h (.inl heq)
      have hmax : maxLength lens ≠ 1 := fun hmax =>
        h (.inr ⟨Nat.not_lt.1 hover, fun l hl => hmax ▸ le_maxLength h15 hl⟩)
      exact .inr (by rw [if_neg hover, if_neg hne, if_pos (.inr hmax)])

/-- A build of a set that is not acceptable refuses it and builds nothing. -/
theorem buildTable_refuses (h15 : ∀ l ∈ lens, l ≤ 15) (h : ¬ acceptable lens) (k : CodeKind) (t : DecodeTables) :
    ∃ r ht, buildTable k lens t = .ok (r, 0, ht) ∧ (r = .oversubscribed ∨ r = .incomplete) := by
  obtain hacc | hacc := acceptance_of_not_acceptable h15 h k
  · exact ⟨_, _, buildTable_oversubscribed hacc t, .inl rfl⟩
  · exact ⟨_, _, buildTable_incomplete hacc t, .inr rfl⟩

/-- A code-length code must be complete (R486). -/
theorem buildTable_codes_refuses (h15 : ∀ l ∈ lens, l ≤ 15) (h : kraft lens ≠ 2 ^ 15) (t : DecodeTables) :
    ∃ r root ht, buildTable .codes lens t = .ok (r, root, ht) ∧ r ≠ .complete := by
  have hacc := acceptance_eq h15 .codes
  by_cases hzero : kraft lens = 0
  · rw [if_pos hzero] at hacc
    obtain ⟨arena, -, hbuild⟩ := buildTable_empty hacc t
    exact ⟨_, _, _, hbuild, by decide⟩
  · rw [if_neg hzero] at hacc
    by_cases hover : 2 ^ 15 < kraft lens
    · rw [if_pos hover] at hacc
      exact ⟨_, _, _, buildTable_oversubscribed hacc t, by decide⟩
    · rw [if_neg hover, if_neg h, if_pos (.inl rfl)] at hacc
      exact ⟨_, _, _, buildTable_incomplete hacc t, by decide⟩

/-! ## Complete sets -/

theorem minLength_le_root (h15 : ∀ l ∈ lens, l ≤ 15) (hk : kraft lens = 2 ^ 15) {n : Nat} (hn : n < 15) (hlen : lens.length < 2 ^ (n + 1)) :
    minLength lens ≤ min n (lens.foldr max 0) := by
  have hne : maxLength lens ≠ 0 := fun hzero => by
    have := (maxLength_eq_zero h15).1 hzero
    omega
  exact le_min (minLength_le_of_complete h15 hk hn hlen) (maxLength_eq_foldr h15 ▸ minLength_le (maxLength_mem hne))

/-- A build of a complete set, from its entries. -/
theorem buildTable_complete_ok (h15 : ∀ l ∈ lens, l ≤ 15) (hk : kraft lens = 2 ^ 15) (hreq : k.rootReq < 15)
    (hlen : lens.length < 2 ^ (k.rootReq + 1)) (hbuild : buildTable k lens t = .ok (r, root, ht)) :
    r = .complete ∧ root = min k.rootReq (lens.foldr max 0) ∧ DecodeTables.BuiltBy k lens root t ht := by
  rw [buildTable_complete h15 hk (minLength_le_of_complete h15 hk hreq hlen) rfl] at hbuild
  obtain ⟨⟨a, c⟩, hentries, hbuild⟩ := Except.bind_ok.1 hbuild
  cases hbuild
  exact ⟨rfl, rfl, DecodeTables.builtBy_setArena hentries⟩

/-- A complete set whose codes fit the requested root width is built. -/
theorem buildTable_complete_total (h15 : ∀ l ∈ lens, l ≤ 15) (hk : kraft lens = 2 ^ 15) (hreq : k.rootReq < 15)
    (hlen : lens.length < 2 ^ (k.rootReq + 1)) (hsize : k.base + 2 ^ k.rootReq ≤ k.arenaSize) (hshort : ∀ l ∈ lens, l ≤ k.rootReq)
    (t : DecodeTables) : ∃ r, buildTable k lens t = .ok r := by
  have hfits : ∀ l ∈ lens, l ≤ min k.rootReq (lens.foldr max 0) := fun l hl =>
    le_min (hshort l hl) (maxLength_eq_foldr h15 ▸ le_maxLength h15 hl)
  obtain ⟨table, count, hentries, -⟩ := buildEntries_short (kind := k) (a := k.arenaName) h15 hk hfits
    ((Nat.add_le_add_left (Nat.pow_le_pow_right (by decide) (Nat.min_le_left _ _)) _).trans hsize) (t.arenaOf k)
  rw [buildTable_complete h15 hk (minLength_le_of_complete h15 hk hreq hlen) rfl, hentries]
  exact ⟨_, rfl⟩

/-! ## One code of length 1 -/

theorem DecodeTables.Reads.of_entry {f : Nat × Nat} {e e' : Entry} {kept : Nat} (h : t.Reads (k.ref root) f e kept) (hop : e.op = e'.op)
    (hval : e.val = e'.val) : t.Reads (k.ref root) f e' kept := by
  intro c hc hok hle hbits
  obtain ⟨e'', hop', hval', hdec⟩ := h c hc hok hle hbits
  exact ⟨e'', hop'.trans hop, fun hne => (hval' (hop ▸ hne)).trans hval, hdec⟩

/-- The code of the only symbol of a set of one code of length 1. -/
theorem canonicalField_single {s sym : Nat} (hs : lens.getD s 0 = 1) (hss : sortedSymbols lens = [s]) (h15 : ∀ l ∈ lens, l ≤ 15)
    (hsym : coded lens sym) : sym = s ∧ canonicalField lens sym = (0, 1) := by
  have honly : ∀ {x}, coded lens x → x = s := fun hx => by
    rw [coded_iff_mem h15, hss] at hx
    exact List.mem_singleton.1 hx
  obtain rfl := honly hsym
  refine ⟨rfl, ?_⟩
  have hnone : ((lens.take sym).filter fun x => x == 1) = [] := by
    refine List.filter_eq_nil_iff.2 fun x hx hone => ?_
    obtain ⟨j, hj, rfl⟩ := List.getElem_of_mem hx
    rw [List.length_take] at hj
    rw [List.getElem_take, beq_iff_eq] at hone
    have hcoded : coded lens j := by
      rw [coded, List.getD_eq_getElem _ _ (by omega), hone]
      exact one_ne_zero
    have := honly hcoded
    omega
  rw [canonicalField, canonicalCode, hs, hnone]
  rfl

/-! ## What the builds of a block leave -/

/-- A decode through the alphabet's table reads the canonical codes of `lens`. -/
def DecodeTables.ReadsCodes (t : DecodeTables) (k : CodeKind) (root : Nat) (lens : List Nat) : Prop :=
  ∀ sym, coded lens sym →
    t.Reads (k.ref root) (canonicalField lens sym) (symbolEntry k sym 0) ((symbolEntry k sym 0).kept root (lens.getD sym 0))

theorem DecodeTables.readsCodes_of_laidOut (h15 : ∀ l ∈ lens, l ≤ 15) (hlaid : laidOut t (k.ref root) k lens) : t.ReadsCodes k root lens :=
  fun _ hs => reads_of_laidOut hlaid h15 hs

/-- The table of a set of one code of length 1 reads it. -/
theorem DecodeTables.readsCodes_single (h : ∀ l ∈ lens, l ≤ 1) (hk : 0 < kraft lens) (hk' : kraft lens < 2 ^ 15) {s : Nat}
    (hs : lens.getD s 0 = 1) (hentry : t.entry (k.ref 1).store k.base = .ok (symbolEntry k s 1))
    (hentry' : t.entry (k.ref 1).store (k.base + 1) = .ok ⟨.invalid, 1, 0⟩) : t.ReadsCodes k 1 lens := by
  have h15 : ∀ l ∈ lens, l ≤ 15 := fun l hl => (h l hl).trans (by decide)
  obtain ⟨s', hss, -, hs'⟩ := sortedSymbols_single h hk hk'
  obtain ⟨rfl, -⟩ := canonicalField_single hs' hss h15 (sym := s) (by rw [coded, hs]; exact one_ne_zero)
  intro sym hsym
  obtain ⟨rfl, hfield⟩ := canonicalField_single hs hss h15 hsym
  have hone : oneBit t (k.ref 1) fun i => if i = 0 then symbolEntry k sym 1 else ⟨.invalid, 1, 0⟩ := by
    refine ⟨rfl, fun i hi => ?_⟩
    obtain rfl | rfl : i = 0 ∨ i = 1 := by omega
    · exact ⟨hentry, symbolEntry_bits ..⟩
    · exact ⟨hentry', rfl⟩
  have hreads := reads_of_oneBit hone two_pos (symbolEntry_ne_link k sym 1)
  rw [hfield, hs]
  have hkept : (symbolEntry k sym 0).kept 1 1 = (symbolEntry k sym 1).kept 1 1 := by rw [Entry.kept, Entry.kept, symbolEntry_op k sym 1 0]
  rw [hkept]
  exact hreads.of_entry (symbolEntry_op k sym 1 0) (symbolEntry_val k sym 1 0)

theorem acceptable_cases (hacc : acceptable lens) :
    kraft lens = 2 ^ 15 ∨ (∀ l ∈ lens, l ≤ 1) ∧ 0 < kraft lens ∧ kraft lens < 2 ^ 15 ∨ kraft lens = 0 := by
  obtain h | ⟨hle, hone⟩ := hacc
  · exact .inl h
  · rcases Nat.eq_zero_or_pos (kraft lens) with hzero | hpos
    · exact .inr (.inr hzero)
    · rcases hle.eq_or_lt with heq | hlt
      · exact .inl heq
      · exact .inr (.inl ⟨hone, hpos, hlt⟩)

theorem kraft_ne_zero_of_coded {sym : Nat} (h : coded lens sym) : kraft lens ≠ 0 := by
  intro hzero
  have hlt : sym < lens.length := by
    by_contra hge
    exact h (List.getD_eq_default _ _ (Nat.not_lt.1 hge))
  refine h ?_
  rw [List.getD_eq_getElem _ _ hlt]
  exact kraft_eq_zero.1 hzero _ (List.getElem_mem hlt)

/-- The two tables of a block agree in the entries below the distance table's. -/
def DecodeTables.AgreeBelow (t t' : DecodeTables) : Prop := ∀ i < 852, Cells.find? t'.arena i = Cells.find? t.arena i

/-- The literal/length table reads its codes, in every tables that agree with those built below the distance table. -/
theorem buildTable_lens_reads (h15 : ∀ l ∈ lens, l ≤ 15) (hlen : lens.length ≤ 286) (heob : coded lens 256) (hacc : acceptable lens)
    (hbuild : buildTable .lens lens t = .ok (r, root, ht)) :
    (r = .complete ∨ r = .acceptedIncomplete) ∧ ∀ ht', ht.AgreeBelow ht' → ht'.ReadsCodes .lens root lens := by
  have hentry : ∀ {ht' : DecodeTables} {i : Nat} {e : Entry}, ht.AgreeBelow ht' → Cells.Holds 852 ht.arena i e → ht'.entry .arena i = .ok e :=
    fun hagree hholds => Cells.get_nat (hholds.1.trans (by decide)) ((hagree _ hholds.1).trans hholds.2)
  obtain hk | ⟨hone, hpos, hlt⟩ | hzero := acceptable_cases hacc
  · obtain ⟨rfl, hroot, ⟨count, hentries⟩, -⟩ := buildTable_complete_ok h15 hk (by decide) (hlen.trans_lt (by decide)) hbuild
    have hmin : minLength lens ≤ root := hroot ▸ minLength_le_root h15 hk (by decide) (hlen.trans_lt (by decide))
    have hnine : root = 9 ∨ root < 9 ∧ maxLength lens ≤ root := by
      rw [maxLength_eq_foldr h15, hroot]
      show min 9 _ = 9 ∨ min 9 _ < 9 ∧ _ ≤ min 9 _
      omega
    refine ⟨.inl rfl, fun ht' hagree => DecodeTables.readsCodes_of_laidOut h15 fun v => ?_⟩
    obtain ⟨s, hs, hshort, hlong⟩ := buildEntries_leads_below h15 hk hlen hmin hnine hentries v
    refine ⟨s, hs, fun o ho => startsWith_unique h15 hk.le ho hs, fun hle => hentry hagree (hshort hle), fun hlt => ?_⟩
    obtain ⟨w, sub, hlink, hsub⟩ := hlong hlt
    exact ⟨w, sub, hentry hagree hlink, hentry hagree hsub⟩
  · obtain ⟨s, ht₁, -, hs, -, hfind, hbuild₁⟩ := buildTable_single (kind := .lens) hone hpos hlt (by decide) t
    rw [hbuild] at hbuild₁
    cases hbuild₁
    refine ⟨.inr rfl, fun ht' hagree => DecodeTables.readsCodes_single hone hpos hlt hs ?_ ?_⟩
    · exact hentry hagree ⟨by decide, (hfind 0).trans (if_pos rfl)⟩
    · exact hentry hagree ⟨by decide, (hfind 1).trans rfl⟩
  · exact absurd hzero (kraft_ne_zero_of_coded heob)

/-- The distance table reads its codes, and its build leaves the literal/length table alone. -/
theorem buildTable_dists_reads (h15 : ∀ l ∈ lens, l ≤ 15) (hlen : lens.length ≤ 30) (hacc : acceptable lens)
    (hbuild : buildTable .dists lens t = .ok (r, root, ht)) :
    r.refused = false ∧ t.AgreeBelow ht ∧ ht.ReadsCodes .dists root lens := by
  have hbase : ∀ {i}, i < 852 → i ≠ CodeKind.dists.base ∧ i ≠ CodeKind.dists.base + 1 := fun hi => by
    show _ ≠ 852 ∧ _ ≠ 853
    omega
  obtain hk | ⟨hone, hpos, hlt⟩ | hzero := acceptable_cases hacc
  · obtain ⟨rfl, hroot, hbuilt⟩ := buildTable_complete_ok h15 hk (by decide) (hlen.trans_lt (by decide)) hbuild
    have hmin : minLength lens ≤ root := hroot ▸ minLength_le_root h15 hk (by decide) (hlen.trans_lt (by decide))
    refine ⟨rfl, ?_, DecodeTables.readsCodes_of_laidOut h15 (hbuilt.laidOut h15 hk hmin)⟩
    obtain ⟨count, hentries⟩ := hbuilt.entries
    exact (buildEntries_leads h15 hk hmin hentries).1
  · obtain ⟨s, ht₁, -, hs, -, hfind, hbuild₁⟩ := buildTable_single (kind := .dists) hone hpos hlt (by decide) t
    rw [hbuild] at hbuild₁
    cases hbuild₁
    refine ⟨rfl, fun i hi => ?_, DecodeTables.readsCodes_single hone hpos hlt hs ?_ ?_⟩
    · rw [hfind, if_neg (hbase hi).1, if_neg (hbase hi).2]
    · exact Cells.get_nat (by decide) ((hfind _).trans (if_pos rfl))
    · have hsecond := hfind (CodeKind.dists.base + 1)
      rw [if_neg (Nat.succ_ne_self _), if_pos rfl] at hsecond
      exact Cells.get_nat (by decide) hsecond
  · obtain ⟨arena, hfind, hbuild₁⟩ := buildTable_empty (kind := .dists) (by rw [acceptance_eq h15, if_pos hzero]) t
    rw [hbuild] at hbuild₁
    cases hbuild₁
    refine ⟨rfl, fun i hi => ?_, fun sym hsym => absurd hzero (kraft_ne_zero_of_coded hsym)⟩
    exact (hfind i).trans (if_neg (not_or.2 (hbase hi)))

/-- A build faults at most where a code of an acceptable set is longer than the requested root width. -/
theorem buildTable_total (hk : k ≠ .codes) (hlen : lens.length < 2 ^ (k.rootReq + 1)) (hshort : ∀ l ∈ lens, l ≤ k.rootReq)
    (hacc : acceptable lens) (t : DecodeTables) : ∃ r, buildTable k lens t = .ok r := by
  have hreq : k.rootReq < 15 := by cases k <;> decide
  have hsize : k.base + 2 ^ k.rootReq ≤ k.arenaSize := by cases k <;> decide
  have h15 : ∀ l ∈ lens, l ≤ 15 := fun l hl => (hshort l hl).trans hreq.le
  obtain hcomplete | ⟨hone, hpos, hlt⟩ | hzero := acceptable_cases hacc
  · exact buildTable_complete_total h15 hcomplete hreq hlen hsize hshort t
  · obtain ⟨s, ht, -, -, -, -, hbuild⟩ := buildTable_single hone hpos hlt hk t
    exact ⟨_, hbuild⟩
  · obtain ⟨arena, -, hbuild⟩ := buildTable_empty (kind := k) (by rw [acceptance_eq h15, if_pos hzero]) t
    exact ⟨_, hbuild⟩

/-- The code-length table of a complete set reads its codes. -/
theorem buildTable_codes_reads (h7 : ∀ l ∈ lens, l ≤ 7) (hlen : lens.length = 19) (hk : kraft lens = 2 ^ 15) (t : DecodeTables) :
    ∃ root ht, buildTable .codes lens t = .ok (.complete, root, ht) ∧ ht.ReadsCodes .codes root lens := by
  have h15 : ∀ l ∈ lens, l ≤ 15 := fun l hl => (h7 l hl).trans (by decide)
  have hlt : lens.length < 2 ^ (CodeKind.codes.rootReq + 1) := by rw [hlen]; decide
  obtain ⟨⟨r, root, ht⟩, hbuild⟩ := buildTable_complete_total (k := .codes) h15 hk (by decide) hlt (by decide) h7 t
  obtain ⟨rfl, hroot, hbuilt⟩ := buildTable_complete_ok h15 hk (by decide) hlt hbuild
  have hmin : minLength lens ≤ root := hroot ▸ minLength_le_root h15 hk (by decide) hlt
  exact ⟨root, ht, hbuild, DecodeTables.readsCodes_of_laidOut h15 (hbuilt.laidOut h15 hk hmin)⟩

end

end Sys2Proof.Machine

/-! # The header of a dynamic block

The counts of R484 and the code-length code of R486. -/

namespace Sys2Proof.Machine

open Sys2Proof.Claim

section
variable {c : Dec} {w : Nat} {x : List Byte} {e : Inflate} {fs : List (Nat × Nat)}

/-! ## The first elements of an array -/

/-- The array `m` starts with the elements of `l`. -/
def Cells.Starts (m : Cells Nat) (l : List Nat) : Prop := Cells.wf 0 m ∧ ∀ i < l.length, Cells.read 0 m i = l.getD i 0

theorem Cells.starts_nil : Cells.Starts [] [] := ⟨Cells.wf_nil 0, fun _ hi => absurd hi (Nat.not_lt_zero _)⟩

theorem Cells.Starts.append {m : Cells Nat} {l : List Nat} (hm : Cells.Starts m l) (vs : List Nat) :
    Cells.Starts (Cells.writeAll 0 m l.length vs) (l ++ vs) := by
  refine ⟨Cells.wf_writeAll hm.1 _ _, fun i hi => ?_⟩
  rw [List.length_append] at hi
  rw [Cells.read_writeAll hm.1]
  by_cases hlt : i < l.length
  · rw [if_neg (by omega), hm.2 i hlt, List.getD_append _ _ _ _ hlt]
  · rw [if_pos (by omega), List.getD_append_right _ _ _ _ (Nat.not_lt.1 hlt)]

theorem Cells.firstOf_eq_of_read {m : Cells Nat} {l : List Nat} {start n : Nat} (hle : start + n ≤ l.length)
    (hm : ∀ i < l.length, Cells.read 0 m i = l.getD i 0) : Cells.firstOf m start n = (l.drop start).take n := by
  have hlen : (Cells.firstOf m start n).length = n := by rw [Cells.firstOf, List.length_map, List.length_range']
  refine List.ext_getElem (by rw [hlen, List.length_take, List.length_drop]; omega) fun i hi hi' => ?_
  rw [hlen] at hi
  simp only [Cells.firstOf, List.getElem_map, List.getElem_range', List.getElem_take, List.getElem_drop, Nat.one_mul]
  rw [hm _ (by omega), List.getD_eq_getElem _ _ (by omega)]

theorem packedWidth_map {α : Type} (g : α → Nat) (n : Nat) (l : List α) : packedWidth (l.map fun a => (g a, n)) = n * l.length := by
  induction l with
  | nil => rfl
  | cons a l ih => rw [List.map_cons, packedWidth, ih, List.length_cons, Nat.mul_succ, Nat.add_comm]

/-- A dynamic block's counts are in range, and its code-length code `bl` uses only the symbols it declares (R484, R486). -/
structure DeclaresCode (last nlen ndist ncode : Nat) (bl : List Nat) : Prop where
  last_lt : last < 2
  nlen_range : 257 ≤ nlen ∧ nlen ≤ 286
  ndist_range : 1 ≤ ndist ∧ ndist ≤ 30
  ncode_range : 4 ≤ ncode ∧ ncode ≤ 19
  length : bl.length = 19
  undeclared : ∀ k ∈ blOrder.drop ncode, bl.getD k 0 = 0
  short : ∀ l ∈ bl, l ≤ 7

/-- The bit fields of a dynamic block's header up to its code-length code (R480 to R486). -/
def codeHeader (last nlen ndist ncode : Nat) (bl : List Nat) : List (Nat × Nat) :=
  [(4 + last, 3), (nlen - 257, 5), (ndist - 1, 5), (ncode - 4, 4)] ++ (blOrder.take ncode).map fun k => (bl.getD k 0, 3)

theorem packedWidth_codeHeader {last nlen ndist ncode : Nat} {bl : List Nat} (hncode : ncode ≤ 19) :
    packedWidth (codeHeader last nlen ndist ncode bl) = 17 + 3 * ncode := by
  rw [codeHeader, packedWidth_append, packedWidth_map, List.length_take, Nat.min_eq_left (show ncode ≤ blOrder.length from hncode)]
  rfl

theorem DeclaresCode.fits {last nlen ndist ncode : Nat} {bl : List Nat} (hd : DeclaresCode last nlen ndist ncode bl) :
    FieldsFit (codeHeader last nlen ndist ncode bl) := by
  obtain ⟨hlast, hnlen, hndist, hncode, -, -, h7⟩ := hd
  refine fieldsFit_append.2 ⟨?_, fun f hf => ?_⟩
  · refine fieldsFit_cons.2 ⟨?_, fieldsFit_cons.2 ⟨?_, fieldsFit_cons.2 ⟨?_, fieldsFit_singleton ?_⟩⟩⟩ <;> simp only <;> omega
  · obtain ⟨k, -, rfl⟩ := List.mem_map.1 hf
    exact Nat.lt_succ_of_le (getD_le h7 k)

variable (h : c.u.bc.Ok)
include h

/-! ## One bit field (R300 to R303) -/

/-- A micro-step that needs one bit field goes on with its value. -/
theorem Dec.field_past {v n : Nat} (hn : n ≤ 25) (hnext : c.Next w ((v, n) :: fs)) :
    let c' := (c.past w x e).pulled n 0
    (∀ k, (c.past w x e).needing n k = k c') ∧ c'.peek n = v ∧ c'.drop n = c.past (w + n) x e := by
  obtain ⟨hv, hrest⟩ := hnext
  have hle := (Nat.le_add_right _ _).trans hrest.le
  have hbc : (c.past w x e).u.bc.Room n := BitCursor.room_of_le hn
  refine ⟨fun k => Dec.needing_past h hbc hle, (Dec.peek_past h hbc hle (Nat.zero_add _).le).trans hv, ?_⟩
  rw [Dec.drop_past h hbc ((Nat.le_add_right _ _).trans hle), Nat.zero_add, Dec.pulled_past_self h ((Nat.le_add_right _ _).trans hle)]

/-! ## TABLE (R484) -/

theorem micro_table {nl nd nc : Nat} (hm : e.mode = .table) (hnext : c.Next w ((nl, 5) :: (nd, 5) :: (nc, 4) :: fs)) :
    micro (c.past w x e) =
      if 286 < nl + 257 ∨ 30 < nd + 1 then
        .raised .tooManySymbols (c.past (w + 14) x { e with nlen := nl + 257, ndist := nd + 1, ncode := nc + 4 })
      else
        .advanced (c.past (w + 14) x
          { e with nlen := nl + 257, ndist := nd + 1, ncode := nc + 4, haveCount := 0, cl := [], mode := .lenLens }) := by
  obtain ⟨hnl, hnd, hnc, hrest⟩ := hnext
  have hle : w + 14 ≤ c.avail := by have := hrest.le; simp only at this; omega
  have hw : w ≤ c.avail := by omega
  have hroom : (c.past w x e).u.bc.Room 14 := BitCursor.room_of_le (by decide)
  have hnl' : ((c.past w x e).pulled 14 0).peek 5 = nl := (Dec.peek_past h hroom hle (by decide)).trans hnl
  have hnd' : ((c.past w x e).pulled 14 5).peek 5 = nd := (Dec.peek_past h hroom hle (by decide)).trans hnd
  have hnc' : ((c.past w x e).pulled 14 10).peek 4 = nc := (Dec.peek_past h hroom hle (by decide)).trans hnc
  have hmicro : micro (c.past w x e) = microTable (c.past w x e) := by rw [micro, Dec.past_mode, hm]
  rw [hmicro, microTable, Dec.needing_past h hroom hle]
  simp only [hnl', hnd', hnc', Dec.drop_past h hroom hw, Nat.zero_add, Nat.reduceAdd, Dec.pulled_past_self h hw]
  rfl

/-! ## LENLENS (R486) -/

omit h in
/-- The lengths of the first `i` symbols in the order of R486, and 0 for the others. -/
def ClRead (bl : List Nat) (i : Nat) (m : Cells Nat) : Prop :=
  Cells.wf 0 m ∧ ∀ k, Cells.read 0 m k = if k ∈ blOrder.take i then bl.getD k 0 else 0

omit h in
theorem clRead_zero (bl : List Nat) : ClRead bl 0 [] := ⟨Cells.wf_nil 0, fun _ => rfl⟩

omit h in
theorem ClRead.succ {bl : List Nat} {i : Nat} {m : Cells Nat} (hm : ClRead bl i m) (hi : i < 19) :
    ClRead bl (i + 1) (Cells.write 0 m (tableAt blOrder i) (bl.getD (tableAt blOrder i) 0)) := by
  have hget : tableAt blOrder i = blOrder[i]'hi := List.getD_eq_getElem _ _ hi
  refine ⟨Cells.wf_write hm.1 _ _, fun k => ?_⟩
  rw [Cells.read_write hm.1.1, hm.2, List.take_succ_eq_append_getElem hi, ← hget]
  by_cases hk : k = tableAt blOrder i
  · rw [if_pos hk, if_pos (by rw [hk]; simp), hk]
  · simp only [hk, if_false, List.mem_append, List.mem_singleton, or_false]

omit h in
theorem ClRead.firstOf {bl : List Nat} {n : Nat} {m : Cells Nat} (hm : ClRead bl n m) (hlen : bl.length = 19)
    (hrest : ∀ k ∈ blOrder.drop n, bl.getD k 0 = 0) : Cells.firstOf m 0 19 = bl := by
  have horder : ∀ k < 19, k ∈ blOrder := by decide
  have hread : ∀ k < bl.length, Cells.read 0 m k = bl.getD k 0 := fun k hk => by
    rw [hm.2]
    by_cases hmem : k ∈ blOrder.take n
    · rw [if_pos hmem]
    · have hsplit := horder k (hlen ▸ hk)
      rw [← List.take_append_drop n blOrder, List.mem_append] at hsplit
      rw [if_neg hmem, hrest k (hsplit.resolve_left hmem)]
  rw [Cells.firstOf_eq_of_read (by omega) hread, List.drop_zero, List.take_of_length_le hlen.le]

/-- The length of one symbol of the code-length code. -/
theorem reaches_lenLens_one {bl : List Nat} (hm : e.mode = .lenLens) (hi : e.haveCount < e.ncode) (hcode : e.ncode ≤ 19)
    (hnext : c.Next w ((bl.getD (tableAt blOrder e.haveCount) 0, 3) :: fs)) :
    (c.past w x e).Reaches 1 (c.past (w + 3) x { e with
      cl := Cells.write 0 e.cl (tableAt blOrder e.haveCount) (bl.getD (tableAt blOrder e.haveCount) 0), haveCount := e.haveCount + 1 }) := by
  have horder : ∀ i < 19, tableAt blOrder i < 19 := by decide
  have hlt : e.haveCount < 19 := hi.trans_le hcode
  obtain ⟨hneed, hpeek, hdrop⟩ := Dec.field_past (x := x) (e := e) h (by decide) hnext
  have hmicro : micro (c.past w x e) = microLenLens (c.past w x e) := by rw [micro, Dec.past_mode, hm]
  refine reaches_of_micro ?_
  rw [hmicro, microLenLens]
  refine (if_pos hi).trans ((hneed _).trans ?_)
  show Micro.ofExcept (checkIndex .blOrder 19 (e.haveCount : Int)) (fun i =>
    Micro.ofExcept (Cells.store 0 .cl 19 e.cl (tableAt blOrder i : Int) (((c.past w x e).pulled 3 0).peek 3)) fun cl =>
      .advanced ((((c.past w x e).pulled 3 0).drop 3).edit fun d => { d with cl := cl, haveCount := d.haveCount + 1 })) = _
  rw [checkIndex_nat hlt, hpeek, hdrop]
  simp only [Micro.ofExcept, Cells.store_nat _ _ (horder _ hlt)]
  rfl

/-- The first lengths of the code-length code. -/
theorem reaches_lenLens {bl : List Nat} (hcode : e.ncode ≤ 19)
    (hnext : c.Next w (((blOrder.take e.ncode).map fun k => (bl.getD k 0, 3)) ++ fs)) {i : Nat} (hi : i ≤ e.ncode) :
    ∃ cl, ClRead bl i cl ∧
      (c.past w x { e with haveCount := 0, cl := [], mode := .lenLens }).Reaches i
        (c.past (w + 3 * i) x { e with haveCount := i, cl := cl, mode := .lenLens }) := by
  induction i with
  | zero => exact ⟨[], clRead_zero bl, .refl _⟩
  | succ i ih =>
    obtain ⟨cl, hread, hr⟩ := ih (by omega)
    have hlt : i < (blOrder.take e.ncode).length := by rw [List.length_take]; exact lt_min hi (by show i < 19; omega)
    have hwidth : packedWidth (((blOrder.take e.ncode).take i).map fun k => (bl.getD k 0, 3)) = 3 * i := by
      rw [packedWidth_map, List.length_take, Nat.min_eq_left hlt.le]
    rw [← List.take_append_drop i (blOrder.take e.ncode), List.map_append, List.append_assoc, List.drop_eq_getElem_cons hlt] at hnext
    have hfield := (Dec.next_append.1 hnext).2
    rw [hwidth, List.getElem_take, ← List.getD_eq_getElem (d := 0)] at hfield
    have hone := reaches_lenLens_one (x := x) (e := { e with haveCount := i, cl := cl, mode := .lenLens }) h rfl hi hcode hfield
    exact ⟨_, hread.succ (by omega), hr.trans hone⟩

omit h in
/-- The build of R486, past the code-length code. -/
theorem micro_lenLensBuild {bl : List Nat} {r : BuildResult} {root : Nat} {ht : DecodeTables} (hm : e.mode = .lenLens)
    (hcount : ¬e.haveCount < e.ncode) (hcl : Cells.firstOf e.cl 0 19 = bl) (hbuild : buildTable .codes bl e.ht = .ok (r, root, ht)) :
    micro (c.past w x e) =
      if r ≠ .complete then .raised .badCodelenSet (c.past w x { e with ht := ht })
      else
        .advanced (c.past w x { e with
          ht := ht, clRef := some (CodeKind.codes.ref root), haveCount := 0, lens := [], sub := .sym, mode := .codeLens }) := by
  have hmicro : micro (c.past w x e) = microLenLens (c.past w x e) := by rw [micro, Dec.past_mode, hm]
  rw [hmicro, microLenLens]
  refine (if_neg hcount).trans ?_
  show Micro.ofExcept (buildTable .codes (Cells.firstOf e.cl 0 19) e.ht) _ = _
  rw [hcl, hbuild]
  rfl

/-! ## From the block's type on -/

section
variable {last nlen ndist ncode : Nat} {bl : List Nat} (hm : e.mode = .type) (hd : DeclaresCode last nlen ndist ncode bl)
include hm hd

/-- The loop past the lengths of the code-length code. -/
theorem reaches_codeHeader (hnext : c.Next w (codeHeader last nlen ndist ncode bl ++ fs)) :
    ∃ cl, Cells.firstOf cl 0 19 = bl ∧
      (c.past w x e).Reaches (2 + ncode) (c.past (w + packedWidth (codeHeader last nlen ndist ncode bl)) x
        { e with last := last == 1, nlen := nlen, ndist := ndist, ncode := ncode, haveCount := ncode, cl := cl, mode := .lenLens }) := by
  obtain ⟨hlast, ⟨hnlen, hnlen'⟩, ⟨hndist, hndist'⟩, ⟨hncode, hncode'⟩, hlen, hrest, -⟩ := hd
  rw [codeHeader, List.append_assoc] at hnext
  have htype := micro_type (x := x) (t := 2) h hm hlast hnext
  rw [if_neg (by decide), if_neg (by decide), if_pos rfl] at htype
  have htable := micro_table (x := x) (e := { e with last := last == 1, mode := .table }) h rfl hnext.2
  rw [if_neg (by omega), Nat.sub_add_cancel hnlen, Nat.sub_add_cancel hndist, Nat.sub_add_cancel hncode] at htable
  obtain ⟨cl, hread, hr⟩ := reaches_lenLens (x := x)
    (e := { e with last := last == 1, nlen := nlen, ndist := ndist, ncode := ncode, mode := .table }) h hncode' hnext.2.2.2.2 le_rfl
  refine ⟨cl, hread.firstOf hlen hrest, ?_⟩
  rw [packedWidth_codeHeader hncode', ← Nat.add_assoc]
  exact ((reaches_of_micro htype).trans (reaches_of_micro htable)).trans hr

/-- The raise of a code-length code that is not complete. -/
theorem micro_codeHeader_raised (hk : kraft bl ≠ 2 ^ 15) (hnext : c.Next w (codeHeader last nlen ndist ncode bl ++ fs)) :
    ∃ e₁ e₂, (c.past w x e).Reaches (2 + ncode) (c.past (w + packedWidth (codeHeader last nlen ndist ncode bl)) x e₁) ∧
      micro (c.past (w + packedWidth (codeHeader last nlen ndist ncode bl)) x e₁) =
        .raised .badCodelenSet (c.past (w + packedWidth (codeHeader last nlen ndist ncode bl)) x e₂) := by
  obtain ⟨cl, hcl, hr⟩ := reaches_codeHeader (x := x) h hm hd hnext
  obtain ⟨r, root, ht, hbuild, hne⟩ := buildTable_codes_refuses (fun l hl => (hd.short l hl).trans (by decide)) hk e.ht
  have hmicro := micro_lenLensBuild (c := c) (w := w + packedWidth (codeHeader last nlen ndist ncode bl)) (x := x)
    (e := { e with last := last == 1, nlen := nlen, ndist := ndist, ncode := ncode, haveCount := ncode, cl := cl, mode := .lenLens })
    rfl (Nat.lt_irrefl _) hcl hbuild
  rw [if_pos hne] at hmicro
  exact ⟨_, _, hr, hmicro⟩

end

end

end Sys2Proof.Machine

/-! # The code lengths of a dynamic block

The symbols of R488, the repeats of R490 and the builds of R494. -/

namespace Sys2Proof.Machine

open Sys2Proof.Claim

/-! ## The lengths read so far -/

/-- The decoder reads the code lengths of a dynamic block by the canonical codes of `bl`, and has read the lengths `acc`. -/
structure Inflate.LensRead (e : Inflate) (last : Bool) (nlen ndist root : Nat) (bl acc : List Nat) : Prop where
  mode : e.mode = .codeLens
  last : e.last = last
  nlen : e.nlen = nlen
  ndist : e.ndist = ndist
  ref : e.clRef = some (CodeKind.codes.ref root)
  reads : e.ht.ReadsCodes .codes root bl
  count : e.haveCount = acc.length
  starts : Cells.Starts e.lens acc

/-- The copies that a repeat symbol with extra bits of the value `v` stands for (R490). -/
def repeatCount (sym v : Nat) : Nat := v + if sym = 18 then 11 else 3

/-- The length that a repeat symbol repeats after the length `last` (R490). -/
def repeatValue (last : Option Nat) (sym : Nat) : Nat := if sym = 16 then last.getD 0 else 0

theorem repeatLens_eq (v : Nat) {n i : Nat} (m : Cells Nat) (hle : i + n ≤ 316) :
    repeatLens v n i m = .ok (Cells.writeAll 0 m i (List.replicate n v)) := by
  induction n generalizing i m with
  | zero => rfl
  | succ n ih =>
    rw [repeatLens, Cells.store_nat _ _ (by omega)]
    exact ih _ (by omega)

/-! ## Runs of lengths -/

theorem decodeRuns_cons {last : Option Nat} {r : Run} {rs : List Run} {lens : List Nat} (h : decodeRuns last (r :: rs) = some lens) :
    ∃ ls more, decodeRun last r = some ls ∧ decodeRuns (ls.getLast?.or last) rs = some more ∧ lens = ls ++ more := by
  rw [decodeRuns] at h
  split at h
  · cases h
  · next ls hrun =>
    split at h
    · cases h
    · next more hmore =>
      cases h
      exact ⟨ls, more, hrun, by rwa [Option.or_eq_orElse], rfl⟩

theorem decodeRun_le {last : Option Nat} {r : Run} {ls : List Nat} (hlast : ∀ v ∈ last, v ≤ 15) (h : decodeRun last r = some ls) :
    ∀ l ∈ ls, l ≤ 15 := by
  intro l hl
  cases r with
  | single len count =>
    obtain ⟨h15, ⟨⟩⟩ := Option.ite_none_right_eq_some.1 h
    rwa [List.eq_of_mem_replicate hl]
  | repeat16 len lead count =>
    obtain ⟨-, hls⟩ := Option.ite_none_right_eq_some.1 h
    cases lead with
    | true =>
      obtain ⟨h15, ⟨⟩⟩ := Option.ite_none_right_eq_some.1 hls
      obtain rfl | hl := List.mem_cons.1 hl
      · exact h15
      · rwa [List.eq_of_mem_replicate hl]
    | false =>
      obtain ⟨v, hv, rfl⟩ := Option.map_eq_some_iff.1 hls
      rw [List.eq_of_mem_replicate hl]
      exact hlast v hv
  | zeros17 count =>
    obtain ⟨-, ⟨⟩⟩ := Option.ite_none_right_eq_some.1 h
    rw [List.eq_of_mem_replicate hl]
    exact Nat.zero_le _
  | zeros18 count =>
    obtain ⟨-, ⟨⟩⟩ := Option.ite_none_right_eq_some.1 h
    rw [List.eq_of_mem_replicate hl]
    exact Nat.zero_le _

/-- Runs describe lengths of at most 15. -/
theorem decodeRuns_le {last : Option Nat} {rs : List Run} {lens : List Nat} (hlast : ∀ v ∈ last, v ≤ 15) (h : decodeRuns last rs = some lens) :
    ∀ l ∈ lens, l ≤ 15 := by
  induction rs generalizing last lens with
  | nil =>
    cases h
    exact List.forall_mem_nil _
  | cons r rs ih =>
    obtain ⟨ls, more, hrun, hmore, rfl⟩ := decodeRuns_cons h
    have hls := decodeRun_le hlast hrun
    refine List.forall_mem_append.2 ⟨hls, ih (fun v hv => ?_) hmore⟩
    rw [Option.mem_def, Option.or_eq_some_iff] at hv
    obtain hv | ⟨-, hv⟩ := hv
    · exact hls v (List.mem_of_getLast? hv)
    · exact hlast v hv

/-- The extra bits of a run fit their fields. -/
theorem decodeRun_fits {last : Option Nat} {r : Run} {ls : List Nat} {field : Nat → Nat × Nat} (hfield : ∀ s, (field s).1 < 2 ^ (field s).2)
    (h : decodeRun last r = some ls) : FieldsFit (runFields field r) := by
  cases r with
  | single len count => exact fun f hf => by rw [List.eq_of_mem_replicate hf]; exact hfield _
  | repeat16 len lead count =>
    obtain ⟨hcount, -⟩ := Option.ite_none_right_eq_some.1 h
    have hrest : FieldsFit [field 16, (count - 3, 2)] := fieldsFit_cons.2 ⟨hfield _, fieldsFit_singleton (by simp only; omega)⟩
    cases lead with
    | true => exact fieldsFit_cons.2 ⟨hfield _, hrest⟩
    | false => exact hrest
  | zeros17 count =>
    obtain ⟨hcount, -⟩ := Option.ite_none_right_eq_some.1 h
    exact fieldsFit_cons.2 ⟨hfield _, fieldsFit_singleton (by simp only; omega)⟩
  | zeros18 count =>
    obtain ⟨hcount, -⟩ := Option.ite_none_right_eq_some.1 h
    exact fieldsFit_cons.2 ⟨hfield _, fieldsFit_singleton (by simp only; omega)⟩

theorem decodeRuns_fits {last : Option Nat} {rs : List Run} {lens : List Nat} {field : Nat → Nat × Nat}
    (hfield : ∀ s, (field s).1 < 2 ^ (field s).2) (h : decodeRuns last rs = some lens) : FieldsFit (rs.flatMap (runFields field)) := by
  induction rs generalizing last lens with
  | nil => exact fieldsFit_nil
  | cons r rs ih =>
    obtain ⟨ls, more, hrun, hmore, -⟩ := decodeRuns_cons h
    exact fieldsFit_append.2 ⟨decodeRun_fits hfield hrun, ih hmore⟩

section
variable {c : Dec} {w root nlen ndist : Nat} {x : List Byte} {e : Inflate} {fs : List (Nat × Nat)} {last : Bool} {bl acc : List Nat}

theorem Inflate.LensRead.append (he : e.LensRead last nlen ndist root bl acc) (vs : List Nat) (sub : CodeLensSub) :
    Inflate.LensRead { e with lens := Cells.writeAll 0 e.lens acc.length vs, haveCount := acc.length + vs.length, sub := sub }
      last nlen ndist root bl (acc ++ vs) :=
  { he with count := (List.length_append ..).symm, starts := he.starts.append vs }

theorem Inflate.LensRead.setSub (he : e.LensRead last nlen ndist root bl acc) (sub : CodeLensSub) :
    Inflate.LensRead { e with sub := sub } last nlen ndist root bl acc := { he with }

variable (h : c.u.bc.Ok) (he : e.LensRead last nlen ndist root bl acc)
include h he

omit h in
theorem micro_codeLens : micro (c.past w x e) = microCodeLens (c.past w x e) := by rw [micro, Dec.past_mode, he.mode]

/-! ## Symbols (R488) -/

section
variable {sym : Nat} (hsub : e.sub = .sym) (hlt : acc.length < nlen + ndist) (hc : coded bl sym)
  (hnext : c.Next w (canonicalField bl sym :: fs))
include hsub hlt hc hnext

theorem micro_symbol (htotal : nlen + ndist ≤ 316) :
    micro (c.past w x e) =
      if sym < 16 then
        .advanced (c.past (w + (canonicalField bl sym).2) x
          { e with lens := Cells.write 0 e.lens acc.length sym, haveCount := acc.length + 1 })
      else .advanced (c.past (w + (canonicalField bl sym).2) x { e with sub := subOf sym }) := by
  obtain ⟨e', -, hval, hdec⟩ := Dec.decodeVia_past (x := x) h .codes (he.reads sym hc) hnext
  have hval' : e'.val = sym := hval (by simp [symbolEntry])
  have hkept : (symbolEntry .codes sym 0).kept root (bl.getD sym 0) = 0 := if_neg (by simp [symbolEntry])
  rw [hkept, Nat.sub_zero, Dec.pulled_past_self h ((Nat.le_add_right _ _).trans hnext.le)] at hdec
  rw [← he.ref] at hdec
  have hcount : e.haveCount < e.nlen + e.ndist := by rw [he.count, he.nlen, he.ndist]; exact hlt
  have hmicro : microCodeLens (c.past w x e) = microCodeLensSym (c.past w x e) := by
    show (match e.sub with | .rep16 => _ | .rep17 => _ | .rep18 => _ | .sym => _) = _
    rw [hsub]
    exact if_pos hcount
  rw [micro_codeLens he, hmicro, microCodeLensSym]
  show Micro.ofExcept ((c.past w x e).decodeVia .codes e.clRef) _ = _
  rw [hdec]
  show (if e'.val < 16 then _ else _) = _
  rw [hval']
  refine if_congr Iff.rfl ?_ rfl
  show Micro.ofExcept (Cells.store 0 .lens 316 e.lens (e.haveCount : Int) sym) _ = _
  rw [he.count, Cells.store_nat _ _ (hlt.trans_le htotal), ← he.count]
  rfl

/-- A length itself. -/
theorem reaches_lengthRead (htotal : nlen + ndist ≤ 316) (h15 : sym < 16) :
    ∃ e', e'.LensRead last nlen ndist root bl (acc ++ [sym]) ∧ e'.sub = .sym ∧
      (c.past w x e).Reaches 1 (c.past (w + (canonicalField bl sym).2) x e') := by
  have hmicro := micro_symbol (x := x) h he hsub hlt hc hnext htotal
  rw [if_pos h15] at hmicro
  exact ⟨_, he.append [sym] e.sub, hsub, reaches_of_micro hmicro⟩

/-- A repeat symbol. -/
theorem reaches_repeatSymbol (htotal : nlen + ndist ≤ 316) (h16 : 16 ≤ sym) :
    (c.past w x e).Reaches 1 (c.past (w + (canonicalField bl sym).2) x { e with sub := subOf sym }) := by
  have hmicro := micro_symbol (x := x) h he hsub hlt hc hnext htotal
  rw [if_neg (Nat.not_lt.2 h16)] at hmicro
  exact reaches_of_micro hmicro

end

/-! ## Repeats (R490) -/

section
variable {v : Nat}

theorem micro_rep16 (hsub : e.sub = .rep16) (hne : acc ≠ []) (hlen : acc.length ≤ 316) (hnext : c.Next w ((v, 2) :: fs)) :
    micro (c.past w x e) = microRepeat (c.past (w + 2) x e) (acc.getLast?.getD 0) (3 + v) := by
  obtain ⟨hneed, hpeek, hdrop⟩ := Dec.field_past (x := x) (e := e) h (by decide) hnext
  have hpos := List.length_pos_iff.2 hne
  have hlast : Cells.read 0 e.lens (acc.length - 1) = acc.getLast?.getD 0 := by
    rw [he.starts.2 _ (by omega), List.getLast?_eq_getElem?, List.getD_eq_getElem?_getD]
  have hload : Cells.load 0 .lens 316 e.lens ((e.haveCount : Int) - 1) = .ok (acc.getLast?.getD 0) := by
    rw [← hlast, he.count, ← Nat.cast_pred hpos, Cells.load_nat _ (by omega)]
  rw [micro_codeLens he, microCodeLens, show (c.past w x e).u.sub = .rep16 from hsub]
  show microRep16 _ = _
  rw [microRep16, hneed]
  have hcount : ((c.past w x e).pulled 2 0).u.haveCount = acc.length := he.count
  refine (if_neg (by omega)).trans ?_
  show Micro.ofExcept (Cells.load 0 .lens 316 e.lens ((e.haveCount : Int) - 1)) _ = _
  rw [hload, hpeek, hdrop]
  rfl

/-- A symbol 16 before any length. -/
theorem micro_rep16_first (hsub : e.sub = .rep16) (hnil : acc = []) (hnext : c.Next w ((v, 2) :: fs)) :
    micro (c.past w x e) = .raised .badRepeat ((c.past w x e).pulled 2 0) := by
  obtain ⟨hneed, -⟩ := Dec.field_past (x := x) (e := e) h (by decide) hnext
  rw [micro_codeLens he, microCodeLens, show (c.past w x e).u.sub = .rep16 from hsub]
  show microRep16 _ = _
  rw [microRep16, hneed]
  exact if_pos (he.count.trans (by rw [hnil, List.length_nil]))

theorem micro_rep17 (hsub : e.sub = .rep17) (hnext : c.Next w ((v, 3) :: fs)) :
    micro (c.past w x e) = microRepeat (c.past (w + 3) x e) 0 (3 + v) := by
  obtain ⟨hneed, hpeek, hdrop⟩ := Dec.field_past (x := x) (e := e) h (by decide) hnext
  rw [micro_codeLens he, microCodeLens, show (c.past w x e).u.sub = .rep17 from hsub]
  show microRep17 _ = _
  rw [microRep17, hneed, hpeek, hdrop]

theorem micro_rep18 (hsub : e.sub = .rep18) (hnext : c.Next w ((v, 7) :: fs)) :
    micro (c.past w x e) = microRepeat (c.past (w + 7) x e) 0 (11 + v) := by
  obtain ⟨hneed, hpeek, hdrop⟩ := Dec.field_past (x := x) (e := e) h (by decide) hnext
  rw [micro_codeLens he, microCodeLens, show (c.past w x e).u.sub = .rep18 from hsub]
  show microRep18 _ = _
  rw [microRep18, hneed, hpeek, hdrop]

/-- The extra bits of a repeat symbol, but for a first symbol 16. -/
theorem micro_repeat {sym : Nat} (h16 : 16 ≤ sym) (h18 : sym ≤ 18) (hsub : e.sub = subOf sym) (hne : sym = 16 → acc ≠ [])
    (hlen : acc.length ≤ 316) (hnext : c.Next w ((v, tableAt blExtra sym) :: fs)) :
    micro (c.past w x e) = microRepeat (c.past (w + tableAt blExtra sym) x e) (repeatValue acc.getLast? sym) (repeatCount sym v) := by
  obtain rfl | rfl | rfl : sym = 16 ∨ sym = 17 ∨ sym = 18 := by omega
  · rw [repeatCount, Nat.add_comm v]
    exact micro_rep16 h he hsub (hne rfl) hlen hnext
  · rw [repeatCount, Nat.add_comm v]
    exact micro_rep17 h he hsub hnext
  · rw [repeatCount, Nat.add_comm v]
    exact micro_rep18 h he hsub hnext

omit h in
/-- A repeat past the lengths declared. -/
theorem microRepeat_raised {n : Nat} (hlt : nlen + ndist < acc.length + n) :
    microRepeat (c.past w x e) v n = .raised .badRepeat (c.past w x e) :=
  if_pos (by rw [← he.count, ← he.nlen, ← he.ndist] at hlt; exact hlt)

omit h in
theorem microRepeat_advanced {n : Nat} (hle : acc.length + n ≤ nlen + ndist) (htotal : nlen + ndist ≤ 316) :
    microRepeat (c.past w x e) v n = .advanced (c.past w x
      { e with lens := Cells.writeAll 0 e.lens acc.length (List.replicate n v), haveCount := acc.length + n, sub := .sym }) := by
  refine (if_neg (by rw [← he.count, ← he.nlen, ← he.ndist] at hle; exact Nat.not_lt.2 hle)).trans ?_
  show Micro.ofExcept (repeatLens v n e.haveCount e.lens) _ = _
  rw [he.count, repeatLens_eq _ _ (hle.trans htotal), ← he.count]
  rfl

end

/-! ## Runs (R488, R490) -/

variable (hsub : e.sub = .sym) (htotal : nlen + ndist ≤ 316)
include hsub htotal

/-- A repeat symbol with its extra bits. -/
theorem reaches_repeat {sym v count : Nat} (h16 : 16 ≤ sym) (h18 : sym ≤ 18) (hc : coded bl sym) (hne : sym = 16 → acc ≠ [])
    (hcount : repeatCount sym v = count) (hle : acc.length + count ≤ nlen + ndist)
    (hnext : c.Next w (canonicalField bl sym :: (v, tableAt blExtra sym) :: fs)) :
    ∃ e', e'.LensRead last nlen ndist root bl (acc ++ List.replicate count (repeatValue acc.getLast? sym)) ∧ e'.sub = .sym ∧
      (c.past w x e).Reaches (packedWidth [canonicalField bl sym, (v, tableAt blExtra sym)])
        (c.past (w + packedWidth [canonicalField bl sym, (v, tableAt blExtra sym)]) x e') := by
  subst hcount
  have hpos : 0 < repeatCount sym v := by
    unfold repeatCount
    split_ifs <;> omega
  have hsymbol := reaches_repeatSymbol (x := x) h he hsub (by omega) hc hnext htotal h16
  have he' := he.setSub (subOf sym)
  have hmicro := micro_repeat (x := x) h he' h16 h18 rfl hne (by omega) hnext.2
  rw [microRepeat_advanced he' hle htotal] at hmicro
  have hlens := he.append (List.replicate (repeatCount sym v) (repeatValue acc.getLast? sym)) .sym
  rw [List.length_replicate] at hlens
  have hwidth : 0 < (canonicalField bl sym).2 := Nat.pos_of_ne_zero hc
  have hextra : ∀ i < 19, 16 ≤ i → 1 ≤ tableAt blExtra i := by decide
  have := hextra sym (by omega) h16
  refine ⟨_, hlens, rfl, ?_⟩
  rw [packedWidth, packedWidth, packedWidth, Nat.add_zero, ← Nat.add_assoc]
  exact (hsymbol.trans (reaches_of_micro hmicro)).mono (by simp only; omega)

/-- A length as often as a run says. -/
theorem reaches_single {len : Nat} (h15 : len ≤ 15) (count : Nat) (hc : count ≠ 0 → coded bl len)
    (hle : acc.length + count ≤ nlen + ndist) (hnext : c.Next w (List.replicate count (canonicalField bl len) ++ fs)) :
    ∃ e', e'.LensRead last nlen ndist root bl (acc ++ List.replicate count len) ∧ e'.sub = .sym ∧
      (c.past w x e).Reaches (packedWidth (List.replicate count (canonicalField bl len)))
        (c.past (w + packedWidth (List.replicate count (canonicalField bl len))) x e') := by
  induction count generalizing acc w e with
  | zero => exact ⟨e, by rwa [List.replicate_zero, List.append_nil], hsub, .refl _⟩
  | succ count ih =>
    rw [List.replicate_succ, List.cons_append] at hnext
    obtain ⟨e₁, he₁, hsub₁, hr₁⟩ := reaches_lengthRead (x := x) h he hsub (by omega) (hc (Nat.succ_ne_zero _)) hnext htotal (by omega)
    obtain ⟨e₂, he₂, hsub₂, hr₂⟩ := ih he₁ hsub₁ (fun _ => hc (Nat.succ_ne_zero _)) (by simp only [List.length_append, List.length_singleton]; omega)
      hnext.2
    have hpos : 0 < (canonicalField bl len).2 := Nat.pos_of_ne_zero (hc (Nat.succ_ne_zero _))
    rw [List.append_assoc, List.singleton_append] at he₂
    refine ⟨e₂, he₂, hsub₂, ?_⟩
    rw [List.replicate_succ, packedWidth, ← Nat.add_assoc]
    exact (hr₁.trans hr₂).mono (by omega)

theorem reaches_run {r : Run} {ls : List Nat} (hrun : decodeRun acc.getLast? r = some ls) (hcoded : ∀ s ∈ runSymbols r, coded bl s)
    (hle : (acc ++ ls).length ≤ nlen + ndist) (hnext : c.Next w (runFields (canonicalField bl) r ++ fs)) :
    ∃ e', e'.LensRead last nlen ndist root bl (acc ++ ls) ∧ e'.sub = .sym ∧
      (c.past w x e).Reaches (packedWidth (runFields (canonicalField bl) r))
        (c.past (w + packedWidth (runFields (canonicalField bl) r)) x e') := by
  rw [List.length_append] at hle
  cases r with
  | single len count =>
    obtain ⟨h15, ⟨⟩⟩ := Option.ite_none_right_eq_some.1 hrun
    rw [List.length_replicate] at hle
    exact reaches_single h he hsub htotal h15 count (fun hne => hcoded len (List.mem_replicate.2 ⟨hne, rfl⟩)) hle hnext
  | repeat16 len lead count =>
    obtain ⟨hcount, hls⟩ := Option.ite_none_right_eq_some.1 hrun
    have hcount' : repeatCount 16 (count - 3) = count := Nat.sub_add_cancel hcount.1
    cases lead with
    | true =>
      obtain ⟨h15, ⟨⟩⟩ := Option.ite_none_right_eq_some.1 hls
      have hlen : coded bl len := hcoded len (by simp [runSymbols])
      rw [List.length_cons, List.length_replicate] at hle
      obtain ⟨e₁, he₁, hsub₁, hr₁⟩ := reaches_lengthRead (x := x) h he hsub (by omega) hlen hnext htotal (by omega)
      obtain ⟨e₂, he₂, hsub₂, hr₂⟩ := reaches_repeat (x := x) h he₁ hsub₁ htotal le_rfl (by decide) (hcoded 16 (by simp [runSymbols]))
        (fun _ => by simp) hcount' (by rw [List.length_append, List.length_singleton]; omega) hnext.2
      rw [List.getLast?_concat, List.append_assoc, List.singleton_append] at he₂
      rw [Nat.add_assoc] at hr₂
      exact ⟨e₂, he₂, hsub₂, (hr₁.trans hr₂).mono (Nat.add_le_add_right (Nat.pos_of_ne_zero hlen) _)⟩
    | false =>
      obtain ⟨v, hv, rfl⟩ := Option.map_eq_some_iff.1 hls
      rw [List.length_replicate] at hle
      have hne : acc ≠ [] := fun hnil => by rw [hnil] at hv; cases hv
      have hrepeat := reaches_repeat (x := x) h he hsub htotal le_rfl (by decide) (hcoded 16 (by simp [runSymbols])) (fun _ => hne) hcount' hle hnext
      rw [hv] at hrepeat
      exact hrepeat
  | zeros17 count =>
    obtain ⟨hcount, ⟨⟩⟩ := Option.ite_none_right_eq_some.1 hrun
    rw [List.length_replicate] at hle
    exact reaches_repeat h he hsub htotal (sym := 17) (by decide) (by decide) (hcoded 17 (by simp [runSymbols]))
      (fun heq => absurd heq (by decide)) (Nat.sub_add_cancel hcount.1) hle hnext
  | zeros18 count =>
    obtain ⟨hcount, ⟨⟩⟩ := Option.ite_none_right_eq_some.1 hrun
    rw [List.length_replicate] at hle
    exact reaches_repeat h he hsub htotal (sym := 18) (by decide) (by decide) (hcoded 18 (by simp [runSymbols]))
      (fun heq => absurd heq (by decide)) (Nat.sub_add_cancel hcount.1) hle hnext

/-- Runs, one after another. -/
theorem reaches_runs (rs : List Run) {lens : List Nat} (hruns : decodeRuns acc.getLast? rs = some lens)
    (hcoded : ∀ s ∈ rs.flatMap runSymbols, coded bl s) (hle : (acc ++ lens).length ≤ nlen + ndist)
    (hnext : c.Next w (rs.flatMap (runFields (canonicalField bl)) ++ fs)) :
    ∃ e', e'.LensRead last nlen ndist root bl (acc ++ lens) ∧ e'.sub = .sym ∧
      (c.past w x e).Reaches (packedWidth (rs.flatMap (runFields (canonicalField bl))))
        (c.past (w + packedWidth (rs.flatMap (runFields (canonicalField bl)))) x e') := by
  induction rs generalizing acc w e lens with
  | nil =>
    cases hruns
    exact ⟨e, by rwa [List.append_nil], hsub, .refl _⟩
  | cons r rs ih =>
    obtain ⟨ls, more, hrun, hmore, rfl⟩ := decodeRuns_cons hruns
    rw [List.flatMap_cons, List.forall_mem_append] at hcoded
    rw [List.flatMap_cons, List.append_assoc] at hnext
    rw [← List.append_assoc] at hle
    obtain ⟨e₁, he₁, hsub₁, hr₁⟩ := reaches_run (x := x) h he hsub htotal hrun hcoded.1
      (le_trans (by rw [List.length_append (as := acc ++ ls)]; exact Nat.le_add_right _ _) hle) hnext
    rw [← List.getLast?_append] at hmore
    obtain ⟨e₂, he₂, hsub₂, hr₂⟩ := ih he₁ hsub₁ hmore hcoded.2 hle (Dec.next_append.1 hnext).2
    rw [List.append_assoc] at he₂
    refine ⟨e₂, he₂, hsub₂, ?_⟩
    rw [List.flatMap_cons, packedWidth_append, ← Nat.add_assoc]
    exact hr₁.trans hr₂

end

/-! ## From the block's type on -/

section
variable {c : Dec} {w nlen ndist ncode last : Nat} {x : List Byte} {e : Inflate} {fs : List (Nat × Nat)} {bl lens : List Nat} {rs : List Run}
  (h : c.u.bc.Ok) (hm : e.mode = .type) (hd : DeclaresCode last nlen ndist ncode bl) (hk : kraft bl = 2 ^ 15)
include h hm hd hk

/-- The loop past the code-length code of a dynamic block. -/
theorem reaches_codeLens (hnext : c.Next w (codeHeader last nlen ndist ncode bl ++ fs)) :
    ∃ e' root, e'.LensRead (last == 1) nlen ndist root bl [] ∧ e'.sub = .sym ∧
      (c.past w x e).Reaches (packedWidth (codeHeader last nlen ndist ncode bl))
        (c.past (w + packedWidth (codeHeader last nlen ndist ncode bl)) x e') := by
  obtain ⟨cl, hcl, hr⟩ := reaches_codeHeader (x := x) h hm hd hnext
  obtain ⟨root, ht, hbuild, hreads⟩ := buildTable_codes_reads hd.short hd.length hk e.ht
  have hmicro := micro_lenLensBuild (c := c) (w := w + packedWidth (codeHeader last nlen ndist ncode bl)) (x := x)
    (e := { e with last := last == 1, nlen := nlen, ndist := ndist, ncode := ncode, haveCount := ncode, cl := cl, mode := .lenLens })
    rfl (Nat.lt_irrefl _) hcl hbuild
  rw [if_neg (not_not.2 rfl)] at hmicro
  have hwidth := packedWidth_codeHeader (last := last) (nlen := nlen) (ndist := ndist) (bl := bl) hd.ncode_range.2
  exact ⟨_, root, ⟨rfl, rfl, rfl, rfl, rfl, hreads, rfl, Cells.starts_nil⟩, rfl, (hr.trans (reaches_of_micro hmicro)).mono (by omega)⟩

/-- The bit fields of a dynamic block's header: the code-length code, and the code lengths as the runs `rs` (R488, R490). -/
def declaredFields (last nlen ndist ncode : Nat) (bl : List Nat) (rs : List Run) : List (Nat × Nat) :=
  codeHeader last nlen ndist ncode bl ++ rs.flatMap (runFields (canonicalField bl))

/-- The loop past the code lengths of a dynamic block. -/
theorem reaches_declared (hruns : decodeRuns none rs = some lens) (hcoded : ∀ s ∈ rs.flatMap runSymbols, coded bl s)
    (hle : lens.length ≤ nlen + ndist) (hnext : c.Next w (declaredFields last nlen ndist ncode bl rs ++ fs)) :
    ∃ e' root, e'.LensRead (last == 1) nlen ndist root bl lens ∧ e'.sub = .sym ∧
      (c.past w x e).Reaches (packedWidth (declaredFields last nlen ndist ncode bl rs))
        (c.past (w + packedWidth (declaredFields last nlen ndist ncode bl rs)) x e') := by
  rw [declaredFields, List.append_assoc] at hnext
  obtain ⟨e₁, root, he₁, hsub₁, hr₁⟩ := reaches_codeLens (x := x) h hm hd hk hnext
  have htotal : nlen + ndist ≤ 316 := Nat.add_le_add hd.nlen_range.2 hd.ndist_range.2
  obtain ⟨e₂, he₂, hsub₂, hr₂⟩ := reaches_runs (x := x) h he₁ hsub₁ htotal rs hruns hcoded hle (Dec.next_append.1 hnext).2
  refine ⟨e₂, root, he₂, hsub₂, ?_⟩
  rw [declaredFields, packedWidth_append, ← Nat.add_assoc]
  exact hr₁.trans hr₂

end

/-! ## The builds (R494) -/

section
variable {c : Dec} {w root nlen ndist : Nat} {x : List Byte} {e : Inflate} {last : Bool} {bl lens : List Nat}
  (he : e.LensRead last nlen ndist root bl lens) (hsub : e.sub = .sym) (hlen : lens.length = nlen + ndist)
include he hsub hlen

theorem micro_build : micro (c.past w x e) = microCodeLensBuild (c.past w x e) := by
  rw [micro_codeLens he, microCodeLens, show (c.past w x e).u.sub = .sym from hsub]
  have hcount : ¬e.haveCount < e.nlen + e.ndist := by rw [he.count, he.nlen, he.ndist, hlen]; exact Nat.lt_irrefl _
  exact if_neg hcount

variable (hnlen : 257 ≤ nlen)
include hnlen

omit hsub in
theorem read_endOfBlock : Cells.read 0 e.lens 256 = (lens.take nlen).getD 256 0 := by
  rw [he.starts.2 _ (by omega), List.getD_eq_getElem _ _ (by omega), List.getD_eq_getElem _ _ (by rw [List.length_take]; omega), List.getElem_take]

theorem micro_missingEob (heob : ¬coded (lens.take nlen) 256) : micro (c.past w x e) = .raised .missingEob (c.past w x e) := by
  rw [micro_build he hsub hlen, microCodeLensBuild]
  exact if_pos ((read_endOfBlock he hlen hnlen).trans (not_not.1 heob))

variable (heob : coded (lens.take nlen) 256)
include heob

/-- The build of the literal/length table. -/
theorem micro_lensBuild : micro (c.past w x e) = Micro.ofExcept (buildTable .lens (lens.take nlen) e.ht) fun (r, root, ht) =>
    if r ≠ .complete ∧ r ≠ .acceptedIncomplete then .raised .badLitlenSet (c.past w x { e with ht := ht })
    else Micro.ofExcept (buildTable .dists (lens.drop nlen) ht) fun (r', root', ht') =>
      if r'.refused then .raised .badDistSet (c.past w x { e with ht := ht' })
      else .advanced (c.past w x
        { e with ht := ht', llRef := some (CodeKind.lens.ref root), dRef := some (CodeKind.dists.ref root'), mode := .len }) := by
  have hll : Cells.firstOf e.lens 0 e.nlen = lens.take nlen := by
    rw [Cells.firstOf_eq_of_read (by rw [he.nlen]; omega) he.starts.2, he.nlen, List.drop_zero]
  have hdd : Cells.firstOf e.lens e.nlen e.ndist = lens.drop nlen := by
    rw [Cells.firstOf_eq_of_read (by rw [he.nlen, he.ndist]; omega) he.starts.2, he.nlen, he.ndist,
      List.take_of_length_le (by rw [List.length_drop]; omega)]
  rw [micro_build he hsub hlen, microCodeLensBuild]
  refine (if_neg fun hzero => heob ((read_endOfBlock he hlen hnlen).symm.trans hzero)).trans ?_
  show Micro.ofExcept (buildTable .lens (Cells.firstOf e.lens 0 e.nlen) e.ht) _ = _
  rw [hll, ← hdd]
  rfl

/-- The build of the distance table, after that of the literal/length table. -/
theorem micro_distsBuild {r : BuildResult} {root' : Nat} {ht : DecodeTables} (hbuild : buildTable .lens (lens.take nlen) e.ht = .ok (r, root', ht))
    (hr : r = .complete ∨ r = .acceptedIncomplete) :
    micro (c.past w x e) = Micro.ofExcept (buildTable .dists (lens.drop nlen) ht) fun (r', root'', ht') =>
      if r'.refused then .raised .badDistSet (c.past w x { e with ht := ht' })
      else .advanced (c.past w x
        { e with ht := ht', llRef := some (CodeKind.lens.ref root'), dRef := some (CodeKind.dists.ref root''), mode := .len }) := by
  have haccepted : ¬(r ≠ .complete ∧ r ≠ .acceptedIncomplete) := by tauto
  rw [micro_lensBuild he hsub hlen hnlen heob, hbuild]
  exact if_neg haccepted

end

end Sys2Proof.Machine

/-! # What INF.STEP answers for a block header

The DataErrors of R481, R482, R484, R486, R490 and R494, and a dynamic block that is read to its end. -/

namespace Sys2Proof.Machine

open Sys2Proof.Claim

section
variable {s : State} {d : Inflate} (h : s.isInflate d) (hok : d.bc.Ok) (hsw : d.sw.Ok) (hmode : d.mode = .type) (hund : d.sw.undelivered = 0)
include h hok hsw hmode hund

/-! ## Fixed headers and stored blocks (R480 to R484) -/

omit hsw in
/-- The state of a raise before any byte is delivered. -/
theorem fails_of_header {r : DataReason} {e e' : Inflate} {w w' k : Nat}
    (hr : (Dec.mk d s.startPort).winDrain.Reaches k ((Dec.mk d s.startPort).past w [] e))
    (hk : k ≤ 1000 * ((Dec.mk d s.startPort).avail + 1)) (hle : w' ≤ (Dec.mk d s.startPort).avail)
    (hm : micro ((Dec.mk d s.startPort).past w [] e) = .raised r ((Dec.mk d s.startPort).past w' [] e')) :
    fails .infStep s (.data r) (Latch.data r).word.toNat
      (.inflate { e' with mode := .error, bc := cursorAfter d.bc (s.port.input.take (pullCount d.bc w')) w', sw := d.sw })
      (s.port.input.drop (pullCount d.bc w')) [] := by
  have hfails := fails_of_past h hok hund (by rw [hmode]; decide) (Nat.zero_le _) hr hk hle hm
  have hfed : d.sw.fed [] 0 = d.sw := by
    rw [← hund]
    exact SlidingWindow.fed_nil _
  rwa [hfed] at hfails

omit h hok hmode hund in
theorem reaches_start : (Dec.mk d s.startPort).winDrain.Reaches 0 ((Dec.mk d s.startPort).past 0 [] d) := by
  rw [Dec.winDrain_eq_past hsw]
  exact .refl _

theorem fails_badBlockType (hle : 3 ≤ d.bc.bitCount + 8 * s.port.input.length) (htype : bitsOf d.bc s.port.input / 2 % 4 = 3) :
    fails .infStep s (.data .badBlockType) 0x16
      (.inflate { d with
        mode := .error
        last := bitsOf d.bc s.port.input % 2 == 1
        bc := cursorAfter d.bc (s.port.input.take (pullCount d.bc 3)) 3 })
      (s.port.input.drop (pullCount d.bc 3)) [] := by
  have hnext : (Dec.mk d s.startPort).Next 0 [(2 * 3 + bitsOf d.bc s.port.input % 2, 3)] := by
    refine ⟨?_, hle⟩
    show bitsOf d.bc s.port.input / 2 ^ 0 % 2 ^ 3 = 2 * 3 + bitsOf d.bc s.port.input % 2
    omega
  have hmicro := micro_type (x := []) (e := d) hok hmode (Nat.mod_lt _ two_pos) hnext
  rw [if_neg (by decide), if_neg (by decide), if_neg (by decide)] at hmicro
  exact fails_of_header h hok hmode hund (reaches_start hsw) (Nat.zero_le _) hle hmicro

theorem rejects_storedLenMismatch {last pad len nlen : Nat} (hlast : last < 2) (hpad : pad < 2 ^ ((d.bc.bitCount + 5) % 8)) (hlen : len < 65536)
    (hnlen : nlen < 65536) (hne : len + nlen ≠ 65535)
    (hstreams : streams d s [(last, 3), (pad, (d.bc.bitCount + 5) % 8), (len, 16), (nlen, 16)]) :
    rejects s d .storedLenMismatch [(last, 3), (pad, (d.bc.bitCount + 5) % 8), (len, 16), (nlen, 16)] 0 [] := by
  have hpadding : (Dec.mk d s.startPort).padding (0 + 3) = (d.bc.bitCount + 5) % 8 := by
    show (d.bc.bitCount + 7 * (0 + 3)) % 8 = _
    omega
  have haligned : (Dec.mk d s.startPort).padding (0 + 3 + (d.bc.bitCount + 5) % 8) = 0 := by
    show (d.bc.bitCount + 7 * (0 + 3 + (d.bc.bitCount + 5) % 8)) % 8 = 0
    omega
  have hnext := Dec.next_of_streams (fieldsFit_cons.2 ⟨by simp only; omega, fieldsFit_cons.2 ⟨hpad, fieldsFit_cons.2 ⟨hlen,
    fieldsFit_singleton hnlen⟩⟩⟩) hstreams
  have hle := hnext.le
  rw [Nat.zero_add] at hle
  rw [show last = 2 * 0 + last by omega] at hnext
  have htype := micro_type (x := []) (e := d) hok hmode hlast hnext
  rw [if_pos rfl, hpadding] at htype
  have hstored := micro_storedLen (x := []) (e := { d with last := last == 1, mode := .storedLen }) hok rfl haligned hnext.2.2
  rw [if_pos (by omega)] at hstored
  have hwidth : 0 + 3 + (d.bc.bitCount + 5) % 8 + 32 = packedWidth [(last, 3), (pad, (d.bc.bitCount + 5) % 8), (len, 16), (nlen, 16)] := by
    simp only [packedWidth]
    omega
  rw [hwidth] at hstored
  exact rejects_of_past h hok hund (by rw [hmode]; decide) (Nat.zero_le _) ((reaches_start hsw).trans (reaches_of_micro htype)) (by omega) hle hstored

theorem fails_tooManySymbols (hle : 17 ≤ d.bc.bitCount + 8 * s.port.input.length) (htype : bitsOf d.bc s.port.input / 2 % 4 = 2)
    (hmany : 286 < bitsOf d.bc s.port.input / 8 % 32 + 257 ∨ 30 < bitsOf d.bc s.port.input / 256 % 32 + 1) :
    fails .infStep s (.data .tooManySymbols) 0x36
      (.inflate { d with
        mode := .error
        last := bitsOf d.bc s.port.input % 2 == 1
        nlen := bitsOf d.bc s.port.input / 8 % 32 + 257
        ndist := bitsOf d.bc s.port.input / 256 % 32 + 1
        ncode := bitsOf d.bc s.port.input / 8192 % 16 + 4
        bc := cursorAfter d.bc (s.port.input.take (pullCount d.bc 17)) 17 })
      (s.port.input.drop (pullCount d.bc 17)) [] := by
  have hnext : (Dec.mk d s.startPort).Next 0 [(2 * 2 + bitsOf d.bc s.port.input % 2, 3), (bitsOf d.bc s.port.input / 8 % 32, 5),
      (bitsOf d.bc s.port.input / 256 % 32, 5), (bitsOf d.bc s.port.input / 8192 % 16, 4)] := by
    have hbits : (Dec.mk d s.startPort).bits = bitsOf d.bc s.port.input := rfl
    simp only [Dec.Next, hbits, Nat.reducePow, Nat.reduceAdd, Nat.div_one, true_and]
    exact ⟨by omega, hle⟩
  have hmicro := micro_type (x := []) (e := d) hok hmode (Nat.mod_lt _ two_pos) hnext
  rw [if_neg (by decide), if_neg (by decide), if_pos rfl] at hmicro
  have htable := micro_table (x := []) (e := { d with last := bitsOf d.bc s.port.input % 2 == 1, mode := .table }) hok rfl hnext.2
  rw [if_pos hmany] at htable
  exact fails_of_header h hok hmode hund ((reaches_start hsw).trans (reaches_of_micro hmicro)) (by omega) hle htable

/-! ## Dynamic blocks (R484 to R494) -/

omit hok hsw hund in
/-- A step whose loop comes to a model fault does not answer. -/
theorem not_answers_of_reaches {e : Inflate} {f : Fault} {w k : Nat}
    (hr : (Dec.mk d s.startPort).winDrain.Reaches k ((Dec.mk d s.startPort).past w [] e)) (hk : k ≤ 1000 * ((Dec.mk d s.startPort).avail + 1))
    (hm : micro ((Dec.mk d s.startPort).past w [] e) = .fault f) : ¬answers (exec .infStep s) := by
  obtain ⟨hdone, hdict⟩ : d.mode ≠ .done ∧ d.mode ≠ .needDict := by rw [hmode]; decide
  exact not_answers_infStep h (inflateStep_of_fault hdone hdict hr (Nat.lt_of_add_right_lt (lt_inflateFuel hk)) hm)

section
variable {last nlen ndist ncode : Nat} {bl lens : List Nat} {rs : List Run} (hd : DeclaresCode last nlen ndist ncode bl)
include hd

theorem rejects_badCodelenSet (hk : kraft bl ≠ 2 ^ 15) (hstreams : streams d s (codeHeader last nlen ndist ncode bl)) :
    rejects s d .badCodelenSet (codeHeader last nlen ndist ncode bl) 0 [] := by
  have hnext := Dec.next_of_streams hd.fits hstreams
  have hle := hnext.le
  rw [← List.append_nil (codeHeader ..)] at hnext
  obtain ⟨e₁, e₂, hr, hmicro⟩ := micro_codeHeader_raised (x := []) (e := d) hok hmode hd hk hnext
  rw [Nat.zero_add] at hr hmicro hle
  have hncode := hd.ncode_range
  exact rejects_of_past h hok hund (by rw [hmode]; decide) (Nat.zero_le _) ((reaches_start hsw).trans hr) (by omega) hle hmicro

variable (hk : kraft bl = 2 ^ 15) (hruns : decodeRuns none rs = some lens) (hcoded : ∀ c ∈ rs.flatMap runSymbols, coded bl c)
include hk hruns hcoded

omit h hund in
theorem reaches_lens {fs : List (Nat × Nat)} (hle : lens.length ≤ nlen + ndist)
    (hnext : (Dec.mk d s.startPort).Next 0 (declaredFields last nlen ndist ncode bl rs ++ fs)) :
    ∃ e root, e.LensRead (last == 1) nlen ndist root bl lens ∧ e.sub = .sym ∧
      (Dec.mk d s.startPort).winDrain.Reaches (packedWidth (declaredFields last nlen ndist ncode bl rs))
        ((Dec.mk d s.startPort).past (packedWidth (declaredFields last nlen ndist ncode bl rs)) [] e) := by
  obtain ⟨e, root, he, hsub, hr⟩ := reaches_declared (x := []) hok hmode hd hk hruns hcoded hle hnext
  rw [Nat.zero_add] at hr
  exact ⟨e, root, he, hsub, ((reaches_start hsw).trans hr).mono (Nat.zero_add _).le⟩

omit h hok hsw hmode hund hk hcoded in
theorem fits_declaredFields : FieldsFit (declaredFields last nlen ndist ncode bl rs) :=
  fieldsFit_append.2 ⟨hd.fits, decodeRuns_fits (canonicalField_fits bl) hruns⟩

/-- Symbol 16 before any length, or a repeat past the lengths declared (R490). -/
theorem rejects_badRepeat {sym v : Nat} (hlt : lens.length < nlen + ndist) (h16 : 16 ≤ sym) (h18 : sym ≤ 18) (hc : coded bl sym)
    (hv : v < 2 ^ tableAt blExtra sym) (hbad : sym = 16 ∧ lens = [] ∨ nlen + ndist < lens.length + repeatCount sym v)
    (hstreams : streams d s (declaredFields last nlen ndist ncode bl rs ++ [canonicalField bl sym, (v, tableAt blExtra sym)])) :
    rejects s d .badRepeat (declaredFields last nlen ndist ncode bl rs ++ [canonicalField bl sym, (v, tableAt blExtra sym)])
      (if sym = 16 ∧ lens = [] then 2 else 0) [] := by
  have hmode' : d.mode ≠ .done ∧ d.mode ≠ .needDict := by rw [hmode]; decide
  have hnext := Dec.next_of_streams (fieldsFit_append.2 ⟨fits_declaredFields hd hruns, fieldsFit_cons.2 ⟨canonicalField_fits bl sym,
    fieldsFit_singleton hv⟩⟩) hstreams
  have hle := hnext.le
  rw [Nat.zero_add] at hle
  obtain ⟨e, root, he, hsub, hr⟩ := reaches_lens hok hsw hmode hd hk hruns hcoded hlt.le hnext
  have hrest := (Dec.next_append.1 hnext).2
  rw [Nat.zero_add] at hrest
  have htotal : nlen + ndist ≤ 316 := Nat.add_le_add hd.nlen_range.2 hd.ndist_range.2
  have hsymbol := hr.trans (reaches_repeatSymbol (x := []) hok he hsub hlt hc hrest htotal h16)
  have he' := he.setSub (subOf sym)
  have hwidth : packedWidth (declaredFields last nlen ndist ncode bl rs) + (canonicalField bl sym).2 + tableAt blExtra sym =
      packedWidth (declaredFields last nlen ndist ncode bl rs ++ [canonicalField bl sym, (v, tableAt blExtra sym)]) := by
    rw [packedWidth_append, Nat.add_assoc]
    rfl
  by_cases hfirst : sym = 16 ∧ lens = []
  · rw [if_pos hfirst]
    obtain ⟨rfl, hnil⟩ := hfirst
    exact rejects_of_reaches h hok hund hmode' (Nat.zero_le _) hsymbol (by omega) hle hwidth le_rfl
      (micro_rep16_first (x := []) hok he' rfl hnil hrest.2)
  · rw [if_neg hfirst]
    have hmicro := micro_repeat (x := []) hok he' h16 h18 rfl (fun heq hnil => hfirst ⟨heq, hnil⟩) (hlt.le.trans htotal) hrest.2
    rw [microRepeat_raised he' (hbad.resolve_left hfirst), hwidth] at hmicro
    exact rejects_of_past h hok hund hmode' (Nat.zero_le _) hsymbol (by omega) hle hmicro

/-! ## The sets of a dynamic block (R494) -/

variable (hlen : lens.length = nlen + ndist)
include hlen

section
variable (hstreams : streams d s (declaredFields last nlen ndist ncode bl rs))
include hstreams

/-- A raise past the code lengths. -/
theorem rejects_of_lens {r : DataReason}
    (hraised : ∀ e root, e.LensRead (last == 1) nlen ndist root bl lens → e.sub = .sym →
      (Dec.mk d s.startPort).winDrain.Reaches (packedWidth (declaredFields last nlen ndist ncode bl rs))
        ((Dec.mk d s.startPort).past (packedWidth (declaredFields last nlen ndist ncode bl rs)) [] e) →
      ∃ e', micro ((Dec.mk d s.startPort).past (packedWidth (declaredFields last nlen ndist ncode bl rs)) [] e) =
        .raised r ((Dec.mk d s.startPort).past (packedWidth (declaredFields last nlen ndist ncode bl rs)) [] e')) :
    rejects s d r (declaredFields last nlen ndist ncode bl rs) 0 [] := by
  have hnext := Dec.next_of_streams (fits_declaredFields hd hruns) hstreams
  have hle := hnext.le
  rw [← List.append_nil (declaredFields ..)] at hnext
  rw [Nat.zero_add] at hle
  obtain ⟨e, root, he, hsub, hr⟩ := reaches_lens hok hsw hmode hd hk hruns hcoded hlen.le hnext
  obtain ⟨e', hmicro⟩ := hraised e root he hsub hr
  exact rejects_of_past h hok hund (by rw [hmode]; decide) (Nat.zero_le _) hr (by omega) hle hmicro

theorem rejects_missingEob (heob : ¬coded (lens.take nlen) 256) : rejects s d .missingEob (declaredFields last nlen ndist ncode bl rs) 0 [] :=
  rejects_of_lens h hok hsw hmode hund hd hk hruns hcoded hlen hstreams fun _ _ he hsub _ =>
    ⟨_, micro_missingEob he hsub hlen hd.nlen_range.1 heob⟩

theorem rejects_badLitlenSet (heob : coded (lens.take nlen) 256) (hacc : ¬acceptable (lens.take nlen)) :
    rejects s d .badLitlenSet (declaredFields last nlen ndist ncode bl rs) 0 [] := by
  refine rejects_of_lens h hok hsw hmode hund hd hk hruns hcoded hlen hstreams fun e root he hsub _ => ?_
  have h15 := decodeRuns_le (by simp) hruns
  obtain ⟨r, ht, hbuild, hr⟩ := buildTable_refuses (fun l hl => h15 l (List.mem_of_mem_take hl)) hacc .lens e.ht
  refine ⟨{ e with ht := ht }, ?_⟩
  rw [micro_lensBuild he hsub hlen hd.nlen_range.1 heob, hbuild]
  exact if_pos (by obtain rfl | rfl := hr <;> decide)

end

variable (heob : coded (lens.take nlen) 256) (hacc : acceptable (lens.take nlen))
include heob hacc

section
variable {e : Inflate} {root : Nat} (he : e.LensRead (last == 1) nlen ndist root bl lens) (hsub : e.sub = .sym)
  (hr : (Dec.mk d s.startPort).winDrain.Reaches (packedWidth (declaredFields last nlen ndist ncode bl rs))
    ((Dec.mk d s.startPort).past (packedWidth (declaredFields last nlen ndist ncode bl rs)) [] e))
  (hle : packedWidth (declaredFields last nlen ndist ncode bl rs) ≤ (Dec.mk d s.startPort).avail)
include he hsub hr hle

omit hok hsw hund hk hcoded in
/-- A step that answers builds the literal/length table. -/
theorem lens_builds (hshort : (∀ l ∈ lens.take nlen, l ≤ 9) ∨ answers (exec .infStep s)) :
    ∃ r root' ht, buildTable .lens (lens.take nlen) e.ht = .ok (r, root', ht) ∧ (r = .complete ∨ r = .acceptedIncomplete) ∧
      ∀ ht', ht.AgreeBelow ht' → ht'.ReadsCodes .lens root' (lens.take nlen) := by
  have hlen' : (lens.take nlen).length ≤ 286 := (List.length_take_le _ _).trans hd.nlen_range.2
  have h15 : ∀ l ∈ lens.take nlen, l ≤ 15 := fun l hl => decodeRuns_le (by simp) hruns l (List.mem_of_mem_take hl)
  have hmicro := micro_lensBuild (c := ⟨d, s.startPort⟩) (w := packedWidth (declaredFields last nlen ndist ncode bl rs)) (x := []) he hsub hlen
    hd.nlen_range.1 heob
  cases hbuild : buildTable .lens (lens.take nlen) e.ht with
  | ok built =>
    obtain ⟨r, root', ht⟩ := built
    exact ⟨r, root', ht, rfl, buildTable_lens_reads h15 hlen' heob hacc hbuild⟩
  | error f =>
    obtain hshort | hanswers := hshort
    · obtain ⟨r, htotal⟩ := buildTable_total (k := .lens) (by decide) (hlen'.trans_lt (by decide)) hshort hacc e.ht
      rw [hbuild] at htotal
      cases htotal
    · rw [hbuild] at hmicro
      exact absurd hanswers (not_answers_of_reaches h hmode hr (by omega) hmicro)

omit hok hsw hund hk hcoded hacc in
/-- A step that answers builds the distance table, which leaves the literal/length table alone. -/
theorem dists_builds (hshort : (∀ l ∈ lens.drop nlen, l ≤ 6) ∨ answers (exec .infStep s)) (haccd : acceptable (lens.drop nlen))
    {r : BuildResult} {root' : Nat} {ht : DecodeTables} (hbuild : buildTable .lens (lens.take nlen) e.ht = .ok (r, root', ht))
    (hr' : r = .complete ∨ r = .acceptedIncomplete) :
    ∃ r' root'' ht', buildTable .dists (lens.drop nlen) ht = .ok (r', root'', ht') ∧ r'.refused = false ∧ ht.AgreeBelow ht' ∧
      ht'.ReadsCodes .dists root'' (lens.drop nlen) := by
  have hlen' : (lens.drop nlen).length ≤ 30 := by
    have := hd.ndist_range.2
    rw [List.length_drop]
    omega
  have h15 : ∀ l ∈ lens.drop nlen, l ≤ 15 := fun l hl => decodeRuns_le (by simp) hruns l (List.mem_of_mem_drop hl)
  have hmicro := micro_distsBuild (c := ⟨d, s.startPort⟩) (w := packedWidth (declaredFields last nlen ndist ncode bl rs)) (x := []) he hsub hlen
    hd.nlen_range.1 heob hbuild hr'
  cases hbuildd : buildTable .dists (lens.drop nlen) ht with
  | ok built =>
    obtain ⟨r', root'', ht'⟩ := built
    exact ⟨r', root'', ht', rfl, buildTable_dists_reads h15 hlen' haccd hbuildd⟩
  | error f =>
    obtain hshort | hanswers := hshort
    · obtain ⟨r, htotal⟩ := buildTable_total (k := .dists) (by decide) (hlen'.trans_lt (by decide)) hshort haccd ht
      rw [hbuildd] at htotal
      cases htotal
    · rw [hbuildd] at hmicro
      exact absurd hanswers (not_answers_of_reaches h hmode hr (by omega) hmicro)

end

theorem rejects_badDistSet (haccd : ¬acceptable (lens.drop nlen)) (hshort : (∀ l ∈ lens.take nlen, l ≤ 9) ∨ answers (exec .infStep s))
    (hstreams : streams d s (declaredFields last nlen ndist ncode bl rs)) :
    rejects s d .badDistSet (declaredFields last nlen ndist ncode bl rs) 0 [] := by
  have hle := hstreams.1
  refine rejects_of_lens h hok hsw hmode hund hd hk hruns hcoded hlen hstreams fun e root he hsub hr => ?_
  have h15 : ∀ l ∈ lens.drop nlen, l ≤ 15 := fun l hl => decodeRuns_le (by simp) hruns l (List.mem_of_mem_drop hl)
  obtain ⟨r, root', ht, hbuild, haccepted, -⟩ := lens_builds h hmode hd hruns hlen heob hacc he hsub hr hle hshort
  obtain ⟨r', ht', hbuild', hr'⟩ := buildTable_refuses h15 haccd .dists ht
  refine ⟨{ e with ht := ht' }, ?_⟩
  rw [micro_distsBuild he hsub hlen hd.nlen_range.1 heob hbuild haccepted, hbuild']
  exact if_pos (by obtain rfl | rfl := hr' <;> rfl)

omit hund in
/-- The tables of a dynamic block's header. -/
theorem readsHead_declared (haccd : acceptable (lens.drop nlen))
    (hshort : ((∀ l ∈ lens.take nlen, l ≤ 9) ∧ ∀ l ∈ lens.drop nlen, l ≤ 6) ∨ answers (exec .infStep s)) :
    ∃ lroot droot, Dec.ReadsHead ⟨d, s.startPort⟩ (declaredFields last nlen ndist ncode bl rs) (last == 1) (canonicalField (lens.take nlen))
      (canonicalField (lens.drop nlen)) lroot droot := by
  by_cases hnext : (Dec.mk d s.startPort).Next 0 (declaredFields last nlen ndist ncode bl rs)
  · have hle := hnext.le
    rw [Nat.zero_add] at hle
    rw [← List.append_nil (declaredFields ..)] at hnext
    obtain ⟨e, root, he, hsub, hr⟩ := reaches_lens hok hsw hmode hd hk hruns hcoded hlen.le hnext
    obtain ⟨r, lroot, ht, hbuild, haccepted, hlens⟩ := lens_builds h hmode hd hruns hlen heob hacc he hsub hr hle
      (hshort.imp_left And.left)
    obtain ⟨r', droot, ht', hbuild', hkept, hagree, hdists⟩ := dists_builds h hmode hd hruns hlen heob he hsub hr hle
      (hshort.imp_left And.right) haccd hbuild haccepted
    have hmicro := micro_distsBuild (c := ⟨d, s.startPort⟩) (w := packedWidth (declaredFields last nlen ndist ncode bl rs)) (x := []) he hsub hlen
      hd.nlen_range.1 heob hbuild haccepted
    rw [hbuild'] at hmicro
    replace hmicro := hmicro.trans (if_neg (by rw [hkept]; decide))
    have hholds : ht'.Holds (some (CodeKind.lens.ref lroot)) (some (CodeKind.dists.ref droot)) (canonicalField (lens.take nlen))
        (canonicalField (lens.drop nlen)) lroot droot :=
      ⟨⟨_, rfl, fun sym _ hs => hlens ht' hagree sym hs⟩, ⟨_, rfl, fun sym _ hs => hdists sym hs⟩⟩
    refine ⟨lroot, droot, fun _ => ⟨{ e with
      ht := ht', llRef := some (CodeKind.lens.ref lroot), dRef := some (CodeKind.dists.ref droot), mode := .len }, rfl, he.last, hholds, ?_⟩⟩
    refine (hr.trans (reaches_of_micro hmicro)).mono ?_
    have hpos : 0 < packedWidth (declaredFields last nlen ndist ncode bl rs) := by
      rw [declaredFields, packedWidth_append, packedWidth_codeHeader hd.ncode_range.2]
      omega
    omega
  · exact ⟨0, 0, fun hnext' => absurd hnext' hnext⟩

theorem blockEnds_declared (haccd : acceptable (lens.drop nlen))
    (hshort : ((∀ l ∈ lens.take nlen, l ≤ 9) ∧ ∀ l ∈ lens.drop nlen, l ≤ 6) ∨ answers (exec .infStep s)) {toks : List (Nat × Nat)}
    (htoks : ∀ t ∈ toks, tokenCoded (lens.take nlen) (lens.drop nlen) t) (hrep : replayable (2 ^ d.sw.wbits) d.sw.whave toks)
    (hspace : (replay (historyOf d.sw) toks).length - d.sw.whave ≤ s.port.space) :
    blockEnds s d (last == 1)
      (declaredFields last nlen ndist ncode bl rs ++ bodyFields (canonicalField (lens.take nlen)) (canonicalField (lens.drop nlen)) toks) toks := by
  have hcap : 2 ^ d.sw.wbits ≤ 2 ^ 15 := Nat.pow_le_pow_right two_pos hsw.wbits_high
  obtain ⟨lroot, droot, hhead⟩ := readsHead_declared h hok hsw hmode hd hk hruns hcoded hlen heob hacc haccd hshort
  refine blockEnds_of_readsBlock h hok hsw hund (by rw [hmode]; decide)
    (readsBlock_of_readsHead hok hsw hund hhead hrep htoks heob (by rw [List.length_drop]; exact hspace))
    (fieldsFit_append.2 ⟨fits_declaredFields hd hruns, fits_bodyFields (canonicalField_fits _) (canonicalField_fits _) hcap hrep⟩) ?_ hspace
  rw [packedWidth_append, declaredFields, packedWidth_append, packedWidth_codeHeader hd.ncode_range.2]
  omega

end

end

/-! ## The statement -/

/-- Settles O36: each header is read field by field up to the micro-step that raises, or to the first token of its block. -/
theorem blockHeadersAreRead : Obligations.BlockHeadersAreRead := by
  intro s d h hok hsw hmode hund v avail read left
  refine ⟨fails_badBlockType h hok hsw hmode hund, fun last pad len nlen hlast hpad hlen hnlen hne => ?_,
    fails_tooManySymbols h hok hsw hmode hund, fun last nlen ndist ncode bl h1 h2 h3 h4 h5 h6 h7 h8 h9 h10 => ?_⟩
  · exact rejects_storedLenMismatch h hok hsw hmode hund hlast hpad hlen hnlen hne
  · have hd : DeclaresCode last nlen ndist ncode bl := ⟨h1, ⟨h2, h3⟩, ⟨h4, h5⟩, ⟨h6, h7⟩, h8, h9, h10⟩
    refine ⟨rejects_badCodelenSet h hok hsw hmode hund hd, fun rs lens hk hruns hcoded => ⟨fun sym x hlt h16 h18 hc hx hbad => ?_, fun hlen => ?_⟩⟩
    · exact rejects_badRepeat h hok hsw hmode hund hd hk hruns hcoded hlt h16 h18 hc hx (hbad.imp_right fun hlong => by
        rwa [repeatCount, ← Nat.add_assoc])
    · exact ⟨fun heob hs => rejects_missingEob h hok hsw hmode hund hd hk hruns hcoded hlen hs heob,
        fun heob hacc hs => rejects_badLitlenSet h hok hsw hmode hund hd hk hruns hcoded hlen hs heob hacc,
        fun heob hacc haccd hs hshort => rejects_badDistSet h hok hsw hmode hund hd hk hruns hcoded hlen heob hacc haccd hshort hs,
        fun toks heob hacc haccd htoks hrep hspace hshort =>
          blockEnds_declared h hok hsw hmode hund hd hk hruns hcoded hlen heob hacc haccd hshort htoks hrep hspace⟩

end Sys2Proof.Machine

/-! # The match finder and its commands

INSERT answers what `InsertString` returns (R561). LONGEST walks the chain candidate by candidate (R565): a visit keeps the
search as it was or replaces its match by a longer one, and so does the walk; and the walk ends, by its budget or because
the chain falls. -/

namespace Sys2Proof.Machine

open Sys2Proof.Claim

/-! ## HASHINIT and INSERT (R560, R561) -/

theorem exec_mfHashInit (s : State) : exec .mfHashInit s = s.deflateCommand true fun d p =>
    Reply.ofExcept d.hashInit fun d => d.answer p (d.insH.setWidth 32) 0 := rfl

theorem exec_mfInsert (pos : Word) (s : State) : exec (.mfInsert pos) s = s.deflateCommand true fun d p =>
    if d.windowSize - 3 < pos.toNat then .raised (.stream .badOperand) d p
    else Reply.ofExcept (d.insertString pos.toNat) fun (hashHead, d) => d.answer p (hashHead.setWidth 32) 0 := rfl

theorem completes_mfInsert {pos : Word} {s : State} {d d' : Deflate} {old : Half} (h : s.isDeflate d)
    (hpos : pos.toNat ≤ d.windowSize - 3) (hins : d.insertString pos.toNat = .ok (old, d')) :
    completes (.mfInsert pos) s 0 old.toNat 0 (.deflate d') s.port.input [] :=
  completes_of_deflate (st := .ok) (p := s.startPort) h (exec_mfInsert pos s)
    (by rw [if_neg (Nat.not_lt.2 hpos), hins, Reply.ofExcept_ok, BitVec.ofNat_toNat]; rfl) rfl

/-! ## Comparisons with the bytes at `strstart` (R565) -/

/-- The byte at offset `j` from position `m` is the one at offset `j` from `strstart`. -/
abbrev Deflate.Agrees (d : Deflate) (m : Nat) (j : Int) : Prop :=
  Memory.read d.window ((m : Int) + j).toNat = Memory.read d.window ((d.strstart : Int) + j).toNat

section
variable {d : Deflate} {m best : Nat} {r r' : Search}

theorem Deflate.sameByte_scan {i j k : Int} (hi : i = m + k) (hj : j = d.strstart + k) (hm : m ≤ d.strstart)
    (hlow : 0 ≤ m + k) (hhigh : d.strstart + k < d.windowSize) : d.sameByte i j = .ok (decide (d.Agrees m k)) := by
  obtain ⟨a, rfl⟩ := Int.eq_ofNat_of_zero_le (hi ▸ hlow)
  obtain ⟨b, rfl⟩ := Int.eq_ofNat_of_zero_le (show 0 ≤ j by omega)
  simp only [Deflate.Agrees, ← hi, ← hj]
  exact Deflate.sameByte_nat (by omega) (by omega)

/-- The quick test of R565 compares the last two offsets of the best match and the first two. -/
theorem Deflate.quickTest_eq (hm : m ≤ d.strstart) (hscan : d.strstart + 1 < d.windowSize) (hpos : 1 ≤ m + best)
    (hbest : d.strstart + best < d.windowSize) :
    d.quickTest m d.strstart best =
      .ok (decide (d.Agrees m best ∧ d.Agrees m (best - 1) ∧ d.Agrees m 0 ∧ d.Agrees m 1)) := by
  have hlast : d.sameByte (m + best) (d.strstart + best) = .ok (decide (d.Agrees m best)) :=
    Deflate.sameByte_scan rfl rfl hm (by omega) (by omega)
  have hprev : d.sameByte (m + best - 1) (d.strstart + best - 1) = .ok (decide (d.Agrees m (best - 1))) :=
    Deflate.sameByte_scan (by omega) (by omega) hm (by omega) (by omega)
  have hfirst : d.sameByte m d.strstart = .ok (decide (d.Agrees m 0)) :=
    Deflate.sameByte_scan (by omega) (by omega) hm (by omega) (by omega)
  have hsecond : d.sameByte (m + 1) (d.strstart + 1) = .ok (decide (d.Agrees m 1)) :=
    Deflate.sameByte_scan rfl rfl hm (by omega) (by omega)
  simp only [Deflate.quickTest, hlast, hprev, hfirst, hsecond, Except.ok_bind, Bool.decide_and]
  cases decide (d.Agrees m best) <;> cases decide (d.Agrees m (best - 1)) <;> cases decide (d.Agrees m 0) <;> rfl

/-- The compare loop of R565 stops at the first offset that differs, or at its end. -/
theorem Deflate.matchLen_ok (hm : m ≤ d.strstart) (fuel k : Nat) (hroom : d.strstart + k + fuel ≤ d.windowSize) :
    ∃ n, d.matchLen m d.strstart fuel k = .ok n ∧ k ≤ n ∧ n ≤ k + fuel ∧ (∀ j : Nat, k ≤ j → j < n → d.Agrees m j) ∧
      (n < k + fuel → ¬d.Agrees m n) := by
  induction fuel generalizing k with
  | zero => exact ⟨k, rfl, by omega, by omega, fun j hk hj => by omega, fun hk => by omega⟩
  | succ fuel ih =>
    have hsame := Deflate.sameByte_scan (i := m + k) (j := d.strstart + k) rfl rfl hm (by omega) (by omega)
    by_cases hk : d.Agrees m k
    · obtain ⟨n, hn, hlow, hhigh, hall, hstop⟩ := ih (k + 1) (by omega)
      refine ⟨n, ?_, by omega, by omega, fun j hj hjn => ?_, fun h => hstop (by omega)⟩
      · simp [Deflate.matchLen, hsame, hk, hn]
      · obtain rfl | hlt := hj.eq_or_lt
        · exact hk
        · exact hall j hlt hjn
    · exact ⟨k, by simp [Deflate.matchLen, hsame, hk], by omega, by omega, fun j hj hjn => by omega, fun _ => hk⟩

/-! ## A visit to a candidate -/

/-- One candidate of R565's loop. -/
def Deflate.visit (d : Deflate) (m : Nat) (r : Search) : Except Fault Search := do
  if ← d.quickTest m d.strstart r.best then do
    let k ← d.matchLen m d.strstart (Config.maxMatch - 3) 3
    .ok (if r.best < k then { best := k, matchStart := (m : Int) } else r)
  else .ok r

/-- The loop of R565 visits a candidate and, unless the match is nice enough, goes on along the chain. -/
theorem Deflate.search_succ (d : Deflate) (limit nice fuel : Nat) (chain : Int) (m : Nat) (r : Search) :
    d.search d.strstart limit nice (fuel + 1) chain m r = d.visit m r >>= fun r' =>
      if r.best < r'.best ∧ nice ≤ r'.best then .ok r'
      else
        let next := (Cells.read 0 d.prev (m % d.wSize)).toNat
        if limit < next ∧ chain - 1 ≠ 0 then d.search d.strstart limit nice fuel (chain - 1) next r' else .ok r' := by
  simp only [Deflate.search, Deflate.visit]
  cases d.quickTest m d.strstart r.best with
  | error f => rfl
  | ok b =>
    cases b with
    | false => rfl
    | true =>
      cases d.matchLen m d.strstart (Config.maxMatch - 3) 3 with
      | error f => rfl
      | ok k => rfl

/-- `r'` is `r`, or a longer match than `r`'s at a position up to `strstart`; R565 does not compare offset 2. -/
structure Deflate.Found (d : Deflate) (r r' : Search) : Prop where
  grows : r.best ≤ r'.best
  bounded : r'.best ≤ max r.best 258
  source : r' = r ∨ r.best < r'.best ∧ ∃ m : Nat, r'.matchStart = m ∧ m ≤ d.strstart ∧
    ∀ j : Nat, j < r'.best → j ≠ 2 → d.Agrees m j

theorem Deflate.Found.refl (d : Deflate) (r : Search) : d.Found r r := ⟨Nat.le_refl _, Nat.le_max_left _ _, .inl rfl⟩

theorem Deflate.Found.trans {r'' : Search} (h : d.Found r r') (h' : d.Found r' r'') : d.Found r r'' where
  grows := h.grows.trans h'.grows
  bounded := by
    have := h.bounded
    have := h'.bounded
    omega
  source := by
    obtain rfl | ⟨hlt, hmatch⟩ := h'.source
    · exact h.source
    · exact .inr ⟨h.grows.trans_lt hlt, hmatch⟩

/-- `length` is at least what position `m` agrees for at the offsets that R565 compares, where `best` is the length to
beat. -/
def Deflate.Covers (d : Deflate) (m best length : Nat) : Prop :=
  ∀ n : Nat, max 1 best < n → n ≤ 258 → d.Agrees m (best - 1) → d.Agrees m best →
    (∀ j : Nat, j < n → j ≠ 2 → d.Agrees m j) → n ≤ length

theorem Deflate.Covers.mono {k l : Nat} (h : d.Covers m best k) (hkl : k ≤ l) : d.Covers m best l :=
  fun n hn hmax hprev hlast hall => (h n hn hmax hprev hlast hall).trans hkl

/-- A visit keeps the search as it was or replaces its match by the candidate's longer one (R565). -/
theorem Deflate.visit_ok (hm : m ≤ d.strstart) (hroom : d.strstart + 258 ≤ d.windowSize) (hpos : 1 ≤ m + r.best)
    (hbest : d.strstart + r.best < d.windowSize) :
    ∃ r', d.visit m r = .ok r' ∧ d.Found r r' ∧ d.Covers m r.best r'.best := by
  rw [Deflate.visit, Deflate.quickTest_eq hm (by omega) hpos hbest, Except.ok_bind]
  by_cases hquick : d.Agrees m r.best ∧ d.Agrees m (r.best - 1) ∧ d.Agrees m 0 ∧ d.Agrees m 1
  · obtain ⟨k, hk, hlow, hhigh, hall, hstop⟩ := Deflate.matchLen_ok hm 255 3 (by omega)
    have hagree : ∀ j : Nat, j < k → j ≠ 2 → d.Agrees m j := fun j hj h2 => by
      obtain ⟨-, -, hzero, hone⟩ := hquick
      obtain rfl | rfl | h3 : j = 0 ∨ j = 1 ∨ 3 ≤ j := by omega
      · exact hzero
      · exact hone
      · exact hall j h3 hj
    have hmost : d.Covers m r.best k := fun n _ hmax _ _ hrun =>
      Nat.le_of_not_lt fun hlt => hstop (by omega) (hrun k hlt (by omega))
    rw [if_pos (decide_eq_true hquick), show Config.maxMatch - 3 = 255 from rfl, hk, Except.ok_bind]
    by_cases hlt : r.best < k
    · rw [if_pos hlt]
      exact ⟨_, rfl, ⟨hlt.le, hhigh.trans (Nat.le_max_right _ _), .inr ⟨hlt, m, rfl, hm, hagree⟩⟩, hmost⟩
    · rw [if_neg hlt]
      exact ⟨r, rfl, .refl d r, hmost.mono (Nat.le_of_not_lt hlt)⟩
  · rw [if_neg (by rwa [decide_eq_true_iff])]
    refine ⟨r, rfl, .refl d r, fun n hn _ hprev hlast hrun => absurd ?_ hquick⟩
    exact ⟨hlast, hprev, hrun 0 (by omega) (by decide), hrun 1 (by omega) (by decide)⟩

/-! ## The walk along the chain -/

/-- The chain falls from every position up to `strstart`. -/
def Deflate.Falls (d : Deflate) : Prop :=
  ∀ m, 0 < m → m ≤ d.strstart → (Cells.read 0 d.prev (m % d.wSize)).toNat < m

/-- The iterations `fuel` are enough for a walk from `m`: they are the budget; or there is none, and the chain falls, whose
positions after the first are 16 bits wide (R551). -/
def Deflate.Ends (d : Deflate) (fuel : Nat) (chain : Int) (m : Nat) : Prop :=
  0 < fuel ∧ (chain = fuel ∨ chain ≤ 0 ∧ d.Falls ∧ (0 < m ∧ m < fuel ∨ 65536 < fuel))

theorem Deflate.Ends.next {fuel : Nat} {chain : Int} (h : d.Ends (fuel + 1) chain m) (hm : m ≤ d.strstart)
    (hnext : 0 < (Cells.read 0 d.prev (m % d.wSize)).toNat) (hchain : chain - 1 ≠ 0) :
    d.Ends fuel (chain - 1) (Cells.read 0 d.prev (m % d.wSize)).toNat := by
  have hwidth := (Cells.read 0 d.prev (m % d.wSize)).isLt
  obtain ⟨-, hbudget | ⟨hnone, hfalls, hlow | hwide⟩⟩ := h
  · exact ⟨by omega, .inl (by omega)⟩
  · have hless := hfalls m hlow.1 hm
    exact ⟨by omega, .inr ⟨by omega, hfalls, .inl (by omega)⟩⟩
  · exact ⟨by omega, .inr ⟨by omega, hfalls, .inl (by omega)⟩⟩

/-- R565's walk ends with the search as it was or with a longer match, at least what its first candidate gives. -/
theorem Deflate.search_ok {limit nice fuel : Nat} {chain : Int} (hprev : ∀ k, (Cells.read 0 d.prev k).toNat ≤ d.strstart)
    (hroom : d.strstart + 258 ≤ d.windowSize) (hnice : nice ≤ 258) (hm : m ≤ d.strstart) (hpos : 1 ≤ m + r.best)
    (hbest : d.strstart + r.best < d.windowSize) (hends : d.Ends fuel chain m) :
    ∃ r', d.search d.strstart limit nice fuel chain m r = .ok r' ∧ d.Found r r' ∧ d.Covers m r.best r'.best := by
  induction fuel generalizing chain m r with
  | zero => exact absurd hends.1 (Nat.lt_irrefl 0)
  | succ fuel ih =>
    obtain ⟨r₁, hvisit, hfound, hcovers⟩ := Deflate.visit_ok hm hroom hpos hbest
    rw [Deflate.search_succ, hvisit, Except.ok_bind]
    by_cases hdone : r.best < r₁.best ∧ nice ≤ r₁.best
    · exact ⟨r₁, if_pos hdone, hfound, hcovers⟩
    rw [if_neg hdone]
    by_cases hgo : limit < (Cells.read 0 d.prev (m % d.wSize)).toNat ∧ chain - 1 ≠ 0
    · have hgrows := hfound.grows
      obtain ⟨r', hsearch, hrest, -⟩ := ih (r := r₁) (hprev _) (by omega) (by omega) (hends.next hm (by omega) hgo.2)
      exact ⟨r', (if_pos hgo).trans hsearch, hfound.trans hrest, hcovers.mono hrest.grows⟩
    · exact ⟨r₁, if_neg hgo, hfound, hcovers⟩

end

/-! ## LONGEST (R565, R566) -/

section
variable {d : Deflate} {curMatch : Nat}

/-- The fuel of the search is enough: a budget is positive from 4 on, and without one the chain falls. -/
theorem Deflate.ends_searchFuel (m : Nat) (h : 4 ≤ d.maxChain ∨ d.Falls) :
    d.Ends (searchFuel d.chainBudget) d.chainBudget m := by
  rcases Nat.eq_zero_or_pos d.chainBudget with hzero | hpos
  · have hsmall : ¬4 ≤ d.maxChain := by
      unfold Deflate.chainBudget at hzero
      split at hzero <;> omega
    rw [hzero]
    exact ⟨by decide, .inr ⟨Int.le_refl 0, h.resolve_left hsmall, .inr (by decide)⟩⟩
  · rw [searchFuel, if_neg hpos.ne']
    exact ⟨hpos, .inl rfl⟩

theorem Deflate.longestMatch_ok (hcur : curMatch < d.strstart) (hnice : d.niceMatch ≤ 258)
    (hroom : d.strstart + max 258 (d.prevLength + 1) ≤ d.windowSize) (hpos : 1 ≤ d.prevLength + curMatch)
    (hprev : ∀ k, (Cells.read 0 d.prev k).toNat ≤ d.strstart) (hchain : 4 ≤ d.maxChain ∨ d.Falls) :
    ∃ r, d.longestMatch curMatch = .ok (min r.best d.lookahead, { d with matchStart := r.matchStart }) ∧
      d.Found ⟨d.prevLength, d.matchStart⟩ r ∧ d.Covers curMatch d.prevLength r.best := by
  obtain ⟨r, hsearch, hfound, hcovers⟩ := Deflate.search_ok (r := ⟨d.prevLength, d.matchStart⟩)
    (limit := if d.maxDist < d.strstart then d.strstart - d.maxDist else 0) (nice := min d.niceMatch d.lookahead) hprev
    (by omega) (by omega) hcur.le (by show 1 ≤ curMatch + d.prevLength; omega)
    (by show d.strstart + d.prevLength < d.windowSize; omega) (Deflate.ends_searchFuel curMatch hchain)
  exact ⟨r, by rw [Deflate.longestMatch, hsearch, Except.ok_bind], hfound, hcovers⟩

end

theorem exec_mfLongest (curMatch : Word) (s : State) : exec (.mfLongest curMatch) s = s.deflateCommand true fun d p =>
    if d.strstart ≤ curMatch.toNat then .raised (.stream .badOperand) d p
    else
      Reply.ofExcept (d.longestMatch curMatch.toNat) fun (length, d) =>
        d.answer p (BitVec.ofNat 32 length) (wordOfInt d.matchStart) := rfl

theorem completes_mfLongest {curMatch : Word} {s : State} {d d' : Deflate} {length : Nat} (h : s.isDeflate d)
    (hcur : curMatch.toNat < d.strstart) (hlongest : d.longestMatch curMatch.toNat = .ok (length, d')) :
    completes (.mfLongest curMatch) s 0 length (wordOfInt d'.matchStart).toNat (.deflate d') s.port.input [] :=
  completes_of_deflate (st := .ok) (p := s.startPort) h (exec_mfLongest curMatch s)
    (by rw [if_neg (Nat.not_le.2 hcur), hlongest, Reply.ofExcept_ok, BitVec.ofNat_toNat, BitVec.setWidth_eq]; rfl) rfl

/-! ## The obligations -/

/-- Settles O38: the hash that `HashInit` leaves is RESULT0. -/
theorem hashInitPrimesTheHash : Obligations.HashInitPrimesTheHash := by
  intro s d h hstart hash
  refine completes_of_deflate (st := .ok) (p := s.startPort) h (exec_mfHashInit s) ?_ rfl
  rw [Deflate.hashInit, Deflate.hashInitAt_nat hstart, Reply.ofExcept_ok, BitVec.ofNat_toNat]
  rfl

/-- Settles O39: the two writes of `InsertString` are read back, and a position past WINDOW_SIZE - 3 raises. -/
theorem insertLinksTheChain : Obligations.InsertLinksTheChain := by
  intro pos s d h hd
  refine ⟨fun hpos => ?_, fun hpast => ?_⟩
  · exact ⟨_, _, fun k => Cells.read_write hd.head.1 _ k _, fun k => Cells.read_write hd.prev.1 _ k _,
      completes_mfInsert h (Nat.le_sub_of_add_le hpos) (Deflate.insertString_nat hpos)⟩
  · have hsize : 2 * 512 ≤ d.windowSize := Nat.mul_le_mul_left 2 hd.wSize_ge
    have hlt : d.windowSize - 3 < pos.toNat := by
      have : d.windowSize < pos.toNat + 3 := hpast
      omega
    exact raises_of_deflate (p := s.startPort) h (exec_mfInsert pos s) (if_pos hlt) rfl

/-- Settles O40: the walk along the chain from `curMatch`, its length clipped to `lookahead`. -/
theorem longestFindsTrueMatches : Obligations.LongestFindsTrueMatches := by
  intro curMatch s d h
  refine ⟨fun hcur hnice hroom hlen hpos hprev hchain => ?_, fun hpast => ?_⟩
  · obtain ⟨r, hlongest, ⟨hgrows, hbounded, hsource⟩, hcovers⟩ :=
      Deflate.longestMatch_ok hcur hnice hroom hpos hprev hchain
    have hbest : r.best ≤ 258 := hbounded.trans (max_le hlen (Nat.le_refl 258))
    refine ⟨min r.best d.lookahead, r.matchStart, completes_mfLongest h hcur hlongest, min_le_right _ _,
      min_le_min_right _ hgrows, (min_le_left _ _).trans hbest, ?_, fun n hn hmax hbefore hat hrun =>
        min_le_min_right _ (hcovers n hn hmax hbefore hat hrun)⟩
    obtain hsame | ⟨hlt, m, hstart, hm, hagree⟩ := hsource
    · exact .inl ⟨congrArg Search.matchStart hsame, congrArg (fun r => min r.best d.lookahead) hsame⟩
    · exact .inr ⟨m, r.best, hstart, hm, hlt, rfl, hagree⟩
  · exact raises_of_deflate (p := s.startPort) h (exec_mfLongest curMatch s) (if_pos hpast) rfl

end Sys2Proof.Machine

/-! # Tokens and block starts, and their commands

INITBLOCK filters the leaves out of the frequencies (R606). TALLY appends to the two token arrays and adds to at most one
frequency of each descriptor (R607). -/

namespace Sys2Proof.Machine

open Sys2Proof.Claim

/-! ## Frequencies (R107) -/

theorem Cells.find?_filter {α : Type} {m : Cells α} (hm : Cells.sorted m) (p : Nat → Bool) (i : Nat) :
    Cells.find? (m.filter fun c => p c.1) i = if p i then Cells.find? m i else none := by
  refine Option.ext fun v => ?_
  rw [Cells.find?_iff_mem (hm.sublist List.filter_sublist), List.mem_filter, ← Cells.find?_iff_mem hm]
  split <;> simp_all

theorem read_clearLeaves {freq : Cells Nat} (hf : Cells.sorted freq) (id : TreeId) (n : Nat) :
    Cells.read 0 (clearLeaves id freq) n = if n < id.elems then 0 else Cells.read 0 freq n := by
  rw [Cells.read, clearLeaves, Cells.find?_filter hf fun k => decide (id.elems ≤ k)]
  by_cases hn : n < id.elems
  · rw [if_pos hn, if_neg (by simpa using hn)]
    rfl
  · rw [if_neg hn, if_pos (by simpa using hn)]
    rfl

/-- The descriptor after `freq[n] += k`. -/
def Tree.counted (t : Tree) (n k : Nat) : Tree := { t with freq := Cells.write 0 t.freq n (Cells.read 0 t.freq n + k) }

theorem Tree.freqAt_nat {id : TreeId} {n : Nat} (h : n < id.nodes) (t : Tree) :
    t.freqAt id n = .ok (Cells.read 0 t.freq n) := Cells.load_nat _ h

theorem Tree.setFreq_nat {id : TreeId} {n : Nat} (h : n < id.nodes) (t : Tree) (v : Nat) :
    t.setFreq id n v = .ok { t with freq := Cells.write 0 t.freq n v } := by
  rw [Tree.setFreq, Cells.store_nat _ _ h, Except.ok_bind]

theorem Tree.addFreq_nat {id : TreeId} {n : Nat} (h : n < id.nodes) (t : Tree) (k : Nat) :
    t.addFreq id n k = .ok (t.counted n k) := by
  rw [Tree.addFreq, Tree.freqAt_nat h, Except.ok_bind, Tree.setFreq_nat h]
  rfl

theorem Tree.read_counted {t : Tree} (ht : Cells.sorted t.freq) (n k m : Nat) :
    Cells.read 0 (t.counted n k).freq m = Cells.read 0 t.freq m + if m = n then k else 0 := by
  rw [Tree.counted, Cells.read_write ht]
  split
  next h => rw [h]
  next => rfl

/-! ## Tokens (R607) -/

theorem lengthCode_lt (lc : Nat) : lengthCode lc < 29 := by
  have : (lenBase.filter fun b => b ≤ lc + 3).length ≤ 29 := List.length_filter_le _ _
  unfold lengthCode largestBase
  omega

section
variable {d : Deflate} {lc : Byte}

/-- The units after a token is appended. -/
def Deflate.appended (d : Deflate) (dist : Nat) (lc : Byte) : Deflate :=
  { d with
    dBuf := Cells.put d.dBuf d.lastLit (BitVec.ofNat 16 dist)
    lBuf := Cells.put d.lBuf d.lastLit lc
    lastLit := d.lastLit + 1 }

/-- The units after a token is appended and its symbols are counted. -/
def Deflate.tallied (d : Deflate) (dist : Nat) (lc : Byte) : Deflate :=
  let d := d.appended dist lc
  if dist = 0 then { d with ld := d.ld.counted lc.toNat 1 }
  else
    { d with
      ld := d.ld.counted (257 + lengthCode lc.toNat) 1
      dd := d.dd.counted (distCode (dist - 1)) 1
      matchCount := d.matchCount + 1 }

/-- A token changes the two arrays, two counters and the frequencies. -/
theorem Deflate.tallied_eq (d : Deflate) (dist : Nat) (lc : Byte) :
    d.tallied dist lc =
      { d.appended dist lc with
        matchCount := d.matchCount + if dist = 0 then 0 else 1
        ld := { d.ld with freq := (d.tallied dist lc).ld.freq }
        dd := { d.dd with freq := (d.tallied dist lc).dd.freq } } := by
  unfold Deflate.tallied
  split <;> rfl

theorem Deflate.read_tallied_ld (h : Cells.sorted d.ld.freq) (dist n : Nat) :
    Cells.read 0 (d.tallied dist lc).ld.freq n =
      Cells.read 0 d.ld.freq n + if n = (if dist = 0 then lc.toNat else 257 + lengthCode lc.toNat) then 1 else 0 := by
  unfold Deflate.tallied
  split <;> exact Tree.read_counted h _ 1 n

theorem Deflate.read_tallied_dd (h : Cells.sorted d.dd.freq) (dist n : Nat) :
    Cells.read 0 (d.tallied dist lc).dd.freq n =
      Cells.read 0 d.dd.freq n + if dist ≠ 0 ∧ n = distCode (dist - 1) then 1 else 0 := by
  unfold Deflate.tallied
  split
  next hzero => rw [if_neg fun hn => hn.1 hzero]; rfl
  next hzero => rw [if_congr (and_iff_right hzero) rfl rfl]; exact Tree.read_counted h _ 1 n

theorem Deflate.tally_ok {dist : Nat} (hroom : d.lastLit < 16384) (hdist : dist ≤ 32768) :
    d.tally dist lc =
      .ok ((d.tallied dist lc).truncates || (d.tallied dist lc).lastLit == 16383, d.tallied dist lc) := by
  have hlen := lengthCode_lt lc.toNat
  have hcode := distCode_lt (dist - 1)
  have hlit : lc.toNat < TreeId.ld.nodes := lc.isLt.trans (by decide)
  have hmatch : 257 + lengthCode lc.toNat < TreeId.ld.nodes := by show _ < 573; omega
  have hsym : distCode (dist - 1) < TreeId.dd.nodes := by show _ < 61; omega
  have hdBuf := Cells.set_nat (a := .dBuf) d.dBuf (BitVec.ofNat 16 dist) hroom
  have hlBuf := Cells.set_nat (a := .lBuf) d.lBuf lc hroom
  rw [Deflate.tally, BitVec.ofInt_natCast, show Config.litBufSize = 16384 from rfl, hdBuf, Except.ok_bind, hlBuf, Except.ok_bind,
    Deflate.tallied]
  by_cases hzero : dist = 0
  · simp only [Tree.addFreq_nat hlit, Except.ok_bind, if_pos hzero, if_pos (show (dist : Int) = 0 by omega)]
    rfl
  · simp only [Tree.addFreq_nat hmatch, distSymbol_pred hzero hdist, Tree.addFreq_nat hsym, Except.ok_bind, if_neg hzero,
      if_neg (show ¬(dist : Int) = 0 by omega)]
    rfl

theorem Deflate.truncates_eq (d : Deflate) :
    d.truncates =
      endsEarly d.lastLit d.matchCount d.level ((d.strstart : Int) - d.blockStart) (Cells.read 0 d.dd.freq) := by
  rw [Deflate.truncates, endsEarly, Config.truncateHeuristic, Bool.true_and, beq_eq_decide]
  rfl

end

/-! ## The obligations -/

/-- A command with legal operands. -/
theorem exec_legal {i : Instr} {body : Deflate → Port → Reply Deflate}
    (hx : ∀ s : State, exec i s = s.deflateCommand i.wellFormed body) (hi : i.wellFormed = true) (s : State) :
    exec i s = s.deflateCommand true body := by rw [hx, hi]

theorem exec_tbInitBlock (s : State) :
    exec .tbInitBlock s = s.deflateCommand true fun d p => d.initBlock.answer p 0 0 := rfl

theorem completes_tbInitBlock {s : State} {d : Deflate} (h : s.isDeflate d) :
    completes .tbInitBlock s 0 0 0 (.deflate d.initBlock) s.port.input [] :=
  completes_of_deflate (st := .ok) (p := s.startPort) h (exec_tbInitBlock s) rfl rfl

/-- Settles O44: the leaves are filtered out of the frequencies, and END_BLOCK's is written. -/
theorem initBlockClearsTheCounts : Obligations.InitBlockClearsTheCounts := by
  intro s d h hd
  have hleaves : Cells.sorted (clearLeaves .ld d.ld.freq) := (Cells.wf_filter hd.ld.freq _).1
  refine ⟨_, _, _, fun n => ?_, read_clearLeaves hd.dd.freq.1 .dd, read_clearLeaves hd.bd.freq.1 .bd, completes_tbInitBlock h⟩
  rw [Cells.read_write hleaves, read_clearLeaves hd.ld.freq.1]
  rfl

theorem exec_tbTally (lc : Byte) (dist : Word) (s : State) :
    exec (.tbTally lc dist) s = s.deflateCommand (Instr.tbTally lc dist).wellFormed fun d p =>
      if 16383 ≤ d.lastLit then .raised (.stream .badOperand) d p
      else Reply.ofExcept (d.tally dist.toNat lc) fun (mustFlush, d) => d.answer p (if mustFlush then 1 else 0) 0 := rfl

/-- RESULT0 of a command that answers yes or no. -/
theorem ofNat_flag (c : Prop) [Decidable c] : BitVec.ofNat 32 (if c then 1 else 0) = if c then 1 else 0 := by split <;> rfl

/-- Settles O45: the arrays take the token at `lastLit`, and the two descriptors count its symbols. -/
theorem tallyAppendsAndCounts : Obligations.TallyAppendsAndCounts := by
  intro lc dist s d h hd hdist
  have hx := exec_legal (exec_tbTally lc dist) (decide_eq_true hdist)
  refine ⟨fun hroom => ?_, fun hfull => ?_⟩
  · have hzero : dist = 0 ↔ dist.toNat = 0 := BitVec.toNat_inj.symm
    have heq := d.tallied_eq dist.toNat lc
    have htally := Deflate.tally_ok (lc := lc) (show d.lastLit < 16384 by omega) hdist
    simp only [ne_eq, hzero]
    refine ⟨_, _, (d.tallied dist.toNat lc).ld.freq, (d.tallied dist.toNat lc).dd.freq, fun k => Cells.find?_put _ _ k _,
      fun k => Cells.find?_put _ _ k _, Deflate.read_tallied_ld hd.ld.freq.1 _, Deflate.read_tallied_dd hd.dd.freq.1 _, ?_⟩
    refine completes_of_deflate (st := .ok) (p := s.startPort) h (hx s) ?_ rfl
    rw [if_neg (by omega), htally, Reply.ofExcept_ok, Deflate.truncates_eq, heq, ofNat_flag]
    simp only [Deflate.appended, Deflate.answer, Bool.or_eq_true, beq_iff_eq, or_comm (a := endsEarly _ _ _ _ _ = true)]
    rfl
  · exact raises_of_deflate (p := s.startPort) h (hx s) (if_pos hfull) rfl

end Sys2Proof.Machine

/-! # What the send operations send

An operation that sends the bit fields `fs` succeeds where the FIFO has room for them, and changes nothing but the bit writer
and the FIFO (R340). So operations one after another send their fields one after another, and what they read of the
units is what it was at the start. -/

namespace Sys2Proof.Machine

open Sys2Proof.Claim

/-! ## Bit fields one after another (R340) -/

/-- The units with another bit writer and another FIFO. -/
def Deflate.withOutput (d : Deflate) (bw : BitWriter) (pending : List Byte) : Deflate := { d with bw := bw, pending := pending }

/-- The computation `x`, started on the units `d`, sends the bit fields `fs` where the FIFO has room for them. -/
def Deflate.Sends (d : Deflate) (x : Except Fault Deflate) (fs : List (Nat × Nat)) : Prop :=
  writerOk d → 8 * d.pending.length + d.bw.biValid + packedWidth fs + 16 ≤ 8 * 65536 →
    ∃ d', x = .ok d' ∧ emits d d' fs ∧ writerOk d'

section
variable {d : Deflate} {x : Except Fault Deflate} {k : Deflate → Except Fault Deflate} {fs gs : List (Nat × Nat)}

theorem Deflate.Sends.nil (d : Deflate) : d.Sends (.ok d) [] := fun hw _ => ⟨d, rfl, Claim.emits_nil hw.1, hw⟩

theorem Deflate.Sends.bind (hx : d.Sends x fs)
    (hk : ∀ bw pending, (d.withOutput bw pending).Sends (k (d.withOutput bw pending)) gs) : d.Sends (x >>= k) (fs ++ gs) := by
  intro hw hroom
  rw [packedWidth_append] at hroom
  obtain ⟨d₁, hd₁, he₁, hw₁⟩ := hx hw (by omega)
  obtain ⟨more, hrest, -, hwidth, -⟩ := id he₁
  have hrest : d₁ = d.withOutput d₁.bw (d.pending ++ more) := hrest
  have hnext : d₁.Sends (k d₁) gs := by
    rw [hrest]
    exact hk _ _
  have hpending : d₁.pending.length = d.pending.length + more.length := by rw [hrest, Deflate.withOutput, List.length_append]
  obtain ⟨d₂, hd₂, he₂, hw₂⟩ := hnext hw₁ (by omega)
  exact ⟨d₂, by rw [hd₁, Except.ok_bind, hd₂], Claim.emits_trans he₁ he₂, hw₂⟩

theorem Deflate.sendBits_sends {v : Half} {n : Nat} (hn : n ≤ 16) (hv : v.toNat < 2 ^ n) :
    d.Sends (d.sendBits v n) [(v.toNat, n)] := fun hw hroom => Deflate.sendBits_emits hw hn hv (by omega)

theorem Deflate.sendNat_sends {v n : Nat} (hn : n ≤ 16) (hv : v < 2 ^ n) : d.Sends (d.sendNat v n) [(v, n)] := by
  have h16 : v < 2 ^ 16 := hv.trans_le (Nat.pow_le_pow_right two_pos hn)
  have hval : (BitVec.ofNat 16 v).toNat = v := Nat.mod_eq_of_lt h16
  have h := Deflate.sendBits_sends (d := d) (v := BitVec.ofNat 16 v) hn (by rwa [hval])
  rwa [hval] at h

theorem Deflate.sendExtra_sends {v n : Nat} (hn : n ≤ 16) (hv : v < 2 ^ n) :
    d.Sends (d.sendExtra v n) (extraFields v n) := by
  unfold Deflate.sendExtra extraFields
  split
  · exact .nil d
  · exact Deflate.sendNat_sends hn hv

theorem Deflate.sendCode_sends {id : TreeId} {c : Nat} (hc : c < id.nodes) (hcode : hasCode (d.tree id) c) :
    d.Sends (d.sendCode id c) [codeField (d.tree id) c] := by
  obtain ⟨v, l, hv, hl, hle, hlt⟩ := hcode
  rw [Deflate.sendCode, Cells.get_nat hc hv, Cells.get_nat hc hl, Except.ok_bind, Except.ok_bind, codeField, hv, hl]
  exact Deflate.sendBits_sends (hle.trans (by decide)) hlt

theorem codeField_le {t : Tree} {c : Nat} (h : hasCode t c) : (codeField t c).2 ≤ 15 := by
  obtain ⟨v, l, hv, hl, hle, hlt⟩ := h
  rwa [codeField, hl]

theorem packedWidth_flatMap_le {α : Type} {f : α → List (Nat × Nat)} {n : Nat} {l : List α}
    (h : ∀ a ∈ l, packedWidth (f a) ≤ n) : packedWidth (l.flatMap f) ≤ n * l.length := by
  induction l with
  | nil => exact Nat.zero_le _
  | cons a l ih =>
    obtain ⟨ha, hl⟩ := List.forall_mem_cons.1 h
    have := ih hl
    rw [List.flatMap_cons, packedWidth_append, List.length_cons, Nat.mul_succ]
    omega

end

/-- A command that is one send operation completes where the FIFO has room. -/
theorem completes_of_sends {i : Instr} {s : State} {d : Deflate} {f : Deflate → Except Fault Deflate} {fs : List (Nat × Nat)}
    (h : s.isDeflate d) (hx : exec i s = s.deflateCommand true (Deflate.packing f)) (hw : writerOk d) (hs : d.Sends (f d) fs)
    (hroom : 8 * d.pending.length + packedWidth fs + 32 ≤ 8 * 65536) :
    ∃ d', emits d d' fs ∧ completes i s 0 0 0 (.deflate d') s.port.input [] := by
  have := hw.1
  obtain ⟨d', hd', he, -⟩ := hs hw (by omega)
  exact ⟨d', he, completes_packing h hx hd'⟩

/-! ## The run-length form of code lengths (R625, R626) -/

/-- The variables of R625's loop before the rest `lens` of the lengths, when the length sent last is `last`. -/
def RunState.Fits (r : RunState) (last : Option Nat) : List Nat → Prop
  | [] => r.count = 0
  | cur :: _ => r.count < r.maxCount ∧
    if cur = 0 then r.maxCount = 138 ∧ r.minCount = 3
    else if r.prevlen = some cur then r.maxCount = 6 ∧ r.minCount = 3 ∧ last = some cur
    else r.maxCount = 7 ∧ r.minCount = 4

/-- The limits after a run fit the length that follows it. -/
theorem RunState.fits_next (cur : Nat) (lens : List Nat) :
    RunState.Fits ⟨some cur, 0, (runLimits cur (lens.headD 0xFFFF)).1, (runLimits cur (lens.headD 0xFFFF)).2⟩ (some cur) lens := by
  cases lens with
  | nil => rfl
  | cons next lens =>
    rw [List.headD_cons, runLimits, RunState.Fits]
    by_cases hzero : next = 0
    · simp [hzero]
    · by_cases hsame : cur = next <;> simp [hzero, hsame]

/-- A run decodes to the lengths it stands for. -/
theorem decodeRun_runOf {cur : Nat} {lens : List Nat} {r : RunState} {last : Option Nat} (hcur : cur ≤ 15)
    (hr : r.Fits last (cur :: lens)) :
    decodeRun last (runOf cur (r.count + 1) r.minCount r.prevlen) = some (List.replicate (r.count + 1) cur) := by
  obtain ⟨hlt, hlim⟩ := hr
  unfold runOf
  by_cases hzero : cur = 0
  · rw [if_pos hzero] at hlim
    subst hzero
    rw [if_neg (not_not.2 rfl)]
    split_ifs with h3 h10
    · rfl
    · exact if_pos (by omega)
    · exact if_pos (by omega)
  · rw [if_neg hzero] at hlim
    by_cases hprev : r.prevlen = some cur
    · rw [if_pos hprev] at hlim
      obtain ⟨hmax, hmin, rfl⟩ := hlim
      rw [if_pos hzero, if_pos hprev]
      split_ifs with h3
      · exact if_pos hcur
      · exact if_pos (by omega)
    · rw [if_neg hprev] at hlim
      rw [if_pos hzero, if_neg hprev]
      split_ifs with h4
      · exact if_pos hcur
      · exact (if_pos (by omega)).trans (if_pos hcur)

/-- The runs from within a sequence decode to the rest of it, after the lengths counted so far. -/
theorem decodeRuns_runsFrom {lens : List Nat} (h15 : ∀ l ∈ lens, l ≤ 15) {r : RunState} {last : Option Nat}
    (hr : r.Fits last lens) : decodeRuns last (runsFrom lens r) = some (List.replicate r.count (lens.headD 0) ++ lens) := by
  induction lens generalizing r last with
  | nil =>
    rw [show r.count = 0 from hr]
    rfl
  | cons cur rest ih =>
    obtain ⟨hcur, hrest⟩ := List.forall_mem_cons.1 h15
    rw [runsFrom]
    by_cases hgo : r.count + 1 < r.maxCount ∧ cur = rest.headD 0xFFFF
    · obtain ⟨next, rest', rfl⟩ : ∃ next rest', rest = next :: rest' := by
        cases rest with
        | nil => exact absurd hgo.2 (by show ¬cur = 65535; omega)
        | cons next rest' => exact ⟨next, rest', rfl⟩
      obtain rfl : cur = next := hgo.2
      rw [if_pos hgo, ih hrest (r := { r with count := r.count + 1 }) ⟨hgo.1, hr.2⟩]
      simp [List.replicate_succ']
    · have hlast : ((List.replicate (r.count + 1) cur).getLast? <|> last) = some cur := by simp [List.getLast?_replicate]
      simp only [if_neg hgo, decodeRuns, decodeRun_runOf hcur hr, hlast, ih hrest (RunState.fits_next cur rest)]
      simp [List.replicate_succ']

/-- Settles O49: each run decodes to the lengths it stands for, and the limits for the next run fit the length after it. -/
theorem runsDecodeToTheLengths : Obligations.RunsDecodeToTheLengths := by
  intro lens h15
  have hstart : (if lens.headD 0xFFFF = 0 then (⟨none, 0, 138, 3⟩ : RunState) else ⟨none, 0, 7, 4⟩).Fits none lens ∧
      (if lens.headD 0xFFFF = 0 then (⟨none, 0, 138, 3⟩ : RunState) else ⟨none, 0, 7, 4⟩).count = 0 := by
    cases lens with
    | nil => exact ⟨rfl, rfl⟩
    | cons cur lens => by_cases hzero : cur = 0 <;> simp [RunState.Fits, hzero]
  rw [runs, decodeRuns_runsFrom h15 hstart.1, hstart.2]
  rfl

end Sys2Proof.Machine

/-! # The compact tree description and its commands

SCAN and SENDTREE follow the same runs of a descriptor's lengths: one counts their symbols, the other sends them with their
extra bits (R625, R626). -/

namespace Sys2Proof.Machine

open Sys2Proof.Claim

/-! ## The lengths of a descriptor -/

theorem TreeId.elems_le_nodes (id : TreeId) : id.elems ≤ id.nodes := by cases id <;> decide

theorem readLens_ok {id : TreeId} {t : Tree} {ns : List Nat} (h : ∀ n ∈ ns, n < id.nodes ∧ ∃ l, Cells.find? t.len n = some l) :
    readLens id t ns = .ok (ns.map fun n => (Cells.find? t.len n).getD 0) := by
  induction ns with
  | nil => rfl
  | cons n ns ih =>
    obtain ⟨⟨hn, l, hl⟩, hns⟩ := List.forall_mem_cons.1 h
    rw [readLens, Cells.get_nat hn hl, Except.ok_bind, ih hns, List.map_cons, hl]
    rfl

theorem readLens_lensBelow {id : TreeId} {t : Tree} {n : Nat} (hn : n ≤ id.elems) (h : hasLens t n) :
    readLens id t (symbolsTo ((n : Int) - 1)) = .ok (lensBelow t n) := by
  have hto : symbolsTo ((n : Int) - 1) = List.range n := by rw [symbolsTo, Int.sub_add_cancel, Int.toNat_natCast]
  rw [hto]
  refine readLens_ok fun k hk => ?_
  have hk := List.mem_range.1 hk
  obtain ⟨l, hl, -⟩ := h k hk
  exact ⟨by have := id.elems_le_nodes; omega, l, hl⟩

theorem lensBelow_le {t : Tree} {n : Nat} (h : hasLens t n) : ∀ l ∈ lensBelow t n, l ≤ 15 := by
  intro l hl
  obtain ⟨k, hk, rfl⟩ := List.mem_map.1 hl
  obtain ⟨l, hl, hle⟩ := h k (List.mem_range.1 hk)
  rwa [hl]

theorem length_lensBelow (t : Tree) (n : Nat) : (lensBelow t n).length = n := by rw [lensBelow, List.length_map, List.length_range]

/-- The symbols of a run that decodes are bit-length symbols. -/
theorem mem_runSymbols_lt {last : Option Nat} {r : Run} {ls : List Nat} (h : decodeRun last r = some ls) :
    ∀ c ∈ runSymbols r, c < 19 := by
  intro c hc
  cases r with
  | single len count =>
    obtain ⟨h15, -⟩ := Option.ite_none_right_eq_some.1 h
    rw [List.eq_of_mem_replicate hc]
    omega
  | repeat16 len lead count =>
    obtain ⟨-, hls⟩ := Option.ite_none_right_eq_some.1 h
    cases lead with
    | true =>
      obtain ⟨h15, -⟩ := Option.ite_none_right_eq_some.1 hls
      obtain rfl | hc := List.mem_cons.1 hc
      · omega
      · rw [List.mem_singleton.1 hc]
        decide
    | false =>
      rw [List.mem_singleton.1 hc]
      decide
  | zeros17 count | zeros18 count =>
    rw [List.mem_singleton.1 hc]
    decide

/-! ## Counting the runs (R625) -/

/-- `t'` is the descriptor `t` after the symbols `ss` were counted. -/
structure Tree.Counts (t t' : Tree) (ss : List Nat) : Prop where
  rest : t' = { t with freq := t'.freq }
  canonical : Cells.wf 0 t'.freq
  read : ∀ n, Cells.read 0 t'.freq n = Cells.read 0 t.freq n + ss.count n

section
variable {t t' t'' : Tree} {ss ss' : List Nat}

theorem Tree.Counts.nil (h : Cells.wf 0 t.freq) : t.Counts t [] := ⟨rfl, h, fun _ => rfl⟩

theorem Tree.Counts.append (h : t.Counts t' ss) (h' : t'.Counts t'' ss') : t.Counts t'' (ss ++ ss') where
  rest := by rw [h'.rest, h.rest]
  canonical := h'.canonical
  read n := by rw [h'.read, h.read, List.count_append, Nat.add_assoc]

theorem Tree.counted_counts (h : Cells.wf 0 t.freq) (n k : Nat) : t.Counts (t.counted n k) (List.replicate k n) where
  rest := rfl
  canonical := Cells.wf_write h _ _
  read m := by
    rw [Tree.read_counted h.1, List.count_replicate]
    exact congrArg _ (if_congr (by rw [beq_iff_eq, eq_comm]) rfl rfl)

theorem Tree.addFreq_counts {n : Nat} (h : Cells.wf 0 t.freq) (hn : n < 19) (k : Nat) :
    ∃ t', t.addFreq .bd n k = .ok t' ∧ t.Counts t' (List.replicate k n) :=
  ⟨_, Tree.addFreq_nat (show n < 39 by omega) t k, Tree.counted_counts h n k⟩

theorem countRun_counts (h : Cells.wf 0 t.freq) {last : Option Nat} {r : Run} {ls : List Nat} (hr : decodeRun last r = some ls) :
    ∃ t', countRun t r = .ok t' ∧ t.Counts t' (runSymbols r) := by
  cases r with
  | single len count =>
    obtain ⟨h15, -⟩ := Option.ite_none_right_eq_some.1 hr
    exact Tree.addFreq_counts h (by omega) count
  | repeat16 len lead count =>
    cases lead with
    | true =>
      have hlen := mem_runSymbols_lt hr len (by simp [runSymbols])
      obtain ⟨t₁, ht₁, hc₁⟩ := Tree.addFreq_counts h hlen 1
      obtain ⟨t₂, ht₂, hc₂⟩ := Tree.addFreq_counts hc₁.canonical (show 16 < 19 by decide) 1
      refine ⟨t₂, ?_, hc₁.append hc₂⟩
      simp only [countRun, if_true, ht₁, Except.ok_bind, ht₂]
    | false => exact Tree.addFreq_counts h (show 16 < 19 by decide) 1
  | zeros17 count => exact Tree.addFreq_counts h (show 17 < 19 by decide) 1
  | zeros18 count => exact Tree.addFreq_counts h (show 18 < 19 by decide) 1

theorem countRuns_counts (h : Cells.wf 0 t.freq) {last : Option Nat} {rs : List Run} {ls : List Nat}
    (hrs : decodeRuns last rs = some ls) : ∃ t', countRuns rs t = .ok t' ∧ t.Counts t' (rs.flatMap runSymbols) := by
  induction rs generalizing t last ls with
  | nil => exact ⟨t, rfl, .nil h⟩
  | cons r rs ih =>
    obtain ⟨ls₁, ls₂, hr, hrest, -⟩ := decodeRuns_cons hrs
    obtain ⟨t₁, ht₁, hc₁⟩ := countRun_counts h hr
    obtain ⟨t₂, ht₂, hc₂⟩ := ih hc₁.canonical hrest
    exact ⟨t₂, by rw [countRuns, ht₁, Except.ok_bind, ht₂], hc₁.append hc₂⟩

end

/-- `ScanTree` adds the bit-length symbols of the lengths to the frequencies of the bit-length descriptor. -/
theorem Deflate.scanTree_ok {d : Deflate} {id : TreeId} {n : Nat} (hf : Cells.wf 0 d.bd.freq) (hn : n ≤ id.elems)
    (hlens : hasLens (d.tree id) n) :
    ∃ bd, d.scanTree id ((n : Int) - 1) = .ok { d with bd := bd } ∧ d.bd.Counts bd (symbolsOf (lensBelow (d.tree id) n)) := by
  obtain ⟨bd, hbd, hcounts⟩ := countRuns_counts hf (runsDecodeToTheLengths _ (lensBelow_le hlens))
  exact ⟨bd, by rw [Deflate.scanTree, readLens_lensBelow hn hlens, Except.ok_bind, hbd]; rfl, hcounts⟩

/-! ## Sending the runs (R626) -/

section
variable {d : Deflate}

theorem sendRepeated_sends {c : Nat} (hc : c < 19) (n : Nat) (hcode : n ≠ 0 → hasCode d.bd c) :
    d.Sends (sendRepeated c n d) (List.replicate n (codeField d.bd c)) := by
  induction n generalizing d with
  | zero => exact .nil d
  | succ n ih =>
    have hfirst := Deflate.sendCode_sends (d := d) (id := .bd) (show c < 39 by omega) (hcode n.succ_ne_zero)
    exact hfirst.bind fun bw pending => ih fun _ => hcode n.succ_ne_zero

/-- A symbol and its extra bits. -/
theorem Deflate.sendCode_sendNat_sends {c v n : Nat} (hc : c < 19) (hcode : hasCode d.bd c) (hn : n ≤ 16) (hv : v < 2 ^ n) :
    d.Sends (d.sendCode .bd c >>= fun d => d.sendNat v n) [codeField d.bd c, (v, n)] :=
  (Deflate.sendCode_sends (id := .bd) (show c < 39 by omega) hcode).bind fun _ _ => Deflate.sendNat_sends hn hv

theorem Deflate.sendRun_sends {last : Option Nat} {r : Run} {ls : List Nat} (hr : decodeRun last r = some ls)
    (hcode : ∀ c ∈ runSymbols r, hasCode d.bd c) : d.Sends (d.sendRun r) (runFields (codeField d.bd) r) := by
  have hlt := mem_runSymbols_lt hr
  cases r with
  | single len count =>
    obtain ⟨h15, -⟩ := Option.ite_none_right_eq_some.1 hr
    exact sendRepeated_sends (by omega) count fun hne => hcode len (List.mem_replicate.2 ⟨hne, rfl⟩)
  | repeat16 len lead count =>
    obtain ⟨hcount, -⟩ := Option.ite_none_right_eq_some.1 hr
    have hrest : ∀ e : Deflate, hasCode e.bd 16 →
        e.Sends (e.sendCode .bd 16 >>= fun d => d.sendNat (count - 3) 2) [codeField e.bd 16, (count - 3, 2)] := fun e h16 =>
      Deflate.sendCode_sendNat_sends (by decide) h16 (by decide) (by omega)
    cases lead with
    | true =>
      have hlen : len ∈ runSymbols (.repeat16 len true count) := by simp [runSymbols]
      have h16 : 16 ∈ runSymbols (.repeat16 len true count) := by simp [runSymbols]
      exact (Deflate.sendCode_sends (id := .bd) ((hlt len hlen).trans (by decide)) (hcode len hlen)).bind fun bw pending =>
        hrest (d.withOutput bw pending) (hcode 16 h16)
    | false => exact hrest d (hcode 16 (by simp [runSymbols]))
  | zeros17 count =>
    obtain ⟨hcount, -⟩ := Option.ite_none_right_eq_some.1 hr
    exact Deflate.sendCode_sendNat_sends (by decide) (hcode 17 (by simp [runSymbols])) (by decide) (by omega)
  | zeros18 count =>
    obtain ⟨hcount, -⟩ := Option.ite_none_right_eq_some.1 hr
    exact Deflate.sendCode_sendNat_sends (by decide) (hcode 18 (by simp [runSymbols])) (by decide) (by omega)

theorem sendRuns_sends {last : Option Nat} {rs : List Run} {ls : List Nat} (hrs : decodeRuns last rs = some ls)
    (hcode : ∀ c ∈ rs.flatMap runSymbols, hasCode d.bd c) : d.Sends (sendRuns rs d) (rs.flatMap (runFields (codeField d.bd))) := by
  induction rs generalizing d last ls with
  | nil => exact .nil d
  | cons r rs ih =>
    obtain ⟨ls₁, ls₂, hr, hrest, -⟩ := decodeRuns_cons hrs
    obtain ⟨hfirst, hothers⟩ := List.forall_mem_append.1 (List.flatMap_cons ▸ hcode)
    exact (Deflate.sendRun_sends hr hfirst).bind fun bw pending => ih hrest hothers

theorem Deflate.sendTree_sends {id : TreeId} {n : Nat} (hn : n ≤ id.elems) (hlens : hasLens (d.tree id) n)
    (hcode : ∀ c ∈ symbolsOf (lensBelow (d.tree id) n), hasCode d.bd c) :
    d.Sends (d.sendTree id ((n : Int) - 1)) ((runs (lensBelow (d.tree id) n)).flatMap (runFields (codeField d.bd))) := by
  rw [Deflate.sendTree, readLens_lensBelow hn hlens, Except.ok_bind]
  exact sendRuns_sends (runsDecodeToTheLengths _ (lensBelow_le hlens)) hcode

end

/-! ## How many bits the runs take -/

section
variable {bl : Nat → Nat × Nat} {last : Option Nat} {ls : List Nat}

/-- A run takes at most 16 bits for each length it stands for. -/
theorem packedWidth_runFields_le {r : Run} (hr : decodeRun last r = some ls) (hbl : ∀ c ∈ runSymbols r, (bl c).2 ≤ 15) :
    packedWidth (runFields bl r) ≤ 16 * ls.length := by
  cases r with
  | single len count =>
    obtain ⟨-, ⟨⟩⟩ := Option.ite_none_right_eq_some.1 hr
    have hwidth : packedWidth (List.replicate count (bl len)) = count * (bl len).2 := by
      clear hr hbl
      induction count with
      | zero => rw [Nat.zero_mul]; rfl
      | succ count ih => rw [List.replicate_succ, packedWidth, ih, Nat.succ_mul, Nat.add_comm]
    rw [runFields, hwidth, List.length_replicate, Nat.mul_comm]
    obtain rfl | hne := Nat.eq_zero_or_pos count
    · exact Nat.le_of_eq (by simp)
    · have := hbl len (List.mem_replicate.2 ⟨hne.ne', rfl⟩)
      exact Nat.mul_le_mul_right _ (by omega)
  | repeat16 len lead count =>
    obtain ⟨hcount, hls⟩ := Option.ite_none_right_eq_some.1 hr
    cases lead with
    | true =>
      obtain ⟨-, ⟨⟩⟩ := Option.ite_none_right_eq_some.1 hls
      have hlen := hbl len (by simp [runSymbols])
      have h16 := hbl 16 (by simp [runSymbols])
      simp only [runFields, if_true, packedWidth, List.cons_append, List.nil_append, List.length_cons, List.length_replicate]
      omega
    | false =>
      obtain ⟨v, -, rfl⟩ := Option.map_eq_some_iff.1 hls
      have h16 := hbl 16 (by simp [runSymbols])
      simp only [runFields, Bool.false_eq_true, if_false, List.nil_append, packedWidth, List.length_replicate]
      omega
  | zeros17 count =>
    obtain ⟨hcount, ⟨⟩⟩ := Option.ite_none_right_eq_some.1 hr
    have h17 := hbl 17 (by simp [runSymbols])
    simp only [runFields, packedWidth, List.length_replicate]
    omega
  | zeros18 count =>
    obtain ⟨hcount, ⟨⟩⟩ := Option.ite_none_right_eq_some.1 hr
    have h18 := hbl 18 (by simp [runSymbols])
    simp only [runFields, packedWidth, List.length_replicate]
    omega

theorem packedWidth_runsFields_le {rs : List Run} (hrs : decodeRuns last rs = some ls)
    (hbl : ∀ c ∈ rs.flatMap runSymbols, (bl c).2 ≤ 15) : packedWidth (rs.flatMap (runFields bl)) ≤ 16 * ls.length := by
  induction rs generalizing last ls with
  | nil => exact Nat.zero_le _
  | cons r rs ih =>
    obtain ⟨ls₁, ls₂, hr, hrest, rfl⟩ := decodeRuns_cons hrs
    obtain ⟨hfirst, hothers⟩ := List.forall_mem_append.1 (List.flatMap_cons ▸ hbl)
    have h₁ := packedWidth_runFields_le hr hfirst
    have h₂ := ih hrest hothers
    rw [List.flatMap_cons, packedWidth_append, List.length_append]
    omega

theorem packedWidth_treeFields_le {t bd : Tree} {n : Nat} (hlens : hasLens t n)
    (hcode : ∀ c ∈ symbolsOf (lensBelow t n), hasCode bd c) :
    packedWidth ((runs (lensBelow t n)).flatMap (runFields (codeField bd))) ≤ 16 * n := by
  have h := packedWidth_runsFields_le (runsDecodeToTheLengths _ (lensBelow_le hlens)) fun c hc => codeField_le (hcode c hc)
  rwa [length_lensBelow] at h

end

/-! ## The commands -/

section
variable {s : State} {d : Deflate}

/-- The body of a command that runs `f` with the `maxCode` of a descriptor. -/
def Deflate.withMaxCode (id : TreeId) (f : Deflate → Int → Except Fault Deflate) (d : Deflate) : Except Fault Deflate :=
  readField .maxCode (d.tree id).maxCode >>= f d

theorem Deflate.withMaxCode_some {id : TreeId} {m : Int} (h : (d.tree id).maxCode = some m)
    (f : Deflate → Int → Except Fault Deflate) : d.withMaxCode id f = f d m := by
  rw [Deflate.withMaxCode, h]
  rfl

/-- The body of SCAN and SENDTREE as one operation. -/
theorem Deflate.packing_withMaxCode (id : TreeId) (f : Deflate → Int → Except Fault Deflate) :
    (fun d p => Reply.ofExcept (readField .maxCode (d.tree id).maxCode) fun m => Reply.plain p (f d m)) =
      Deflate.packing (Deflate.withMaxCode id f) := by
  funext d p
  rw [Deflate.packing, Deflate.withMaxCode]
  cases readField .maxCode (d.tree id).maxCode <;> rfl

theorem exec_tbScan (desc : BitVec 2) (s : State) : exec (.tbScan desc) s = s.deflateCommand (Instr.tbScan desc).wellFormed
    (Deflate.packing (Deflate.withMaxCode (treeOf desc) fun d m => d.scanTree (treeOf desc) m)) :=
  congrArg (State.deflateCommand s _) (Deflate.packing_withMaxCode (treeOf desc) fun d m => d.scanTree (treeOf desc) m)

theorem exec_tbSendTree (desc : BitVec 2) (s : State) : exec (.tbSendTree desc) s = s.deflateCommand (Instr.tbSendTree desc).wellFormed
    (Deflate.packing (Deflate.withMaxCode (treeOf desc) fun d m => d.sendTree (treeOf desc) m)) :=
  congrArg (State.deflateCommand s _) (Deflate.packing_withMaxCode (treeOf desc) fun d m => d.sendTree (treeOf desc) m)

/-- Settles O50: the two commands follow the runs of the same lengths. -/
theorem scanCountsWhatSendTreeSends : Obligations.ScanCountsWhatSendTreeSends := by
  intro desc s d max h hd hdesc t lens hmax hlt hlens
  have hto : (max : Int) = ((max + 1 : Nat) : Int) - 1 := by omega
  refine ⟨?_, fun hw hcode hroom => ?_⟩
  · obtain ⟨bd, hscan, hcounts⟩ := Deflate.scanTree_ok hd.bd.freq hlt hlens
    refine ⟨bd.freq, hcounts.read, ?_⟩
    rw [← hcounts.rest]
    exact completes_packing h (exec_legal (exec_tbScan desc) (decide_eq_true hdesc) s) (by rw [Deflate.withMaxCode_some hmax, hto, hscan])
  · have hwidth : packedWidth ((runs lens).flatMap (runFields (codeField d.bd))) ≤ 16 * (max + 1) :=
      packedWidth_treeFields_le hlens hcode
    refine completes_of_sends h (exec_legal (exec_tbSendTree desc) (decide_eq_true hdesc) s) hw ?_ ?_
    · rw [Deflate.withMaxCode_some hmax, hto]
      exact Deflate.sendTree_sends hlt hlens hcode
    · omega

end

/-! ## The header of a dynamic block (R628) -/

section
variable {d : Deflate}

theorem sendBlLens_sends {ss : List Nat} (h : ∀ k ∈ ss, k < TreeId.bd.nodes ∧ ∃ l, Cells.find? d.bd.len k = some l ∧ l < 8) :
    d.Sends (sendBlLens ss d) (ss.map fun k => ((Cells.find? d.bd.len k).getD 0, 3)) := by
  induction ss generalizing d with
  | nil => exact .nil d
  | cons k ss ih =>
    obtain ⟨⟨hk, l, hl, h8⟩, hss⟩ := List.forall_mem_cons.1 h
    rw [sendBlLens, Cells.get_nat hk hl, Except.ok_bind, List.map_cons, hl]
    exact (Deflate.sendNat_sends (by decide) h8).bind fun bw pending => ih hss

end

theorem exec_tbSendAll (lcodes : BitVec 9) (dcodes blcodes : BitVec 5) (s : State) :
    exec (.tbSendAll lcodes dcodes blcodes) s = s.deflateCommand (Instr.tbSendAll lcodes dcodes blcodes).wellFormed
      (Deflate.packing fun d => d.sendAllTrees lcodes.toNat dcodes.toNat blcodes.toNat) := rfl

/-- Settles O52: the header is sent field by field. -/
theorem sendAllSendsTheHeader : Obligations.SendAllSendsTheHeader := by
  intro lcodes dcodes blcodes s d h hw hl hl' hd hd' hb hb' llens dlens hlens hdens hbl hcode hroom
  obtain ⟨hlcode, hdcode⟩ := List.forall_mem_append.1 hcode
  have hblOrder : ∀ k ∈ blOrder, k < TreeId.bd.nodes := by decide
  have hbl' := fun k hk => And.intro (hblOrder k (List.mem_of_mem_take hk)) (hbl k hk)
  have hlegal : (Instr.tbSendAll lcodes dcodes blcodes).wellFormed = true := by simp [Instr.wellFormed, hl, hl', hd, hd', hb, hb']
  have hlwidth : packedWidth ((runs llens).flatMap (runFields (codeField d.bd))) ≤ 16 * lcodes.toNat :=
    packedWidth_treeFields_le hlens hlcode
  have hdwidth : packedWidth ((runs dlens).flatMap (runFields (codeField d.bd))) ≤ 16 * dcodes.toNat :=
    packedWidth_treeFields_le hdens hdcode
  refine completes_of_sends h (exec_legal (exec_tbSendAll lcodes dcodes blcodes) hlegal s) hw ?_ ?_
  · simp only [List.append_assoc, List.cons_append, List.nil_append]
    refine .bind (fs := [_]) (Deflate.sendNat_sends (by decide) (by omega)) fun _ _ => ?_
    refine .bind (fs := [_]) (Deflate.sendNat_sends (by decide) (by omega)) fun _ _ => ?_
    refine .bind (fs := [_]) (Deflate.sendNat_sends (by decide) (by omega)) fun _ _ => ?_
    refine .bind (sendBlLens_sends hbl') fun _ _ => ?_
    exact .bind (Deflate.sendTree_sends (id := .ld) hl' hlens hlcode) fun _ _ =>
      Deflate.sendTree_sends (id := .dd) hd' hdens hdcode
  · have hlen : (blOrder.take blcodes.toNat).length ≤ 19 := List.length_take_le _ _ |>.trans hb'
    simp only [packedWidth_append, packedWidth_map, packedWidth]
    omega

end Sys2Proof.Machine

/-! # Blocks of tokens and stored blocks, and their commands

COMPRESS sends the fields of the tokens one after another, with codes read from the descriptors or from the fixed tables
(R621, R630). STORED pads its header to a byte and appends bytes (R632). -/

namespace Sys2Proof.Machine

open Sys2Proof.Claim

/-! ## Tokens (R630) -/

/-- In a block with dynamic codes, every symbol of the token has a code. -/
def Deflate.codesToken (d : Deflate) (dynamic : Bool) (t : Nat × Nat) : Prop :=
  dynamic = true →
    (t.1 = 0 → hasCode d.ld t.2) ∧ (t.1 ≠ 0 → hasCode d.ld (257 + lengthCode t.2) ∧ hasCode d.dd (distCode (t.1 - 1)))

section
variable {d : Deflate} {dynamic : Bool}

theorem fixedLLLen_le_nine (s : Nat) : fixedLLLen s ≤ 9 := by unfold fixedLLLen; split_ifs <;> decide

theorem Deflate.sendLL_sends {n : Nat} (hn : n < 573) (hcode : dynamic = true → hasCode d.ld n) :
    d.Sends (d.sendLL dynamic n) [llField d dynamic n] := by
  cases dynamic with
  | true => exact Deflate.sendCode_sends (id := .ld) hn (hcode rfl)
  | false => exact Deflate.sendNat_sends ((fixedLLLen_le_nine n).trans (by decide)) (bitrev_lt _ _)

theorem Deflate.sendDist_sends {n : Nat} (hn : n < 61) (hcode : dynamic = true → hasCode d.dd n) :
    d.Sends (d.sendDist dynamic n) [distField d dynamic n] := by
  cases dynamic with
  | true => exact Deflate.sendCode_sends (id := .dd) hn (hcode rfl)
  | false => exact Deflate.sendNat_sends (by decide) (bitrev_lt _ _)

theorem llField_le {n : Nat} (hcode : dynamic = true → hasCode d.ld n) : (llField d dynamic n).2 ≤ 15 := by
  cases dynamic with
  | true => exact codeField_le (hcode rfl)
  | false => exact (fixedLLLen_le_nine n).trans (by decide)

theorem distField_le {n : Nat} (hcode : dynamic = true → hasCode d.dd n) : (distField d dynamic n).2 ≤ 15 := by
  cases dynamic with
  | true => exact codeField_le (hcode rfl)
  | false => exact (by decide : 5 ≤ 15)

theorem lenExtra_le (i : Nat) : tableAt lenExtra i ≤ 5 := tableAt_le (by decide) i

theorem distExtra_le (i : Nat) : tableAt distExtra i ≤ 13 := tableAt_le (by decide) i

theorem Deflate.sendToken_sends {dist lc : Nat} (hdist : dist ≤ 32768) (hlc : lc < 256)
    (hcode : d.codesToken dynamic (dist, lc)) :
    d.Sends (d.sendToken dynamic dist lc) (tokenFields (llField d dynamic) (distField d dynamic) dist lc) := by
  unfold Deflate.sendToken tokenFields
  by_cases hzero : dist = 0
  · rw [if_pos hzero, if_pos hzero]
    exact Deflate.sendLL_sends (by omega) fun h => (hcode h).1 hzero
  · obtain ⟨hlenLt, hlenLe, hlenBits⟩ := lengthCode_spec hlc
    obtain ⟨hdistLt, hdistLe, hdistBits⟩ := distCode_spec (Nat.pos_of_ne_zero hzero) hdist
    have hfields : lengthFields (llField d dynamic) lc ++ distFields (distField d dynamic) dist =
        [llField d dynamic (257 + lengthCode lc)] ++
          (extraFields (lc + 3 - tableAt lenBase (lengthCode lc)) (tableAt lenExtra (lengthCode lc)) ++
            ([distField d dynamic (distCode (dist - 1))] ++
              extraFields (dist - tableAt distBase (distCode (dist - 1))) (tableAt distExtra (distCode (dist - 1))))) := by
      rw [lengthFields_eq, distFields_eq]
      rfl
    rw [if_neg hzero, if_neg hzero, distSymbol_pred hzero hdist, hfields]
    refine .bind (Deflate.sendLL_sends (by omega) fun h => ((hcode h).2 hzero).1) fun _ _ => ?_
    refine .bind (Deflate.sendExtra_sends ((lenExtra_le _).trans (by decide)) (by omega)) fun _ _ => ?_
    refine .bind (Deflate.sendDist_sends (by omega) fun h => ((hcode h).2 hzero).2) fun _ _ => ?_
    exact Deflate.sendExtra_sends ((distExtra_le _).trans (by decide)) (by omega)

/-- A token takes at most 48 bits. -/
theorem packedWidth_tokenFields_le {t : Nat × Nat} (hcode : d.codesToken dynamic t) :
    packedWidth (tokenFields (llField d dynamic) (distField d dynamic) t.1 t.2) ≤ 48 := by
  unfold tokenFields
  by_cases hzero : t.1 = 0
  · have := llField_le (d := d) fun h => (hcode h).1 hzero
    rw [if_pos hzero]
    simp only [packedWidth]
    omega
  · have hlen := llField_le (d := d) fun h => ((hcode h).2 hzero).1
    have hdist := distField_le (d := d) fun h => ((hcode h).2 hzero).2
    have hlenExtra := lenExtra_le (lengthCode t.2)
    have hdistExtra := distExtra_le (distCode (t.1 - 1))
    rw [if_neg hzero, packedWidth_append, lengthFields_eq, distFields_eq]
    simp only [packedWidth, packedWidth_extraFields]
    omega

theorem sendTokens_sends {ks : List Nat} {tok : Nat → Nat × Nat}
    (htok : ∀ k ∈ ks, k < 16384 ∧ ∃ dist lc, Cells.find? d.dBuf k = some dist ∧ Cells.find? d.lBuf k = some lc ∧
      dist.toNat ≤ 32768 ∧ tok k = (dist.toNat, lc.toNat))
    (hcode : ∀ k ∈ ks, d.codesToken dynamic (tok k)) :
    d.Sends (sendTokens dynamic ks d)
      (ks.flatMap fun k => tokenFields (llField d dynamic) (distField d dynamic) (tok k).1 (tok k).2) := by
  induction ks generalizing d with
  | nil => exact .nil d
  | cons k ks ih =>
    obtain ⟨⟨hk, dist, lc, hdist, hlc, hle, heq⟩, hrest⟩ := List.forall_mem_cons.1 htok
    obtain ⟨hfirst, hothers⟩ := List.forall_mem_cons.1 hcode
    have hk : k < Config.litBufSize := hk
    rw [heq] at hfirst
    rw [sendTokens, Cells.get_nat hk hdist, Except.ok_bind, Cells.get_nat hk hlc, Except.ok_bind, List.flatMap_cons, heq]
    exact (Deflate.sendToken_sends hle lc.isLt hfirst).bind fun _ _ => ih hrest hothers

end

theorem exec_tbCompress (dynamic : BitVec 1) (s : State) :
    exec (.tbCompress dynamic) s = s.deflateCommand true (Deflate.packing fun d => d.compressBlock (dynamic == 1)) := rfl

/-- Settles O53: the tokens are sent one after another, then END_BLOCK. -/
theorem compressSendsTheTokens : Obligations.CompressSendsTheTokens := by
  intro dynamic s d h hd hw htok hcode hroom dyn
  have hdyn : dyn = true ↔ dynamic = 1 := beq_iff_eq
  have hcodes : ∀ t ∈ tokens d d.lastLit, d.codesToken dyn t := fun t ht hdy => (hcode (hdyn.1 hdy)).2 t ht
  have hend : dyn = true → hasCode d.ld 256 := fun hdy => (hcode (hdyn.1 hdy)).1
  have htokens := hd.tokens
  refine completes_of_sends h (exec_tbCompress dynamic s) hw (.bind ?_ fun _ _ => Deflate.sendLL_sends (by decide) hend) ?_
  · rw [tokens, List.flatMap_map]
    refine sendTokens_sends (fun k hk => ?_) fun k hk => hcodes _ (List.mem_map_of_mem hk)
    obtain ⟨dist, lc, hdist, hlc, hle⟩ := htok k (List.mem_range.1 hk)
    exact ⟨(List.mem_range.1 hk).trans_le htokens, dist, lc, hdist, hlc, hle, by rw [hdist, hlc]; rfl⟩
  · have hwidth := packedWidth_flatMap_le fun t ht => packedWidth_tokenFields_le (hcodes t ht)
    have hlen : (tokens d d.lastLit).length = d.lastLit := by rw [tokens, List.length_map, List.length_range]
    have hll := llField_le hend
    rw [hlen] at hwidth
    rw [packedWidth_append]
    simp only [packedWidth]
    omega

/-! ## Stored blocks (R632) -/

theorem bytesOf_add (v a b : Nat) : bytesOf v (a + b) = bytesOf v a ++ bytesOf (v / 256 ^ a) b := by
  induction a generalizing v with
  | zero => simp [bytesOf]
  | succ a ih => rw [Nat.succ_add, bytesOf, bytesOf, ih, Nat.div_div_eq_div_mul, ← Nat.pow_succ', List.cons_append]

section
variable {d : Deflate}

/-- A field and then `Windup`: the bits held with the field above them, padded to whole bytes. -/
theorem Deflate.sendNat_windup_ok (hw : writerOk d) {v n : Nat} (hn : n ≤ 8) (hv : v < 2 ^ n) (hp : d.pending.length + 4 ≤ 65536) :
    (d.sendNat v n >>= Deflate.windup) =
      .ok (d.withOutput ⟨0, 0⟩ (d.pending ++ bytesOf (d.bw.biBuf.toNat + 2 ^ d.bw.biValid * v) ((d.bw.biValid + n + 7) / 8))) := by
  obtain ⟨hvalid, hbuf⟩ := hw
  have hval : (BitVec.ofNat 16 v).toNat = v :=
    Nat.mod_eq_of_lt (hv.trans_le (Nat.pow_le_pow_right two_pos (by omega)))
  have hsum : d.bw.biBuf.toNat + 2 ^ d.bw.biValid * v < 2 ^ (d.bw.biValid + n) := by
    have : 2 ^ d.bw.biValid * (v + 1) ≤ 2 ^ d.bw.biValid * 2 ^ n := Nat.mul_le_mul_left _ hv
    rw [Nat.pow_add]
    rw [Nat.mul_succ] at this
    omega
  rw [Deflate.sendNat]
  by_cases hfits : d.bw.biValid + n ≤ 16
  · have hlt := hsum.trans_le (Nat.pow_le_pow_right two_pos hfits)
    rw [Deflate.sendBits_fits ⟨hvalid, hbuf⟩ _ hfits, Except.ok_bind, hval, Deflate.windup_ok hfits (by show d.pending.length + 2 ≤ _; omega)]
    rw [show (BitVec.ofNat 16 (d.bw.biBuf.toNat + 2 ^ d.bw.biValid * v)).toNat = _ from Nat.mod_eq_of_lt hlt]
    rfl
  · have hhigh : (d.bw.biBuf.toNat + 2 ^ d.bw.biValid * v) / 65536 < 2 ^ 16 := by
      rw [Nat.div_lt_iff_lt_mul (by decide)]
      exact hsum.trans_le (Nat.pow_le_pow_right two_pos (show d.bw.biValid + n ≤ 32 by omega))
    have hcount : (d.bw.biValid + n + 7) / 8 = 2 + (d.bw.biValid + n - 16 + 7) / 8 := by omega
    rw [Deflate.sendBits_spills ⟨hvalid, hbuf⟩ _ hfits (by omega), Except.ok_bind, hval, Deflate.windup_ok
      (by show d.bw.biValid + n - 16 ≤ 16; omega)
      (by show (d.pending ++ _).length + 2 ≤ 65536; rw [List.length_append, length_bytesOf]; omega)]
    rw [show (BitVec.ofNat 16 ((d.bw.biBuf.toNat + 2 ^ d.bw.biValid * v) / 65536)).toNat = _ from Nat.mod_eq_of_lt hhigh,
      hcount, bytesOf_add _ 2, ← List.append_assoc]
    rfl

theorem Deflate.putBytes_withOutput {bw : BitWriter} {pending bs : List Byte} (h : pending.length + bs.length ≤ 65536) :
    (d.withOutput bw pending).putBytes bs = .ok (d.withOutput bw (pending ++ bs)) := Deflate.putBytes_ok h

theorem Deflate.putShort_withOutput {bw : BitWriter} {pending : List Byte} (h : pending.length + 2 ≤ 65536) (w : Half) :
    (d.withOutput bw pending).putShort w = .ok (d.withOutput bw (pending ++ bytesOf w.toNat 2)) := Deflate.putShort_ok h w

theorem readWindow_ok {buf len : Nat} (h : buf + len ≤ d.windowSize) :
    readWindow d (List.range' buf len) = .ok (windowBytes d.window buf len) := by
  induction len generalizing buf with
  | zero => rfl
  | succ len ih =>
    have hwindow : windowBytes d.window buf (len + 1) = Memory.read d.window buf :: windowBytes d.window (buf + 1) len := by
      simp only [windowBytes, List.range_succ_eq_map, List.map_cons, List.map_map, Function.comp_def, Nat.add_zero,
        Nat.succ_eq_add_one, Nat.add_assoc, Nat.add_comm 1]
    rw [List.range'_succ, readWindow, Deflate.windowAt_nat (by omega), Except.ok_bind, ih (by omega), hwindow]
    rfl

theorem length_windowBytes (m : Memory) (i n : Nat) : (windowBytes m i n).length = n := by
  rw [windowBytes, List.length_map, List.length_range]

/-- The FIFO after a stored block. -/
def Deflate.storedOutput (d : Deflate) (buf len eof : Nat) : List Byte :=
  d.pending ++ bytesOf (d.bw.biBuf.toNat + 2 ^ d.bw.biValid * eof) ((d.bw.biValid + 10) / 8) ++ bytesOf len 2 ++
    bytesOf (65535 - len) 2 ++ windowBytes d.window buf len

theorem Deflate.storedBlock_ok {buf len : Nat} (hw : writerOk d) (hlen : len < 65536) (hsize : buf + len ≤ d.windowSize)
    (hroom : d.pending.length + (d.bw.biValid + 10) / 8 + 4 + len ≤ 65536) (eof : Bool) :
    d.storedBlock buf len eof = .ok (d.withOutput ⟨0, 0⟩ (d.storedOutput buf len (if eof then 1 else 0))) := by
  have hflag : (if eof then 1 else 0) < 2 ^ 3 := by cases eof <;> decide
  have hval : (BitVec.ofNat 16 len).toNat = len := Nat.mod_eq_of_lt hlen
  have hnot : (~~~BitVec.ofNat 16 len).toNat = 65535 - len := by rw [BitVec.toNat_not, hval]
  have hhead := Deflate.sendNat_windup_ok hw (by decide) hflag (by omega)
  have hwindow : ∀ bw pending, readWindow (d.withOutput bw pending) (List.range' buf len) = .ok (windowBytes d.window buf len) :=
    fun bw pending => readWindow_ok (d := d.withOutput bw pending) hsize
  rw [Deflate.storedBlock, ← bind_assoc, hhead, Except.ok_bind]
  simp only
  rw [Deflate.putShort_withOutput, Except.ok_bind, Deflate.putShort_withOutput, Except.ok_bind, hwindow, Except.ok_bind,
    Deflate.putBytes_withOutput, hval, hnot]
  · rfl
  all_goals
    simp only [List.length_append, length_bytesOf, length_windowBytes]
    omega

end

theorem exec_tbStored (eof : BitVec 1) (buf len : Half) (s : State) : exec (.tbStored eof buf len) s =
    s.deflateCommand true fun d p =>
      if d.windowSize < buf.toNat + len.toNat then .raised (.stream .badOperand) d p
      else Reply.plain p (d.storedBlock buf.toNat len.toNat (eof == 1)) := rfl

theorem flag_beq_one (eof : BitVec 1) : (if eof == 1 then 1 else 0) = eof.toNat := by
  obtain rfl | rfl := BitVec.eq_zero_or_eq_one eof <;> rfl

/-- Settles O54: the header is padded to a byte, and the rest is bytes. -/
theorem storedBlockCopiesTheWindow : Obligations.StoredBlockCopiesTheWindow := by
  intro eof buf len s d h
  refine ⟨fun hsize hw hroom => ?_, fun hpast => ?_⟩
  · have hstored := Deflate.storedBlock_ok hw len.isLt hsize hroom (eof == 1)
    refine completes_of_deflate (st := .ok) (p := s.startPort) h (exec_tbStored eof buf len s) ?_ rfl
    rw [if_neg (show ¬d.windowSize < _ from Nat.not_lt.2 hsize), Reply.plain, hstored, Reply.ofExcept_ok, flag_beq_one]
    rfl
  · exact raises_of_deflate (p := s.startPort) h (exec_tbStored eof buf len s) (if_pos hpast) rfl

end Sys2Proof.Machine

/-! # What the block commands leave unchanged

A send operation appends to the FIFO and changes the bit writer (R340). A tree build works on the forest it takes out of the
units, and a scan on the frequencies of the bit-length descriptor (R612 to R627). -/

namespace Sys2Proof.Machine

open Sys2Proof.Claim

/-! ## Send operations -/

/-- A send operation leads from the units `d` to `d'`. -/
structure Deflate.Appends (d d' : Deflate) : Prop where
  rest : d' = d.withOutput d'.bw d'.pending
  prefix_pending : d.pending <+: d'.pending

theorem Deflate.Appends.refl (d : Deflate) : d.Appends d := ⟨rfl, List.prefix_refl _⟩

theorem Deflate.Appends.trans {d e f : Deflate} (h : d.Appends e) (h' : e.Appends f) : d.Appends f :=
  ⟨by rw [h'.rest, h.rest]; rfl, h.prefix_pending.trans h'.prefix_pending⟩

/-- A send operation that goes on from units already reached. -/
theorem Returns.sendsOn {x : Except Fault Deflate} {d e : Deflate} (hx : Returns x e.Appends) (h : d.Appends e) :
    Returns x d.Appends := hx.mono fun _ ha => h.trans ha

theorem Deflate.putBytes_appends (d : Deflate) (bs : List Byte) : Returns (d.putBytes bs) d.Appends := ⟨fun h => by
  obtain ⟨-, rfl⟩ := Deflate.putBytes_eq h
  exact ⟨rfl, List.prefix_append _ _⟩⟩

theorem Deflate.sendBits_appends (d : Deflate) (v : Half) (n : Nat) : Returns (d.sendBits v n) d.Appends := ⟨fun h => by
  obtain ⟨hrest, hprefix, -⟩ := Deflate.sendBits_eq h
  exact ⟨hrest, hprefix⟩⟩

theorem Deflate.sendNat_appends (d : Deflate) (v n : Nat) : Returns (d.sendNat v n) d.Appends := d.sendBits_appends _ n

theorem Deflate.windup_appends (d : Deflate) : Returns d.windup d.Appends := by
  have hend (d' : Deflate) (h : d.Appends d') : Returns (.ok { d' with bw := ⟨0, 0⟩ }) d.Appends :=
    .ok (h.trans ⟨rfl, List.prefix_refl _⟩)
  exact .ite (fun _ => .bind (d.putBytes_appends _) hend) fun _ =>
    .ite (fun _ => .bind (d.putBytes_appends _) hend) fun _ => hend d (.refl d)

theorem Deflate.sendCode_appends (d : Deflate) (id : TreeId) (c : Nat) : Returns (d.sendCode id c) d.Appends :=
  .skip fun v => .skip fun l => d.sendBits_appends v l

theorem sendRepeated_appends (c n : Nat) (d : Deflate) : Returns (sendRepeated c n d) d.Appends := by
  induction n generalizing d with
  | zero => exact .ok (.refl d)
  | succ n ih => exact .bind (d.sendCode_appends .bd c) fun d' h => (ih d').sendsOn h

theorem Deflate.sendCode_sendNat_appends (d : Deflate) (c v n : Nat) :
    Returns (d.sendCode .bd c >>= fun d => d.sendNat v n) d.Appends :=
  .bind (d.sendCode_appends .bd c) fun d' h => (d'.sendNat_appends v n).sendsOn h

theorem Deflate.sendRun_appends (d : Deflate) (r : Run) : Returns (d.sendRun r) d.Appends := by
  cases r with
  | single len count => exact sendRepeated_appends len count d
  | repeat16 len lead count =>
    exact .join (fun _ => d.sendCode_appends .bd len) (fun _ => .ok (.refl d)) fun d' h =>
      (d'.sendCode_sendNat_appends 16 _ 2).sendsOn h
  | zeros17 count => exact d.sendCode_sendNat_appends 17 _ 3
  | zeros18 count => exact d.sendCode_sendNat_appends 18 _ 7

theorem sendRuns_appends (rs : List Run) (d : Deflate) : Returns (sendRuns rs d) d.Appends := by
  induction rs generalizing d with
  | nil => exact .ok (.refl d)
  | cons r rest ih => exact .bind (d.sendRun_appends r) fun d' h => (ih d').sendsOn h

theorem Deflate.sendTree_appends (d : Deflate) (id : TreeId) (maxCode : Int) :
    Returns (d.sendTree id maxCode) d.Appends := .skip fun _ => sendRuns_appends _ d

theorem sendBlLens_appends (ss : List Nat) (d : Deflate) : Returns (sendBlLens ss d) d.Appends := by
  induction ss generalizing d with
  | nil => exact .ok (.refl d)
  | cons s rest ih => exact .skip fun l => .bind (d.sendNat_appends l 3) fun d' h => (ih d').sendsOn h

theorem Deflate.sendAllTrees_appends (d : Deflate) (lcodes dcodes blcodes : Nat) :
    Returns (d.sendAllTrees lcodes dcodes blcodes) d.Appends := by
  refine .bind (d.sendNat_appends _ 5) fun d₁ h₁ => .bind ((d₁.sendNat_appends _ 5).sendsOn h₁) fun d₂ h₂ => ?_
  refine .bind ((d₂.sendNat_appends _ 4).sendsOn h₂) fun d₃ h₃ => .bind ((sendBlLens_appends _ d₃).sendsOn h₃) fun d₄ h₄ => ?_
  exact .bind ((d₄.sendTree_appends .ld _).sendsOn h₄) fun d₅ h₅ => (d₅.sendTree_appends .dd _).sendsOn h₅

theorem Deflate.sendLL_appends (d : Deflate) (dynamic : Bool) (n : Nat) : Returns (d.sendLL dynamic n) d.Appends :=
  .ite (fun _ => d.sendCode_appends .ld n) fun _ => d.sendNat_appends _ _

theorem Deflate.sendDist_appends (d : Deflate) (dynamic : Bool) (n : Nat) : Returns (d.sendDist dynamic n) d.Appends :=
  .ite (fun _ => d.sendCode_appends .dd n) fun _ => d.sendNat_appends _ _

theorem Deflate.sendExtra_appends (d : Deflate) (v n : Nat) : Returns (d.sendExtra v n) d.Appends :=
  .ite (fun _ => .ok (.refl d)) fun _ => d.sendNat_appends v n

theorem Deflate.sendToken_appends (d : Deflate) (dynamic : Bool) (dist lc : Nat) :
    Returns (d.sendToken dynamic dist lc) d.Appends := by
  refine .ite (fun _ => d.sendLL_appends dynamic lc) fun _ => .bind (d.sendLL_appends dynamic _) fun d₁ h₁ => ?_
  refine .bind ((d₁.sendExtra_appends _ _).sendsOn h₁) fun d₂ h₂ => ?_
  exact .bind ((d₂.sendDist_appends dynamic _).sendsOn h₂) fun d₃ h₃ => (d₃.sendExtra_appends _ _).sendsOn h₃

theorem sendTokens_appends (dynamic : Bool) (ks : List Nat) (d : Deflate) : Returns (sendTokens dynamic ks d) d.Appends := by
  induction ks generalizing d with
  | nil => exact .ok (.refl d)
  | cons k rest ih =>
    exact .skip fun dist => .skip fun lc => .bind (d.sendToken_appends dynamic _ _) fun d' h => (ih d').sendsOn h

theorem Deflate.compressBlock_appends (d : Deflate) (dynamic : Bool) : Returns (d.compressBlock dynamic) d.Appends :=
  .bind (sendTokens_appends dynamic _ d) fun d' h => (d'.sendLL_appends dynamic 256).sendsOn h

theorem Deflate.storedBlock_appends (d : Deflate) (buf len : Nat) (eof : Bool) :
    Returns (d.storedBlock buf len eof) d.Appends := by
  refine .bind (d.sendNat_appends _ 3) fun d₁ h₁ => .bind (d₁.windup_appends.sendsOn h₁) fun d₂ h₂ => ?_
  refine .bind ((d₂.putBytes_appends _).sendsOn h₂) fun d₃ h₃ => ?_
  exact .bind ((d₃.putBytes_appends _).sendsOn h₃) fun d₄ h₄ => .skip fun bs => (d₄.putBytes_appends bs).sendsOn h₄

theorem Deflate.emitBlock_appends (d : Deflate) (kind : BlockType) (eof : Bool) (mb : Nat) :
    Returns (d.emitBlock kind eof mb) d.Appends := by
  cases kind with
  | stored => exact d.storedBlock_appends _ _ eof
  | fixed => exact .bind (d.sendNat_appends _ 3) fun d₁ h₁ => (d₁.compressBlock_appends false).sendsOn h₁
  | dynamic =>
    refine .bind (d.sendNat_appends _ 3) fun d₁ h₁ => .skip fun lmax => .skip fun dmax => ?_
    exact .bind ((d₁.sendAllTrees_appends _ _ _).sendsOn h₁) fun d₂ h₂ => (d₂.compressBlock_appends true).sendsOn h₂

/-! ## Tree builds -/

/-- Tree builds and scans lead from the units `d` to `d'`. -/
structure Deflate.Rebuilds (d d' : Deflate) : Prop where
  rest : d' = { d with ld := d'.ld, dd := d'.dd, bd := d'.bd, tb := d'.tb, optLen := d'.optLen, staticLen := d'.staticLen }

theorem Deflate.Rebuilds.refl (d : Deflate) : d.Rebuilds d := ⟨rfl⟩

theorem Deflate.Rebuilds.trans {d e f : Deflate} (h : d.Rebuilds e) (h' : e.Rebuilds f) : d.Rebuilds f :=
  ⟨by rw [h'.rest, h.rest]⟩

/-- The descriptor that is put back. -/
theorem Deflate.tree_plant (d : Deflate) (id : TreeId) (f : Forest) : (d.plant id f).tree id = f.tree := by cases id <;> rfl

theorem Deflate.plant_rebuilds (d : Deflate) (id : TreeId) (f : Forest) : d.Rebuilds (d.plant id f) := by cases id <;> exact ⟨rfl⟩

/-- What a command on one descriptor changes. -/
theorem Deflate.plant_eq (d : Deflate) (id : TreeId) (f : Forest) :
    d.plant id f =
      { d.setTree id ((d.plant id f).tree id) with
        tb := (d.plant id f).tb, optLen := (d.plant id f).optLen, staticLen := (d.plant id f).staticLen } := by
  rw [Deflate.tree_plant]
  rfl

theorem Deflate.buildTree_rebuilds (d : Deflate) (id : TreeId) : Returns (d.buildTree id) fun r => d.Rebuilds r.2 :=
  .skip fun _ => .ok (d.plant_rebuilds id _)

theorem Tree.addFreq_rest (id : TreeId) (t : Tree) (n k : Nat) :
    Returns (t.addFreq id n k) fun t' => t' = { t with freq := t'.freq } := .skip fun _ => .skip fun _ => .ok rfl

theorem countRun_rest (t : Tree) (r : Run) : Returns (countRun t r) fun t' => t' = { t with freq := t'.freq } := by
  cases r with
  | single len count => exact t.addFreq_rest .bd len count
  | repeat16 len lead count =>
    refine .join (fun _ => t.addFreq_rest .bd len 1) (fun _ => .ok rfl) fun t₁ h₁ => ?_
    exact (t₁.addFreq_rest .bd 16 1).mono fun t₂ h₂ => by rw [h₂, h₁]
  | zeros17 count => exact t.addFreq_rest .bd 17 1
  | zeros18 count => exact t.addFreq_rest .bd 18 1

theorem countRuns_rest (rs : List Run) (t : Tree) : Returns (countRuns rs t) fun t' => t' = { t with freq := t'.freq } := by
  induction rs generalizing t with
  | nil => exact .ok rfl
  | cons r rest ih => exact .bind (countRun_rest t r) fun t₁ h₁ => (ih t₁).mono fun t₂ h₂ => by rw [h₂, h₁]

/-- A scan leads from the units `d` to `d'`. -/
def Deflate.Scans (d d' : Deflate) : Prop := d' = { d with bd := { d.bd with freq := d'.bd.freq } }

theorem Deflate.scanTree_rest (d : Deflate) (id : TreeId) (maxCode : Int) : Returns (d.scanTree id maxCode) d.Scans :=
  .skip fun _ => .bind (countRuns_rest _ d.bd) fun _ hbd => .ok (congrArg (fun bd : Tree => { d with bd := bd }) hbd :)

/-- The build of the bit-length tree leads from the units `d` to `d'`: it leaves the other two descriptors. -/
def Deflate.RebuildsBl (d d' : Deflate) : Prop :=
  d' = { d with bd := d'.bd, tb := d'.tb, optLen := d'.optLen, staticLen := d'.staticLen }

theorem Deflate.buildBlTree_rest (d : Deflate) : Returns d.buildBlTree fun r => d.RebuildsBl r.2 := by
  refine .skip fun lmax => .bind (d.scanTree_rest .ld lmax) fun d₁ h₁ => .skip fun dmax => ?_
  refine .bind (d₁.scanTree_rest .dd dmax) fun d₂ h₂ => .bind (P := fun r => ∃ f, r.2 = d₂.plant .bd f) ?_ ?_
  · exact .skip fun r => .ok ⟨r.2, rfl⟩
  · rintro ⟨_, _⟩ ⟨f, rfl⟩
    refine .skip fun mb => .ok ?_
    have h₁ : d₁ = _ := h₁
    have h₂ : d₂ = _ := h₂
    rw [h₂, h₁]
    rfl

theorem Deflate.estimates_rebuilds (d : Deflate) : Returns d.estimates fun r => d.Rebuilds r.2.2.2 := by
  refine .ite (fun _ => ?_) fun _ => .ok (.refl d)
  refine .bind (d.buildTree_rebuilds .ld) fun ⟨_, d₁⟩ h₁ => .bind (d₁.buildTree_rebuilds .dd) fun ⟨_, d₂⟩ h₂ => ?_
  refine .bind d₂.buildBlTree_rest fun ⟨_, d₃⟩ h₃ => .ok ((h₁.trans h₂).trans ⟨?_⟩)
  have h₃ : d₃ = _ := h₃
  exact h₃.trans (by rw [h₃])

/-! ## FLUSHBLOCK (R640) -/

/-- FLUSHBLOCK leads from the units `d` to `d'`. -/
structure Deflate.EndsBlock (d d' : Deflate) : Prop where
  rest : d' =
    { d with
      ld := d'.ld
      dd := d'.dd
      bd := d'.bd
      tb := d'.tb
      optLen := 0
      staticLen := 0
      lastLit := 0
      matchCount := 0
      bw := d'.bw
      pending := d'.pending
      blockStart := d.strstart }
  prefix_pending : d.pending <+: d'.pending

theorem Deflate.flushBlock_endsBlock (d : Deflate) (eof : Bool) : Returns (d.flushBlock eof) fun r => d.EndsBlock r.2 := by
  refine .bind d.estimates_rebuilds fun ⟨mb, optLenb, staticLenb, d₁⟩ h₁ => .bind (d₁.emitBlock_appends _ eof mb) fun d₂ h₂ => ?_
  refine .join (P := d₂.initBlock.Appends) (fun _ => d₂.initBlock.windup_appends) (fun _ => .ok (.refl _)) fun d₄ h₄ => .ok ?_
  have hd₂ : d₂ = d₁.withOutput d₂.bw d₂.pending := h₂.rest
  have hd₁ : d₁ = _ := h₁.rest
  have hpending : d₁.pending = d.pending := by rw [hd₁]
  refine ⟨?_, hpending ▸ h₂.prefix_pending.trans h₄.prefix_pending⟩
  rw [h₄.rest, hd₂, hd₁]
  rfl

/-! ## The commands -/

section
variable {i : Instr} {s t : State} {d d' : Deflate}

/-- The body of a command ends with units that have the property `P`, and leaves the port as it was. -/
inductive Reply.Settles (P : Deflate → Prop) (p : Port) : Reply Deflate → Prop
  | done {st : Status} {r0 r1 : Word} {u : Deflate} (h : P u) : Reply.Settles P p (.done st r0 r1 u p)
  | raised {e : Latch} {u : Deflate} (h : P u) : Reply.Settles P p (.raised e u p)
  | fault {f : Fault} : Reply.Settles P p (.fault f)

theorem Reply.ofExcept_settles {α : Type} {x : Except Fault α} {k : α → Reply Deflate} {Q : α → Prop} {P : Deflate → Prop}
    {p : Port} (hx : Returns x Q) (hk : ∀ a, Q a → (k a).Settles P p) : (Reply.ofExcept x k).Settles P p := by
  cases x with
  | ok a => exact hk a (hx.of_ok rfl)
  | error f => exact .fault

/-- Where a step answers on units of the right kind, the operands were illegal and the units stay, or the body says what they become. -/
theorem State.deflateCommand_settles {legal : Bool} {body : Deflate → Port → Reply Deflate} {P : Deflate → Prop}
    (h : s.isDeflate d) (hx : s.deflateCommand legal body = .next t) (ht : t.codec.engine = .deflate d')
    (hillegal : legal = false → P d) (hbody : (body d s.startPort).Settles P s.startPort) :
    P d' ∧ t.port.input = s.port.input ∧ t.port.output = [] := by
  cases legal with
  | false =>
    rw [State.deflateCommand_illegal h] at hx
    cases hx
    rw [State.raiseAtOnce, State.raise_engine, h.2] at ht
    cases ht
    exact ⟨hillegal rfl, rfl, rfl⟩
  | true =>
    rw [State.deflateCommand_of h] at hx
    generalize body d s.startPort = reply at hx hbody
    cases hbody with
    | done hu | raised hu =>
      cases hx
      cases ht
      exact ⟨hu, rfl, rfl⟩
    | fault => cases hx

theorem Reply.ofExcept_answer_settles {α : Type} {x : Except Fault α} {g : α → Deflate} {r0 r1 : α → Word} {P : Deflate → Prop}
    (p : Port) (hx : Returns x fun a => P (g a)) :
    (Reply.ofExcept x fun a => (g a).answer p (r0 a) (r1 a)).Settles P p := Reply.ofExcept_settles hx fun _ ha => .done ha

theorem Deflate.packing_settles {f : Deflate → Except Fault Deflate} {P : Deflate → Prop} (p : Port) (hf : Returns (f d) P) :
    (Deflate.packing f d p).Settles P p := Reply.ofExcept_answer_settles p hf

theorem exec_tbBuild (desc : BitVec 2) (s : State) : exec (.tbBuild desc) s =
    s.deflateCommand (Instr.tbBuild desc).wellFormed fun d p =>
      Reply.ofExcept (d.buildTree (treeOf desc)) fun (maxCode, d) => d.answer p (wordOfInt maxCode) 0 := rfl

/-- An operation on what it takes out of the units for one descriptor. -/
def Deflate.onForest (id : TreeId) (x : Forest → Except Fault Forest) (d : Deflate) : Except Fault Deflate :=
  x (d.forest id) >>= fun f => .ok (d.plant id f)

theorem Deflate.packing_onForest (id : TreeId) (x : Forest → Except Fault Forest) (d : Deflate) (p : Port) :
    (Reply.ofExcept (x (d.forest id)) fun f => (d.plant id f).answer p 0 0) = Deflate.packing (Deflate.onForest id x) d p := by
  rw [Deflate.packing, Deflate.onForest]
  cases x (d.forest id) <;> rfl

theorem exec_tbGenBitlen (desc : BitVec 2) (s : State) : exec (.tbGenBitlen desc) s =
    s.deflateCommand (Instr.tbGenBitlen desc).wellFormed
      (Deflate.packing (Deflate.onForest (treeOf desc) (genBitlen (treeOf desc)))) :=
  congrArg (State.deflateCommand s _) (funext₂ (Deflate.packing_onForest (treeOf desc) (genBitlen (treeOf desc))))

theorem exec_tbGenCodes (desc : BitVec 2) (s : State) : exec (.tbGenCodes desc) s =
    s.deflateCommand (Instr.tbGenCodes desc).wellFormed
      (Deflate.packing (Deflate.withMaxCode (treeOf desc) fun d m => d.onForest (treeOf desc) (genCodes (treeOf desc) m))) := by
  rw [← Deflate.packing_withMaxCode]
  exact congrArg (State.deflateCommand s _) (funext₂ fun d p => congrArg (Reply.ofExcept _) (funext fun m =>
    Deflate.packing_onForest (treeOf desc) (genCodes (treeOf desc) m) d p))

theorem exec_tbBlTree (s : State) : exec .tbBlTree s =
    s.deflateCommand true fun d p => Reply.ofExcept d.buildBlTree fun (mb, d) => d.answer p (BitVec.ofNat 32 mb) 0 := rfl

theorem exec_tbFlushBlock (eof : BitVec 1) (s : State) : exec (.tbFlushBlock eof) s =
    s.deflateCommand true fun d p =>
      Reply.ofExcept (d.flushBlock (eof == 1)) fun (kind, d) => d.answer p (BitVec.ofNat 32 kind.code) 0 := rfl

/-- A command on one descriptor changes that descriptor, the scratch and the costs. -/
theorem Deflate.eq_of_plant {id : TreeId} (h : ∃ f, d' = d.plant id f) :
    d' = { d.setTree id (d'.tree id) with tb := d'.tb, optLen := d'.optLen, staticLen := d'.staticLen } := by
  obtain ⟨f, rfl⟩ := h
  exact d.plant_eq id f

theorem Deflate.eq_plant_self (d : Deflate) (id : TreeId) : ∃ f, d = d.plant id f := ⟨_, (d.plant_forest id).symm⟩

/-- Settles O56: each command is one operation on the units, or is refused and leaves them as they were. -/
theorem blockCommandsFrame : Obligations.BlockCommandsFrame := by
  intro i s t d d' h hx ht
  have appends {legal : Bool} {body : Deflate → Port → Reply Deflate} (hx : s.deflateCommand legal body = .next t)
      (hbody : (body d s.startPort).Settles d.Appends s.startPort) :
      d' = { d with bw := d'.bw, pending := d'.pending } ∧ d.pending <+: d'.pending ∧ t.port.input = s.port.input ∧
        t.port.output = [] := by
    obtain ⟨⟨hrest, hprefix⟩, hport⟩ := State.deflateCommand_settles h hx ht (fun _ => .refl d) hbody
    exact ⟨hrest, hprefix, hport⟩
  have plants {legal : Bool} {body : Deflate → Port → Reply Deflate} {id : TreeId} (hx : s.deflateCommand legal body = .next t)
      (hbody : (body d s.startPort).Settles (fun u => ∃ f, u = d.plant id f) s.startPort) :=
    (State.deflateCommand_settles h hx ht (fun _ => d.eq_plant_self id) hbody).imp_left Deflate.eq_of_plant
  split
  next desc =>
    rw [exec_tbBuild] at hx
    exact plants hx (Reply.ofExcept_answer_settles _ (.skip fun r => .ok ⟨r.2, rfl⟩))
  next desc =>
    rw [exec_tbGenBitlen] at hx
    exact plants hx (Deflate.packing_settles _ (.skip fun f => .ok ⟨f, rfl⟩))
  next desc =>
    rw [exec_tbGenCodes] at hx
    exact plants hx (Deflate.packing_settles _ (.skip fun m => .skip fun f => .ok ⟨f, rfl⟩))
  next =>
    rw [exec_tbBlTree] at hx
    exact State.deflateCommand_settles (P := d.RebuildsBl) h hx ht nofun (Reply.ofExcept_answer_settles _ d.buildBlTree_rest)
  next desc =>
    rw [exec_tbScan] at hx
    exact State.deflateCommand_settles (P := d.Scans) h hx ht (fun _ => rfl)
      (Deflate.packing_settles _ (.skip fun m => d.scanTree_rest _ m))
  next desc =>
    rw [exec_tbSendTree] at hx
    exact appends hx (Deflate.packing_settles _ (.skip fun m => d.sendTree_appends _ m))
  next =>
    rw [exec_tbSendAll] at hx
    exact appends hx (Deflate.packing_settles _ (d.sendAllTrees_appends _ _ _))
  next =>
    rw [exec_tbCompress] at hx
    exact appends hx (Deflate.packing_settles _ (d.compressBlock_appends _))
  next eof buf len =>
    rw [exec_tbStored] at hx
    refine appends hx ?_
    split
    · exact .raised (.refl d)
    · exact Reply.ofExcept_answer_settles _ (d.storedBlock_appends _ _ _)
  next =>
    rw [exec_tbFlushBlock] at hx
    obtain ⟨⟨hrest, hprefix⟩, hport⟩ := State.deflateCommand_settles (P := d.EndsBlock) h hx ht nofun
      (Reply.ofExcept_answer_settles _ (d.flushBlock_endsBlock _))
    exact ⟨hrest, hprefix, hport⟩
  next => trivial

end

end Sys2Proof.Machine

/-! # Canonical codes from the counts, and GENCODES

`nextCode[l]` is the start of the codes of length `l` and the codes of that length given out so far (R620). -/

namespace Sys2Proof.Machine

open Sys2Proof.Claim

/-! ## The start of each length (R620) -/

/-- The first code of length `l`, where `counts k` codes have length `k`. -/
def firstCode (counts : Nat → Nat) (l : Nat) : Nat := ((List.range l).map fun k => counts k * 2 ^ (l - k)).sum

theorem firstCode_succ (counts : Nat → Nat) (l : Nat) : firstCode counts (l + 1) = (firstCode counts l + counts l) * 2 := by
  have hdouble : ∀ k ∈ List.range l, counts k * 2 ^ (l + 1 - k) = counts k * 2 ^ (l - k) * 2 := fun k hk => by
    rw [Nat.succ_sub (List.mem_range.1 hk).le, Nat.pow_succ, Nat.mul_assoc]
  rw [firstCode, List.range_succ, List.map_append, List.sum_append, List.map_congr_left hdouble, List.sum_map_mul_right, Nat.add_mul]
  simp [firstCode]

section
variable {counts : Nat → Nat} {bl : Cells Int}

theorem blCountAt_nat {b : Nat} {v : Int} (hb : b < 16) (h : Cells.find? bl b = some v) : blCountAt bl b = .ok v := Cells.get_nat hb h

theorem nextCodes_ok (hbl : ∀ b < 16, Cells.find? bl b = some (counts b : Int)) (n a : Nat) (ha : a + n ≤ 16) :
    nextCodes bl (List.range' (a + 1) n) (firstCode counts a) =
      .ok ((List.range' (a + 1) n).map fun l => (l, (firstCode counts l : Int))) := by
  induction n generalizing a with
  | zero => rfl
  | succ n ih =>
    have hstart : ((firstCode counts a : Int) + counts a) * 2 = (firstCode counts (a + 1) : Nat) := by
      rw [firstCode_succ]
      push_cast
      rfl
    have hindex : ((a + 1 : Nat) : Int) - 1 = a := by omega
    rw [List.range'_succ, nextCodes, hindex, blCountAt_nat (by omega) (hbl a (by omega)), Except.ok_bind]
    simp only [hstart]
    rw [ih (a + 1) (by omega)]
    rfl

end

/-! ## The symbol loop (R620) -/

theorem reverseCode_nat (c : Nat) {n : Nat} (hn : n ≤ 16) : reverseCode (c : Int) n = BitVec.ofNat 16 (bitrev c n) := by
  have hmod : c % 2 ^ 16 % 2 ^ n = c % 2 ^ n := Nat.mod_mod_of_dvd c (Nat.pow_dvd_pow 2 hn)
  rw [reverseCode, BitVec.ofInt_natCast, BitVec.toNat_ofNat, ← bitrev_mod, hmod, bitrev_mod]

/-- The number of symbols from `a` up to `n` that have the length of `n`. -/
def sameLengthBefore (lens : Nat → Nat) (a n : Nat) : Nat := ((List.range' a (n - a)).filter fun m => lens m = lens n).length

theorem sameLengthBefore_self (lens : Nat → Nat) (a : Nat) : sameLengthBefore lens a a = 0 := by
  rw [sameLengthBefore, Nat.sub_self]
  rfl

theorem sameLengthBefore_of_lt (lens : Nat → Nat) {a n : Nat} (h : a < n) :
    sameLengthBefore lens a n = (if lens a = lens n then 1 else 0) + sameLengthBefore lens (a + 1) n := by
  obtain ⟨k, rfl⟩ := Nat.exists_eq_add_of_lt h
  rw [sameLengthBefore, sameLengthBefore, show a + k + 1 - a = k + 1 by omega, show a + k + 1 - (a + 1) = k by omega,
    List.range'_succ, List.filter_cons]
  by_cases hsame : lens a = lens (a + k + 1)
  · simp [hsame, Nat.add_comm]
  · simp [hsame]

section
variable {id : TreeId} {len : Cells Nat} {lens : Nat → Nat}

theorem assignCodes_ok (k a : Nat) (hk : a + k ≤ id.nodes)
    (hlen : ∀ n, a ≤ n → n < a + k → Cells.find? len n = some (lens n) ∧ lens n ≤ 15) {next : Cells Int} {start : Nat → Nat}
    (hnext : ∀ l, 1 ≤ l → l ≤ 15 → Cells.find? next l = some (start l : Int)) (code : Cells Half) :
    ∃ code', assignCodes id len (List.range' a k) next code = .ok code' ∧ ∀ n, Cells.find? code' n =
      if (a ≤ n ∧ n < a + k) ∧ lens n ≠ 0 then
        some (BitVec.ofNat 16 (bitrev (start (lens n) + sameLengthBefore lens a n) (lens n)))
      else Cells.find? code n := by
  induction k generalizing a next start code with
  | zero => exact ⟨code, rfl, fun n => by rw [if_neg (by omega)]⟩
  | succ k ih =>
    obtain ⟨ha, ha15⟩ := hlen a le_rfl (by omega)
    have hrest := fun n (hn : a + 1 ≤ n) (hn' : n < a + 1 + k) => hlen n (by omega) (by omega)
    rw [List.range'_succ, assignCodes, Cells.get_nat (by omega) ha, Except.ok_bind]
    by_cases hzero : lens a = 0
    · obtain ⟨code', hcode', hfind⟩ := ih (a + 1) (by omega) hrest hnext code
      refine ⟨code', by rw [if_pos hzero]; exact hcode', fun n => ?_⟩
      rw [hfind]
      by_cases hn : (a + 1 ≤ n ∧ n < a + 1 + k) ∧ lens n ≠ 0
      · rw [if_pos hn, if_pos ⟨by omega, hn.2⟩, sameLengthBefore_of_lt lens hn.1.1, hzero, if_neg (Ne.symm hn.2), Nat.zero_add]
      · have hne : n = a → lens n = 0 := fun h => by rw [h, hzero]
        rw [if_neg hn, if_neg (by omega)]
    · have hfound := hnext (lens a) (by omega) ha15
      obtain ⟨code', hcode', hfind⟩ := ih (a + 1) (by omega) hrest
        (next := Cells.put next (lens a) ((start (lens a) : Int) + 1))
        (start := fun l => if l = lens a then start (lens a) + 1 else start l)
        (fun l h1 h15 => by
          rw [Cells.find?_put]
          split
          · rw [Nat.cast_succ]
          · exact hnext l h1 h15)
        (Cells.put code a (BitVec.ofNat 16 (bitrev (start (lens a)) (lens a))))
      refine ⟨code', ?_, fun n => ?_⟩
      · rw [if_neg hzero, Cells.get_nat (by omega) hfound, Except.ok_bind, Cells.set_nat _ _ (by omega), Except.ok_bind,
          Cells.set_nat _ _ (by omega), Except.ok_bind, reverseCode_nat _ (by omega)]
        exact hcode'
      · rw [hfind, Cells.find?_put]
        obtain rfl | hne := eq_or_ne n a
        · rw [if_neg (by omega), if_pos rfl, if_pos (by omega), sameLengthBefore_self, Nat.add_zero]
        · rw [if_neg hne]
          refine if_ctx_congr (by omega) (fun hn => ?_) fun _ => rfl
          rw [sameLengthBefore_of_lt lens (show a < n by omega)]
          split
          next h => rw [if_pos h.symm, ← h, Nat.add_assoc]
          next h => rw [if_neg (Ne.symm h), Nat.zero_add]

end

/-- `GenCodes` gives the symbols of each length consecutive codes from the length's start. -/
theorem genCodes_codes {id : TreeId} {f : Forest} {max : Nat} {counts lens : Nat → Nat} (hmax : max < id.elems)
    (hbl : ∀ b < 16, Cells.find? f.tb.blCount b = some (counts b : Int))
    (hlen : ∀ n ≤ max, Cells.find? f.tree.len n = some (lens n) ∧ lens n ≤ 15) :
    ∃ code, genCodes id max f = .ok { f with tree := { f.tree with code := code } } ∧ ∀ n, Cells.find? code n =
      if n ≤ max ∧ lens n ≠ 0 then
        some (BitVec.ofNat 16
          (bitrev (firstCode counts (lens n) + ((List.range n).filter fun m => lens m = lens n).length) (lens n)))
      else Cells.find? f.tree.code n := by
  have hto : symbolsTo (max : Int) = List.range' 0 (max + 1) := by
    rw [symbolsTo, show ((max : Int) + 1).toNat = max + 1 by omega, List.range_eq_range']
  have hnext : nextCodes f.tb.blCount (List.range' 1 15) 0 = _ := nextCodes_ok hbl 15 0 (by decide)
  obtain ⟨code, hcode, hfind⟩ := assignCodes_ok (id := id) (max + 1) 0 (by have := id.elems_le_nodes; omega)
    (fun n _ hn => hlen n (by omega))
    (fun l h1 h15 => Cells.find?_map_index (is := List.range' 1 15) List.pairwise_lt_range' _ (List.mem_range'_1.2 ⟨h1, by omega⟩)) f.tree.code
  refine ⟨code, ?_, fun n => (hfind n).trans (if_ctx_congr (by omega) (fun _ => ?_) fun _ => rfl)⟩
  · rw [genCodes, hnext, Except.ok_bind, hto, hcode]
    rfl
  · rw [sameLengthBefore, Nat.sub_zero, List.range_eq_range']

/-! ## The obligation -/

theorem Deflate.plant_tree (d : Deflate) (id : TreeId) (t : Tree) : d.plant id { d.forest id with tree := t } = d.setTree id t := by
  cases id <;> rfl

/-- Settles O48: the codes of each length are given out from its start. -/
theorem genCodesAreCanonical : Obligations.GenCodesAreCanonical := by
  intro desc s d max counts lens h hdesc id t hcode hmax hbl hlen start
  obtain ⟨code, hgen, hfind⟩ := genCodes_codes (f := d.forest id) hmax hbl hlen
  refine ⟨code, hfind, ?_⟩
  refine completes_packing h (exec_legal (exec_tbGenCodes desc) (decide_eq_true hdesc) s) ?_
  rw [Deflate.withMaxCode_some hcode, Deflate.onForest, hgen]
  exact congrArg Except.ok (Deflate.plant_tree d id _)

end Sys2Proof.Machine

/-! # Depths of a heap's nodes

GENBITLEN walks the heap from the root down, so a node's father has its length before the node needs it (R615). A node deeper
than the limit is cut to it. -/

namespace Sys2Proof.Machine

open Sys2Proof.Claim

/-! ## Leaves of a part of the heap -/

/-- The heap positions from `a` up to `b` that hold a leaf. -/
def leavesIn (node : Nat → Nat) (max a b : Nat) : List Nat := (List.range' a (b - a)).filter fun p => node p ≤ max

section
variable {node : Nat → Nat} {max a b m p : Nat}

theorem mem_leavesIn : p ∈ leavesIn node max a b ↔ (a ≤ p ∧ p < b) ∧ node p ≤ max := by
  rw [leavesIn, List.mem_filter, List.mem_range'_1, decide_eq_true_eq]
  refine and_congr_left fun _ => ?_
  omega

theorem leavesIn_self (node : Nat → Nat) (max a : Nat) : leavesIn node max a a = [] := by rw [leavesIn, Nat.sub_self]; rfl

theorem leavesIn_append (node : Nat → Nat) (max : Nat) (ha : a ≤ m) (hb : m ≤ b) :
    leavesIn node max a b = leavesIn node max a m ++ leavesIn node max m b := by
  rw [leavesIn, leavesIn, leavesIn, ← List.filter_append]
  congr 1
  rw [show b - a = (m - a) + (b - m) by omega, ← List.range'_append, Nat.one_mul, Nat.add_sub_cancel' ha]

theorem leavesIn_one (node : Nat → Nat) (max a : Nat) : leavesIn node max a (a + 1) = if node a ≤ max then [a] else [] := by
  rw [leavesIn, Nat.add_sub_cancel_left, List.range'_one, List.filter_singleton]
  by_cases h : node a ≤ max <;> simp [h]

theorem leavesIn_cons (node : Nat → Nat) (max : Nat) (h : a < b) :
    leavesIn node max a b = (if node a ≤ max then [a] else []) ++ leavesIn node max (a + 1) b := by
  rw [leavesIn_append node max (Nat.le_succ a) h, leavesIn_one]

/-- The leaves after position `p`. -/
theorem filter_lt_leavesIn (ha : a ≤ p + 1) : (leavesIn node max a b).filter (fun q => p < q) = leavesIn node max (p + 1) b := by
  have hdrop : ∀ m, m ≤ p + 1 → (leavesIn node max a m).filter (fun q => p < q) = [] := fun m hm =>
    List.filter_eq_nil_iff.2 fun q hq => by
      have := (mem_leavesIn.1 hq).1
      rw [decide_eq_true_eq]
      omega
  have hkeep : (leavesIn node max (p + 1) b).filter (fun q => p < q) = leavesIn node max (p + 1) b :=
    List.filter_eq_self.2 fun q hq => by
      have := (mem_leavesIn.1 hq).1
      rw [decide_eq_true_eq]
      omega
  by_cases hb : p < b
  · rw [leavesIn_append node max ha hb, List.filter_append, hdrop _ le_rfl, hkeep, List.nil_append]
  · rw [hdrop b (by omega), leavesIn, Nat.sub_eq_zero_of_le (by omega)]
    rfl

/-- The sum of `cost` over the leaves of a part of the heap. -/
def leafSum {M : Type} [AddCommMonoid M] (node : Nat → Nat) (max a b : Nat) (cost : Nat → M) : M := ((leavesIn node max a b).map cost).sum

variable {M : Type} [AddCommMonoid M]

theorem leafSum_self (a : Nat) (cost : Nat → M) : leafSum node max a a cost = 0 := by rw [leafSum, leavesIn_self, List.map_nil, List.sum_nil]

theorem leafSum_append (cost : Nat → M) (ha : a ≤ m) (hb : m ≤ b) :
    leafSum node max a b cost = leafSum node max a m cost + leafSum node max m b cost := by
  rw [leafSum, leafSum, leafSum, leavesIn_append node max ha hb, List.map_append, List.sum_append]

theorem leafSum_one (cost : Nat → M) (a : Nat) : leafSum node max a (a + 1) cost = if node a ≤ max then cost a else 0 := by
  rw [leafSum, leavesIn_one]
  split <;> simp

theorem leafSum_cons (cost : Nat → M) (h : a < b) :
    leafSum node max a b cost = (if node a ≤ max then cost a else 0) + leafSum node max (a + 1) b cost := by
  rw [leafSum_append cost (Nat.le_succ a) h, leafSum_one]

theorem leafSum_congr {cost cost' : Nat → M} (h : ∀ p, a ≤ p → p < b → node p ≤ max → cost p = cost' p) :
    leafSum node max a b cost = leafSum node max a b cost' :=
  congrArg List.sum (List.map_congr_left fun p hp => by
    obtain ⟨⟨hap, hpb⟩, hleaf⟩ := mem_leavesIn.1 hp
    exact h p hap hpb hleaf)

theorem leafSum_add (cost cost' : Nat → M) :
    leafSum node max a b (fun p => cost p + cost' p) = leafSum node max a b cost + leafSum node max a b cost' :=
  List.sum_map_add

theorem cast_leafSum (cost : Nat → Nat) : ((leafSum node max a b cost : Nat) : Int) = leafSum node max a b fun p => (cost p : Int) := by
  rw [leafSum, leafSum, Nat.cast_list_sum, List.map_map]
  rfl

end

/-! ## A heap of nodes (R612) -/

/-- The heap of `f` lists nodes from position `top` on, each after its father; `depth` is the depth of a node. -/
structure Forest.Heaped (f : Forest) (id : TreeId) (top max : Nat) (node depth : Nat → Nat) : Prop where
  heapMax : f.tb.heapMax = some top
  top_le : top ≤ 572
  maxCode : f.tree.maxCode = some (max : Int)
  heap : ∀ p, top ≤ p → p ≤ 572 → Cells.find? f.tb.heap p = some (node p) ∧ node p < id.nodes
  root : depth (node top) = 0
  dad : ∀ p, top < p → p ≤ 572 →
    ∃ q, top ≤ q ∧ q < p ∧ Cells.find? f.tree.dad (node p) = some (node q) ∧ depth (node p) = depth (node q) + 1

/-- The static tree's cost of a leaf (R615). -/
def TreeId.staticCost (id : TreeId) (freq : Nat → Nat) (n : Nat) : Nat :=
  match id.stree n with
  | none => 0
  | some l => freq n * (l + id.extraBits n)

theorem stree_cost (id : TreeId) (freq : Nat → Nat) (n : Nat) :
    (match id.stree n with
      | some l => ((freq n * (l + id.extraBits n) : Nat) : Int)
      | none => 0 : Int) = (id.staticCost freq n : Nat) := by
  unfold TreeId.staticCost
  split <;> simp only [*, Nat.cast_zero]

/-- `f` after a walk over its heap that wrote the code lengths `len` and the counts `bl` and added to the costs. -/
def Forest.walked (f : Forest) (len : Cells Nat) (bl : Cells Int) (opt : Int) (static : Nat) : Forest :=
  { tree := { f.tree with len := len }
    tb := { f.tb with blCount := bl }
    optLen := f.optLen + opt
    staticLen := f.staticLen + (static : Int) }

theorem addBlCount_nat {c : Cells Int} {b : Nat} {v : Int} (hb : b < 16) (h : Cells.find? c b = some v) (k : Int) :
    addBlCount c b k = .ok (Cells.put c b (v + k)) := by
  rw [addBlCount, blCountAt_nat hb h, Except.ok_bind, Cells.set_nat _ _ hb]

section
variable {id : TreeId} {f : Forest} {top max : Nat} {node depth : Nat → Nat}

/-- One round of the length loop: the overflow count and the forest it leaves. -/
theorem depthLoop_cons (hf : f.Heaped id top max node depth) {p : Nat} (htop : top < p) (hp : p ≤ 572) {len : Cells Nat} {bl : Cells Int}
    {c : Nat → Int}
    (hlen : ∀ q, top ≤ q → q < p → Cells.find? len (node q) = some (min (depth (node q)) id.maxLength))
    (hbl : ∀ b < 16, Cells.find? bl b = some (c b)) (rest : List Nat) (overflow : Nat) (opt : Int) (static : Nat) :
    ∃ bl', (∀ b < 16, Cells.find? bl' b = some (c b + if node p ≤ max ∧ min (depth (node p)) id.maxLength = b then 1 else 0)) ∧
      depthLoop id (p :: rest) overflow (f.walked len bl opt static) =
        depthLoop id rest (overflow + if id.maxLength < depth (node p) then 1 else 0)
          (f.walked (Cells.put len (node p) (min (depth (node p)) id.maxLength)) bl'
            (opt + if node p ≤ max then ((Cells.read 0 f.tree.freq (node p) *
              (min (depth (node p)) id.maxLength + id.extraBits (node p)) : Nat) : Int) else 0)
            (static + if node p ≤ max then id.staticCost (Cells.read 0 f.tree.freq) (node p) else 0)) := by
  obtain ⟨hheap, hnode⟩ := hf.heap p htop.le hp
  obtain ⟨q, hq, hqp, hdad, hdepth⟩ := hf.dad p htop hp
  obtain ⟨-, hfather⟩ := hf.heap q hq (by omega)
  have hL := id.maxLength_le
  have hcut : min (min (depth (node q)) id.maxLength + 1) id.maxLength = min (depth (node p)) id.maxLength := by omega
  have hover : (id.maxLength < min (depth (node q)) id.maxLength + 1) = (id.maxLength < depth (node p)) := by
    rw [eq_iff_iff]
    omega
  have hp573 : p < Config.heapSize := by show p < 573; omega
  rw [depthLoop]
  simp only [Forest.walked]
  rw [heapAt, Cells.get_nat hp573 hheap, Except.ok_bind, Cells.get_nat hnode hdad, Except.ok_bind,
    Cells.get_nat hfather (hlen q hq hqp), Except.ok_bind, Cells.set_nat _ _ hnode, Except.ok_bind, hf.maxCode,
    readField, Except.ok_bind, hcut]
  simp only [hover]
  have hbits : min (depth (node p)) id.maxLength < 16 := by omega
  by_cases hleaf : node p ≤ max
  · refine ⟨Cells.put bl (min (depth (node p)) id.maxLength) (c (min (depth (node p)) id.maxLength) + 1), fun b hb => ?_, ?_⟩
    · rw [Cells.find?_put, hbl b hb]
      by_cases hb' : b = min (depth (node p)) id.maxLength
      · rw [if_pos hb', if_pos ⟨hleaf, hb'.symm⟩, hb']
      · rw [if_neg hb', if_neg fun h => hb' h.2.symm, add_zero]
    · rw [if_neg (by omega), addBlCount_nat hbits (hbl _ hbits), Except.ok_bind, Tree.freqAt_nat hnode, Except.ok_bind,
        if_pos hleaf, if_pos hleaf, Nat.cast_add static, ← add_assoc, ← add_assoc, ← stree_cost]
      split <;> rfl
  · refine ⟨bl, fun b hb => ?_, ?_⟩
    · rw [hbl b hb, if_neg fun h => hleaf h.1, add_zero]
    · rw [if_pos (by omega), if_neg hleaf, if_neg hleaf, add_zero, add_zero]
      split <;> rfl

/-- The cost of a leaf of length `l`. -/
def TreeId.leafCost (id : TreeId) (freq : Nat → Nat) (n l : Nat) : Nat := freq n * (l + id.extraBits n)

/-- The length loop over the heap from position `a` on. -/
theorem depthLoop_heaped (hf : f.Heaped id top max node depth) (k : Nat) {a : Nat} (hk : a + k = 573) (ha : top < a) {len : Cells Nat}
    {bl : Cells Int} {c : Nat → Int}
    (hlen : ∀ q, top ≤ q → q < a → Cells.find? len (node q) = some (min (depth (node q)) id.maxLength))
    (hbl : ∀ b < 16, Cells.find? bl b = some (c b)) (overflow : Nat) (opt : Int) (static : Nat) :
    ∃ len' bl',
      (∀ q, top ≤ q → q ≤ 572 → Cells.find? len' (node q) = some (min (depth (node q)) id.maxLength)) ∧
      (∀ n, (∀ q, a ≤ q → q ≤ 572 → n ≠ node q) → Cells.find? len' n = Cells.find? len n) ∧
      (∀ b < 16, Cells.find? bl' b =
        some (c b + (((leavesIn node max a 573).filter fun p => min (depth (node p)) id.maxLength = b).length : Nat))) ∧
      depthLoop id (List.range' a k) overflow (f.walked len bl opt static) =
        .ok (overflow + ((List.range' a k).filter fun p => id.maxLength < depth (node p)).length,
          f.walked len' bl'
            (opt + (leafSum node max a 573 fun p =>
              id.leafCost (Cells.read 0 f.tree.freq) (node p) (min (depth (node p)) id.maxLength) : Nat))
            (static + leafSum node max a 573 fun p => id.staticCost (Cells.read 0 f.tree.freq) (node p))) := by
  induction k generalizing a len bl c overflow opt static with
  | zero =>
    obtain rfl : a = 573 := hk
    refine ⟨len, bl, fun q hq hq' => hlen q hq (by omega), fun n _ => rfl, fun b hb => ?_, ?_⟩
    · rw [hbl b hb, leavesIn_self, List.filter_nil, List.length_nil, Nat.cast_zero, add_zero]
    · rw [leafSum, leafSum, leavesIn_self]
      simp [depthLoop]
  | succ k ih =>
    have hp : a ≤ 572 := by omega
    obtain ⟨bl₁, hbl₁, hround⟩ := depthLoop_cons hf ha hp hlen hbl (List.range' (a + 1) k) overflow opt static
    have hlen₁ : ∀ q, top ≤ q → q < a + 1 → Cells.find? (Cells.put len (node a) (min (depth (node a)) id.maxLength)) (node q) =
        some (min (depth (node q)) id.maxLength) := fun q hq hqa => by
      rw [Cells.find?_put]
      split
      case isTrue h => rw [h]
      case isFalse h => exact hlen q hq (Nat.lt_of_le_of_ne (Nat.le_of_lt_succ hqa) fun e => h (by rw [e]))
    obtain ⟨len', bl', hlen', hrest, hbl', hloop⟩ := ih (by omega) (by omega) hlen₁ hbl₁
      (overflow + if id.maxLength < depth (node a) then 1 else 0) _ _
    refine ⟨len', bl', hlen', fun n hn => ?_, fun b hb => ?_, ?_⟩
    · rw [hrest n fun q hq hq' => hn q (by omega) hq', Cells.find?_put_ne _ _ (hn a le_rfl hp)]
    · rw [hbl' b hb, leavesIn_cons node max (show a < 573 by omega)]
      by_cases hleaf : node a ≤ max <;> by_cases hb : min (depth (node a)) id.maxLength = b <;>
        simp [hleaf, hb, add_assoc, add_comm]
    · rw [List.range'_succ, hround, hloop, leafSum_cons _ (show a < 573 by omega), leafSum_cons _ (show a < 573 by omega),
        List.filter_cons]
      refine congrArg Except.ok (Prod.ext ?_ ?_)
      · by_cases hdeep : id.maxLength < depth (node a) <;> simp [hdeep, add_assoc, add_comm]
      · simp only [Nat.cast_add, Nat.cast_ite, Nat.cast_zero, add_assoc, TreeId.leafCost]

end

end Sys2Proof.Machine

/-! # Repair of lengths above the limit

Where nodes lie too deep, GENBITLEN repairs the counts per length and gives the lengths out again from the end of the heap (R615). -/

namespace Sys2Proof.Machine

open Sys2Proof.Claim

/-! ## The repaired counts -/

section
variable {bl : Cells Int} {c : Nat → Int} {limit b : Nat}

theorem lastNonzero_spec {n : Nat} (h : lastNonzero c n = some b) : b ≤ n ∧ c b ≠ 0 := by
  induction n with
  | zero =>
    rw [lastNonzero] at h
    split at h
    · cases h
    · cases h
      exact ⟨le_rfl, ‹_›⟩
  | succ n ih =>
    rw [lastNonzero] at h
    split at h
    · exact ⟨Nat.le_succ_of_le (ih h).1, (ih h).2⟩
    · cases h
      exact ⟨le_rfl, ‹_›⟩

theorem lastUsedLength_ok {n : Nat} (hn : n < 16) (hbl : ∀ b < 16, Cells.find? bl b = some (c b)) (h : lastNonzero c n = some b) :
    lastUsedLength bl n = .ok b := by
  induction n with
  | zero =>
    rw [lastUsedLength, show blCountAt bl 0 = .ok (c 0) from blCountAt_nat hn (hbl 0 hn), Except.ok_bind]
    rw [lastNonzero] at h
    split at h
    · cases h
    · cases h
      rw [if_neg ‹_›]
  | succ n ih =>
    rw [lastUsedLength, blCountAt_nat hn (hbl _ hn), Except.ok_bind]
    rw [lastNonzero] at h
    split at h
    · rw [if_pos ‹_›, ih (Nat.lt_of_succ_lt hn) h]
    · cases h
      rw [if_neg ‹_›]

theorem addBlCount_ok (hb : b < 16) (hbl : ∀ i < 16, Cells.find? bl i = some (c i)) (k : Int) :
    ∃ bl', addBlCount bl b k = .ok bl' ∧ ∀ i < 16, Cells.find? bl' i = some (c i + if i = b then k else 0) := by
  refine ⟨_, addBlCount_nat hb (hbl b hb) k, fun i hi => ?_⟩
  rw [Cells.find?_put, hbl i hi]
  by_cases h : i = b
  · rw [if_pos h, if_pos h, h]
  · rw [if_neg h, if_neg h, add_zero]

theorem repairLoop_ok {n : Nat} (hlimit : limit ≤ 15) (hpos : 0 < limit) {c' : Nat → Int}
    (hbl : ∀ i < 16, Cells.find? bl i = some (c i)) (h : repairRounds limit n c = some c') :
    ∃ bl', repairLoop limit n bl = .ok bl' ∧ ∀ i < 16, Cells.find? bl' i = some (c' i) := by
  induction n generalizing bl c with
  | zero =>
    cases h
    exact ⟨bl, rfl, hbl⟩
  | succ n ih =>
    obtain ⟨c₁, hround, hrest⟩ := Option.bind_eq_some_iff.1 h
    obtain ⟨b, hlast, rfl⟩ := Option.map_eq_some_iff.1 hround
    have hb := (lastNonzero_spec hlast).1
    obtain ⟨bl₁, h₁, hbl₁⟩ := addBlCount_ok (show b < 16 by omega) hbl (-1)
    obtain ⟨bl₂, h₂, hbl₂⟩ := addBlCount_ok (show b + 1 < 16 by omega) hbl₁ 2
    obtain ⟨bl₃, h₃, hbl₃⟩ := addBlCount_ok (show limit < 16 by omega) hbl₂ (-1)
    obtain ⟨bl', hloop, hbl'⟩ := ih hbl₃ hrest
    refine ⟨bl', ?_, hbl'⟩
    rw [repairLoop, lastUsedLength_ok (show limit - 1 < 16 by omega) hbl hlast, Except.ok_bind, h₁, Except.ok_bind,
      show addBlCount bl₁ ((b : Int) + 1) 2 = .ok bl₂ from h₂, Except.ok_bind, h₃, Except.ok_bind, hloop]

/-- A round of the repair keeps the number of codes. -/
theorem sum_repairRound {c' : Nat → Int} (hpos : 0 < limit) (h0 : c 0 = 0) (h : repairRound limit c = some c') :
    c' 0 = 0 ∧ ∑ i ∈ Finset.Icc 1 limit, c' i = ∑ i ∈ Finset.Icc 1 limit, c i := by
  obtain ⟨b, hlast, rfl⟩ := Option.map_eq_some_iff.1 h
  obtain ⟨hb, hcb⟩ := lastNonzero_spec hlast
  have hb0 : b ≠ 0 := fun e => hcb (e ▸ h0)
  refine ⟨?_, ?_⟩
  · simp only [h0, if_neg (Ne.symm hb0), if_neg (Nat.succ_ne_zero b).symm, if_neg hpos.ne, add_zero]
  · rw [Finset.sum_add_distrib, Finset.sum_add_distrib, Finset.sum_add_distrib, Finset.sum_ite_eq', Finset.sum_ite_eq',
      Finset.sum_ite_eq', if_pos (Finset.mem_Icc.2 (by omega)), if_pos (Finset.mem_Icc.2 (by omega)),
      if_pos (Finset.mem_Icc.2 (by omega))]
    omega

theorem sum_repairRounds {n : Nat} {c' : Nat → Int} (hpos : 0 < limit) (h0 : c 0 = 0) (h : repairRounds limit n c = some c') :
    c' 0 = 0 ∧ ∑ i ∈ Finset.Icc 1 limit, c' i = ∑ i ∈ Finset.Icc 1 limit, c i := by
  induction n generalizing c with
  | zero =>
    cases h
    exact ⟨h0, rfl⟩
  | succ n ih =>
    obtain ⟨c₁, hround, hrest⟩ := Option.bind_eq_some_iff.1 h
    obtain ⟨h₁, hsum₁⟩ := sum_repairRound hpos h0 hround
    obtain ⟨h', hsum⟩ := ih h₁ hrest
    exact ⟨h', hsum.trans hsum₁⟩

end

/-! ## Giving the lengths out again -/

section
variable {id : TreeId} {maxCode : Int} {bits : Nat} {n : Int} {f : Forest}

theorem assignLength_none (h : Nat) : assignLength id maxCode bits h 0 f = .ok (h, f) := by unfold assignLength; rfl

theorem assignLength_succ (h : Nat) (hn : n ≠ 0) :
    assignLength id maxCode bits (h + 1) n f = (do
      let m ← heapAt f.tb.heap (h : Int)
      if maxCode < (m : Int) then assignLength id maxCode bits h n f
      else 
        let l ← Cells.get .len id.nodes f.tree.len (m : Int)
        if l ≠ bits then do
          let fr ← f.tree.freqAt id m
          let len ← Cells.set .len id.nodes f.tree.len (m : Int) bits
          assignLength id maxCode bits h (n - 1)
            { f with
              tree := { f.tree with len := len }
              optLen := f.optLen + ((bits : Int) - l) * fr }
        else assignLength id maxCode bits h (n - 1) f) := by
  rw [assignLength.eq_def]
  split
  · exact absurd rfl hn
  · cases ‹h + 1 = 0›
  · cases ‹h + 1 = _›
    rfl

end

section
variable {id : TreeId} {f : Forest} {top max : Nat} {node depth : Nat → Nat}

/-- Two positions of a heap hold two nodes. -/
def nodesDistinct (node : Nat → Nat) (top : Nat) : Prop := ∀ p q, top ≤ p → p ≤ 572 → top ≤ q → q ≤ 572 → node p = node q → p = q

/-- One length given out: the last `n` leaves below `h` get it. -/
theorem assignLength_heaped (hf : f.Heaped id top max node depth) (hnode : nodesDistinct node top) (bits : Nat) {bl : Cells Int}
    {static : Nat} (old : Nat → Nat) (h : Nat) (h573 : h ≤ 573) (htop : top < h) (n : Nat) (hn : n ≤ (leavesIn node max (top + 1) h).length)
    {len : Cells Nat} (hlen : ∀ p, top < p → p < h → node p ≤ max → Cells.find? len (node p) = some (old p)) (opt : Int) :
    ∃ h' len', top < h' ∧ h' ≤ h ∧ (leavesIn node max h' h).length = n ∧
      (∀ p, h' ≤ p → p < h → node p ≤ max → Cells.find? len' (node p) = some bits) ∧
      (∀ k, (∀ p, h' ≤ p → p < h → node p ≤ max → k ≠ node p) → Cells.find? len' k = Cells.find? len k) ∧
      assignLength id max bits h n (f.walked len bl opt static) = .ok (h', f.walked len' bl
        (opt + leafSum node max h' h fun p => ((bits : Int) - old p) * (Cells.read 0 f.tree.freq (node p) : Nat)) static) := by
  induction h generalizing n len opt with
  | zero => omega
  | succ h ih =>
    cases n with
    | zero =>
      refine ⟨h + 1, len, htop, le_rfl, by rw [leavesIn_self]; rfl, fun p hp hp' => by omega, fun _ _ => rfl, ?_⟩
      rw [leafSum_self, add_zero]
      exact assignLength_none _
    | succ n =>
      have hlt : top < h := by
        by_contra hge
        obtain rfl : h = top := by omega
        rw [leavesIn_self] at hn
        simp at hn
      obtain ⟨hheap, hn573⟩ := hf.heap h hlt.le (by omega)
      have hget : heapAt (f.walked len bl opt static).tb.heap h = .ok (node h) := Cells.get_nat (show h < 573 by omega) hheap
      have hsplit : (leavesIn node max (top + 1) (h + 1)).length =
          (leavesIn node max (top + 1) h).length + if node h ≤ max then 1 else 0 := by
        rw [leavesIn_append node max (show top + 1 ≤ h from hlt) (Nat.le_succ h), leavesIn_one, List.length_append]
        split <;> rfl
      have hne : ((n + 1 : Nat) : Int) ≠ 0 := by omega
      have hpred : ((n + 1 : Nat) : Int) - 1 = n := by omega
      by_cases hleaf : node h ≤ max
      · rw [if_pos hleaf] at hsplit
        obtain ⟨len₁, hlen₁, hround⟩ : ∃ len₁, (∀ k, Cells.find? len₁ k = if k = node h then some bits else Cells.find? len k) ∧
            assignLength id max bits (h + 1) ((n + 1 : Nat) : Int) (f.walked len bl opt static) = assignLength id max bits h n
              (f.walked len₁ bl (opt + ((bits : Int) - old h) * (Cells.read 0 f.tree.freq (node h) : Nat)) static) := by
          have hold : Cells.get .len id.nodes (f.walked len bl opt static).tree.len (node h) = .ok (old h) :=
            Cells.get_nat hn573 (hlen h hlt (Nat.lt_succ_self h) hleaf)
          rw [assignLength_succ h hne, hget, Except.ok_bind, if_neg (by omega), hold, Except.ok_bind, hpred]
          by_cases hbits : old h = bits
          · refine ⟨len, fun k => ?_, ?_⟩
            · split
              case isTrue h' => rw [h', hlen h hlt (Nat.lt_succ_self h) hleaf, hbits]
              case isFalse h' => rfl
            · rw [if_neg (not_not.2 hbits), hbits, sub_self, zero_mul, add_zero]
          · refine ⟨Cells.put len (node h) bits, fun k => Cells.find?_put .., ?_⟩
            rw [if_pos hbits, Tree.freqAt_nat hn573, Except.ok_bind, Cells.set_nat _ _ hn573, Except.ok_bind]
            simp only [Forest.walked, add_assoc]
        obtain ⟨h', len', htop', hle', hcount, hset, hrest, hloop⟩ := ih (by omega) hlt n (by omega)
          (fun p hp hph hpleaf => by
            rw [hlen₁, if_neg fun e => absurd (hnode p h hp.le (by omega) hlt.le (by omega) e) (by omega)]
            exact hlen p hp (by omega) hpleaf)
          (opt + ((bits : Int) - old h) * (Cells.read 0 f.tree.freq (node h) : Nat))
        refine ⟨h', len', htop', by omega, ?_, fun p hp hph hpleaf => ?_, fun k hk => ?_, ?_⟩
        · rw [leavesIn_append node max hle' (Nat.le_succ h), leavesIn_one, if_pos hleaf, List.length_append, hcount, List.length_singleton]
        · rcases Nat.lt_succ_iff_lt_or_eq.1 hph with hlast | rfl
          · exact hset p hp hlast hpleaf
          · rw [hrest _ fun q hq hqp _ e => absurd (hnode p q hlt.le (by omega) (by omega) (by omega) e) (by omega), hlen₁, if_pos rfl]
        · rw [hrest k fun p hp hph => hk p hp (by omega), hlen₁, if_neg (hk h hle' (Nat.lt_succ_self h) hleaf)]
        · rw [hround, hloop, leafSum_append _ hle' (Nat.le_succ h), leafSum_one, if_pos hleaf, add_assoc, add_comm (leafSum ..)]
      · rw [if_neg hleaf, add_zero] at hsplit
        obtain ⟨h', len', htop', hle', hcount, hset, hrest, hloop⟩ := ih (by omega) hlt (n + 1) (by omega)
          (fun p hp hph => hlen p hp (by omega)) opt
        refine ⟨h', len', htop', by omega, ?_, fun p hp hph hpleaf => hset p hp ?_ hpleaf, fun k hk => hrest k fun p hp hph => hk p hp (by omega), ?_⟩
        · rw [leavesIn_append node max hle' (Nat.le_succ h), leavesIn_one, if_neg hleaf, List.append_nil, hcount]
        · exact Nat.lt_of_le_of_ne (Nat.le_of_lt_succ hph) fun e => hleaf (e ▸ hpleaf)
        · rw [assignLength_succ h hne, hget, Except.ok_bind, if_pos (by omega), hloop, leafSum_append _ hle' (Nat.le_succ h), leafSum_one, if_neg hleaf, add_zero]

/-- The lengths given out from `bits` down to 1, where the counts cover the leaves below `h`. -/
theorem reassign_heaped (hf : f.Heaped id top max node depth) (hnode : nodesDistinct node top) (c : Nat → Nat) {bl : Cells Int}
    (hbl : ∀ b < 16, Cells.find? bl b = some (c b : Int)) {static : Nat} (old : Nat → Nat) (bits : Nat) (hbits : bits < 16) {h : Nat}
    (h573 : h ≤ 573) (htop : top < h) (hsum : ∑ i ∈ Finset.Icc 1 bits, c i = (leavesIn node max (top + 1) h).length) {len : Cells Nat}
    (hlen : ∀ p, top < p → p < h → node p ≤ max → Cells.find? len (node p) = some (old p)) (opt : Int) :
    ∃ len',
      (∀ p, top < p → p < h → node p ≤ max →
        Cells.find? len' (node p) = some (lengthFrom c bits (leavesIn node max (p + 1) h).length)) ∧
      (∀ k, (∀ p, top < p → p < h → node p ≤ max → k ≠ node p) → Cells.find? len' k = Cells.find? len k) ∧
      reassign id max bits h (f.walked len bl opt static) = .ok (f.walked len' bl
        (opt + leafSum node max (top + 1) h fun p =>
          ((lengthFrom c bits (leavesIn node max (p + 1) h).length : Nat) - old p : Int) * (Cells.read 0 f.tree.freq (node p) : Nat)) static) := by
  induction bits generalizing h len opt with
  | zero =>
    have hnone : leavesIn node max (top + 1) h = [] := List.eq_nil_of_length_eq_zero hsum.symm
    refine ⟨len, fun p hp hph hleaf => ?_, fun _ _ => rfl, ?_⟩
    · have := mem_leavesIn.2 ⟨⟨hp, hph⟩, hleaf⟩
      rw [hnone] at this
      cases this
    · rw [leafSum, hnone, List.map_nil, List.sum_nil, add_zero, reassign]
  | succ bits ih =>
    rw [Finset.sum_Icc_succ_top (Nat.le_add_left 1 bits)] at hsum
    obtain ⟨h', len₁, htop', hle, hcount, hset, hrest, hloop⟩ := assignLength_heaped (bl := bl) (static := static) hf hnode (bits + 1) old h
      h573 htop (c (bits + 1)) (by omega) hlen opt
    have hsplit := congrArg List.length (leavesIn_append node max (show top + 1 ≤ h' from htop') hle)
    rw [List.length_append, hcount] at hsplit
    obtain ⟨len', hset', hrest', hloop'⟩ := ih (by omega) (by omega) htop' (by omega)
      (fun p hp hph hleaf => by
        rw [hrest _ fun q hq hqh _ e => absurd (hnode p q hp.le (by omega) (by omega) (by omega) e) (by omega)]
        exact hlen p hp (by omega) hleaf)
      (opt + leafSum node max h' h fun p => (((bits + 1 : Nat) : Int) - old p) * (Cells.read 0 f.tree.freq (node p) : Nat))
    have hfar : ∀ p, h' ≤ p → p < h → node p ≤ max → lengthFrom c (bits + 1) (leavesIn node max (p + 1) h).length = bits + 1 :=
      fun p hp hph hleaf => by
        rw [leavesIn_append node max hp (show p ≤ h by omega), leavesIn_cons node max hph, if_pos hleaf, List.length_append,
          List.length_append, List.length_singleton] at hcount
        rw [lengthFrom, if_pos (by omega)]
    have hnear : ∀ p, p < h' → lengthFrom c (bits + 1) (leavesIn node max (p + 1) h).length =
        lengthFrom c bits (leavesIn node max (p + 1) h').length := fun p hp => by
      rw [leavesIn_append node max (show p + 1 ≤ h' from hp) hle, List.length_append, hcount, lengthFrom, if_neg (by omega),
        Nat.add_sub_cancel]
    refine ⟨len', fun p hp hph hleaf => ?_, fun k hk => ?_, ?_⟩
    · by_cases hp' : p < h'
      · rw [hnear p hp', hset' p hp hp' hleaf]
      · rw [hfar p (by omega) hph hleaf, hrest' _ fun q hq hqh _ e =>
          absurd (hnode p q hp.le (by omega) hq.le (by omega) e) (by omega), hset p (by omega) hph hleaf]
    · rw [hrest' k fun p hp hph => hk p hp (by omega), hrest k fun p hp hph => hk p (by omega) hph]
    · have hcell : blCountAt (f.walked len bl opt static).tb.blCount ((bits + 1 : Nat) : Int) = .ok (c (bits + 1) : Int) :=
        blCountAt_nat hbits (hbl _ hbits)
      rw [reassign, hcell, Except.ok_bind, hloop, Except.ok_bind]
      refine hloop'.trans (congrArg (fun o => Except.ok (f.walked len' bl o static)) ?_)
      rw [leafSum_append _ (show top + 1 ≤ h' from htop') hle, add_assoc, add_comm (leafSum node max h' h _)]
      refine congrArg (opt + ·) (congrArg₂ (· + ·) (leafSum_congr fun p _ hp _ => ?_) (leafSum_congr fun p hp hph hleaf => ?_))
      · rw [hnear p hp]
      · rw [hfar p hp hph hleaf]

end

end Sys2Proof.Machine

/-! # GENBITLEN on a heap of nodes (R615) -/

namespace Sys2Proof.Machine

open Sys2Proof.Claim

/-- GENBITLEN gives the nodes of the heap the lengths `final` and leaves the counts `count`. -/
def Forest.Lengthens (f : Forest) (id : TreeId) (top max : Nat) (node final : Nat → Nat) (count : Nat → Int) : Prop :=
  ∃ len bl,
    (∀ p, top ≤ p → p ≤ 572 → Cells.find? len (node p) = some (final p)) ∧
    (∀ n, (∀ p, top ≤ p → p ≤ 572 → n ≠ node p) → Cells.find? len n = Cells.find? f.tree.len n) ∧
    (∀ b < 16, Cells.find? bl b = some (count b)) ∧
    genBitlen id f = .ok (f.walked len bl
      (leafSum node max (top + 1) 573 fun p => id.leafCost (Cells.read 0 f.tree.freq) (node p) (final p) : Nat)
      (leafSum node max (top + 1) 573 fun p => id.staticCost (Cells.read 0 f.tree.freq) (node p)))

/-- The number of nodes deeper than the limit. -/
def deepNodes (id : TreeId) (top : Nat) (node depth : Nat → Nat) : Nat :=
  ((List.range' (top + 1) (572 - top)).filter fun p => id.maxLength < depth (node p)).length

/-- The number of leaves of each depth, once cut to the limit. -/
def cutCount (id : TreeId) (top max : Nat) (node depth : Nat → Nat) (b : Nat) : Nat :=
  ((leavesIn node max (top + 1) 573).filter fun p => min (depth (node p)) id.maxLength = b).length

section
variable {id : TreeId} {f : Forest} {top max : Nat} {node depth : Nat → Nat}

/-- The length loop leaves every node its depth, cut to the limit. -/
theorem genBitlen_heaped (hf : f.Heaped id top max node depth) :
    ∃ len bl,
      (∀ p, top ≤ p → p ≤ 572 → Cells.find? len (node p) = some (min (depth (node p)) id.maxLength)) ∧
      (∀ n, (∀ p, top ≤ p → p ≤ 572 → n ≠ node p) → Cells.find? len n = Cells.find? f.tree.len n) ∧
      (∀ b < 16, Cells.find? bl b = some (cutCount id top max node depth b : Int)) ∧
      genBitlen id f =
        let walked := fun bl => f.walked len bl
          (leafSum node max (top + 1) 573 fun p =>
            id.leafCost (Cells.read 0 f.tree.freq) (node p) (min (depth (node p)) id.maxLength) : Nat)
          (leafSum node max (top + 1) 573 fun p => id.staticCost (Cells.read 0 f.tree.freq) (node p))
        if deepNodes id top node depth = 0 then .ok (walked bl)
        else (repairLoop id.maxLength ((deepNodes id top node depth + 1) / 2) bl).bind fun bl =>
          reassign id max id.maxLength 573 (walked bl) := by
  have htop := hf.top_le
  obtain ⟨hroot, hrootlt⟩ := hf.heap top le_rfl htop
  have hzero : min (depth (node top)) id.maxLength = 0 := by rw [hf.root, Nat.zero_min]
  obtain ⟨len, bl, hlen, hrest, hbl, hloop⟩ := depthLoop_heaped hf (572 - top) (show top + 1 + (572 - top) = 573 by omega) (Nat.lt_succ_self top)
    (len := Cells.put f.tree.len (node top) 0) (bl := (List.range 16).map fun b => (b, 0)) (c := fun _ => 0)
    (fun q hq hq' => by
      obtain rfl : q = top := by omega
      rw [Cells.find?_put_same, hzero])
    (fun b hb => Cells.find?_map_index List.pairwise_lt_range _ (List.mem_range.2 hb)) 0 0 0
  refine ⟨len, bl, hlen, fun n hn => ?_, fun b hb => ?_, ?_⟩
  · rw [hrest n fun q hq hq' => hn q (by omega) hq', Cells.find?_put_ne _ _ (hn top le_rfl htop)]
  · rw [hbl b hb, zero_add]
    rfl
  · have hstart : genBitlen id f = (do
        let (overflow, f) ← depthLoop id (List.range' (top + 1) (572 - top)) 0
          (f.walked (Cells.put f.tree.len (node top) 0) ((List.range 16).map fun b => (b, 0)) 0 0)
        if overflow = 0 then .ok f
        else do
          let maxCode ← readField .maxCode f.tree.maxCode
          let bl ← repairLoop id.maxLength ((overflow + 1) / 2) f.tb.blCount
          reassign id maxCode id.maxLength 573 { f with tb := { f.tb with blCount := bl } }) := by
      rw [genBitlen, hf.heapMax, readField, Except.ok_bind, heapAt, Cells.get_nat (show top < Config.heapSize from Nat.lt_succ_of_le htop) hroot,
        Except.ok_bind, Cells.set_nat _ _ hrootlt, Except.ok_bind, show Config.heapSize - (top + 1) = 572 - top from Nat.succ_sub_succ ..]
      simp only [Forest.walked, add_zero, Nat.cast_zero]
      rfl
    rw [hstart, hloop, Except.ok_bind]
    simp only [zero_add]
    refine if_congr Iff.rfl rfl ?_
    simp only [Forest.walked]
    rw [hf.maxCode, readField, Except.ok_bind]
    rfl

/-- A node below the root lies at least 1 deep. -/
theorem Forest.Heaped.depth_pos (hf : f.Heaped id top max node depth) {p : Nat} (hp : top < p) (hp' : p ≤ 572) : 0 < depth (node p) := by
  obtain ⟨q, -, -, -, hdepth⟩ := hf.dad p hp hp'
  omega

theorem deepNodes_eq_zero : deepNodes id top node depth = 0 ↔ ∀ p, top < p → p ≤ 572 → depth (node p) ≤ id.maxLength := by
  rw [deepNodes, List.length_eq_zero_iff, List.filter_eq_nil_iff]
  simp only [List.mem_range'_1, decide_eq_true_eq, not_lt, and_imp]
  exact ⟨fun h p hp hp' => h p hp (by omega), fun h p hp hp' => h p hp (by omega)⟩

/-- Where no node lies too deep, every node gets its depth. -/
theorem genBitlen_shallow (hf : f.Heaped id top max node depth) (hdeep : deepNodes id top node depth = 0) :
    f.Lengthens id top max node (fun p => depth (node p)) fun b => cutCount id top max node depth b := by
  obtain ⟨len, bl, hlen, hrest, hbl, hgen⟩ := genBitlen_heaped hf
  have hcut : ∀ p, top ≤ p → p ≤ 572 → min (depth (node p)) id.maxLength = depth (node p) := fun p hp hp' => by
    rcases hp.eq_or_lt with rfl | hlt
    · rw [hf.root, Nat.zero_min]
    · exact Nat.min_eq_left (deepNodes_eq_zero.1 hdeep p hlt hp')
  refine ⟨len, bl, fun p hp hp' => by rw [hlen p hp hp', hcut p hp hp'], hrest, hbl, ?_⟩
  have hcost : (leafSum node max (top + 1) 573 fun p => id.leafCost (Cells.read 0 f.tree.freq) (node p) (min (depth (node p)) id.maxLength)) =
      leafSum node max (top + 1) 573 fun p => id.leafCost (Cells.read 0 f.tree.freq) (node p) (depth (node p)) :=
    leafSum_congr fun p hp hp' _ => by rw [hcut p (by omega) (by omega)]
  rw [hgen, ← hcost]
  exact if_pos hdeep

theorem cutCount_zero (hf : f.Heaped id top max node depth) : cutCount id top max node depth 0 = 0 := by
  rw [cutCount, List.length_eq_zero_iff, List.filter_eq_nil_iff]
  intro p hp
  have hp := (mem_leavesIn.1 hp).1
  have := hf.depth_pos (show top < p by omega) (by omega)
  have : 0 < id.maxLength := by cases id <;> decide
  rw [decide_eq_true_eq]
  omega

/-- A sum over a list, by the values of `g`. -/
theorem sum_fibres {α : Type} {s : Finset Nat} {g : α → Nat} {l : List α} (h : ∀ p ∈ l, g p ∈ s) (w : Nat → Nat) :
    ∑ b ∈ s, (l.filter fun p => g p = b).length * w b = (l.map fun p => w (g p)).sum := by
  induction l with
  | nil => simp
  | cons a l ih =>
    have hcons : ∀ b, ((a :: l).filter fun p => g p = b).length * w b =
        (l.filter fun p => g p = b).length * w b + if g a = b then w b else 0 := fun b => by
      rw [List.filter_cons]
      by_cases hb : g a = b <;> simp [hb, Nat.succ_mul]
    rw [Finset.sum_congr rfl fun b _ => hcons b, Finset.sum_add_distrib, ih fun p hp => h p (List.mem_cons_of_mem _ hp),
      Finset.sum_ite_eq, if_pos (h a List.mem_cons_self), List.map_cons, List.sum_cons, Nat.add_comm]

/-- A leaf's depth, once cut, is between 1 and the limit. -/
theorem Forest.Heaped.cut_mem (hf : f.Heaped id top max node depth) {p : Nat} (hp : p ∈ leavesIn node max (top + 1) 573) :
    min (depth (node p)) id.maxLength ∈ Finset.Icc 1 id.maxLength := by
  have hp := (mem_leavesIn.1 hp).1
  have := hf.depth_pos (show top < p by omega) (by omega)
  have : 0 < id.maxLength := by cases id <;> decide
  rw [Finset.mem_Icc]
  omega

/-- A sum over the leaves, by their depths. -/
theorem Forest.Heaped.sum_cutCount (hf : f.Heaped id top max node depth) (w : Nat → Nat) :
    ∑ b ∈ Finset.Icc 1 id.maxLength, cutCount id top max node depth b * w b =
      leafSum node max (top + 1) 573 fun p => w (min (depth (node p)) id.maxLength) :=
  sum_fibres (fun _ => hf.cut_mem) w

/-- The counts cover the leaves. -/
theorem Forest.Heaped.sum_cutCount_one (hf : f.Heaped id top max node depth) :
    ∑ b ∈ Finset.Icc 1 id.maxLength, cutCount id top max node depth b = (leavesIn node max (top + 1) 573).length := by
  simpa [leafSum] using hf.sum_cutCount fun _ => 1

/-- The length of the leaf at position `p` by the repaired counts, and the cut depth of another node. -/
def repairedLength (id : TreeId) (top max : Nat) (node depth c : Nat → Nat) (p : Nat) : Nat :=
  if top < p ∧ node p ≤ max then lengthFrom c id.maxLength (leavesIn node max (p + 1) 573).length else min (depth (node p)) id.maxLength

/-- Where nodes lie too deep, the leaves get their lengths by the repaired counts. -/
theorem genBitlen_deep (hf : f.Heaped id top max node depth) (hnode : nodesDistinct node top) (hdeep : deepNodes id top node depth ≠ 0)
    {c : Nat → Nat} (hc : repairRounds id.maxLength ((deepNodes id top node depth + 1) / 2)
      (fun b => (cutCount id top max node depth b : Int)) = some fun b => (c b : Int)) :
    f.Lengthens id top max node (repairedLength id top max node depth c) fun b => c b := by
  have hL := id.maxLength_le
  have hpos : 0 < id.maxLength := by cases id <;> decide
  have htop := hf.top_le
  obtain ⟨len, bl, hlen, hrest, hbl, hgen⟩ := genBitlen_heaped hf
  obtain ⟨bl', hrepair, hbl'⟩ := repairLoop_ok hL hpos hbl hc
  have hsum := (sum_repairRounds hpos (by rw [cutCount_zero hf, Nat.cast_zero]) hc).2
  rw [← Nat.cast_sum, ← Nat.cast_sum, Nat.cast_inj, hf.sum_cutCount_one] at hsum
  obtain ⟨len', hset, hrest', hreassign⟩ := reassign_heaped hf hnode c hbl'
    (static := leafSum node max (top + 1) 573 fun p => id.staticCost (Cells.read 0 f.tree.freq) (node p))
    (fun p => min (depth (node p)) id.maxLength) id.maxLength (by omega) le_rfl (by omega) hsum
    (fun p hp hp' _ => hlen p hp.le (by omega))
    (leafSum node max (top + 1) 573 fun p => id.leafCost (Cells.read 0 f.tree.freq) (node p) (min (depth (node p)) id.maxLength) : Nat)
  refine ⟨len', bl', fun p hp hp' => ?_, fun n hn => ?_, hbl', ?_⟩
  · rw [repairedLength]
    by_cases h : top < p ∧ node p ≤ max
    · rw [if_pos h, hset p h.1 (by omega) h.2]
    · rw [if_neg h, hrest' _ fun q hq hqp hleaf e => h ?_, hlen p hp hp']
      obtain rfl := hnode p q hp hp' (by omega) (by omega) e
      exact ⟨hq, hleaf⟩
  · rw [hrest' n fun p hp hph _ => hn p (by omega) (by omega), hrest n hn]
  · rw [hgen]
    simp only [if_neg hdeep]
    rw [hrepair]
    refine hreassign.trans (congrArg (fun o => Except.ok (f.walked len' bl' o _)) ?_)
    rw [cast_leafSum, cast_leafSum, ← leafSum_add]
    refine leafSum_congr fun p hp hph hleaf => ?_
    rw [repairedLength, if_pos ⟨hp, hleaf⟩, TreeId.leafCost, TreeId.leafCost]
    push_cast
    ring

end

/-- GENBITLEN answers where it gives the lengths. -/
theorem completes_tbGenBitlen {desc : BitVec 2} {s : State} {d : Deflate} {top max : Nat} {node final : Nat → Nat} {count : Nat → Int}
    (h : s.isDeflate d) (hdesc : desc.toNat ≤ 2)
    (hlen : (d.forest (treeOf desc)).Lengthens (treeOf desc) top max node final count) :
    ∃ (len : Cells Nat) (bl : Cells Int),
      (∀ p, top ≤ p → p ≤ 572 → Cells.find? len (node p) = some (final p)) ∧
      (∀ n, (∀ p, top ≤ p → p ≤ 572 → n ≠ node p) → Cells.find? len n = Cells.find? (d.tree (treeOf desc)).len n) ∧
      (∀ b < 16, Cells.find? bl b = some (count b)) ∧
      completes (.tbGenBitlen desc) s 0 0 0
        (.deflate (d.plant (treeOf desc) ((d.forest (treeOf desc)).walked len bl
          (leafSum node max (top + 1) 573 fun p => (treeOf desc).leafCost (Cells.read 0 (d.tree (treeOf desc)).freq) (node p) (final p) : Nat)
          (leafSum node max (top + 1) 573 fun p => (treeOf desc).staticCost (Cells.read 0 (d.tree (treeOf desc)).freq) (node p)))))
        s.port.input [] := by
  obtain ⟨len, bl, hset, hrest, hbl, hgen⟩ := hlen
  refine ⟨len, bl, hset, hrest, hbl, ?_⟩
  refine completes_packing h (exec_legal (exec_tbGenBitlen desc) (decide_eq_true hdesc) s) ?_
  rw [Deflate.onForest, hgen]
  rfl

/-- Settles O47: the length loop keeps every node its father's depth and one more, cut to the limit; the repaired counts cover
the same leaves, and give them their lengths from the end of the heap. -/
theorem genBitlenGivesDepths : Obligations.GenBitlenGivesDepths := by
  unfold Obligations.GenBitlenGivesDepths
  intro desc s d top max node depth h hdesc id t below leaves deep cut ends hheapMax htop hmax hmaxlt hheap hroot hdad counts
  have hf : (d.forest id).Heaped id top max node depth := ⟨hheapMax, htop, hmax, hheap, hroot, hdad⟩
  have hleaves : leaves = leavesIn node max (top + 1) 573 :=
    congrArg (fun k => (List.range' (top + 1) k).filter fun p => node p ≤ max) (Nat.succ_sub_succ 572 top).symm
  have hends : ∀ (final : Nat → Nat) (count : Nat → Int), (d.forest id).Lengthens id top max node final count → ends final count :=
    fun final count hlen => by
      simp only [ends, hleaves]
      exact completes_tbGenBitlen h hdesc hlen
  have hcounts : counts = fun b => (cutCount id top max node depth b : Int) := by
    simp only [counts, hleaves]
    rfl
  refine ⟨fun hdeep => ?_, fun c hdeep hdistinct hc => ?_⟩
  · rw [hcounts]
    exact hends _ _ (genBitlen_shallow hf hdeep)
  · rw [hcounts] at hc
    have hfinal : (fun p => if top < p ∧ node p ≤ max then lengthFrom c id.maxLength (leaves.filter fun q => p < q).length else cut p) =
        repairedLength id top max node depth c := by
      funext p
      rw [repairedLength, hleaves]
      refine ite_congr rfl (fun hp => ?_) fun _ => rfl
      rw [filter_lt_leavesIn (show top + 1 ≤ p + 1 by omega)]
    rw [hfinal]
    exact hends _ _ (genBitlen_deep hf hdistinct (Nat.pos_iff_ne_zero.1 hdeep) hc)

end Sys2Proof.Machine

/-! # Merging nodes into one tree (R612)

The merge loop of a build takes two nodes out of the heap, makes them the children of a new one, and puts that into the heap. What
the code lengths are depends only on which two it takes each time; that a tree results does not. -/

namespace Sys2Proof.Machine

open Sys2Proof.Claim

/-- The nodes two by two taken out of the heap, the last two first. -/
def buried : List (Nat × Nat) → List Nat
  | [] => []
  | (m, n) :: pairs => m :: n :: buried pairs

/-- From the heap `start`, rounds of the merge loop took out `pairs`, the last pair first, and left the heap `live`. The new nodes
are numbered from `base` on. -/
inductive Merges (base : Nat) (start : List Nat) : List Nat → List (Nat × Nat) → Prop
  | start {live : List Nat} (h : live.Perm start) : Merges base start live []
  | merge {live live' rest : List Nat} {pairs : List (Nat × Nat)} {m n : Nat} (h : Merges base start live pairs)
      (hout : live.Perm (n :: m :: rest)) (hin : live'.Perm ((base + pairs.length) :: rest)) : Merges base start live' ((m, n) :: pairs)

/-- `depth` is one more for the children of a new node than for it. -/
def Graded (base : Nat) (depth : Nat → Nat) : List (Nat × Nat) → Prop
  | [] => True
  | (m, n) :: pairs => (depth m = depth (base + pairs.length) + 1 ∧ depth n = depth (base + pairs.length) + 1) ∧ Graded base depth pairs

/-- The sum of `cost` over the depths of the new nodes. -/
def mergedSum (base : Nat) (depth : Nat → Nat) (cost : Nat → Nat) : List (Nat × Nat) → Nat
  | [] => 0
  | _ :: pairs => cost (depth (base + pairs.length)) + mergedSum base depth cost pairs

section
variable {base : Nat} {start live : List Nat} {pairs : List (Nat × Nat)} {depth : Nat → Nat}

theorem length_buried (pairs : List (Nat × Nat)) : (buried pairs).length = 2 * pairs.length := by
  induction pairs with
  | nil => rfl
  | cons p pairs ih =>
    rw [buried, List.length_cons, List.length_cons, ih, List.length_cons]
    omega

/-- Every node is in the heap or was taken out, once. -/
theorem Merges.perm (h : Merges base start live pairs) : (live ++ buried pairs).Perm (start ++ List.range' base pairs.length) := by
  induction h with
  | start h => simpa [buried] using h
  | @merge live live' rest pairs m n _ hout hin ih =>
    have hrange : List.range' base (pairs.length + 1) = List.range' base pairs.length ++ [base + pairs.length] := by
      rw [List.range'_concat, Nat.one_mul]
    rw [List.perm_iff_count] at *
    intro x
    have hx := ih x
    have houtx := hout x
    have hinx := hin x
    simp only [List.count_append, List.count_cons, buried, List.length_cons, hrange, List.count_nil] at *
    omega

theorem Merges.length (h : Merges base start live pairs) : live.length + pairs.length = start.length := by
  have := h.perm.length_eq
  rw [List.length_append, List.length_append, length_buried, List.length_range'] at this
  omega

theorem Merges.nodup (h : Merges base start live pairs) (hstart : ∀ x ∈ start, x < base) (hnodup : start.Nodup) : (live ++ buried pairs).Nodup := by
  refine h.perm.nodup_iff.2 (List.nodup_append'.2 ⟨hnodup, List.nodup_range', fun x hx hx' => ?_⟩)
  have := hstart x hx
  rw [List.mem_range'_1] at hx'
  omega

/-- The next new node is none of those there are. -/
theorem Merges.lt (h : Merges base start live pairs) (hstart : ∀ x ∈ start, x < base) {x : Nat} (hx : x ∈ live ++ buried pairs) :
    x < base + pairs.length := by
  have := h.perm.subset hx
  rw [List.mem_append, List.mem_range'_1] at this
  rcases this with hx | hx
  · have := hstart _ hx
    omega
  · exact hx.2

/-- Depths for the nodes taken out, from those of the others. -/
theorem Merges.exists_graded (h : Merges base start live pairs) (hstart : ∀ x ∈ start, x < base) (hnodup : start.Nodup) (depth : Nat → Nat) :
    ∃ depth', (∀ x, x ∉ buried pairs → depth' x = depth x) ∧ Graded base depth' pairs := by
  induction h generalizing depth with
  | start => exact ⟨depth, fun _ _ => rfl, trivial⟩
  | @merge live live' rest pairs m n h hout hin ih =>
    obtain ⟨depth', hother, hd⟩ := ih fun x => if x = m ∨ x = n then depth (base + pairs.length) + 1 else depth x
    have hnodes := h.nodup hstart hnodup
    rw [(hout.append_right _).nodup_iff] at hnodes
    obtain ⟨hnodes, hnm⟩ := List.nodup_cons.1 hnodes
    have hm : m ∉ buried pairs := fun hmem => (List.nodup_cons.1 hnm).1 (List.mem_append_right _ hmem)
    have hn : n ∉ buried pairs := fun hmem => hnodes (List.mem_append_right _ hmem)
    have hlt : ∀ x ∈ live ++ buried pairs, x < base + pairs.length := fun x => h.lt hstart
    have hmlt := hlt m (List.mem_append_left _ (hout.symm.subset (by simp)))
    have hnlt := hlt n (List.mem_append_left _ (hout.symm.subset (by simp)))
    have hnew : depth' (base + pairs.length) = depth (base + pairs.length) := by
      rw [hother _ fun hmem => absurd (hlt _ (List.mem_append_right _ hmem)) (lt_irrefl _), if_neg (by omega)]
    refine ⟨depth', fun x hx => ?_, ⟨?_, ?_⟩, hd⟩
    · rw [buried, List.mem_cons, List.mem_cons, not_or, not_or] at hx
      rw [hother x hx.2.2, if_neg (by tauto)]
    · rw [hother m hm, if_pos (Or.inl rfl), hnew]
    · rw [hother n hn, if_pos (Or.inr rfl), hnew]

/-- Where `Φ d + Ψ d = 2 Φ (d + 1)`, the sum of `Φ` over the nodes of the first heap is that over the last heap and the `Ψ` of the
new nodes. -/
theorem Merges.sum_depth (h : Merges base start live pairs) (hd : Graded base depth pairs) {Φ Ψ : Nat → Nat}
    (hstep : ∀ d, Φ d + Ψ d = 2 * Φ (d + 1)) :
    (start.map fun x => Φ (depth x)).sum = (live.map fun x => Φ (depth x)).sum + mergedSum base depth Ψ pairs := by
  induction h with
  | start h => rw [mergedSum, add_zero, (h.map _).sum_eq]
  | @merge live live' rest pairs m n h hout hin ih =>
    obtain ⟨⟨hm, hn⟩, hd⟩ := hd
    rw [ih hd, (hout.map _).sum_eq, (hin.map _).sum_eq, mergedSum]
    simp only [List.map_cons, List.sum_cons, hm, hn]
    have := hstep (depth (base + pairs.length))
    omega

/-- The nodes taken out lie deeper than `limit` in pairs. -/
theorem Graded.length_deep (hd : Graded base depth pairs) (limit : Nat) :
    ((buried pairs).filter fun x => limit < depth x).length = 2 * mergedSum base depth (fun d => if limit ≤ d then 1 else 0) pairs := by
  induction pairs with
  | nil => rfl
  | cons p pairs ih =>
    obtain ⟨⟨hm, hn⟩, hd⟩ := hd
    rw [buried, List.filter_cons, List.filter_cons, hm, hn, mergedSum, Nat.mul_add, ← ih hd]
    by_cases h : limit ≤ depth (base + pairs.length)
    · rw [if_pos h, if_pos (decide_eq_true (Nat.lt_succ_of_le h)), if_pos (decide_eq_true (Nat.lt_succ_of_le h)), List.length_cons,
        List.length_cons]
      omega
    · rw [if_neg h, if_neg (by simpa using h), if_neg (by simpa using h)]
      omega

end

end Sys2Proof.Machine

/-! # The heap of a build (R610, R611)

`PqDownHeap` reorders the live part of the heap and touches nothing else. -/

namespace Sys2Proof.Machine

open Sys2Proof.Claim

/-- The array holds the list from index `a` on. -/
def Cells.Lists {α : Type} (m : Cells α) (a : Nat) (l : List α) : Prop := ∀ i < l.length, Cells.find? m (a + i) = l[i]?

section
variable {α : Type} {m m' : Cells α} {a : Nat} {l : List α} {v : α}

theorem Cells.Lists.congr (h : m.Lists a l) (heq : ∀ k, a ≤ k → k < a + l.length → Cells.find? m' k = Cells.find? m k) : m'.Lists a l :=
  fun i hi => (heq _ (by omega) (by omega)).trans (h i hi)

theorem Cells.Lists.set (h : m.Lists a l) (i : Nat) (v : α) : (Cells.put m (a + i) v).Lists a (l.set i v) := fun k hk => by
  rw [List.length_set] at hk
  rw [Cells.find?_put, List.getElem?_set]
  by_cases hki : i = k
  · rw [if_pos (by omega), if_pos hki, if_pos (hki ▸ hk)]
  · rw [if_neg (by omega), if_neg hki, h k hk]

theorem Cells.Lists.cons (h : m.Lists (a + 1) l) (hv : Cells.find? m a = some v) : m.Lists a (v :: l)
  | 0, _ => hv
  | i + 1, hi => by
    rw [List.getElem?_cons_succ, ← h i (Nat.lt_of_succ_lt_succ hi), Nat.add_assoc, Nat.add_comm 1 i]

theorem Cells.Lists.concat (h : m.Lists a l) (hv : Cells.find? m (a + l.length) = some v) : m.Lists a (l ++ [v]) := fun i hi => by
  rw [List.length_append, List.length_singleton] at hi
  rcases Nat.lt_succ_iff_lt_or_eq.1 hi with hlt | rfl
  · rw [List.getElem?_append_left hlt, h i hlt]
  · rw [hv, List.getElem?_concat_length]

end

/-- What `Smaller` reads of a node is there. -/
def Forest.Known (f : Forest) (id : TreeId) (x : Nat) : Prop := x < id.nodes ∧ ∃ d, Cells.find? f.tb.depth x = some d

theorem TreeId.nodes_le (id : TreeId) : id.nodes ≤ 573 := by cases id <;> decide

section
variable {id : TreeId} {f : Forest} {heap : Cells Nat} {l : List Nat} {v n m i : Nat}

theorem smaller_ok (hn : f.Known id n) (hm : f.Known id m) : ∃ b, smaller id f n m = .ok b := by
  obtain ⟨hn, dn, hdn⟩ := hn
  obtain ⟨hm, dm, hdm⟩ := hm
  have hnodes := id.nodes_le
  have hn573 : n < Config.heapSize := Nat.lt_of_lt_of_le hn hnodes
  have hm573 : m < Config.heapSize := Nat.lt_of_lt_of_le hm hnodes
  rw [smaller, Tree.freqAt_nat hn, Except.ok_bind, Tree.freqAt_nat hm, Except.ok_bind]
  split
  · exact ⟨_, rfl⟩
  · split
    · rw [Cells.get_nat hn573 hdn, Except.ok_bind, Cells.get_nat hm573 hdm]
      exact ⟨_, rfl⟩
    · exact ⟨_, rfl⟩

theorem heapAt_nat (hi : i < 573) (h : Cells.find? heap i = some v) : heapAt heap i = .ok v := Cells.get_nat hi h

theorem setHeap_nat (hi : i < 573) (v : Nat) : setHeap heap i v = .ok (Cells.put heap i v) := Cells.set_nat _ _ hi

/-- Writing `v` into the hole at `i`. -/
theorem setHeap_hole (hlen : l.length < 573) (hi : i < l.length) (hv : l[i]? = some v)
    (hheap : ∀ k < l.length, k ≠ i → Cells.find? heap (1 + k) = l[k]?) :
    ∃ heap' l', setHeap heap ((1 + i : Nat) : Int) v = .ok heap' ∧ l'.Perm l ∧ heap'.Lists 1 l' ∧
      ∀ k, k < 1 ∨ l.length < k → Cells.find? heap' k = Cells.find? heap k := by
  refine ⟨_, l, setHeap_nat (by omega) v, List.Perm.refl l, fun k hk => ?_, fun k hk => Cells.find?_put_ne _ _ (by omega)⟩
  by_cases hki : k = i
  · rw [hki, Cells.find?_put_same, hv]
  · rw [Cells.find?_put_ne _ _ (by omega), hheap k hk hki]

/-- What a sift does with the child it chose: stop above it or go down to it. -/
def siftInto (id : TreeId) (f : Forest) (len v fuel k : Nat) (heap : Cells Nat) (j : Nat) : Except Fault (Cells Nat) := do
  let c ← heapAt heap (j : Int)
  let b ← smaller id f v c
  if b then setHeap heap (k : Int) v
  else do
    let heap ← setHeap heap (k : Int) c
    siftDown id f len v fuel j heap

theorem siftDown_succ (id : TreeId) (f : Forest) (len v fuel k : Nat) (heap : Cells Nat) :
    siftDown id f len v (fuel + 1) k heap =
      if len < 2 * k then setHeap heap (k : Int) v
      else if 2 * k < len then do
        let r ← heapAt heap (((2 * k : Nat) : Int) + 1)
        let l ← heapAt heap ((2 * k : Nat) : Int)
        let b ← smaller id f r l
        siftInto id f len v fuel k heap (if b then 2 * k + 1 else 2 * k)
      else siftInto id f len v fuel k heap (2 * k) := by
  rw [siftDown]
  simp only [siftInto]
  refine ite_congr rfl (fun _ => rfl) fun _ => ite_congr rfl (fun _ => ?_) fun _ => ?_
  · refine bind_congr fun r => bind_congr fun l => bind_congr fun b => ?_
    cases b <;> exact Except.ok_bind ..
  · exact Except.ok_bind ..

/-- Sifting `v` down from the hole at `i` reorders the heap. -/
theorem siftDown_perm (fuel : Nat) (hlen : l.length < 573) (hi : i < l.length) (hv : l[i]? = some v)
    (hheap : ∀ k < l.length, k ≠ i → Cells.find? heap (1 + k) = l[k]?) (hknown : ∀ x ∈ l, f.Known id x) :
    ∃ heap' l', siftDown id f l.length v fuel (1 + i) heap = .ok heap' ∧ l'.Perm l ∧ heap'.Lists 1 l' ∧
      ∀ k, k < 1 ∨ l.length < k → Cells.find? heap' k = Cells.find? heap k := by
  induction fuel generalizing i l heap with
  | zero => exact setHeap_hole hlen hi hv hheap
  | succ fuel ih =>
    have hvmem : v ∈ l := List.mem_of_getElem? hv
    have hchild : ∀ j, j < l.length → j ≠ i → ∃ heap' l', siftInto id f l.length v fuel (1 + i) heap (1 + j) = .ok heap' ∧
        l'.Perm l ∧ heap'.Lists 1 l' ∧ ∀ k, k < 1 ∨ l.length < k → Cells.find? heap' k = Cells.find? heap k := fun j hj hji => by
      have hc := hheap j hj hji
      rw [List.getElem?_eq_getElem hj] at hc
      obtain ⟨b, hb⟩ := smaller_ok (hknown v hvmem) (hknown l[j] (List.getElem_mem hj))
      rw [siftInto, heapAt_nat (by omega) hc, Except.ok_bind, hb, Except.ok_bind]
      by_cases hb : b = true
      · rw [if_pos hb]
        exact setHeap_hole hlen hi hv hheap
      · rw [if_neg hb, setHeap_nat (by omega), Except.ok_bind]
        have hvi : l[i] = v := by
          rw [List.getElem?_eq_getElem hi] at hv
          exact Option.some.inj hv
        have hperm : ((l.set i l[j]).set j v).Perm l := hvi ▸ List.set_set_perm hi hj
        have hlength : ((l.set i l[j]).set j v).length = l.length := hperm.length_eq
        have hheap' : ∀ k < ((l.set i l[j]).set j v).length, k ≠ j →
            Cells.find? (Cells.put heap (1 + i) l[j]) (1 + k) = ((l.set i l[j]).set j v)[k]? := fun k hk hkj => by
          rw [List.getElem?_set_ne hkj.symm, List.getElem?_set, Cells.find?_put]
          by_cases hki : i = k
          · rw [if_pos (by omega), if_pos hki, if_pos (hki ▸ hi)]
          · rw [if_neg (by omega), if_neg hki, hheap k (by omega) (Ne.symm hki)]
        obtain ⟨heap', l', hsift, hl', hlists, hrest⟩ := ih (by omega) (by omega)
          (List.getElem?_set_self (by rwa [List.length_set])) hheap' fun x hx => hknown x (hperm.subset hx)
        rw [hlength] at hsift hrest
        exact ⟨heap', l', hsift, hl'.trans hperm, hlists, fun k hk => by rw [hrest k hk, Cells.find?_put_ne _ _ (by omega)]⟩
    rw [siftDown_succ]
    by_cases hleaf : l.length < 2 * (1 + i)
    · rw [if_pos hleaf]
      exact setHeap_hole hlen hi hv hheap
    · rw [if_neg hleaf]
      have hat : ∀ j, j < l.length → j ≠ i → ∃ x ∈ l, heapAt heap ((1 + j : Nat) : Int) = .ok x := fun j hj hji => by
        have hc := hheap j hj hji
        rw [List.getElem?_eq_getElem hj] at hc
        exact ⟨l[j], List.getElem_mem hj, heapAt_nat (by omega) hc⟩
      have hleft := hchild (2 * i + 1) (by omega) (by omega)
      rw [show 1 + (2 * i + 1) = 2 * (1 + i) by omega] at hleft
      by_cases hlast : 2 * (1 + i) < l.length
      · have hright := hchild (2 * i + 2) (by omega) (by omega)
        rw [show 1 + (2 * i + 2) = 2 * (1 + i) + 1 by omega] at hright
        obtain ⟨x, hx, hxat⟩ := hat (2 * i + 2) (by omega) (by omega)
        obtain ⟨y, hy, hyat⟩ := hat (2 * i + 1) (by omega) (by omega)
        obtain ⟨b, hb⟩ := smaller_ok (hknown x hx) (hknown y hy)
        rw [if_pos hlast, show ((2 * (1 + i) : Nat) : Int) + 1 = ((1 + (2 * i + 2) : Nat) : Int) by omega, hxat, Except.ok_bind,
          show 2 * (1 + i) = 1 + (2 * i + 1) by omega, hyat, Except.ok_bind, hb, Except.ok_bind,
          show 1 + (2 * i + 1) = 2 * (1 + i) by omega]
        cases b
        · exact hleft
        · exact hright
      · rw [if_neg hlast]
        exact hleft

/-- `f` with its live heap reordered. -/
def Forest.withHeap (f : Forest) (heap : Cells Nat) : Forest := { f with tb := { f.tb with heap := heap } }

/-- PQDOWNHEAP reorders the live part of the heap. -/
theorem pqDownHeap_perm (hlen : l.length < 573) (hheapLen : f.tb.heapLen = some l.length) (hlists : f.tb.heap.Lists 1 l)
    (hknown : ∀ x ∈ l, f.Known id x) {k : Nat} (hk : 0 < k) (hkl : k ≤ l.length) :
    ∃ heap' l', pqDownHeap id k f = .ok (f.withHeap heap') ∧ l'.Perm l ∧ heap'.Lists 1 l' ∧
      ∀ i, i < 1 ∨ l.length < i → Cells.find? heap' i = Cells.find? f.tb.heap i := by
  obtain ⟨i, rfl⟩ : ∃ i, k = 1 + i := ⟨k - 1, by omega⟩
  have hi : i < l.length := by omega
  have hroot := hlists i hi
  rw [List.getElem?_eq_getElem hi] at hroot
  obtain ⟨heap', l', hsift, hperm, hlists', hrest⟩ := siftDown_perm (v := l[i]) l.length hlen hi (List.getElem?_eq_getElem hi)
    (fun k hk _ => hlists k hk) hknown
  refine ⟨heap', l', ?_, hperm, hlists', hrest⟩
  rw [pqDownHeap, hheapLen, readField, Except.ok_bind, heapAt_nat (by omega) hroot, Except.ok_bind, hsift]
  rfl

end

end Sys2Proof.Machine

/-! # The merge loop (R612) -/

namespace Sys2Proof.Machine

open Sys2Proof.Claim

section
variable {id : TreeId} {f : Forest} {l : List Nat}

/-- The first sift of every inner node reorders the heap. -/
theorem heapify_perm (hlen : l.length < 573) (hheapLen : f.tb.heapLen = some l.length) (hlists : f.tb.heap.Lists 1 l)
    (hknown : ∀ x ∈ l, f.Known id x) {k : Nat} (hk : k ≤ l.length) :
    ∃ heap' l', heapify id k f = .ok (f.withHeap heap') ∧ l'.Perm l ∧ heap'.Lists 1 l' := by
  induction k generalizing f l with
  | zero => exact ⟨f.tb.heap, l, rfl, List.Perm.refl l, hlists⟩
  | succ k ih =>
    obtain ⟨heap₁, l₁, hdown, hperm₁, hlists₁, -⟩ := pqDownHeap_perm hlen hheapLen hlists hknown (Nat.succ_pos k) hk
    have hlength := hperm₁.length_eq
    obtain ⟨heap', l', hrest, hperm, hlists'⟩ := ih (f := f.withHeap heap₁) (l := l₁) (by omega) (by rw [hlength]; exact hheapLen) hlists₁
      (fun x hx => hknown x (hperm₁.subset hx)) (by omega)
    exact ⟨heap', l', by rw [heapify, hdown, Except.ok_bind, hrest]; rfl, hperm.trans hperm₁, hlists'⟩

theorem pushSorted_nat {t : Tree} {heap : Cells Nat} {len : Option Nat} {depth : Cells Byte} {bl : Cells Int} {opt static : Int} {h : Nat}
    (h573 : h < 573) (n : Nat) :
    pushSorted n ⟨t, ⟨heap, len, some (h + 1), depth, bl⟩, opt, static⟩ = .ok ⟨t, ⟨Cells.put heap h n, len, some h, depth, bl⟩, opt, static⟩ := by
  rw [pushSorted, readField, Except.ok_bind, show ((h + 1 : Nat) : Int) - 1 = (h : Int) by omega, setHeap_nat h573, Except.ok_bind]
  rfl

end

/-- In tree `t`, each pair's nodes have the pair's new node as father, and its frequency is their sum. -/
def Linked (base : Nat) (t : Tree) : List (Nat × Nat) → Prop
  | [] => True
  | (m, n) :: pairs =>
    (Cells.find? t.dad m = some (base + pairs.length) ∧ Cells.find? t.dad n = some (base + pairs.length) ∧
      Cells.read 0 t.freq (base + pairs.length) = Cells.read 0 t.freq n + Cells.read 0 t.freq m) ∧ Linked base t pairs

theorem Linked.congr {base : Nat} {t t' : Tree} {pairs : List (Nat × Nat)} (h : Linked base t pairs)
    (hdad : ∀ x ∈ buried pairs, Cells.find? t'.dad x = Cells.find? t.dad x)
    (hfreq : ∀ x ∈ buried pairs, Cells.read 0 t'.freq x = Cells.read 0 t.freq x)
    (hnew : ∀ j < pairs.length, Cells.read 0 t'.freq (base + j) = Cells.read 0 t.freq (base + j)) : Linked base t' pairs := by
  induction pairs with
  | nil => trivial
  | cons p pairs ih =>
    obtain ⟨⟨hm, hn, hsum⟩, h⟩ := h
    simp only [buried, List.mem_cons, forall_eq_or_imp] at hdad hfreq
    obtain ⟨hdm, hdn, hdad⟩ := hdad
    obtain ⟨hfm, hfn, hfreq⟩ := hfreq
    refine ⟨⟨hdm.trans hm, hdn.trans hn, ?_⟩, ih h hdad hfreq fun j hj => hnew j (Nat.lt_succ_of_lt hj)⟩
    rw [hnew _ (Nat.lt_succ_self _), hfm, hfn, hsum]

/-- `f` after `n` and `m` became the children of node `new`, with the heap `heap` of `len` live nodes. -/
def Forest.joined (f : Forest) (heap : Cells Nat) (len top m n new : Nat) (d : Byte) : Forest :=
  { f with
    tree :=
      { f.tree with
        freq := Cells.write 0 f.tree.freq new (Cells.read 0 f.tree.freq n + Cells.read 0 f.tree.freq m)
        dad := Cells.put (Cells.put f.tree.dad n new) m new }
    tb := { f.tb with heap := heap, heapLen := some len, heapMax := some top, depth := Cells.put f.tb.depth new d } }

/-- `f` is what rounds of the merge loop made of `f₀`: the heap `live` is left of `start`, and `pairs` were taken out. -/
structure Forest.Merged (f₀ f : Forest) (id : TreeId) (start live : List Nat) (pairs : List (Nat × Nat)) : Prop where
  merges : Merges id.elems start live pairs
  heapLen : f.tb.heapLen = some live.length
  heapMax : f.tb.heapMax = some (573 - 2 * pairs.length)
  heap_live : f.tb.heap.Lists 1 live
  heap_buried : f.tb.heap.Lists (573 - 2 * pairs.length) (buried pairs)
  known : ∀ x ∈ live, f.Known id x
  linked : Linked id.elems f.tree pairs
  dad : ∀ n, n ∉ buried pairs → Cells.find? f.tree.dad n = Cells.find? f₀.tree.dad n
  freq : ∀ n, (n < id.elems ∨ id.elems + pairs.length ≤ n) → Cells.read 0 f.tree.freq n = Cells.read 0 f₀.tree.freq n
  freq_wf : Cells.wf 0 f.tree.freq
  len : f.tree.len = f₀.tree.len
  code : f.tree.code = f₀.tree.code
  maxCode : f.tree.maxCode = f₀.tree.maxCode
  optLen : f.optLen = f₀.optLen
  staticLen : f.staticLen = f₀.staticLen

section
variable {id : TreeId} {f₀ f : Forest} {start live : List Nat} {pairs : List (Nat × Nat)}

theorem Forest.Known.joined {x len top m n new : Nat} {heap : Cells Nat} {d : Byte} (h : f.Known id x) :
    (f.joined heap len top m n new d).Known id x := by
  obtain ⟨hx, b, hb⟩ := h
  refine ⟨hx, if x = new then d else b, ?_⟩
  rw [Forest.joined, Cells.find?_put, hb]
  split <;> rfl

theorem Forest.known_joined_new {len top m n new : Nat} {heap : Cells Nat} {d : Byte} (h : new < id.nodes) :
    (f.joined heap len top m n new d).Known id new := ⟨h, d, Cells.find?_put_same ..⟩

theorem Forest.Merged.join (h : f₀.Merged f id start live pairs) (hstart : ∀ x ∈ start, x < id.elems) (hnodup : start.Nodup)
    {m n top : Nat} {rest live' : List Nat} {heap : Cells Nat} {d : Byte} (hout : live.Perm (n :: m :: rest))
    (hin : live'.Perm ((id.elems + pairs.length) :: rest)) (hnew : id.elems + pairs.length < id.nodes)
    (htop : 573 - 2 * pairs.length = top + 2) (hlive : heap.Lists 1 live') (hm : Cells.find? heap top = some m)
    (hn : Cells.find? heap (top + 1) = some n) (hheap : ∀ i, top + 2 ≤ i → Cells.find? heap i = Cells.find? f.tb.heap i) :
    f₀.Merged (f.joined heap live'.length top m n (id.elems + pairs.length) d) id start live' ((m, n) :: pairs) := by
  have hnodes := h.merges.nodup hstart hnodup
  rw [(hout.append_right _).nodup_iff] at hnodes
  have hlt : ∀ x ∈ n :: m :: rest ++ buried pairs, x < id.elems + pairs.length := fun x hx =>
    h.merges.lt hstart ((hout.append_right _).symm.subset hx)
  have hread : ∀ x, Cells.read 0 (f.joined heap live'.length top m n (id.elems + pairs.length) d).tree.freq x =
      if x = id.elems + pairs.length then Cells.read 0 f.tree.freq n + Cells.read 0 f.tree.freq m else Cells.read 0 f.tree.freq x := fun x =>
    Cells.read_write h.freq_wf.1 _ _ _
  have hfind : ∀ x, Cells.find? (f.joined heap live'.length top m n (id.elems + pairs.length) d).tree.dad x =
      if x = m ∨ x = n then some (id.elems + pairs.length) else Cells.find? f.tree.dad x := fun x => by
    rw [Forest.joined, Cells.find?_put, Cells.find?_put]
    by_cases hxm : x = m <;> by_cases hxn : x = n <;> simp [hxm, hxn]
  have htop' : 573 - 2 * ((m, n) :: pairs).length = top := by
    rw [List.length_cons]
    omega
  refine
    { merges := h.merges.merge hout hin
      heapLen := rfl
      heapMax := by rw [htop']; rfl
      heap_live := hlive
      heap_buried := ?_
      known := ?_
      linked := ?_
      dad := ?_
      freq := ?_
      freq_wf := Cells.wf_write h.freq_wf _ _
      len := h.len
      code := h.code
      maxCode := h.maxCode
      optLen := h.optLen
      staticLen := h.staticLen }
  · rw [htop', buried]
    have hold : heap.Lists (top + 2) (buried pairs) := (htop ▸ h.heap_buried).congr fun k hk _ => hheap k hk
    exact (hold.cons hn).cons hm
  · intro x hx
    rcases List.mem_cons.1 (hin.subset hx) with rfl | hx
    · exact Forest.known_joined_new hnew
    · exact (h.known x (hout.symm.subset (List.mem_cons_of_mem _ (List.mem_cons_of_mem _ hx)))).joined
  · obtain ⟨hn', hnm⟩ := List.nodup_cons.1 hnodes
    have hm' := (List.nodup_cons.1 hnm).1
    have hold : ∀ x ∈ buried pairs, ¬(x = m ∨ x = n) ∧ x ≠ id.elems + pairs.length := fun x hx => by
      refine ⟨?_, (hlt x (List.mem_append_right _ hx)).ne⟩
      rintro (rfl | rfl)
      · exact hm' (List.mem_append_right _ hx)
      · exact hn' (List.mem_append_right _ hx)
    refine ⟨⟨by rw [hfind, if_pos (Or.inl rfl)], by rw [hfind, if_pos (Or.inr rfl)], ?_⟩, h.linked.congr (fun x hx => ?_) (fun x hx => ?_)
      fun j hj => ?_⟩
    · rw [hread, if_pos rfl, hread, if_neg (hlt n (by simp)).ne, hread, if_neg (hlt m (by simp)).ne]
    · rw [hfind, if_neg (hold x hx).1]
    · rw [hread, if_neg (hold x hx).2]
    · rw [hread, if_neg (by omega)]
  · intro x hx
    rw [buried, List.mem_cons, List.mem_cons, not_or, not_or] at hx
    rw [hfind, if_neg (not_or.2 ⟨hx.1, hx.2.1⟩), h.dad x hx.2.2]
  · intro x hx
    rw [List.length_cons] at hx
    rw [hread, if_neg (by omega), h.freq x (by omega)]

/-- One round of the merge loop up to its second sift: the two smallest nodes `n` and `m` became children of node `new`. -/
theorem mergeTwo_eq {k top n m last new : Nat} {heap : Cells Nat} (hheapLen : f.tb.heapLen = some (k + 1)) (hk : k + 1 < 573)
    (hmax : f.tb.heapMax = some (top + 2)) (htop : top + 2 ≤ 573) (hn : Cells.find? f.tb.heap 1 = some n)
    (hlast : Cells.find? f.tb.heap (k + 1) = some last)
    (hdown : pqDownHeap id 1 { f with tb := { f.tb with heap := Cells.put f.tb.heap 1 last, heapLen := some k } } =
      .ok { f with tb := { f.tb with heap := heap, heapLen := some k } })
    (hm : Cells.find? heap 1 = some m) (hknown_n : f.Known id n) (hknown_m : f.Known id m) (hnew : new < id.nodes) :
    ∃ d, mergeTwo id new f =
      pqDownHeap id 1 (f.joined (Cells.put (Cells.put (Cells.put heap (top + 1) n) top m) 1 new) k top m n new d) := by
  obtain ⟨hnlt, dn, hdn⟩ := hknown_n
  obtain ⟨hmlt, dm, hdm⟩ := hknown_m
  have hn573 : n < Config.heapSize := Nat.lt_of_lt_of_le hnlt id.nodes_le
  have hm573 : m < Config.heapSize := Nat.lt_of_lt_of_le hmlt id.nodes_le
  have hnew573 : new < Config.heapSize := Nat.lt_of_lt_of_le hnew id.nodes_le
  have hset : ∀ (heap : Cells Nat) (x : Nat), setHeap heap 1 x = .ok (Cells.put heap 1 x) := fun heap x => setHeap_nat (i := 1) (by omega) x
  refine ⟨(if dn.toNat ≤ dm.toNat then dm else dn) + 1, ?_⟩
  rw [mergeTwo, hheapLen, readField, Except.ok_bind, show heapAt f.tb.heap 1 = .ok n from heapAt_nat (i := 1) (by omega) hn, Except.ok_bind,
    heapAt_nat hk hlast, Except.ok_bind, hset, Except.ok_bind, Nat.add_sub_cancel, hdown, Except.ok_bind]
  simp only
  rw [show heapAt heap 1 = .ok m from heapAt_nat (i := 1) (by omega) hm, Except.ok_bind, hmax, pushSorted_nat (h := top + 1) (by omega),
    Except.ok_bind, pushSorted_nat (h := top) (by omega), Except.ok_bind, Tree.freqAt_nat hnlt, Except.ok_bind, Tree.freqAt_nat hmlt,
    Except.ok_bind, Tree.setFreq_nat hnew, Except.ok_bind, Cells.get_nat hn573 hdn, Except.ok_bind, Cells.get_nat hm573 hdm, Except.ok_bind,
    Cells.set_nat _ _ hnew573, Except.ok_bind, Cells.set_nat _ _ hnlt, Except.ok_bind, Cells.set_nat _ _ hmlt, Except.ok_bind, hset,
    Except.ok_bind]
  rfl

/-- One round of the merge loop. -/
theorem mergeTwo_merged (h : f₀.Merged f id start live pairs) (hstart : ∀ x ∈ start, x < id.elems) (hnodup : start.Nodup)
    (hlen : start.length ≤ id.elems) (htwo : 2 ≤ live.length) :
    ∃ f' live' p, mergeTwo id (id.elems + pairs.length) f = .ok f' ∧ f₀.Merged f' id start live' (p :: pairs) := by
  have helems : id.elems ≤ 286 := by cases id <;> decide
  have hnodes : id.nodes = 2 * id.elems + 1 := by cases id <;> rfl
  have hlength := h.merges.length
  obtain ⟨n, mid, last, rfl⟩ : ∃ n mid last, live = n :: (mid ++ [last]) := by
    match live, htwo with
    | n :: x :: xs, _ =>
      obtain ⟨mid, last, hl⟩ := List.eq_nil_or_concat (x :: xs) |>.resolve_left (List.cons_ne_nil _ _)
      exact ⟨n, mid, last, by rw [hl, List.concat_eq_append]⟩
  have hlive : (n :: (mid ++ [last])).length = mid.length + 2 := by simp
  rw [hlive] at hlength
  have hheap := h.heap_live
  have hlast : Cells.find? f.tb.heap (mid.length + 1 + 1) = some last := by
    rw [show mid.length + 1 + 1 = 1 + (mid.length + 1) by omega, hheap _ (by omega), List.getElem?_cons_succ, List.getElem?_concat_length]
  have hlists₁ : (Cells.put f.tb.heap 1 last).Lists 1 (last :: mid) := Cells.Lists.set (l := n :: mid) (fun i hi => by
    rw [hheap i (by simp at hi ⊢; omega), ← List.cons_append, List.getElem?_append_left hi]) 0 last
  have hknown : ∀ x ∈ last :: mid, f.Known id x := fun x hx => h.known x <| by
    rcases List.mem_cons.1 hx with rfl | hx
    · exact List.mem_cons_of_mem _ (List.mem_append_right _ (List.mem_singleton_self _))
    · exact List.mem_cons_of_mem _ (List.mem_append_left _ hx)
  obtain ⟨heap₂, l₂, hdown, hperm₂, hlists₂, hrest₂⟩ := pqDownHeap_perm (id := id) (k := 1) (l := last :: mid)
    (f := { f with tb := { f.tb with heap := Cells.put f.tb.heap 1 last, heapLen := some (mid.length + 1) } })
    (by rw [List.length_cons]; omega) rfl hlists₁ hknown one_pos (by rw [List.length_cons]; omega)
  obtain ⟨m, rest, rfl⟩ : ∃ m rest, l₂ = m :: rest := List.exists_cons_of_length_pos (by
    rw [hperm₂.length_eq]
    exact Nat.succ_pos _)
  have hlen₂ : rest.length = mid.length := by simpa using hperm₂.length_eq
  have hn : f.Known id n := h.known n List.mem_cons_self
  have hm : f.Known id m := hknown m (hperm₂.subset List.mem_cons_self)
  have hnew : id.elems + pairs.length < id.nodes := by omega
  obtain ⟨top, htop⟩ : ∃ top, 573 - 2 * pairs.length = top + 2 := ⟨573 - 2 * pairs.length - 2, by omega⟩
  obtain ⟨d, hstep⟩ := mergeTwo_eq (id := id) (k := mid.length + 1) (h.heapLen.trans (congrArg some hlive)) (by omega)
    (htop ▸ h.heapMax) (by omega) (hheap 0 (by omega)) hlast hdown (hlists₂ 0 (Nat.succ_pos _)) hn hm hnew
  have hout : (n :: (mid ++ [last])).Perm (n :: m :: rest) := .cons n ((List.perm_append_singleton last mid).trans hperm₂.symm)
  have hlists' : (Cells.put (Cells.put (Cells.put heap₂ (top + 1) n) top m) 1 (id.elems + pairs.length)).Lists 1
      ((id.elems + pairs.length) :: rest) := Cells.Lists.set (l := m :: rest) (fun i hi => by
    have : i < rest.length + 1 := hi
    rw [Cells.find?_put_ne _ _ (by omega), Cells.find?_put_ne _ _ (by omega), hlists₂ i hi]) 0 _
  have hknown' : ∀ x ∈ (id.elems + pairs.length) :: rest, (f.joined (Cells.put (Cells.put (Cells.put heap₂ (top + 1) n) top m) 1
      (id.elems + pairs.length)) (mid.length + 1) top m n (id.elems + pairs.length) d).Known id x := fun x hx => by
    rcases List.mem_cons.1 hx with rfl | hx
    · exact Forest.known_joined_new hnew
    · exact (hknown x (hperm₂.subset (List.mem_cons_of_mem _ hx))).joined
  obtain ⟨heap₃, live', hdown₃, hin, hlists₃, hrest₃⟩ := pqDownHeap_perm (id := id) (k := 1) (l := (id.elems + pairs.length) :: rest)
    (f := f.joined (Cells.put (Cells.put (Cells.put heap₂ (top + 1) n) top m) 1 (id.elems + pairs.length)) (mid.length + 1) top m n
      (id.elems + pairs.length) d)
    (by rw [List.length_cons]; omega) (by rw [List.length_cons, hlen₂]; rfl) hlists' hknown' one_pos (Nat.succ_pos _)
  have hlength' : live'.length = mid.length + 1 := by rw [hin.length_eq, List.length_cons, hlen₂]
  have hhigh : ∀ i, mid.length + 1 < i → Cells.find? heap₃ i = Cells.find? (Cells.put (Cells.put heap₂ (top + 1) n) top m) i :=
    fun i hi => by rw [hrest₃ i (Or.inr (by rw [List.length_cons]; omega)), Forest.joined, Cells.find?_put_ne _ _ (by omega)]
  refine ⟨_, live', (m, n), hstep.trans hdown₃, ?_⟩
  have hjoin := h.join hstart hnodup (d := d) hout hin hnew htop hlists₃ (by rw [hhigh _ (by omega), Cells.find?_put_same])
    (by rw [hhigh _ (by omega), Cells.find?_put_ne _ _ (by omega), Cells.find?_put_same]) fun i hi => by
      rw [hhigh _ (by omega), Cells.find?_put_ne _ _ (by omega), Cells.find?_put_ne _ _ (by omega),
        hrest₂ i (Or.inr (by rw [List.length_cons]; omega)), Cells.find?_put_ne _ _ (by omega)]
  rw [hlength'] at hjoin
  exact hjoin

/-- The merge loop leaves one node in the heap. -/
theorem mergeLoop_merged (hstart : ∀ x ∈ start, x < id.elems) (hnodup : start.Nodup) (hlen : start.length ≤ id.elems) (fuel : Nat)
    (h : f₀.Merged f id start live pairs) (htwo : 2 ≤ live.length) (hfuel : live.length ≤ fuel + 1) :
    ∃ f' root pairs', mergeLoop id fuel (id.elems + pairs.length) f = .ok f' ∧ f₀.Merged f' id start [root] pairs' := by
  induction fuel generalizing f live pairs with
  | zero => omega
  | succ fuel ih =>
    obtain ⟨f₁, live₁, p, hstep, h₁⟩ := mergeTwo_merged h hstart hnodup hlen htwo
    have hlength := h.merges.length
    have hlength₁ := h₁.merges.length
    rw [List.length_cons] at hlength₁
    rw [mergeLoop, hstep, Except.ok_bind, h₁.heapLen, readField, Except.ok_bind]
    by_cases hone : live₁.length < 2
    · obtain ⟨root, rfl⟩ : ∃ root, live₁ = [root] := List.length_eq_one_iff.1 (by omega)
      exact ⟨f₁, root, p :: pairs, if_pos hone, h₁⟩
    · rw [if_neg hone]
      exact ih h₁ (by omega) (by omega)


end

end Sys2Proof.Machine

/-! # The grown tree (R612, R615) -/

namespace Sys2Proof.Machine

open Sys2Proof.Claim

section
variable {base : Nat} {start live : List Nat} {pairs : List (Nat × Nat)} {t : Tree} {depth : Nat → Nat}

/-- A node's father is still in the heap or was taken out later. -/
theorem Merges.father (h : Merges base start live pairs) (ht : Linked base t pairs) (hd : Graded base depth pairs) {i x : Nat}
    (hx : (buried pairs)[i]? = some x) :
    ∃ y ∈ live ++ (buried pairs).take i, Cells.find? t.dad x = some y ∧ depth x = depth y + 1 := by
  induction h generalizing i with
  | start => simp [buried] at hx
  | @merge live live' rest pairs m n h hout hin ih =>
    obtain ⟨⟨hdm, hdn, -⟩, ht⟩ := ht
    obtain ⟨⟨hm, hn⟩, hd⟩ := hd
    have hnew : base + pairs.length ∈ live' := hin.symm.subset List.mem_cons_self
    rw [buried] at hx
    match i with
    | 0 =>
      obtain rfl : m = x := by simpa using hx
      exact ⟨_, List.mem_append_left _ hnew, hdm, hm⟩
    | 1 =>
      obtain rfl : n = x := by simpa using hx
      exact ⟨_, List.mem_append_left _ hnew, hdn, hn⟩
    | i + 2 =>
      obtain ⟨y, hy, hdad, hdepth⟩ := ih ht hd (by simpa using hx)
      refine ⟨y, ?_, hdad, hdepth⟩
      rw [buried, List.take_succ_cons, List.take_succ_cons]
      rcases List.mem_append.1 hy with hy | hy
      · rcases List.mem_cons.1 (hout.subset hy) with rfl | hy
        · simp
        · rcases List.mem_cons.1 hy with rfl | hy
          · simp
          · exact List.mem_append_left _ (hin.symm.subset (List.mem_cons_of_mem _ hy))
      · exact List.mem_append_right _ (List.mem_cons_of_mem _ (List.mem_cons_of_mem _ hy))

/-- The root is the last new node. -/
theorem Merges.root_eq {root : Nat} (h : Merges base start [root] pairs) (hpairs : 0 < pairs.length) : root = base + (pairs.length - 1) := by
  cases h with
  | start => cases hpairs
  | merge _ _ hin => exact (List.cons.inj (List.perm_singleton.1 hin.symm)).1.symm

end

/-- The node at position `p` of a heap that lists `nodes` from position `top` on. -/
def nodeAt (nodes : List Nat) (top p : Nat) : Nat := nodes.getD (p - top) 0

section
variable {nodes : List Nat} {top p : Nat}

theorem nodeAt_of_getElem? {x : Nat} (h : nodes[p - top]? = some x) : nodeAt nodes top p = x := by
  rw [nodeAt, List.getD_eq_getElem?_getD, h]
  rfl

theorem getElem?_nodeAt (hp : top ≤ p) (hp' : p < top + nodes.length) : nodes[p - top]? = some (nodeAt nodes top p) := by
  rw [nodeAt, List.getD_eq_getElem?_getD, List.getElem?_eq_getElem (by omega)]
  rfl

theorem map_nodeAt (nodes : List Nat) (top : Nat) : (List.range' top nodes.length).map (nodeAt nodes top) = nodes := by
  refine List.ext_getElem (by rw [List.length_map, List.length_range']) fun i hi hi' => ?_
  rw [List.getElem_map, List.getElem_range', Nat.one_mul]
  exact nodeAt_of_getElem? (by rw [Nat.add_sub_cancel_left, List.getElem?_eq_getElem hi'])

/-- The leaves among the nodes. -/
theorem map_leavesIn (root : Nat) (nodes : List Nat) (max top : Nat) :
    (leavesIn (nodeAt (root :: nodes) top) max (top + 1) (top + 1 + nodes.length)).map (nodeAt (root :: nodes) top) =
      nodes.filter fun x => x ≤ max := by
  have htail : (List.range' (top + 1) nodes.length).map (nodeAt (root :: nodes) top) = nodes := by
    have := map_nodeAt (root :: nodes) top
    rw [List.length_cons, List.range'_succ, List.map_cons] at this
    exact (List.cons.inj this).2
  rw [leavesIn, Nat.add_sub_cancel_left]
  conv_rhs => rw [← htail, List.filter_map]
  rfl

end

/-- `f` with its last live node put at the front of the sorted part of the heap. -/
def Forest.rooted (f : Forest) (top root : Nat) : Forest :=
  { f with tb := { f.tb with heap := Cells.put f.tb.heap top root, heapMax := some top } }

section
variable {id : TreeId} {f₀ f : Forest} {start : List Nat} {root : Nat} {pairs : List (Nat × Nat)} {max : Nat} {depth : Nat → Nat}

/-- The heap of the tree. -/
theorem Forest.Merged.heaped (h : f₀.Merged f id start [root] pairs) (hstart : ∀ x ∈ start, x < id.elems) (hnodup : start.Nodup)
    (hlen : start.length ≤ id.elems) (hmax : f₀.tree.maxCode = some (max : Int)) (hdepth : ∀ x, x ∉ buried pairs → depth x = 0)
    (hd : Graded id.elems depth pairs) :
    (f.rooted (572 - 2 * pairs.length) root).Heaped id (572 - 2 * pairs.length) max
      (nodeAt (root :: buried pairs) (572 - 2 * pairs.length)) depth := by
  have hnodes : id.nodes = 2 * id.elems + 1 := by cases id <;> rfl
  have helems : id.elems ≤ 286 := by cases id <;> decide
  have hlength := h.merges.length
  have hburied := length_buried pairs
  rw [List.length_singleton] at hlength
  obtain ⟨top, htop⟩ : ∃ top, top = 572 - 2 * pairs.length := ⟨_, rfl⟩
  have htop1 : 573 - 2 * pairs.length = top + 1 := by omega
  have hheap : (Cells.put f.tb.heap top root).Lists top (root :: buried pairs) :=
    (((htop1 ▸ h.heap_buried).congr fun k hk _ => Cells.find?_put_ne _ _ (by omega))).cons (Cells.find?_put_same ..)
  have hat : ∀ p, top ≤ p → p ≤ 572 → (root :: buried pairs)[p - top]? = some (nodeAt (root :: buried pairs) top p) := fun p hp hp' =>
    getElem?_nodeAt hp (by rw [List.length_cons, hburied]; omega)
  rw [← htop]
  refine ⟨rfl, by omega, h.maxCode.trans hmax, fun p hp hp' => ⟨?_, ?_⟩, ?_, fun p hp hp' => ?_⟩
  · have := hheap (p - top) (by rw [List.length_cons, hburied]; omega)
    rw [Nat.add_sub_cancel' hp, hat p hp hp'] at this
    exact this
  · have := h.merges.lt hstart (List.mem_of_getElem? (hat p hp hp'))
    omega
  · have hroot : root ∉ buried pairs := (List.nodup_cons.1 (h.merges.nodup hstart hnodup)).1
    rw [nodeAt, Nat.sub_self]
    exact hdepth root hroot
  · have hx := hat p hp.le hp'
    rw [show p - top = (p - top - 1) + 1 by omega, List.getElem?_cons_succ] at hx
    obtain ⟨y, hy, hdad, hgrade⟩ := h.merges.father h.linked hd hx
    rw [show [root] ++ (buried pairs).take (p - top - 1) = (root :: buried pairs).take (p - top - 1 + 1) from rfl] at hy
    obtain ⟨j, hj⟩ := List.mem_iff_getElem?.1 hy
    rw [List.getElem?_take] at hj
    split at hj
    case isFalse => cases hj
    case isTrue hjp =>
      have hy : nodeAt (root :: buried pairs) top (top + j) = y := nodeAt_of_getElem? (by rw [Nat.add_sub_cancel_left, hj])
      exact ⟨top + j, by omega, by omega, by rw [hy]; exact hdad, by rw [hy, hgrade]⟩

/-- The heap holds every node of the tree once. -/
theorem Forest.Merged.nodesDistinct (h : f₀.Merged f id start [root] pairs) (hstart : ∀ x ∈ start, x < id.elems) (hnodup : start.Nodup)
    (hlen : start.length ≤ id.elems) :
    nodesDistinct (nodeAt (root :: buried pairs) (572 - 2 * pairs.length)) (572 - 2 * pairs.length) := fun p q hp hp' hq hq' heq => by
  have helems : id.elems ≤ 286 := by cases id <;> decide
  have hlength := h.merges.length
  have hburied := length_buried pairs
  rw [List.length_singleton] at hlength
  have hpx := getElem?_nodeAt (nodes := root :: buried pairs) hp (by rw [List.length_cons, hburied]; omega)
  have hqx := getElem?_nodeAt (nodes := root :: buried pairs) hq (by rw [List.length_cons, hburied]; omega)
  have hnodes : (root :: buried pairs).Nodup := h.merges.nodup hstart hnodup
  have hpq := (List.getElem?_inj (by rw [List.length_cons, hburied]; omega) hnodes).1 (hpx.trans (heq ▸ hqx.symm))
  omega

/-- The leaves of the tree are the nodes it was grown from. -/
theorem Forest.Merged.leaves (h : f₀.Merged f id start [root] pairs) (hstart : ∀ x ∈ start, x ≤ max) (hmax : max < id.elems)
    (htwo : 2 ≤ start.length) (hlen : start.length ≤ id.elems) :
    ((leavesIn (nodeAt (root :: buried pairs) (572 - 2 * pairs.length)) max (572 - 2 * pairs.length + 1) 573).map
      (nodeAt (root :: buried pairs) (572 - 2 * pairs.length))).Perm start := by
  have helems : id.elems ≤ 286 := by cases id <;> decide
  have hlength := h.merges.length
  rw [List.length_singleton] at hlength
  have hend : 573 = 572 - 2 * pairs.length + 1 + (buried pairs).length := by
    rw [length_buried]
    omega
  have hroot : ¬ root ≤ max := by
    have := h.merges.root_eq (by omega)
    omega
  have hold : start.filter (fun x => x ≤ max) = start := List.filter_eq_self.2 fun x hx => decide_eq_true (hstart x hx)
  have hnew : (List.range' id.elems pairs.length).filter (fun x => x ≤ max) = [] := List.filter_eq_nil_iff.2 fun x hx => by
    rw [List.mem_range'_1] at hx
    rw [decide_eq_true_eq]
    omega
  have hall := h.merges.perm.filter fun x => x ≤ max
  rw [List.singleton_append, List.filter_cons_of_neg (by simpa using hroot), List.filter_append, hold, hnew, List.append_nil] at hall
  rw [hend, map_leavesIn]
  exact hall

end

end Sys2Proof.Machine

/-! # Complete sets of code lengths (R615, R620)

The leaves of a tree of pairs make a complete set of lengths. Lengths cut to the limit are too short by one code of the limit for
every new node at the limit or below it; each round of the repair gives one such code up. -/

namespace Sys2Proof.Machine

open Sys2Proof.Claim

section
variable {limit : Nat} {c : Nat → Int}

theorem lastNonzero_eq_none {n : Nat} (h : lastNonzero c n = none) : ∀ b ≤ n, c b = 0 := by
  induction n with
  | zero =>
    rw [lastNonzero] at h
    split at h
    · intro b hb
      obtain rfl : b = 0 := by omega
      assumption
    · cases h
  | succ n ih =>
    rw [lastNonzero] at h
    split at h
    · intro b hb
      rcases Nat.le_succ_iff.1 hb with hb | rfl
      · exact ih h b hb
      · assumption
    · cases h

/-- The Kraft sum of `c b` codes of each length `b`, in codes of length `limit`. -/
def kraftOf (limit : Nat) (c : Nat → Int) : Int := ∑ b ∈ Finset.Icc 1 limit, c b * 2 ^ (limit - b)

/-- A round of the repair gives up one code of the limit. -/
theorem repairRound_ok (hpos : 0 < limit) (h0 : c 0 = 0) (hc : ∀ b, 0 ≤ c b) (hlimit : 1 ≤ c limit)
    (hsum : ∑ b ∈ Finset.Icc 1 limit, c b < 2 ^ limit) (hk : 2 ^ limit ≤ kraftOf limit c) :
    ∃ c', repairRound limit c = some c' ∧ (∀ b, 0 ≤ c' b) ∧ c limit ≤ c' limit + 1 ∧ kraftOf limit c' = kraftOf limit c - 1 ∧
      ∀ b, limit < b → c' b = c b := by
  cases hlast : lastNonzero c (limit - 1) with
  | none =>
    have hzero := lastNonzero_eq_none hlast
    have hsame : kraftOf limit c = ∑ b ∈ Finset.Icc 1 limit, c b := Finset.sum_congr rfl fun b hb => by
      rw [Finset.mem_Icc] at hb
      rcases hb.2.eq_or_lt with rfl | hlt
      · rw [Nat.sub_self, pow_zero, mul_one]
      · rw [hzero b (by omega), zero_mul]
    omega
  | some b =>
    obtain ⟨hb, hcb⟩ := lastNonzero_spec hlast
    have hb0 : b ≠ 0 := fun e => hcb (e ▸ h0)
    have hcb1 := hc b
    refine ⟨_, by rw [repairRound, hlast]; rfl, fun k => ?_, ?_, ?_, fun k hk => ?_⟩
    · have := hc k
      beta_reduce
      split_ifs <;> subst_vars <;> omega
    · beta_reduce
      split_ifs <;> omega
    · simp only [kraftOf, add_mul, ite_mul, zero_mul]
      rw [Finset.sum_add_distrib, Finset.sum_add_distrib, Finset.sum_add_distrib, Finset.sum_ite_eq', Finset.sum_ite_eq',
        Finset.sum_ite_eq', if_pos (Finset.mem_Icc.2 (by omega)), if_pos (Finset.mem_Icc.2 (by omega)),
        if_pos (Finset.mem_Icc.2 (by omega)), show limit - b = (limit - (b + 1)) + 1 by omega, pow_succ, Nat.sub_self]
      ring
    · beta_reduce
      split_ifs <;> omega

/-- The repair ends with a complete set of counts. -/
theorem repairRounds_ok (hpos : 0 < limit) (n : Nat) (h0 : c 0 = 0) (hc : ∀ b, 0 ≤ c b) (hlimit : n ≤ c limit)
    (hsum : ∑ b ∈ Finset.Icc 1 limit, c b < 2 ^ limit) (hk : kraftOf limit c = 2 ^ limit + n) :
    ∃ c' : Nat → Nat, repairRounds limit n c = some (fun b => (c' b : Int)) ∧ kraftOf limit (fun b => (c' b : Int)) = 2 ^ limit ∧
      ∀ b, limit < b → (c' b : Int) = c b := by
  induction n generalizing c with
  | zero =>
    have hcast : (fun b => ((c b).toNat : Int)) = c := funext fun b => Int.toNat_of_nonneg (hc b)
    refine ⟨fun b => (c b).toNat, by rw [hcast]; rfl, by rw [hcast, hk]; simp, fun b _ => Int.toNat_of_nonneg (hc b)⟩
  | succ n ih =>
    obtain ⟨c₁, hround, hc₁, hlimit₁, hk₁, hhigh₁⟩ := repairRound_ok hpos h0 hc (by omega) hsum (by omega)
    obtain ⟨h0₁, hsum₁⟩ := sum_repairRound hpos h0 hround
    obtain ⟨c', hrest, hk', hhigh⟩ := ih h0₁ hc₁ (by omega) (by omega) (by rw [hk₁, hk]; push_cast; ring)
    exact ⟨c', by rw [repairRounds, hround]; exact hrest, hk', fun b hb => (hhigh b hb).trans (hhigh₁ b hb)⟩

end

section
variable {c : Nat → Nat}

theorem lengthFrom_le (c : Nat → Nat) (limit r : Nat) : lengthFrom c limit r ≤ limit := by
  induction limit generalizing r with
  | zero => exact le_rfl
  | succ limit ih =>
    rw [lengthFrom]
    split
    · exact le_rfl
    · exact (ih _).trans (Nat.le_succ limit)

theorem lengthFrom_pos {limit r : Nat} (h : r < ∑ b ∈ Finset.Icc 1 limit, c b) : 0 < lengthFrom c limit r := by
  induction limit generalizing r with
  | zero => simp at h
  | succ limit ih =>
    rw [Finset.sum_Icc_succ_top (Nat.le_add_left 1 limit)] at h
    rw [lengthFrom]
    split
    · exact Nat.succ_pos limit
    · exact ih (by omega)

/-- Of the ranks, `c b` get length `b`. -/
theorem sum_lengthFrom (c : Nat → Nat) (limit : Nat) (h : Nat → Nat) :
    ((List.range (∑ b ∈ Finset.Icc 1 limit, c b)).map fun r => h (lengthFrom c limit r)).sum = ∑ b ∈ Finset.Icc 1 limit, c b * h b := by
  induction limit with
  | zero => rfl
  | succ limit ih =>
    rw [Finset.sum_Icc_succ_top (Nat.le_add_left 1 limit), Finset.sum_Icc_succ_top (Nat.le_add_left 1 limit),
      Nat.add_comm (∑ b ∈ Finset.Icc 1 limit, c b), List.range_add, List.map_append, List.sum_append, List.map_map, ← ih]
    refine (Nat.add_comm _ _).trans (congrArg₂ (· + ·) (congrArg List.sum (List.map_congr_left fun r _ => ?_)) ?_)
    · rw [Function.comp_apply, lengthFrom, if_neg (by omega), Nat.add_sub_cancel_left]
    · rw [List.map_congr_left fun r hr => by rw [lengthFrom, if_pos (List.mem_range.1 hr)], List.map_const', List.sum_replicate,
        List.length_range, smul_eq_mul]

end

end Sys2Proof.Machine

/-! # GENBITLEN gives a complete set of lengths (R615) -/

namespace Sys2Proof.Machine

open Sys2Proof.Claim

section
variable {node : Nat → Nat} {max a b : Nat}

/-- The number of leaves after each leaf, from the first on. -/
theorem map_rank (node : Nat → Nat) (max a b : Nat) :
    (leavesIn node max a b).map (fun p => (leavesIn node max (p + 1) b).length) = (List.range (leavesIn node max a b).length).reverse := by
  obtain ⟨k, hk⟩ : ∃ k, k = b - a := ⟨_, rfl⟩
  induction k generalizing a with
  | zero =>
    rw [leavesIn, ← hk]
    rfl
  | succ k ih =>
    have hrest := @ih (a + 1) (by omega)
    rw [leavesIn_cons node max (show a < b by omega)]
    split
    · rw [List.singleton_append, List.map_cons, hrest, List.length_cons, List.range_succ, List.reverse_append, List.reverse_singleton,
        List.singleton_append]
    · rw [List.nil_append, hrest]

/-- A sum over the leaves, by their ranks. -/
theorem leafSum_rank (w : Nat → Nat) :
    (leafSum node max a b fun p => w (leavesIn node max (p + 1) b).length) = ((List.range (leavesIn node max a b).length).map w).sum := by
  rw [leafSum, show (fun p => w (leavesIn node max (p + 1) b).length) = w ∘ fun p => (leavesIn node max (p + 1) b).length from rfl,
    ← List.map_map, map_rank, List.map_reverse, List.sum_reverse]

/-- The number of leaves with a property. -/
theorem length_filter_leavesIn (P : Nat → Prop) [DecidablePred P] :
    ((leavesIn node max a b).filter fun p => P p).length = leafSum node max a b fun p => if P p then 1 else 0 := by
  rw [leafSum]
  induction leavesIn node max a b with
  | nil => rfl
  | cons x l ih =>
    rw [List.filter_cons, List.map_cons, List.sum_cons, ← ih]
    by_cases hx : P x <;> simp [hx, Nat.add_comm]

end

section
variable {id : TreeId} {f : Forest} {top max : Nat} {node depth : Nat → Nat}

/-- The lengths `final` of the leaves make a complete set within the limit, and `count` counts them. -/
structure CompleteLengths (id : TreeId) (top max : Nat) (node final : Nat → Nat) (count : Nat → Int) : Prop where
  pos : ∀ p, top < p → p < 573 → node p ≤ max → 0 < final p
  le : ∀ p, top < p → p < 573 → node p ≤ max → final p ≤ id.maxLength
  kraft : (leafSum node max (top + 1) 573 fun p => 2 ^ (id.maxLength - final p)) = 2 ^ id.maxLength
  count : ∀ b < 16, count b = (leafSum node max (top + 1) 573 fun p => if final p = b then 1 else 0 : Nat)
  root : final top = 0

theorem completeLengths_shallow (hf : f.Heaped id top max node depth) (hdeep : deepNodes id top node depth = 0)
    (hk : (leafSum node max (top + 1) 573 fun p => 2 ^ (id.maxLength - depth (node p))) = 2 ^ id.maxLength) :
    CompleteLengths id top max node (fun p => depth (node p)) fun b => cutCount id top max node depth b where
  pos p hp hp' _ := hf.depth_pos hp (by omega)
  le p hp hp' _ := deepNodes_eq_zero.1 hdeep p hp (by omega)
  kraft := hk
  count b _ := by
    rw [cutCount, length_filter_leavesIn]
    refine congrArg _ (leafSum_congr fun p hp hp' _ => ?_)
    rw [Nat.min_eq_left (deepNodes_eq_zero.1 hdeep p hp (by omega))]
  root := hf.root

theorem completeLengths_deep (hf : f.Heaped id top max node depth) {c : Nat → Nat}
    (hsum : ∑ b ∈ Finset.Icc 1 id.maxLength, c b = (leavesIn node max (top + 1) 573).length)
    (hk : kraftOf id.maxLength (fun b => (c b : Int)) = 2 ^ id.maxLength) (hzero : ∀ b, b = 0 ∨ id.maxLength < b → c b = 0) :
    CompleteLengths id top max node (repairedLength id top max node depth c) fun b => c b := by
  have hfinal : ∀ p, top < p → node p ≤ max → repairedLength id top max node depth c p =
      lengthFrom c id.maxLength (leavesIn node max (p + 1) 573).length := fun p hp hleaf => if_pos ⟨hp, hleaf⟩
  have hweights : ∀ w : Nat → Nat, (leafSum node max (top + 1) 573 fun p => w (repairedLength id top max node depth c p)) =
      ∑ b ∈ Finset.Icc 1 id.maxLength, c b * w b := fun w => by
    rw [leafSum_congr fun p hp _ hleaf => by rw [hfinal p hp hleaf], leafSum_rank fun r => w (lengthFrom c id.maxLength r), ← hsum,
      sum_lengthFrom]
  refine ⟨fun p hp hp' hleaf => ?_, fun p hp _ hleaf => hfinal p hp hleaf ▸ lengthFrom_le .., ?_, fun b hb => ?_, ?_⟩
  · rw [hfinal p hp hleaf]
    refine lengthFrom_pos ?_
    rw [hsum, leavesIn_append node max (show top + 1 ≤ p from hp) hp'.le, leavesIn_cons node max hp', if_pos hleaf, List.length_append,
      List.length_append, List.length_singleton]
    omega
  · rw [hweights fun l => 2 ^ (id.maxLength - l), ← Nat.cast_inj (R := Int)]
    push_cast
    exact hk
  · rw [hweights fun l => if l = b then 1 else 0]
    simp only [mul_ite, mul_one, mul_zero]
    rw [Finset.sum_ite_eq']
    split
    · rfl
    · rename_i hb'
      rw [Finset.mem_Icc] at hb'
      rw [hzero b (by omega)]
  · rw [repairedLength, if_neg fun h => absurd h.1 (lt_irrefl _), hf.root, Nat.zero_min]

/-- GENBITLEN gives a complete set of lengths. -/
theorem genBitlen_complete (hf : f.Heaped id top max node depth) (hnode : nodesDistinct node top) {deep : Nat}
    (hk : (leafSum node max (top + 1) 573 fun p => 2 ^ (id.maxLength - depth (node p))) = 2 ^ id.maxLength + deep)
    (hdeep : deepNodes id top node depth = 2 * deep) (hlimit : deep ≤ cutCount id top max node depth id.maxLength)
    (hleaves : (leavesIn node max (top + 1) 573).length < 2 ^ id.maxLength) :
    ∃ final count, f.Lengthens id top max node final count ∧ CompleteLengths id top max node final count := by
  have hpos : 0 < id.maxLength := by cases id <;> decide
  by_cases hd : deep = 0
  · exact ⟨_, _, genBitlen_shallow hf (by omega), completeLengths_shallow hf (by omega) (by omega)⟩
  · have h0 : ((cutCount id top max node depth 0 : Nat) : Int) = 0 := by rw [cutCount_zero hf, Nat.cast_zero]
    have hsum := hf.sum_cutCount_one
    have hcut : kraftOf id.maxLength (fun b => (cutCount id top max node depth b : Int)) = 2 ^ id.maxLength + deep := by
      have hw := (hf.sum_cutCount fun b => 2 ^ (id.maxLength - b)).trans <|
        leafSum_congr (cost' := fun p => 2 ^ (id.maxLength - depth (node p))) fun p _ _ _ => by
          rw [show id.maxLength - min (depth (node p)) id.maxLength = id.maxLength - depth (node p) by omega]
      rw [hk] at hw
      rw [kraftOf]
      exact_mod_cast hw
    obtain ⟨c, hc, hkc, hhigh⟩ := repairRounds_ok hpos deep h0 (fun b => Int.natCast_nonneg _) (by exact_mod_cast hlimit)
      (by exact_mod_cast hsum ▸ hleaves) hcut
    obtain ⟨hc0, hcsum⟩ := sum_repairRounds hpos h0 hc
    refine ⟨_, _, genBitlen_deep hf hnode (by omega) (c := c) ?_, completeLengths_deep hf ?_ hkc fun b hb => ?_⟩
    · rw [hdeep, show (2 * deep + 1) / 2 = deep by omega]
      exact hc
    · rw [← hsum]
      exact_mod_cast hcsum
    · rcases hb with rfl | hb
      · exact_mod_cast hc0
      · have := hhigh b hb
        have hnone : cutCount id top max node depth b = 0 := by
          rw [cutCount, List.length_eq_zero_iff, List.filter_eq_nil_iff]
          intro p _
          rw [decide_eq_true_eq]
          omega
        omega

end

/-! ## The lengths of a grown tree -/

section
variable {base : Nat} {depth : Nat → Nat} {pairs : List (Nat × Nat)}

theorem mergedSum_mono {Φ Ψ : Nat → Nat} (h : ∀ d, Φ d ≤ Ψ d) : mergedSum base depth Φ pairs ≤ mergedSum base depth Ψ pairs := by
  induction pairs with
  | nil => exact le_rfl
  | cons p pairs ih => exact Nat.add_le_add (h _) ih

/-- The new nodes at the limit or below it. -/
def deepPairs (id : TreeId) (depth : Nat → Nat) (pairs : List (Nat × Nat)) : Nat :=
  mergedSum id.elems depth (fun d => if id.maxLength ≤ d then 1 else 0) pairs

variable {id : TreeId} {start : List Nat} {root : Nat}

theorem Merges.kraft (h : Merges id.elems start [root] pairs) (hd : Graded id.elems depth pairs) (hroot : depth root = 0) :
    (start.map fun x => 2 ^ (id.maxLength - depth x)).sum = 2 ^ id.maxLength + deepPairs id depth pairs := by
  have hstep : ∀ d, 2 ^ (id.maxLength - d) + (if id.maxLength ≤ d then 1 else 0) = 2 * 2 ^ (id.maxLength - (d + 1)) := fun d => by
    split
    · rw [show id.maxLength - d = 0 by omega, show id.maxLength - (d + 1) = 0 by omega]
      rfl
    · rw [show id.maxLength - d = id.maxLength - (d + 1) + 1 by omega, pow_succ, add_zero, Nat.mul_comm]
  have := h.sum_depth hd hstep
  rw [List.map_singleton, List.sum_singleton, hroot, Nat.sub_zero] at this
  exact this

theorem Merges.deep_le (h : Merges id.elems start [root] pairs) (hd : Graded id.elems depth pairs) :
    deepPairs id depth pairs ≤ (start.map fun x => if id.maxLength ≤ depth x then 1 else 0).sum := by
  have hstep : ∀ d, (if id.maxLength ≤ d then 1 else 0) + (2 * (if id.maxLength ≤ d + 1 then 1 else 0) - if id.maxLength ≤ d then 1 else 0) =
      2 * if id.maxLength ≤ d + 1 then 1 else 0 := fun d => by split_ifs <;> omega
  rw [h.sum_depth hd hstep]
  exact (mergedSum_mono fun d => by split_ifs <;> omega).trans (Nat.le_add_left ..)

end

section
variable {id : TreeId} {f₀ f : Forest} {start : List Nat} {root max : Nat} {pairs : List (Nat × Nat)} {depth : Nat → Nat}

/-- A sum over the leaves is one over the symbols. -/
theorem Forest.Merged.leafSum_eq (h : f₀.Merged f id start [root] pairs) (hstart : ∀ x ∈ start, x ≤ max) (hmax : max < id.elems)
    (htwo : 2 ≤ start.length) (hlen : start.length ≤ id.elems) (w : Nat → Nat) :
    (leafSum (nodeAt (root :: buried pairs) (572 - 2 * pairs.length)) max (572 - 2 * pairs.length + 1) 573 fun p =>
      w (nodeAt (root :: buried pairs) (572 - 2 * pairs.length) p)) = (start.map w).sum := by
  rw [leafSum, ← ((h.leaves hstart hmax htwo hlen).map w).sum_eq, List.map_map]
  rfl

theorem deepNodes_nodeAt (hd : Graded id.elems depth pairs) (hlen : pairs.length ≤ 286) :
    deepNodes id (572 - 2 * pairs.length) (nodeAt (root :: buried pairs) (572 - 2 * pairs.length)) depth = 2 * deepPairs id depth pairs := by
  have htail := map_nodeAt (root :: buried pairs) (572 - 2 * pairs.length)
  rw [List.length_cons, List.range'_succ, List.map_cons, length_buried] at htail
  rw [deepPairs, ← hd.length_deep, deepNodes, show 572 - (572 - 2 * pairs.length) = 2 * pairs.length by omega]
  conv_rhs => rw [← (List.cons.inj htail).2, List.filter_map, List.length_map]
  rfl

theorem Forest.Merged.complete (h : f₀.Merged f id start [root] pairs) (hnodup : start.Nodup) (hstart : ∀ x ∈ start, x ≤ max)
    (hmax : max < id.elems) (hcode : f₀.tree.maxCode = some (max : Int)) (htwo : 2 ≤ start.length) (hlen : start.length ≤ id.elems) :
    ∃ final count,
      (f.rooted (572 - 2 * pairs.length) root).Lengthens id (572 - 2 * pairs.length) max
        (nodeAt (root :: buried pairs) (572 - 2 * pairs.length)) final count ∧
      CompleteLengths id (572 - 2 * pairs.length) max (nodeAt (root :: buried pairs) (572 - 2 * pairs.length)) final count := by
  have helems : id.elems ≤ 286 ∧ id.elems < 2 ^ id.maxLength := by cases id <;> decide
  have hlength := h.merges.length
  rw [List.length_singleton] at hlength
  have hlt : ∀ x ∈ start, x < id.elems := fun x hx => (hstart x hx).trans_lt hmax
  obtain ⟨depth, hdepth, hd⟩ := h.merges.exists_graded hlt hnodup fun _ => 0
  have hroot : depth root = 0 := hdepth root (List.nodup_cons.1 (h.merges.nodup hlt hnodup)).1
  have hsum := h.leafSum_eq hstart hmax htwo hlen
  refine genBitlen_complete (h.heaped hlt hnodup hlen hcode hdepth hd) (h.nodesDistinct hlt hnodup hlen)
    (deep := deepPairs id depth pairs) ?_ (deepNodes_nodeAt hd (by omega)) ?_ ?_
  · rw [hsum fun x => 2 ^ (id.maxLength - depth x)]
    exact h.merges.kraft hd hroot
  · refine (h.merges.deep_le hd).trans_eq ?_
    rw [cutCount, length_filter_leavesIn, ← hsum]
    exact leafSum_congr fun p _ _ _ => if_congr (by rw [min_eq_right_iff]) rfl rfl
  · have := (h.leaves hstart hmax htwo hlen).length_eq
    rw [List.length_map] at this
    omega

end

end Sys2Proof.Machine

/-! # A build from its heap of leaves on (R612) -/

namespace Sys2Proof.Machine

open Sys2Proof.Claim

/-- What a build does once its leaves are in the heap. -/
def growTree (id : TreeId) (heapLen : Nat) (maxCode : Int) (f : Forest) : Except Fault Forest := do
  let f ← heapify id (heapLen / 2) f
  let f ← mergeLoop id heapLen id.elems f
  let root ← heapAt f.tb.heap 1
  let f ← pushSorted root f
  let f ← genBitlen id f
  genCodes id maxCode f

/-- The leaves `start` are in the heap, and every other symbol has length 0. -/
structure Forest.Ready (f : Forest) (id : TreeId) (start : List Nat) (max : Nat) : Prop where
  heapLen : f.tb.heapLen = some start.length
  heapMax : f.tb.heapMax = some 573
  maxCode : f.tree.maxCode = some (max : Int)
  heap : f.tb.heap.Lists 1 start
  known : ∀ n ∈ start, f.Known id n
  nodup : start.Nodup
  le : ∀ n ∈ start, n ≤ max
  max_lt : max < id.elems
  two_le : 2 ≤ start.length
  freq : Cells.wf 0 f.tree.freq
  unused : ∀ n < id.elems, n ∉ start → Cells.find? f.tree.len n = some 0

/-- The length pass made `new` of `old` and counted `bl`: the symbols `start` have the lengths `lens`, a complete set. -/
structure SymbolLengths (id : TreeId) (start : List Nat) (old new : Cells Nat) (bl : Cells Int) (lens : Nat → Nat) : Prop where
  pos : ∀ n ∈ start, 0 < lens n
  le : ∀ n, lens n ≤ id.maxLength
  unused : ∀ n, n ∉ start → lens n = 0
  kraft : (start.map fun n => 2 ^ (id.maxLength - lens n)).sum = 2 ^ id.maxLength
  len : ∀ n < id.elems, Cells.find? new n = some (lens n)
  len_root : Cells.find? new (id.elems + start.length - 2) = some 0
  len_rest : ∀ n, id.elems + start.length ≤ n + 1 → Cells.find? new n = Cells.find? old n
  count : ∀ b < 16, Cells.find? bl b = some (((start.map fun n => if lens n = b then 1 else 0).sum : Nat) : Int)

/-- What a build leaves of `f`, with the code lengths `lens`. -/
structure Forest.Grown (f f' : Forest) (id : TreeId) (start : List Nat) (max : Nat) (lens : Nat → Nat) (pairs : List (Nat × Nat)) : Prop
    extends SymbolLengths id start f.tree.len f'.tree.len f'.tb.blCount lens where
  code : ∀ n, Cells.find? f'.tree.code n =
    if n ∈ start then
      some (BitVec.ofNat 16 (bitrev (firstCode (fun b => (start.map fun n => if lens n = b then 1 else 0).sum) (lens n) +
        ((List.range n).filter fun m => lens m = lens n).length) (lens n)))
    else Cells.find? f.tree.code n
  maxCode : f'.tree.maxCode = some (max : Int)
  merges : Merges id.elems start [id.elems + start.length - 2] pairs
  linked : Linked id.elems f'.tree pairs
  dad : ∀ n, n ∉ buried pairs → Cells.find? f'.tree.dad n = Cells.find? f.tree.dad n
  freq : ∀ n, (n < id.elems ∨ id.elems + start.length ≤ n + 1) → Cells.read 0 f'.tree.freq n = Cells.read 0 f.tree.freq n
  heapLen : f'.tb.heapLen = some 1
  heapMax : f'.tb.heapMax = some (574 - 2 * start.length)
  optLen : f'.optLen = f.optLen + ((start.map fun n => id.leafCost (Cells.read 0 f.tree.freq) n (lens n)).sum : Nat)
  staticLen : f'.staticLen = f.staticLen + ((start.map (id.staticCost (Cells.read 0 f.tree.freq))).sum : Nat)

section
variable {id : TreeId} {f : Forest} {start : List Nat} {max : Nat}

theorem Forest.Ready.lt (h : f.Ready id start max) {n : Nat} (hn : n ∈ start) : n < id.elems := (h.le n hn).trans_lt h.max_lt

theorem Forest.Ready.length_le (h : f.Ready id start max) : start.length ≤ id.elems := by
  have := (List.subperm_of_subset h.nodup fun n hn => List.mem_range.2 (h.lt hn)).length_le
  rwa [List.length_range] at this

theorem pushSorted_rooted {h : Nat} (hh : f.tb.heapMax = some (h + 1)) (h573 : h < 573) (n : Nat) :
    pushSorted n f = .ok (f.rooted h n) := by
  rw [pushSorted, hh, readField, Except.ok_bind, show ((h + 1 : Nat) : Int) - 1 = (h : Int) by omega, setHeap_nat h573, Except.ok_bind]
  rfl

/-- The merge loop grows one tree from the leaves. -/
theorem mergeLoop_ready (h : f.Ready id start max) :
    ∃ f₁ f₂ root pairs, heapify id (start.length / 2) f = .ok f₁ ∧ mergeLoop id start.length id.elems f₁ = .ok f₂ ∧
      f.Merged f₂ id start [root] pairs := by
  have helems : id.elems ≤ 286 := by cases id <;> decide
  have hlen := h.length_le
  obtain ⟨heap, l, hheapify, hperm, hlists⟩ := heapify_perm (by omega) h.heapLen h.heap h.known (Nat.div_le_self start.length 2)
  have hready : f.Merged (f.withHeap heap) id start l [] :=
    { merges := .start hperm
      heapLen := by rw [hperm.length_eq]; exact h.heapLen
      heapMax := h.heapMax
      heap_live := hlists
      heap_buried := fun i hi => absurd hi (Nat.not_lt_zero i)
      known := fun x hx => h.known x (hperm.subset hx)
      linked := trivial
      dad := fun _ _ => rfl
      freq := fun _ _ => rfl
      freq_wf := h.freq
      len := rfl
      code := rfl
      maxCode := rfl
      optLen := rfl
      staticLen := rfl }
  obtain ⟨f₂, root, pairs, hloop, hmerged⟩ := mergeLoop_merged (fun x => h.lt) h.nodup hlen start.length hready
    (by rw [hperm.length_eq]; exact h.two_le) (by rw [hperm.length_eq]; exact Nat.le_succ _)
  exact ⟨_, f₂, root, pairs, hheapify, hloop, hmerged⟩

theorem growTree_eq (h : f.Ready id start max) :
    ∃ f₁ root pairs, f.Merged f₁ id start [root] pairs ∧ growTree id start.length max f = (do
      let f ← genBitlen id (f₁.rooted (572 - 2 * pairs.length) root)
      genCodes id max f) := by
  obtain ⟨f₁, f₂, root, pairs, hheapify, hloop, hmerged⟩ := mergeLoop_ready h
  have hlength := hmerged.merges.length
  have hlen := h.length_le
  have helems : id.elems ≤ 286 := by cases id <;> decide
  rw [List.length_singleton] at hlength
  have hroot : heapAt f₂.tb.heap 1 = .ok root := heapAt_nat (i := 1) (by decide) (hmerged.heap_live 0 one_pos)
  refine ⟨f₂, root, pairs, hmerged, ?_⟩
  rw [growTree, hheapify, Except.ok_bind, hloop, Except.ok_bind, hroot, Except.ok_bind,
    pushSorted_rooted (hmerged.heapMax.trans (congrArg some (show 573 - 2 * pairs.length = 572 - 2 * pairs.length + 1 by omega)))
      (by omega), Except.ok_bind]

/-- The lengths in `len` of the symbols `start`, and 0 for every other. -/
def symbolLens (start : List Nat) (len : Cells Nat) (n : Nat) : Nat := if n ∈ start then Cells.read 0 len n else 0

theorem symbolLens_of_mem {len : Cells Nat} {n l : Nat} (hn : n ∈ start) (hl : Cells.find? len n = some l) : symbolLens start len n = l := by
  rw [symbolLens, if_pos hn, Cells.read, hl]
  rfl

section
variable {node final : Nat → Nat} {top : Nat} {len : Cells Nat}

/-- A sum over the leaves' lengths is one over the symbols'. -/
theorem leafSum_symbolLens (hleaves : ((leavesIn node max (top + 1) 573).map node).Perm start)
    (hset : ∀ p, top ≤ p → p ≤ 572 → Cells.find? len (node p) = some (final p)) (w : Nat → Nat → Nat) :
    (leafSum node max (top + 1) 573 fun p => w (node p) (final p)) = (start.map fun n => w n (symbolLens start len n)).sum := by
  rw [leafSum, ← (hleaves.map fun n => w n (symbolLens start len n)).sum_eq, List.map_map]
  refine congrArg List.sum (List.map_congr_left fun p hp => ?_)
  have hmem := (mem_leavesIn.1 hp).1
  rw [Function.comp_apply, symbolLens_of_mem (hleaves.subset (List.mem_map_of_mem hp)) (hset p (by omega) (by omega))]

/-- Complete lengths of the nodes are complete lengths of the symbols. -/
theorem CompleteLengths.symbols {count : Nat → Int} {old : Cells Nat} {bl : Cells Int} (hc : CompleteLengths id top max node final count)
    (hleaves : ((leavesIn node max (top + 1) 573).map node).Perm start) (hmax : ∀ n ∈ start, n ≤ max) (htop : top ≤ 572)
    (hroot : node top = id.elems + start.length - 2)
    (hnode : ∀ p, top ≤ p → p ≤ 572 → node p ∈ start ∨ id.elems ≤ node p ∧ node p + 1 < id.elems + start.length)
    (hold : ∀ n < id.elems, n ∉ start → Cells.find? old n = some 0)
    (hset : ∀ p, top ≤ p → p ≤ 572 → Cells.find? len (node p) = some (final p))
    (hrest : ∀ n, (∀ p, top ≤ p → p ≤ 572 → n ≠ node p) → Cells.find? len n = Cells.find? old n)
    (hbl : ∀ b < 16, Cells.find? bl b = some (count b)) (hlt : ∀ n ∈ start, n < id.elems) (htwo : 2 ≤ start.length) :
    SymbolLengths id start old len bl (symbolLens start len) := by
  have hleaf : ∀ n ∈ start, ∃ l, Cells.find? len n = some l ∧ 0 < l ∧ l ≤ id.maxLength := fun n hn => by
    obtain ⟨p, hp, rfl⟩ := List.mem_map.1 (hleaves.symm.subset hn)
    obtain ⟨htp, hp573⟩ := (mem_leavesIn.1 hp).1
    exact ⟨final p, hset p (by omega) (by omega), hc.pos p htp hp573 (hmax _ hn), hc.le p htp hp573 (hmax _ hn)⟩
  have hother : ∀ n, n ∉ start → (n < id.elems ∨ id.elems + start.length ≤ n + 1) → Cells.find? len n = Cells.find? old n :=
    fun n hn hrange => hrest n fun p hp hp' e => (hnode p hp hp').elim (fun hmem => hn (e ▸ hmem)) fun hinner => by omega
  have hunused : ∀ n, n ∉ start → symbolLens start len n = 0 := fun n hn => if_neg hn
  refine
    { pos := fun n hn => ?_
      le := fun n => ?_
      unused := hunused
      kraft := (leafSum_symbolLens hleaves hset fun _ l => 2 ^ (id.maxLength - l)).symm.trans hc.kraft
      len := fun n hn => ?_
      len_root := ?_
      len_rest := fun n hn => hother n (fun hmem => by have := hlt n hmem; omega) (Or.inr hn)
      count := fun b hb => by rw [hbl b hb, hc.count b hb, leafSum_symbolLens hleaves hset fun _ l => if l = b then 1 else 0] }
  · obtain ⟨l, hl, hpos, -⟩ := hleaf n hn
    rwa [symbolLens_of_mem hn hl]
  · by_cases hn : n ∈ start
    · obtain ⟨l, hl, -, hle⟩ := hleaf n hn
      rwa [symbolLens_of_mem hn hl]
    · rw [hunused n hn]
      exact Nat.zero_le _
  · by_cases hmem : n ∈ start
    · obtain ⟨l, hl, -⟩ := hleaf n hmem
      rw [symbolLens_of_mem hmem hl, hl]
    · rw [hunused n hmem, hother n hmem (Or.inl hn), hold n hn hmem]
  · rw [← hroot, hset top le_rfl htop, hc.root]

end

variable {f₁ : Forest} {root : Nat} {pairs : List (Nat × Nat)}

/-- The length pass after the merge loop, told by the symbols. -/
theorem Forest.Merged.genBitlen_eq (hm : f.Merged f₁ id start [root] pairs) (h : f.Ready id start max) :
    ∃ lens len bl, genBitlen id (f₁.rooted (572 - 2 * pairs.length) root) = .ok ((f₁.rooted (572 - 2 * pairs.length) root).walked len bl
        (start.map fun n => id.leafCost (Cells.read 0 f₁.tree.freq) n (lens n)).sum
        (start.map (id.staticCost (Cells.read 0 f₁.tree.freq))).sum) ∧
      root = id.elems + start.length - 2 ∧ SymbolLengths id start f.tree.len len bl lens := by
  have hlen := h.length_le
  have htwo := h.two_le
  have helems : id.elems ≤ 286 := by cases id <;> decide
  have hlength := hm.merges.length
  rw [List.length_singleton] at hlength
  obtain ⟨final, count, ⟨len, bl, hset, hrest, hbl, hgen⟩, hcomplete⟩ := hm.complete h.nodup h.le h.max_lt h.maxCode htwo hlen
  have hleaves := hm.leaves h.le h.max_lt htwo hlen
  have hroot : root = id.elems + start.length - 2 := by
    have := hm.merges.root_eq (by omega)
    omega
  have hnode : ∀ p, 572 - 2 * pairs.length ≤ p → p ≤ 572 →
      nodeAt (root :: buried pairs) (572 - 2 * pairs.length) p ∈ start ++ List.range' id.elems pairs.length := fun p hp hp' =>
    hm.merges.perm.subset (List.mem_of_getElem? (getElem?_nodeAt (nodes := root :: buried pairs) hp (by
      rw [List.length_cons, length_buried]
      omega)))
  refine ⟨symbolLens start len, len, bl, ?_, hroot, hcomplete.symbols hleaves h.le (by omega) ?_ (fun p hp hp' => ?_) h.unused hset
    (fun n hn => ?_) hbl (fun n => h.lt) htwo⟩
  · exact hgen.trans (congrArg₂ (fun opt static => Except.ok (Forest.walked _ len bl (opt : Nat) static))
      (leafSum_symbolLens hleaves hset (id.leafCost (Cells.read 0 f₁.tree.freq)))
      (leafSum_symbolLens hleaves hset fun n _ => id.staticCost (Cells.read 0 f₁.tree.freq) n))
  · rw [nodeAt, Nat.sub_self, ← hroot]
    rfl
  · refine (List.mem_append.1 (hnode p hp hp')).imp_right fun hmem => ?_
    rw [List.mem_range'_1] at hmem
    omega
  · rw [hrest n hn]
    exact congrArg (Cells.find? · n) hm.len

/-- A build of two or more leaves. -/
theorem growTree_grown (h : f.Ready id start max) :
    ∃ f' lens pairs, growTree id start.length max f = .ok f' ∧ f.Grown f' id start max lens pairs := by
  obtain ⟨f₁, root, pairs, hmerged, hgrow⟩ := growTree_eq h
  obtain ⟨lens, len, bl, hgen, hroot, hlens⟩ := hmerged.genBitlen_eq h
  have hlength := hmerged.merges.length
  rw [List.length_singleton] at hlength
  obtain ⟨code, hcodes, hcode⟩ := genCodes_codes (f := (f₁.rooted (572 - 2 * pairs.length) root).walked len bl _ _) (lens := lens) h.max_lt
    hlens.count fun n hn => ⟨hlens.len n (by have := h.max_lt; omega), (hlens.le n).trans id.maxLength_le⟩
  have hcoded : ∀ n, (n ≤ max ∧ lens n ≠ 0) = (n ∈ start) := fun n =>
    propext ⟨fun hn => by_contra fun hmem => hn.2 (hlens.unused n hmem), fun hn => ⟨h.le n hn, (hlens.pos n hn).ne'⟩⟩
  have hfreq : ∀ n ∈ start, Cells.read 0 f₁.tree.freq n = Cells.read 0 f.tree.freq n := fun n hn => hmerged.freq n (Or.inl (h.lt hn))
  have hcost : ∀ n ∈ start, id.leafCost (Cells.read 0 f₁.tree.freq) n (lens n) = id.leafCost (Cells.read 0 f.tree.freq) n (lens n) :=
    fun n hn => by rw [TreeId.leafCost, TreeId.leafCost, hfreq n hn]
  have hstatic : ∀ n ∈ start, id.staticCost (Cells.read 0 f₁.tree.freq) n = id.staticCost (Cells.read 0 f.tree.freq) n := fun n hn => by
    rw [TreeId.staticCost, TreeId.staticCost, hfreq n hn]
  refine ⟨_, lens, pairs, by rw [hgrow, hgen, Except.ok_bind]; exact hcodes, ?_⟩
  exact
    { toSymbolLengths := hlens
      code := fun n => (hcode n).trans (ite_congr (hcoded n) (fun _ => rfl) fun _ => congrArg (Cells.find? · n) hmerged.code)
      maxCode := hmerged.maxCode.trans h.maxCode
      merges := hroot ▸ hmerged.merges
      linked := hmerged.linked.congr (fun _ _ => rfl) (fun _ _ => rfl) fun _ _ => rfl
      dad := hmerged.dad
      freq := fun n hn => hmerged.freq n (by omega)
      heapLen := hmerged.heapLen
      heapMax := congrArg some (by omega)
      optLen := congrArg₂ (· + ·) hmerged.optLen (congrArg Nat.cast (congrArg List.sum (List.map_congr_left hcost)))
      staticLen := congrArg₂ (· + ·) hmerged.staticLen (congrArg Nat.cast (congrArg List.sum (List.map_congr_left hstatic))) }

end

end Sys2Proof.Machine

/-! # The leaves of a build (R612)

The used symbols enter the heap in order; where fewer than two are used, symbols are forced to have a code. -/

namespace Sys2Proof.Machine

open Sys2Proof.Claim

/-- The symbols forced to have a code. -/
def forcedNodes : List Nat → List Nat
  | [] => [0, 1]
  | [u] => if u < 2 then [u + 1] else [0]
  | _ :: _ :: _ => []

/-- The last symbol with a code. -/
def lastCoded : List Nat → Nat
  | [] => 1
  | [u] => if u < 2 then u + 1 else u
  | a :: b :: rest => (a :: b :: rest).getLastD 0

/-- The static length of symbol `n`, 0 where the descriptor has no static tree. -/
def TreeId.staticLen (id : TreeId) (n : Nat) : Nat := (id.stree n).getD 0

/-- `f₁` is `f` with the symbols `used` and the forced ones `fs` in the heap. -/
structure Forest.Gathered (f f₁ : Forest) (id : TreeId) (used fs : List Nat) : Prop where
  heap : f₁.tb.heap.Lists 1 (used ++ fs)
  known : ∀ n ∈ used ++ fs, f₁.Known id n
  freq : ∀ n, Cells.read 0 f₁.tree.freq n = if n ∈ fs then 1 else Cells.read 0 f.tree.freq n
  freq_wf : Cells.wf 0 f₁.tree.freq
  len : ∀ n, Cells.find? f₁.tree.len n = if n < id.elems ∧ n ∉ used then some 0 else Cells.find? f.tree.len n
  code : f₁.tree.code = f.tree.code
  dad : f₁.tree.dad = f.tree.dad
  optLen : f₁.optLen = f.optLen - fs.length
  staticLen : f₁.staticLen = f.staticLen - ((fs.map id.staticLen).sum : Nat)

/-- `f` after symbol `node` was forced into a heap of `heapLen` nodes. -/
def Forest.forced (f : Forest) (id : TreeId) (heapLen node : Nat) : Forest :=
  { tree := { f.tree with freq := Cells.write 0 f.tree.freq node 1 }
    tb := { f.tb with heap := Cells.put f.tb.heap (heapLen + 1) node, depth := Cells.put f.tb.depth node 0 }
    optLen := f.optLen - 1
    staticLen := f.staticLen - (id.staticLen node : Nat) }

/-- `f` after its leaves entered the heap. -/
def Forest.withLeaves (f : Forest) (heap : Cells Nat) (depth : Cells Byte) (len : Cells Nat) : Forest :=
  { f with
    tree := { f.tree with len := len }
    tb := { f.tb with heap := heap, depth := depth } }

section
variable {id : TreeId} {f f₁ : Forest} {used fs : List Nat}

/-- The symbol loop enters the used symbols in order. -/
theorem gatherLeaves_used (ns : List Nat) (hns : ∀ n ∈ ns, n < id.elems) {heapLen : Nat} (hlen : heapLen + ns.length < 573) (maxCode : Int)
    (heap : Cells Nat) (depth : Cells Byte) (len : Cells Nat) :
    ∃ heap' depth' len',
      gatherLeaves id ns heapLen maxCode (f.withLeaves heap depth len) =
        .ok (heapLen + (ns.filter fun n => Cells.read 0 f.tree.freq n ≠ 0).length,
          ((ns.filter fun n => Cells.read 0 f.tree.freq n ≠ 0).map Nat.cast).getLastD maxCode, f.withLeaves heap' depth' len') ∧
      heap'.Lists (heapLen + 1) (ns.filter fun n => Cells.read 0 f.tree.freq n ≠ 0) ∧
      (∀ k ≤ heapLen, Cells.find? heap' k = Cells.find? heap k) ∧
      (∀ n, (n ∈ ns.filter (fun n => Cells.read 0 f.tree.freq n ≠ 0) ∨ ∃ d, Cells.find? depth n = some d) → ∃ d, Cells.find? depth' n = some d) ∧
      ∀ n, Cells.find? len' n = if n ∈ ns ∧ Cells.read 0 f.tree.freq n = 0 then some 0 else Cells.find? len n := by
  have helems : id.elems ≤ 286 := by cases id <;> decide
  induction ns generalizing heapLen maxCode heap depth len with
  | nil =>
    exact ⟨heap, depth, len, rfl, fun i hi => absurd hi (Nat.not_lt_zero i), fun _ _ => rfl, fun n hn => hn.resolve_left (List.not_mem_nil),
      fun n => (if_neg fun h => List.not_mem_nil h.1).symm⟩
  | cons n ns ih =>
    have hn := hns n List.mem_cons_self
    have hnode : n < id.nodes := hn.trans_le id.elems_le_nodes
    have hns' : ∀ m ∈ ns, m < id.elems := fun m hm => hns m (List.mem_cons_of_mem _ hm)
    rw [List.length_cons] at hlen
    have hread : Tree.freqAt id (f.withLeaves heap depth len).tree n = .ok (Cells.read 0 f.tree.freq n) := Tree.freqAt_nat hnode _
    rw [gatherLeaves, hread, Except.ok_bind]
    by_cases hzero : Cells.read 0 f.tree.freq n = 0
    · obtain ⟨heap', depth', len', hgather, hlists, hheap, hdepth, hfind⟩ := ih hns' (heapLen := heapLen) (by omega) maxCode heap depth (Cells.put len n 0)
      refine ⟨heap', depth', len', ?_, ?_, hheap, ?_, fun m => ?_⟩
      · rw [if_neg (not_not.2 hzero), show (f.withLeaves heap depth len).tree.len = len from rfl, Cells.set_nat _ _ hnode, Except.ok_bind,
          List.filter_cons_of_neg (by simpa using hzero)]
        exact hgather
      · rwa [List.filter_cons_of_neg (by simpa using hzero)]
      · rwa [List.filter_cons_of_neg (by simpa using hzero)]
      · rw [hfind, Cells.find?_put]
        by_cases hm : m = n
        · simp [hm, hzero]
        · simp [hm]
    · obtain ⟨heap', depth', len', hgather, hlists, hheap, hdepth, hfind⟩ := ih hns' (heapLen := heapLen + 1) (by omega) n
        (Cells.put heap (heapLen + 1) n) (Cells.put depth n 0) len
      have hused : (n :: ns).filter (fun n => Cells.read 0 f.tree.freq n ≠ 0) = n :: ns.filter fun n => Cells.read 0 f.tree.freq n ≠ 0 :=
        List.filter_cons_of_pos (by simpa using hzero)
      rw [hused]
      refine ⟨heap', depth', len', ?_, hlists.cons ?_, fun k hk => ?_, fun m hm => hdepth m ?_, fun m => ?_⟩
      · rw [if_pos hzero, show (f.withLeaves heap depth len).tb.heap = heap from rfl,
          show (heapLen : Int) + 1 = ((heapLen + 1 : Nat) : Int) from rfl, setHeap_nat (by omega), Except.ok_bind,
          show (f.withLeaves heap depth len).tb.depth = depth from rfl,
          Cells.set_nat _ _ (show n < Config.heapSize from hnode.trans_le id.nodes_le), Except.ok_bind, List.length_cons, List.map_cons,
          List.getLastD_cons]
        exact hgather.trans (congrArg Except.ok (Prod.ext (Nat.succ_add_eq_add_succ ..) rfl))
      · rw [hheap _ le_rfl, Cells.find?_put_same]
      · rw [hheap k (Nat.le_succ_of_le hk), Cells.find?_put_ne _ _ (by omega)]
      · by_cases hmn : m = n
        · exact Or.inr ⟨0, by rw [hmn, Cells.find?_put_same]⟩
        · rw [Cells.find?_put_ne _ _ hmn]
          exact hm.imp_left fun h => (List.mem_cons.1 h).resolve_left hmn
      · rw [hfind]
        by_cases hmn : m = n
        · rw [hmn, if_neg fun h => hzero h.2, if_neg fun h => hzero h.2]
        · simp [hmn]

/-- The symbols that are used are gathered, none forced. -/
theorem gatherLeaves_gathered (hf : Cells.wf 0 f.tree.freq) :
    ∃ f₁, gatherLeaves id (List.range id.elems) 0 (-1) f =
        .ok ((usedBelow id.elems (Cells.read 0 f.tree.freq)).length,
          ((usedBelow id.elems (Cells.read 0 f.tree.freq)).map Nat.cast).getLastD (-1), f₁) ∧
      f.Gathered f₁ id (usedBelow id.elems (Cells.read 0 f.tree.freq)) [] := by
  have helems : id.elems ≤ 286 := by cases id <;> decide
  obtain ⟨heap, depth, len, hgather, hlists, -, hdepth, hfind⟩ := gatherLeaves_used (f := f) (List.range id.elems)
    (fun n => List.mem_range.1) (heapLen := 0) (by rw [List.length_range]; omega) (-1) f.tb.heap f.tb.depth f.tree.len
  rw [Nat.zero_add] at hgather
  refine ⟨_, hgather, ?_⟩
  have hused : ∀ n, n ∈ usedBelow id.elems (Cells.read 0 f.tree.freq) ↔ n < id.elems ∧ Cells.read 0 f.tree.freq n ≠ 0 := fun n => by
    rw [usedBelow, List.mem_filter, List.mem_range, decide_eq_true_eq]
  exact
    { heap := by rw [List.append_nil]; exact hlists
      known := fun n hn => by
        rw [List.append_nil] at hn
        exact ⟨((hused n).1 hn).1.trans_le id.elems_le_nodes, hdepth n (Or.inl hn)⟩
      freq := fun n => (if_neg List.not_mem_nil).symm
      freq_wf := hf
      len := fun n => (hfind n).trans <| if_congr (by
        rw [hused, List.mem_range]
        tauto) rfl rfl
      code := rfl
      dad := rfl
      optLen := (sub_zero _).symm
      staticLen := (sub_zero _).symm }

/-- One more symbol is forced into the heap. -/
theorem Forest.Gathered.force (h : f.Gathered f₁ id used fs) {node : Nat} (hnode : node < id.elems) :
    f.Gathered (f₁.forced id (used ++ fs).length node) id used (fs ++ [node]) := by
  have hread : ∀ n, Cells.read 0 (f₁.forced id (used ++ fs).length node).tree.freq n = if n = node then 1 else Cells.read 0 f₁.tree.freq n :=
    fun n => Cells.read_write (d := 0) h.freq_wf.1 node n 1
  exact
    { heap := by
        rw [← List.append_assoc]
        refine (h.heap.congr fun k _ hk => Cells.find?_put_ne _ _ (by omega)).concat ?_
        rw [Nat.add_comm 1]
        exact Cells.find?_put_same ..
      known := fun n hn => by
        rw [← List.append_assoc, List.mem_append, List.mem_singleton] at hn
        rw [Forest.Known, Forest.forced, Cells.find?_put]
        by_cases hnn : n = node
        · exact ⟨hnn ▸ hnode.trans_le id.elems_le_nodes, 0, if_pos hnn⟩
        · rw [if_neg hnn]
          exact h.known n (hn.resolve_right hnn)
      freq := fun n => by
        rw [hread, h.freq]
        simp only [List.mem_append, List.mem_singleton]
        split_ifs <;> tauto
      freq_wf := Cells.wf_write h.freq_wf node 1
      len := h.len
      code := h.code
      dad := h.dad
      optLen := by
        have := h.optLen
        rw [List.length_append (as := fs), List.length_singleton]
        show f₁.optLen - 1 = _
        omega
      staticLen := by
        have := h.staticLen
        rw [List.map_append, List.sum_append, List.map_singleton, List.sum_singleton]
        show f₁.staticLen - (id.staticLen node : Nat) = _
        omega }

theorem forceTwo_force {fuel heapLen : Nat} {maxCode : Int} (hlen : heapLen < 2) {node : Nat}
    (hnode : (if maxCode < 2 then (maxCode + 1).toNat else 0) = node) (hlt : node < id.elems) :
    forceTwo id (fuel + 1) heapLen maxCode f =
      forceTwo id fuel (heapLen + 1) (if maxCode < 2 then maxCode + 1 else maxCode) (f.forced id heapLen node) := by
  have hnodes : node < id.nodes := hlt.trans_le id.elems_le_nodes
  rw [forceTwo, if_pos hlen]
  simp only [hnode]
  rw [show (heapLen : Int) + 1 = ((heapLen + 1 : Nat) : Int) from rfl, setHeap_nat (by omega), Except.ok_bind,
    Tree.setFreq_nat hnodes, Except.ok_bind, Cells.set_nat _ _ (show node < Config.heapSize from hnodes.trans_le id.nodes_le), Except.ok_bind]
  refine congrArg (forceTwo id fuel (heapLen + 1) _) ?_
  rw [Forest.forced, TreeId.staticLen]
  cases id.stree node <;> rfl

theorem forceTwo_enough {fuel heapLen : Nat} {maxCode : Int} (hlen : ¬ heapLen < 2) : forceTwo id fuel heapLen maxCode f = .ok (heapLen, maxCode, f) := by
  cases fuel with
  | zero => rfl
  | succ fuel => rw [forceTwo, if_neg hlen]

theorem getLastD_map_cast (l : List Nat) (a : Nat) : (l.map (Nat.cast : Nat → Int)).getLastD a = (l.getLastD a : Nat) := by
  induction l generalizing a with
  | nil => rfl
  | cons x l ih => rw [List.map_cons, List.getLastD_cons, List.getLastD_cons, ih]

/-- At least two symbols have codes. -/
theorem forceTwo_gathered (h : f.Gathered f₁ id used []) (hused : ∀ n ∈ used, n < id.elems) :
    ∃ f₂, forceTwo id 2 used.length ((used.map (Nat.cast : Nat → Int)).getLastD (-1)) f₁ =
        .ok ((used ++ forcedNodes used).length, (lastCoded used : Int), f₂) ∧ f.Gathered f₂ id used (forcedNodes used) := by
  have helems : 19 ≤ id.elems := by cases id <;> decide
  match used with
  | [] =>
    have h₁ := h.force (node := 0) (by omega)
    exact ⟨_, by rw [forceTwo_force (node := 0) (by decide) rfl (by omega), forceTwo_force (node := 1) (by decide) rfl (by omega)]; rfl,
      h₁.force (node := 1) (by omega)⟩
  | [u] =>
    have hu := hused u List.mem_cons_self
    rw [List.map_singleton, List.getLastD_cons, List.getLastD_nil]
    by_cases hlow : u < 2
    · refine ⟨_, ?_, (if_pos hlow : forcedNodes [u] = _) ▸ h.force (node := u + 1) (by omega)⟩
      rw [forceTwo_force (node := u + 1) (by simp) (by rw [if_pos (by omega)]; omega) (by omega), forceTwo_enough (by simp),
        if_pos (by omega), forcedNodes, if_pos hlow, lastCoded, if_pos hlow]
      rfl
    · refine ⟨_, ?_, (if_neg hlow : forcedNodes [u] = _) ▸ h.force (node := 0) (by omega)⟩
      rw [forceTwo_force (node := 0) (by simp) (by rw [if_neg (by omega)]) (by omega), forceTwo_enough (by simp),
        if_neg (by omega), forcedNodes, if_neg hlow, lastCoded, if_neg hlow]
      rfl
  | a :: b :: rest =>
    refine ⟨f₁, ?_, h⟩
    rw [forceTwo_enough (by simp), List.map_cons, List.getLastD_cons, getLastD_map_cast, forcedNodes, List.append_nil, lastCoded,
      List.getLastD_cons, List.getLastD_cons, List.getLastD_cons]

/-! ## The symbols with codes -/

theorem usedBelow_pairwise (n : Nat) (freq : Nat → Nat) : (usedBelow n freq).Pairwise (· < ·) := List.pairwise_lt_range.filter _

theorem mem_usedBelow {n k : Nat} {freq : Nat → Nat} : k ∈ usedBelow n freq ↔ k < n ∧ freq k ≠ 0 := by
  rw [usedBelow, List.mem_filter, List.mem_range, decide_eq_true_eq]

theorem le_getLastD {l : List Nat} (h : l.Pairwise (· < ·)) {a n : Nat} (hn : n ∈ a :: l) (ha : ∀ m ∈ l, a < m) : n ≤ l.getLastD a := by
  induction l generalizing a n with
  | nil =>
    rw [List.mem_singleton.1 hn]
    rfl
  | cons x l ih =>
    obtain ⟨hx, hl⟩ := List.pairwise_cons.1 h
    have hax := ha x List.mem_cons_self
    rw [List.getLastD_cons]
    rcases List.mem_cons.1 hn with rfl | hn
    · exact hax.le.trans (ih hl List.mem_cons_self hx)
    · exact ih hl hn hx

theorem getLastD_mem (l : List Nat) (a : Nat) : l.getLastD a ∈ a :: l := by
  induction l generalizing a with
  | nil => exact List.mem_cons_self
  | cons x l ih =>
    rw [List.getLastD_cons]
    exact List.mem_cons_of_mem _ (ih x)

theorem nodup_coded (h : used.Pairwise (· < ·)) : (used ++ forcedNodes used).Nodup := by
  match used with
  | [] => decide
  | [u] =>
    rw [forcedNodes]
    split
    · simp
    · simp
      omega
  | a :: b :: rest =>
    rw [forcedNodes, List.append_nil]
    exact h.imp fun hlt => hlt.ne

theorem le_lastCoded (h : used.Pairwise (· < ·)) {n : Nat} (hn : n ∈ used ++ forcedNodes used) : n ≤ lastCoded used := by
  match used with
  | [] =>
    rw [forcedNodes] at hn
    simp only [List.nil_append, List.mem_cons, List.not_mem_nil, or_false] at hn
    rw [lastCoded]
    omega
  | [u] =>
    rw [forcedNodes] at hn
    rw [lastCoded]
    split <;> simp_all <;> omega
  | a :: b :: rest =>
    rw [forcedNodes, List.append_nil] at hn
    obtain ⟨ha, hrest⟩ := List.pairwise_cons.1 h
    exact le_getLastD hrest hn ha

theorem lastCoded_lt (hused : ∀ n ∈ used, n < id.elems) : lastCoded used < id.elems := by
  have helems : 19 ≤ id.elems := by cases id <;> decide
  match used with
  | [] =>
    rw [lastCoded]
    omega
  | [u] =>
    have := hused u List.mem_cons_self
    rw [lastCoded]
    split <;> omega
  | a :: b :: rest => exact hused _ (getLastD_mem (b :: rest) a)

theorem two_le_length_coded (used : List Nat) : 2 ≤ (used ++ forcedNodes used).length := by
  match used with
  | [] => decide
  | [u] =>
    rw [forcedNodes]
    split <;> simp
  | a :: b :: rest => simp

/-! ## The whole build -/

theorem buildTree_eq (id : TreeId) (f : Forest) : buildTree id f = (do
    let (heapLen, maxCode, f) ← gatherLeaves id (List.range id.elems) 0 (-1) f
    let (heapLen, maxCode, f) ← forceTwo id 2 heapLen maxCode f
    let f ← growTree id heapLen maxCode { f with
      tree := { f.tree with maxCode := some maxCode }
      tb := { f.tb with heapLen := some heapLen, heapMax := some 573 } }
    .ok (maxCode, f)) := by
  rw [buildTree]
  refine bind_congr fun ⟨heapLen, maxCode, f⟩ => bind_congr fun ⟨heapLen, maxCode, f⟩ => ?_
  simp only [growTree, bind_assoc]
  rfl

/-- The leaves of `f`, ready to be merged. -/
theorem Forest.Gathered.ready (h : f.Gathered f₁ id (usedBelow id.elems (Cells.read 0 f.tree.freq))
    (forcedNodes (usedBelow id.elems (Cells.read 0 f.tree.freq)))) :
    Forest.Ready { f₁ with
      tree := { f₁.tree with maxCode := some (lastCoded (usedBelow id.elems (Cells.read 0 f.tree.freq)) : Int) }
      tb := { f₁.tb with
        heapLen := some (usedBelow id.elems (Cells.read 0 f.tree.freq) ++
          forcedNodes (usedBelow id.elems (Cells.read 0 f.tree.freq))).length
        heapMax := some 573 } } id (usedBelow id.elems (Cells.read 0 f.tree.freq) ++
          forcedNodes (usedBelow id.elems (Cells.read 0 f.tree.freq))) (lastCoded (usedBelow id.elems (Cells.read 0 f.tree.freq))) := by
  have hused : ∀ n ∈ usedBelow id.elems (Cells.read 0 f.tree.freq), n < id.elems := fun n hn => (mem_usedBelow.1 hn).1
  exact
    { heapLen := rfl
      heapMax := rfl
      maxCode := rfl
      heap := h.heap
      known := h.known
      nodup := nodup_coded (usedBelow_pairwise _ _)
      le := fun n => le_lastCoded (usedBelow_pairwise _ _)
      max_lt := lastCoded_lt hused
      two_le := two_le_length_coded _
      freq := h.freq_wf
      unused := fun n hn hmem => (h.len n).trans (if_pos ⟨hn, fun hu => hmem (List.mem_append_left _ hu)⟩) }

/-- A build succeeds. -/
theorem buildTree_grown (hf : Cells.wf 0 f.tree.freq) (hused : used = usedBelow id.elems (Cells.read 0 f.tree.freq)) :
    ∃ f₁ f' lens pairs, buildTree id f = .ok ((lastCoded used : Int), f') ∧ f.Gathered f₁ id used (forcedNodes used) ∧
      f₁.Grown f' id (used ++ forcedNodes used) (lastCoded used) lens pairs := by
  subst hused
  obtain ⟨f₁, hgather, h₁⟩ := gatherLeaves_gathered (id := id) hf
  obtain ⟨f₂, hforce, h₂⟩ := forceTwo_gathered h₁ fun n hn => (mem_usedBelow.1 hn).1
  obtain ⟨f', lens, pairs, hgrow, hgrown⟩ := growTree_grown h₂.ready
  refine ⟨f₂, f', lens, pairs, ?_, h₂, { hgrown with }⟩
  rw [buildTree_eq, hgather, Except.ok_bind]
  simp only
  rw [hforce, Except.ok_bind]
  simp only
  rw [hgrow, Except.ok_bind]

end

end Sys2Proof.Machine

/-! # BUILD (R612, R615, R620) -/

namespace Sys2Proof.Machine

open Sys2Proof.Claim

/-- BUILD answers what the build leaves. -/
theorem completes_tbBuild {desc : BitVec 2} {s : State} {d : Deflate} {max : Nat} {f : Forest} (h : s.isDeflate d) (hdesc : desc.toNat ≤ 2)
    (hbuild : buildTree (treeOf desc) (d.forest (treeOf desc)) = .ok ((max : Int), f)) {opt static : Int}
    (hopt : f.optLen = opt) (hstatic : f.staticLen = static) :
    completes (.tbBuild desc) s 0 max 0
      (.deflate { d.setTree (treeOf desc) f.tree with tb := f.tb, optLen := opt, staticLen := static }) s.port.input [] := by
  subst hopt hstatic
  have hb : d.buildTree (treeOf desc) = .ok ((max : Int), d.plant (treeOf desc) f) := by
    rw [Deflate.buildTree, hbuild]
    rfl
  refine completes_of_deflate (st := .ok) (p := s.startPort) h (exec_legal (exec_tbBuild desc) (decide_eq_true hdesc) s) ?_ rfl
  rw [hb, Reply.ofExcept_ok, ← show wordOfInt (max : Int) = BitVec.ofNat 32 max from BitVec.ofInt_natCast ..]
  rfl

section
variable {used : List Nat}

/-- Where at most two symbols are used, the coded ones are a pair. -/
theorem coded_perm_pair (h : used.Pairwise (· < ·)) (hlen : used.length ≤ 2) :
    (used ++ forcedNodes used).Perm [(codedPair used).1, (codedPair used).2] := by
  match used with
  | [] => exact List.Perm.refl _
  | [u] =>
    rw [forcedNodes, codedPair]
    split
    · exact List.Perm.refl _
    · exact List.Perm.swap ..
  | [a, b] => exact List.Perm.refl _

theorem lastCoded_eq_pair (hlen : used.length ≤ 2) : lastCoded used = (codedPair used).2 := by
  match used with
  | [] => rfl
  | [u] =>
    rw [lastCoded, codedPair]
    split <;> rfl
  | [a, b] => rfl

theorem codedPair_lt (h : used.Pairwise (· < ·)) (hlen : used.length ≤ 2) : (codedPair used).1 < (codedPair used).2 := by
  match used with
  | [] => exact one_pos
  | [u] =>
    rw [codedPair]
    split
    · exact Nat.lt_succ_self u
    · exact Nat.lt_of_lt_of_le two_pos (Nat.le_of_not_lt ‹_›)
  | [a, b] => exact (List.pairwise_cons.1 h).1 b List.mem_cons_self

end

/-! ## The lengths as a list -/

section
variable {id : TreeId} {f f' : Forest} {start : List Nat} {max : Nat} {lens freq : Nat → Nat} {pairs : List (Nat × Nat)}

theorem Forest.Grown.lensBelow_eq (h : f.Grown f' id start max lens pairs) : lensBelow f'.tree id.elems = (List.range id.elems).map lens :=
  List.map_congr_left fun n hn => by rw [h.len n (List.mem_range.1 hn), Option.getD_some]

theorem getD_map_range {k n : Nat} (hn : n < k) (g : Nat → Nat) : ((List.range k).map g).getD n 0 = g n := by
  rw [List.getD_eq_getElem?_getD, List.getElem?_map, List.getElem?_range hn]
  rfl

/-- The lengths not 0 are those of the used symbols. -/
theorem Forest.Grown.filter_lens (h : f.Grown f' id (usedBelow id.elems freq) max lens pairs) {P : Nat → Bool} (hP : P 0 = false) :
    (lensBelow f'.tree id.elems).filter P = ((usedBelow id.elems freq).map lens).filter P := by
  rw [h.lensBelow_eq, List.filter_map, List.filter_map, usedBelow, List.filter_filter]
  refine congrArg _ (List.filter_congr fun n hn => ?_)
  by_cases hfreq : freq n = 0
  · have hunused : lens n = 0 := h.unused n fun hmem => (mem_usedBelow.1 hmem).2 hfreq
    rw [Function.comp_apply, hunused, hP, Bool.false_and]
  · rw [decide_eq_true hfreq, Bool.and_true]

theorem sum_ite_eq_count (ns : List Nat) (lens : Nat → Nat) (b : Nat) :
    (ns.map fun n => if lens n = b then 1 else 0).sum = ((ns.map lens).filter fun x => x == b).length := by
  induction ns with
  | nil => rfl
  | cons n ns ih =>
    rw [List.map_cons, List.sum_cons, ih, List.map_cons, List.filter_cons]
    by_cases hb : lens n = b <;> simp [hb, Nat.add_comm]

/-- How many symbols have a length. -/
theorem Forest.Grown.count_lens (h : f.Grown f' id (usedBelow id.elems freq) max lens pairs) {b : Nat} (hb : b ≠ 0) :
    ((usedBelow id.elems freq).map fun n => if lens n = b then 1 else 0).sum = ((lensBelow f'.tree id.elems).filter fun x => x == b).length := by
  rw [h.filter_lens (P := fun x => x == b) (beq_false_of_ne hb.symm), sum_ite_eq_count]

theorem Forest.Grown.kraft_lens (h : f.Grown f' id (usedBelow id.elems freq) max lens pairs) : Claim.kraft (lensBelow f'.tree id.elems) = 2 ^ 15 := by
  have hL := id.maxLength_le
  have hself : ((usedBelow id.elems freq).map lens).filter (fun l => decide (l ≠ 0)) = (usedBelow id.elems freq).map lens :=
    List.filter_eq_self.2 fun l hl => by
      obtain ⟨n, hn, rfl⟩ := List.mem_map.1 hl
      exact decide_eq_true (h.pos n hn).ne'
  have hscale : ∀ n, 2 ^ (15 - lens n) = 2 ^ (15 - id.maxLength) * 2 ^ (id.maxLength - lens n) := fun n => by
    have := h.le n
    rw [← pow_add]
    congr 1
    omega
  rw [Claim.kraft, h.filter_lens (P := fun l => decide (l ≠ 0)) rfl, hself, List.map_map,
    show ((fun l => 2 ^ (15 - l)) ∘ lens) = fun n => 2 ^ (15 - id.maxLength) * 2 ^ (id.maxLength - lens n) from funext hscale,
    List.sum_map_mul_left, h.kraft, ← pow_add, Nat.sub_add_cancel hL]

/-- The codes are the canonical ones, bit-reversed. -/
theorem Forest.Grown.code_eq (h : f.Grown f' id (usedBelow id.elems freq) max lens pairs) {n : Nat} (hn : n ∈ usedBelow id.elems freq) :
    firstCode (fun b => ((usedBelow id.elems freq).map fun n => if lens n = b then 1 else 0).sum) (lens n) +
      ((List.range n).filter fun m => lens m = lens n).length = canonicalCode (lensBelow f'.tree id.elems) n := by
  have hlt := (mem_usedBelow.1 hn).1
  have hpos := h.pos n hn
  have hget : (lensBelow f'.tree id.elems).getD n 0 = lens n := by rw [h.lensBelow_eq, getD_map_range hlt]
  have hzero : ((usedBelow id.elems freq).map fun n => if lens n = 0 then 1 else 0).sum = 0 := by
    rw [List.map_congr_left (g := fun _ => 0) fun m hm => if_neg (h.pos m hm).ne', List.map_const', List.sum_replicate, smul_zero]
  rw [canonicalCode, hget]
  refine congrArg₂ (· + ·) ?_ ?_
  · obtain ⟨l, hl⟩ : ∃ l, lens n = l + 1 := ⟨lens n - 1, by omega⟩
    rw [firstCode, hl, List.range_eq_range', List.range'_succ, List.map_cons, List.sum_cons, hzero, Nat.zero_mul, Nat.zero_add]
    refine congrArg List.sum (List.map_congr_left fun k hk => ?_)
    rw [h.count_lens (show k ≠ 0 by have := List.mem_range'_1.1 hk; omega)]
  · rw [h.lensBelow_eq, ← List.map_take, List.take_range, Nat.min_eq_left hlt.le, List.filter_map, List.length_map]
    rfl

end

end Sys2Proof.Machine

/-! # BUILD's obligation (R612, R615, R620) -/

namespace Sys2Proof.Machine

open Sys2Proof.Claim

section
variable {id : TreeId} {f f₁ f' : Forest} {used : List Nat} {max : Nat} {lens freq : Nat → Nat} {pairs : List (Nat × Nat)}

theorem forcedNodes_of_two_le (h : 2 ≤ used.length) : forcedNodes used = [] := by
  match used, h with
  | _ :: _ :: _, _ => rfl

theorem lastCoded_of_two_le (h : 2 ≤ used.length) : lastCoded used = used.getLastD 0 := by
  match used, h with
  | _ :: _ :: _, _ => rfl

/-! ## A pair of coded symbols -/

/-- A forced symbol counts once. -/
theorem Forest.Gathered.read_forced (h : f.Gathered f₁ id used (forcedNodes used)) (hused : used = usedBelow id.elems (Cells.read 0 f.tree.freq))
    (hlen : used.length ≤ 2) (n : Nat) : Cells.read 0 f₁.tree.freq n = forcedFreq (codedPair used) (Cells.read 0 f.tree.freq) n := by
  have hsorted : used.Pairwise (· < ·) := hused ▸ usedBelow_pairwise _ _
  have hperm := coded_perm_pair hsorted hlen
  have hforced : n ∈ forcedNodes used ↔ (n = (codedPair used).1 ∨ n = (codedPair used).2) ∧ Cells.read 0 f.tree.freq n = 0 := by
    have hmem : n ∈ used ++ forcedNodes used ↔ n = (codedPair used).1 ∨ n = (codedPair used).2 := by
      rw [hperm.mem_iff, List.mem_cons, List.mem_singleton]
    have hlt : ∀ n ∈ used ++ forcedNodes used, n < id.elems := fun n hn =>
      (le_lastCoded hsorted hn).trans_lt (lastCoded_lt fun n hn => (mem_usedBelow.1 (hused ▸ hn)).1)
    have hdisjoint := (List.nodup_append'.1 (nodup_coded hsorted)).2.2
    rw [← hmem, List.mem_append]
    refine ⟨fun hn => ⟨Or.inr hn, ?_⟩, fun ⟨hn, hzero⟩ => hn.resolve_left fun hn => ?_⟩
    · by_contra hne
      exact hdisjoint (hused ▸ mem_usedBelow.2 ⟨hlt n (List.mem_append_right _ hn), hne⟩) hn
    · exact (mem_usedBelow.1 (hused ▸ hn)).2 hzero
  rw [h.freq, forcedFreq]
  exact if_congr hforced rfl rfl

/-- A sum over the forced symbols is one over the coded symbols that have no frequency. -/
theorem sum_forcedNodes (hused : used = usedBelow id.elems freq) (g : Nat → Nat) :
    ((forcedNodes used).map g).sum = ((used ++ forcedNodes used).map fun n => if freq n = 0 then g n else 0).sum := by
  have hsorted : used.Pairwise (· < ·) := hused ▸ usedBelow_pairwise _ _
  have hzero : ∀ n ∈ forcedNodes used, freq n = 0 := fun n hn => by
    by_contra hne
    have hlt := (le_lastCoded hsorted (List.mem_append_right _ hn)).trans_lt (lastCoded_lt (id := id) fun n hn => (mem_usedBelow.1 (hused ▸ hn)).1)
    exact (List.nodup_append'.1 (nodup_coded hsorted)).2.2 (hused ▸ mem_usedBelow.2 ⟨hlt, hne⟩) hn
  rw [List.map_append, List.sum_append, List.map_congr_left (g := fun _ => 0) fun n hn => if_neg (mem_usedBelow.1 (hused ▸ hn)).2,
    List.map_const', List.sum_replicate, smul_zero, Nat.zero_add]
  exact congrArg List.sum (List.map_congr_left fun n hn => (if_pos (hzero n hn)).symm)

/-- The two lengths of a pair are 1. -/
theorem Forest.Grown.lens_pair {p q : Nat} (h : f.Grown f' id used max lens pairs) (hperm : used.Perm [p, q]) : lens p = 1 ∧ lens q = 1 := by
  have hp := h.pos p (hperm.symm.subset (by simp))
  have hq := h.pos q (hperm.symm.subset (by simp))
  have hL : 0 < id.maxLength := by cases id <;> decide
  have hk := h.kraft
  rw [(hperm.map _).sum_eq, List.map_cons, List.map_cons, List.map_nil, List.sum_cons, List.sum_cons, List.sum_nil] at hk
  have hhalf : 2 ^ id.maxLength = 2 * 2 ^ (id.maxLength - 1) := by rw [← pow_succ', Nat.sub_add_cancel hL]
  have hle : ∀ l, 0 < l → 2 ^ (id.maxLength - l) ≤ 2 ^ (id.maxLength - 1) := fun l hl => Nat.pow_le_pow_right two_pos (by omega)
  have hlt : ∀ l, 1 < l → l ≤ id.maxLength → 2 ^ (id.maxLength - l) < 2 ^ (id.maxLength - 1) := fun l hl hl' =>
    Nat.pow_lt_pow_right (by decide) (by omega)
  have hp' := hle _ hp
  have hq' := hle _ hq
  refine ⟨?_, ?_⟩
  · by_contra hne
    have := hlt _ (by omega) (h.le p)
    omega
  · by_contra hne
    have := hlt _ (by omega) (h.le q)
    omega

/-- The tree of a pair has one father. -/
theorem Forest.Grown.tree_pair {p q : Nat} (h : f.Grown f' id used max lens pairs) (hused : ∀ n ∈ used, n < id.elems) (hperm : used.Perm [p, q]) :
    (∀ n, Cells.find? f'.tree.dad n = if n = p ∨ n = q then some id.elems else Cells.find? f.tree.dad n) ∧
      Cells.read 0 f'.tree.freq id.elems = Cells.read 0 f.tree.freq p + Cells.read 0 f.tree.freq q := by
  have hlength : used.length = 2 := hperm.length_eq
  have hpairs := h.merges.length
  rw [hlength, List.length_singleton] at hpairs
  obtain ⟨⟨m, n⟩, rfl⟩ : ∃ x, pairs = [x] := List.length_eq_one_iff.1 (by omega)
  obtain ⟨⟨hm, hn, hsum⟩, -⟩ := h.linked
  have hchildren : [m, n].Perm [p, q] := by
    have := h.merges.perm
    rw [hlength] at this
    exact (List.perm_cons _).1 ((this.trans (List.perm_append_singleton id.elems used)).trans (hperm.cons _))
  have hmem : ∀ x, x = m ∨ x = n ↔ x = p ∨ x = q := fun x => by simpa using hchildren.mem_iff (a := x)
  have hlt : ∀ x, x = m ∨ x = n → x < id.elems := fun x hx =>
    hused x (hperm.symm.subset (by simpa using (hmem x).1 hx))
  refine ⟨fun x => ?_, ?_⟩
  · split
    case isTrue hx =>
      rcases (hmem x).2 hx with rfl | rfl
      · exact hm
      · exact hn
    case isFalse hx => exact h.dad x fun hb => hx ((hmem x).1 (by simpa [buried] using hb))
  · have hadd : Cells.read 0 f.tree.freq m + Cells.read 0 f.tree.freq n = Cells.read 0 f.tree.freq p + Cells.read 0 f.tree.freq q := by
      simpa using (hchildren.map (Cells.read 0 f.tree.freq)).sum_eq
    have hsum : Cells.read 0 f'.tree.freq id.elems = Cells.read 0 f'.tree.freq n + Cells.read 0 f'.tree.freq m := hsum
    rw [hsum, h.freq n (Or.inl (hlt n (Or.inr rfl))), h.freq m (Or.inl (hlt m (Or.inl rfl))), Nat.add_comm, hadd]

/-- The sum of a function over a pair. -/
theorem sum_pair {p q : Nat} (hperm : used.Perm [p, q]) (g : Nat → Nat) : (used.map g).sum = g p + g q := by
  rw [(hperm.map g).sum_eq, List.map_cons, List.map_cons, List.map_nil, List.sum_cons, List.sum_cons, List.sum_nil, Nat.add_zero]

theorem pairStatic_eq (id : TreeId) (pair : Nat × Nat) (freq : Nat → Nat) :
    pairStatic id pair freq =
      ((id.staticCost (forcedFreq pair freq) pair.1 + id.staticCost (forcedFreq pair freq) pair.2 : Nat) : Int) -
        (((if freq pair.1 = 0 then id.staticLen pair.1 else 0) + if freq pair.2 = 0 then id.staticLen pair.2 else 0 : Nat) : Int) := by
  cases id with
  | bd => simp [pairStatic, TreeId.staticCost, TreeId.staticLen, TreeId.stree]
  | ld =>
    simp only [pairStatic, TreeId.staticCost, TreeId.staticLen, TreeId.stree, Option.getD_some, Nat.cast_add, Nat.cast_ite, Nat.cast_zero]
    ring
  | dd =>
    simp only [pairStatic, TreeId.staticCost, TreeId.staticLen, TreeId.stree, Option.getD_some, Nat.cast_add, Nat.cast_ite, Nat.cast_zero]
    ring

/-- The codes of a pair are 0 and 1. -/
theorem Forest.Grown.code_pair {p q : Nat} (h : f.Grown f' id used max lens pairs) (hperm : used.Perm [p, q]) (hpq : p < q) (n : Nat) :
    Cells.find? f'.tree.code n = if n = p then some 0 else if n = q then some 1 else Cells.find? f.tree.code n := by
  obtain ⟨hp, hq⟩ := h.lens_pair hperm
  have hone : ∀ m, lens m = 1 ↔ m = p ∨ m = q := fun m => by
    have hmem : m ∈ used ↔ m = p ∨ m = q := by simpa using hperm.mem_iff (a := m)
    refine ⟨fun hm => ?_, ?_⟩
    · by_contra hne
      rw [h.unused m fun hu => hne (hmem.1 hu)] at hm
      cases hm
    · rintro (rfl | rfl) <;> assumption
  have hfirst : firstCode (fun b => (used.map fun n => if lens n = b then 1 else 0).sum) 1 = 0 := by
    rw [firstCode_succ, sum_pair hperm, hp, hq]
    rfl
  rw [h.code n]
  by_cases hnp : n = p
  · subst hnp
    have hbefore : ((List.range n).filter fun m => lens m = 1) = [] := List.filter_eq_nil_iff.2 fun m hm => by
      have := List.mem_range.1 hm
      rw [decide_eq_true_eq, hone]
      omega
    rw [if_pos (hperm.symm.subset (by simp)), if_pos rfl, hp, hfirst, hbefore]
    rfl
  · rw [if_neg hnp]
    by_cases hnq : n = q
    · subst hnq
      have hbefore : ((List.range n).filter fun m => lens m = 1).length = 1 := by
        rw [List.filter_congr (q := fun m => m == p) fun m hm => ?_, ← List.count_eq_length_filter,
          List.count_eq_one_of_mem List.nodup_range (List.mem_range.2 hpq)]
        have := List.mem_range.1 hm
        rw [Bool.eq_iff_iff, decide_eq_true_eq, beq_iff_eq, hone]
        omega
      rw [if_pos (hperm.symm.subset (by simp)), if_pos rfl, hq, hfirst, hbefore]
      rfl
    · rw [if_neg hnq, if_neg fun hn => by simpa [hnp, hnq] using hperm.subset hn]

/-! ## What a build leaves -/

/-- What a build leaves where at most two symbols are used. -/
structure Forest.BuiltPair (f f' : Forest) (id : TreeId) (pair : Nat × Nat) (freq : Nat → Nat) : Prop where
  maxCode : f'.tree.maxCode = some (pair.2 : Int)
  len : ∀ n, Cells.find? f'.tree.len n =
    if n = pair.1 ∨ n = pair.2 then some 1 else if n ≤ id.elems then some 0 else Cells.find? f.tree.len n
  code : ∀ n, Cells.find? f'.tree.code n = if n = pair.1 then some 0 else if n = pair.2 then some 1 else Cells.find? f.tree.code n
  freqs : ∀ n, Cells.read 0 f'.tree.freq n =
    if n = id.elems then forcedFreq pair freq pair.1 + forcedFreq pair freq pair.2 else forcedFreq pair freq n
  dad : ∀ n, Cells.find? f'.tree.dad n = if n = pair.1 ∨ n = pair.2 then some id.elems else Cells.find? f.tree.dad n
  heapLen : f'.tb.heapLen = some 1
  heapMax : f'.tb.heapMax = some 570
  count : ∀ b < 16, Cells.find? f'.tb.blCount b = some (if b = 1 then 2 else 0)
  optLen : f'.optLen = f.optLen + pairCost id pair freq
  staticLen : f'.staticLen = f.staticLen + pairStatic id pair freq
  lt : pair.1 < pair.2 ∧ pair.2 < id.elems

theorem buildTree_pair (hf : Cells.wf 0 f.tree.freq) (hfreq : freq = Cells.read 0 f.tree.freq) (hfew : (usedBelow id.elems freq).length ≤ 2) :
    ∃ f', buildTree id f = .ok (((codedPair (usedBelow id.elems freq)).2 : Int), f') ∧
      f.BuiltPair f' id (codedPair (usedBelow id.elems freq)) freq := by
  obtain ⟨used, hused⟩ : ∃ used, used = usedBelow id.elems freq := ⟨_, rfl⟩
  have hsorted : used.Pairwise (· < ·) := hused ▸ usedBelow_pairwise id.elems freq
  rw [← hused] at hfew ⊢
  obtain ⟨f₁, f', lens, pairs, hbuild, hgather, hgrown⟩ := buildTree_grown (id := id) hf (hused.trans (hfreq ▸ rfl))
  obtain ⟨hperm, hlast⟩ := And.intro (coded_perm_pair hsorted hfew) (lastCoded_eq_pair hfew)
  have hlast_lt := lastCoded_lt (id := id) (used := used) fun n hn => (mem_usedBelow.1 (hused ▸ hn)).1
  have hlt := codedPair_lt hsorted hfew
  have hread := hgather.read_forced (hused.trans (hfreq ▸ rfl)) hfew
  rw [← hfreq] at hread
  rw [hlast] at hbuild hgrown hlast_lt
  generalize codedPair used = pair at hbuild hgrown hperm hlast_lt hlt hread ⊢
  have hlength : (used ++ forcedNodes used).length = 2 := hperm.length_eq
  have hmem : ∀ n, n ∈ used ++ forcedNodes used ↔ n = pair.1 ∨ n = pair.2 := fun n => by
    rw [hperm.mem_iff, List.mem_cons, List.mem_singleton]
  have hcoded : ∀ n ∈ used ++ forcedNodes used, n < id.elems := fun n hn => by
    rcases (hmem n).1 hn with rfl | rfl
    · exact hlt.trans hlast_lt
    · exact hlast_lt
  obtain ⟨hlens1, hlens2⟩ := hgrown.lens_pair hperm
  have hlens : ∀ n, lens n = if n = pair.1 ∨ n = pair.2 then 1 else 0 := fun n => by
    split
    case isTrue hn => rcases hn with rfl | rfl <;> assumption
    case isFalse hn => exact hgrown.unused n fun h => hn ((hmem n).1 h)
  refine ⟨f', hbuild,
    { maxCode := hgrown.maxCode
      len := fun n => ?_
      code := fun n => by rw [hgrown.code_pair hperm hlt, hgather.code]
      freqs := fun n => ?_
      dad := fun n => by rw [(hgrown.tree_pair hcoded hperm).1, hgather.dad]
      heapLen := hgrown.heapLen
      heapMax := by rw [hgrown.heapMax, hlength]
      count := fun b hb => ?_
      optLen := ?_
      staticLen := ?_
      lt := ⟨hlt, hlast_lt⟩ }⟩
  · by_cases hn : n < id.elems
    · rw [hgrown.len n hn, hlens, if_pos hn.le]
      split <;> rfl
    · rw [if_neg (by omega)]
      rcases (Nat.le_of_not_lt hn).eq_or_lt with rfl | hn'
      · rw [if_pos le_rfl]
        exact (congrArg (Cells.find? f'.tree.len) (show id.elems = id.elems + (used ++ forcedNodes used).length - 2 by omega)).trans hgrown.len_root
      · rw [hgrown.len_rest n (by omega), hgather.len, if_neg fun h => hn h.1, if_neg (by omega)]
  · by_cases hn : n = id.elems
    · rw [if_pos hn, hn, (hgrown.tree_pair hcoded hperm).2, hread, hread]
    · rw [if_neg hn, hgrown.freq n (by omega), hread]
  · rw [hgrown.count b hb, sum_pair hperm, hlens1, hlens2]
    by_cases hb1 : b = 1
    · rw [if_pos hb1.symm, if_pos hb1]
      rfl
    · rw [if_neg (Ne.symm hb1), if_neg hb1]
      rfl
  · have hforced := sum_forcedNodes (id := id) hused fun _ => 1
    rw [sum_pair hperm, List.map_const', List.sum_replicate, smul_eq_mul, Nat.mul_one] at hforced
    rw [hgrown.optLen, hgather.optLen, sum_pair hperm, hforced, TreeId.leafCost, TreeId.leafCost, hread, hread, hlens1, hlens2, pairCost]
    push_cast
    ring
  · have hcost : ∀ n, id.staticCost (Cells.read 0 f₁.tree.freq) n = id.staticCost (forcedFreq pair freq) n := fun n => by
      rw [TreeId.staticCost, TreeId.staticCost, hread]
    rw [hgrown.staticLen, hgather.staticLen, sum_pair hperm, sum_forcedNodes (id := id) hused, sum_pair hperm, hcost, hcost, pairStatic_eq]
    ring

/-- What a build leaves where two or more symbols are used. -/
structure Forest.BuiltMany (f f' : Forest) (id : TreeId) (used : List Nat) (freq : Nat → Nat) : Prop where
  maxCode : f'.tree.maxCode = some (used.getLastD 0 : Int)
  hasLens : hasLens f'.tree id.elems
  coded : ∀ n < id.elems, coded (lensBelow f'.tree id.elems) n ↔ freq n ≠ 0
  le : ∀ l ∈ lensBelow f'.tree id.elems, l ≤ id.maxLength
  kraft : Claim.kraft (lensBelow f'.tree id.elems) = 2 ^ 15
  code : ∀ n, Cells.find? f'.tree.code n =
    if n < id.elems ∧ freq n ≠ 0 then some (BitVec.ofNat 16 (canonicalField (lensBelow f'.tree id.elems) n).1)
    else Cells.find? f.tree.code n
  freqs : ∀ n < id.elems, Cells.read 0 f'.tree.freq n = freq n
  count : ∀ b < 16, Cells.find? f'.tb.blCount b = some (if b = 0 then 0 else ((lensBelow f'.tree id.elems).count b : Int))
  optLen : f'.optLen = f.optLen + ((used.map fun n => freq n * ((lensBelow f'.tree id.elems).getD n 0 + id.extraBits n)).sum : Nat)
  staticLen : f'.staticLen = f.staticLen + ((used.map (id.staticCost freq)).sum : Nat)

theorem buildTree_many (hf : Cells.wf 0 f.tree.freq) (hfreq : freq = Cells.read 0 f.tree.freq) (hmany : 2 ≤ (usedBelow id.elems freq).length) :
    ∃ f', buildTree id f = .ok (((usedBelow id.elems freq).getLastD 0 : Int), f') ∧ f.BuiltMany f' id (usedBelow id.elems freq) freq := by
  obtain ⟨f₁, f', lens, pairs, hbuild, hgather, hgrown⟩ := buildTree_grown (id := id) (used := usedBelow id.elems freq) hf (hfreq ▸ rfl)
  rw [forcedNodes_of_two_le hmany] at hgather hgrown
  rw [List.append_nil] at hgrown
  rw [lastCoded_of_two_le hmany] at hbuild hgrown
  have hread : ∀ n, Cells.read 0 f₁.tree.freq n = freq n := fun n => by rw [hgather.freq n, if_neg List.not_mem_nil, hfreq]
  have hget : ∀ n < id.elems, (lensBelow f'.tree id.elems).getD n 0 = lens n := fun n hn => by rw [hgrown.lensBelow_eq, getD_map_range hn]
  have hL := id.maxLength_le
  refine ⟨f', hbuild,
    { maxCode := hgrown.maxCode
      hasLens := fun n hn => ⟨_, hgrown.len n hn, (hgrown.le n).trans hL⟩
      coded := fun n hn => ?_
      le := fun l hl => ?_
      kraft := hgrown.kraft_lens
      code := fun n => ?_
      freqs := fun n hn => by rw [hgrown.freq n (Or.inl hn), hread]
      count := fun b hb => ?_
      optLen := ?_
      staticLen := ?_ }⟩
  · rw [Claim.coded, hget n hn]
    by_cases hn' : n ∈ usedBelow id.elems freq
    · exact iff_of_true (hgrown.pos n hn').ne' (mem_usedBelow.1 hn').2
    · exact iff_of_false (not_not.2 (hgrown.unused n hn')) fun hfreq => hn' (mem_usedBelow.2 ⟨hn, hfreq⟩)
  · rw [hgrown.lensBelow_eq] at hl
    obtain ⟨n, -, rfl⟩ := List.mem_map.1 hl
    exact hgrown.le n
  · refine (hgrown.code n).trans (if_ctx_congr mem_usedBelow (fun hn => ?_) fun _ => by rw [hgather.code])
    rw [hgrown.code_eq (mem_usedBelow.2 hn), canonicalField, hget n hn.1]
  · rw [hgrown.count b hb]
    split
    case isTrue hzero =>
      rw [List.map_congr_left (g := fun _ => 0) fun n hn => if_neg (hzero ▸ (hgrown.pos n hn).ne'), List.map_const', List.sum_replicate,
        smul_zero, Nat.cast_zero]
    case isFalse hne => rw [hgrown.count_lens hne, List.count_eq_length_filter]
  · rw [hgrown.optLen, hgather.optLen, List.length_nil, Nat.cast_zero, sub_zero]
    refine congrArg (fun cost : Nat => f.optLen + (cost : Int)) (congrArg List.sum (List.map_congr_left fun n hn => ?_))
    rw [TreeId.leafCost, hread, hget n (mem_usedBelow.1 hn).1]
  · rw [hgrown.staticLen, hgather.staticLen, List.map_nil, List.sum_nil, Nat.cast_zero, sub_zero]
    refine congrArg (fun cost : Nat => f.staticLen + (cost : Int)) (congrArg List.sum (List.map_congr_left fun n _ => ?_))
    rw [TreeId.staticCost, TreeId.staticCost, hread]

end

/-- Settles O46: the merge loop grows one tree over the coded symbols, whose depths make a complete set of lengths, and every round of
the repair of lengths above the limit gives up one of the codes the cut lengths have too many. -/
theorem buildMakesCompleteCodes : Obligations.BuildMakesCompleteCodes := by
  intro desc s d h hd hdesc id freq used pair
  have hf : Cells.wf 0 (d.forest id).tree.freq := (d.tree_ok hd id).freq
  refine ⟨fun hfew => ?_, fun hmany => ?_⟩
  · obtain ⟨f', hbuild, hpair⟩ := buildTree_pair (id := id) (freq := freq) hf rfl hfew
    exact ⟨f'.tree, f'.tb, hpair.maxCode, hpair.len, hpair.code, hpair.freqs, hpair.dad, hpair.heapLen, hpair.heapMax, hpair.count,
      completes_tbBuild h hdesc hbuild hpair.optLen hpair.staticLen⟩
  · obtain ⟨f', hbuild, hbuilt⟩ := buildTree_many (id := id) (freq := freq) hf rfl hmany
    exact ⟨f'.tree, f'.tb, hbuilt.maxCode, hbuilt.hasLens, hbuilt.coded, hbuilt.le, hbuilt.kraft, hbuilt.code, hbuilt.freqs, hbuilt.count,
      completes_tbBuild h hdesc hbuild hbuilt.optLen hbuilt.staticLen⟩

end Sys2Proof.Machine

/-! # BLTREE (R627) -/

namespace Sys2Proof.Machine

open Sys2Proof.Claim

/-! ## Chains of deflate commands -/

/-- A command of the deflate units only. -/
def isDeflateCommand (i : Instr) : Prop := ∀ s, ∃ legal body, exec i s = State.deflateCommand s legal body

section
variable {i : Instr} {is : List Instr} {s t u : State} {d e : Deflate}

theorem State.deflateCommand_latch {legal : Bool} {body : Deflate → Port → Reply Deflate} {l : Latch} (h : s.codec.err = some l)
    (ht : s.deflateCommand legal body = .next t) : t.codec.err = some l := by
  rw [State.deflateCommand_latched h] at ht
  cases ht
  exact h

/-- A latch stays set through a step. -/
theorem chain_latched {l : Latch} (his : ∀ i ∈ is, isDeflateCommand i) (h : s.codec.err = some l) (hc : chain is s = some u) :
    u.codec.err = some l := by
  induction is generalizing s with
  | nil =>
    cases hc
    exact h
  | cons i is ih =>
    obtain ⟨legal, body, hx⟩ := his i List.mem_cons_self s
    rw [chain] at hc
    split at hc
    case h_1 t ht => exact ih (fun i hi => his i (List.mem_cons_of_mem _ hi)) (State.deflateCommand_latch h (hx ▸ ht)) hc
    case h_2 => cases hc

/-- The first command of a chain that ends without a latched error completes. -/
theorem chain_cons {legal : Bool} {body : Deflate → Port → Reply Deflate} (hx : exec i s = s.deflateCommand legal body)
    (his : ∀ i ∈ is, isDeflateCommand i) (hs : s.isDeflate d) (hc : chain (i :: is) s = some u) (hu : u.codec.err = none) :
    legal = true ∧ ∃ t, s.commit .deflate (body d s.startPort) = .next t ∧ t.codec.err = none ∧ chain is t = some u := by
  have hnone : ∀ t, chain is t = some u → t.codec.err = none := fun t ht => by
    cases he : t.codec.err with
    | none => rfl
    | some l => rw [chain_latched his he ht] at hu; cases hu
  rw [chain, hx] at hc
  cases legal with
  | false =>
    rw [State.deflateCommand_illegal hs] at hc
    cases hnone _ hc
  | true =>
    rw [State.deflateCommand_of hs] at hc
    split at hc
    case h_1 t ht => exact ⟨rfl, t, ht, hnone t hc, hc⟩
    case h_2 => cases hc

theorem commit_ofExcept {α : Type} {x : Except Fault α} {g : α → Deflate} {r : α → Word} {p : Port} (hs : s.isDeflate d)
    (h : s.commit .deflate (Reply.ofExcept x fun a => (g a).answer p (r a) 0) = .next t) :
    ∃ a, x = .ok a ∧ t.isDeflate (g a) ∧ t.codec.regs.result0 = r a := by
  cases x with
  | error f => cases h
  | ok a =>
    cases h
    exact ⟨a, rfl, ⟨hs.1, rfl⟩, rfl⟩

/-- The first command of a chain, where it answers what a function of the units gives. -/
theorem chain_cons_ofExcept {α : Type} {legal : Bool} {x : Deflate → Except Fault α} {g : α → Deflate} {r : α → Word}
    (hx : exec i s = s.deflateCommand legal fun d p => Reply.ofExcept (x d) fun a => (g a).answer p (r a) 0)
    (his : ∀ i ∈ is, isDeflateCommand i) (hs : s.isDeflate d) (hc : chain (i :: is) s = some u) (hu : u.codec.err = none) :
    ∃ a t, x d = .ok a ∧ t.isDeflate (g a) ∧ t.codec.regs.result0 = r a ∧ chain is t = some u := by
  obtain ⟨-, t, ht, -, hrest⟩ := chain_cons hx his hs hc hu
  obtain ⟨a, hxa, hta, hr⟩ := commit_ofExcept hs ht
  exact ⟨a, t, hxa, hta, hr, hrest⟩

end

/-! ## The last position of BL_ORDER with a length -/

theorem blOrder_lt {k : Nat} (hk : k < 19) : tableAt blOrder k < 19 := by
  have : ∀ k < 19, tableAt blOrder k < 19 := by decide
  exact this k hk

theorem lastBlIndex_ok {bd : Tree} (h : hasLens bd 19) (n : Nat) (hn : n < 17) :
    lastBlIndex bd (n + 2) =
      .ok (((List.range' 3 n).filter fun k => Cells.find? bd.len (tableAt blOrder k) ≠ some 0).getLastD 2) := by
  induction n with
  | zero => rfl
  | succ n ih =>
    obtain ⟨l, hl, -⟩ := h _ (blOrder_lt (show n + 3 < 19 by omega))
    have hnode : tableAt blOrder (n + 3) < TreeId.bd.nodes := (blOrder_lt (show n + 3 < 19 by omega)).trans (by decide)
    have hrange : List.range' 3 (n + 1) = List.range' 3 n ++ [n + 3] := by rw [List.range'_concat, Nat.one_mul, Nat.add_comm 3]
    rw [show n + 1 + 2 = n + 2 + 1 from rfl, lastBlIndex, if_pos (by omega), Cells.get_nat hnode hl, Except.ok_bind, hrange, List.filter_append]
    by_cases hzero : l = 0
    · rw [if_pos hzero, ih (by omega), List.filter_singleton, hl, hzero]
      simp
    · rw [if_neg hzero, List.filter_singleton, hl]
      simp [hzero]

theorem Deflate.withMaxCode_ok {d e : Deflate} {id : TreeId} {f : Deflate → Int → Except Fault Deflate} (h : d.withMaxCode id f = .ok e) :
    ∃ m, (d.tree id).maxCode = some m ∧ f d m = .ok e := by
  cases hm : (d.tree id).maxCode with
  | none =>
    rw [Deflate.withMaxCode, hm] at h
    cases h
  | some m => exact ⟨m, rfl, by rwa [Deflate.withMaxCode_some hm] at h⟩

/-- BLTREE from its parts. -/
theorem Deflate.buildBlTree_ok {d d₁ d₂ e : Deflate} {lmax dmax m : Int} (hlmax : d.ld.maxCode = some lmax) (hl : d.scanTree .ld lmax = .ok d₁)
    (hdmax : d₁.dd.maxCode = some dmax) (hd : d₁.scanTree .dd dmax = .ok d₂) (hb : d₂.buildTree .bd = .ok (m, e)) (hlens : hasLens e.bd 19) :
    let last := ((List.range' 3 16).filter fun k => Cells.find? e.bd.len (tableAt blOrder k) ≠ some 0).getLastD 2
    d.buildBlTree = .ok (last, { e with optLen := e.optLen + (3 * (last + 1) + 14 : Nat) }) := by
  intro last
  rw [Deflate.buildBlTree, hlmax, readField, Except.ok_bind, hl, Except.ok_bind, hdmax, readField, Except.ok_bind, hd, Except.ok_bind, hb, Except.ok_bind]
  simp only
  rw [show lastBlIndex e.bd 18 = .ok last from lastBlIndex_ok hlens 16 (by decide), Except.ok_bind]
  refine congrArg (fun cost => Except.ok (last, { e with optLen := cost })) ?_
  push_cast
  ring

theorem completes_tbBlTree {s : State} {d e : Deflate} {mb : Nat} (h : s.isDeflate d) (hb : d.buildBlTree = .ok (mb, e)) :
    completes .tbBlTree s 0 mb 0 (.deflate e) s.port.input [] := by
  refine completes_of_deflate (st := .ok) (p := s.startPort) h (exec_tbBlTree s) ?_ rfl
  rw [hb]
  rfl

theorem isDeflateCommand_tbScan (desc : BitVec 2) : isDeflateCommand (.tbScan desc) := fun s => ⟨_, _, exec_tbScan desc s⟩

theorem isDeflateCommand_tbBuild (desc : BitVec 2) : isDeflateCommand (.tbBuild desc) := fun s => ⟨_, _, exec_tbBuild desc s⟩

/-- SCAN in a chain. -/
theorem chain_tbScan {desc : BitVec 2} {is : List Instr} {s u : State} {d : Deflate} (his : ∀ i ∈ is, isDeflateCommand i) (hs : s.isDeflate d)
    (hc : chain (.tbScan desc :: is) s = some u) (hu : u.codec.err = none) :
    ∃ d' t, d.withMaxCode (treeOf desc) (fun d m => d.scanTree (treeOf desc) m) = .ok d' ∧ t.isDeflate d' ∧ chain is t = some u := by
  obtain ⟨d', t, hd, ht, -, hrest⟩ := chain_cons_ofExcept (g := id) (r := fun _ => 0) (exec_tbScan desc s) his hs hc hu
  exact ⟨d', t, hd, ht, hrest⟩

/-- BUILD in a chain. -/
theorem chain_tbBuild {desc : BitVec 2} {is : List Instr} {s u : State} {d : Deflate} (his : ∀ i ∈ is, isDeflateCommand i) (hs : s.isDeflate d)
    (hc : chain (.tbBuild desc :: is) s = some u) (hu : u.codec.err = none) :
    ∃ m d' t, d.buildTree (treeOf desc) = .ok (m, d') ∧ t.isDeflate d' ∧ chain is t = some u := by
  obtain ⟨⟨m, d'⟩, t, hd, ht, -, hrest⟩ := chain_cons_ofExcept (g := Prod.snd) (r := fun a => wordOfInt a.1) (exec_tbBuild desc s) his hs hc hu
  exact ⟨m, d', t, hd, ht, hrest⟩

theorem State.isDeflate_unique {s : State} {d e : Deflate} (h : s.isDeflate d) (h' : s.isDeflate e) : d = e :=
  Engine.deflate.inj (h.2.symm.trans h'.2)

/-- The two scans and the build, as the units see them. -/
theorem chain_scans_build {s u : State} {d e : Deflate} (hs : s.isDeflate d) (hc : chain [.tbScan 0, .tbScan 1, .tbBuild 2] s = some u)
    (hu : u.isDeflate e) : ∃ lmax dmax m d₁ d₂, d.ld.maxCode = some lmax ∧ d.scanTree .ld lmax = .ok d₁ ∧
      d₁.dd.maxCode = some dmax ∧ d₁.scanTree .dd dmax = .ok d₂ ∧ d₂.buildTree .bd = .ok (m, e) := by
  have hlast : ∀ i ∈ [Instr.tbBuild 2], isDeflateCommand i := List.forall_mem_singleton.2 (isDeflateCommand_tbBuild 2)
  obtain ⟨d₁, t₁, hl, ht₁, hc⟩ := chain_tbScan (List.forall_mem_cons.2 ⟨isDeflateCommand_tbScan 1, hlast⟩) hs hc hu.1
  obtain ⟨d₂, t₂, hd, ht₂, hc⟩ := chain_tbScan hlast ht₁ hc hu.1
  obtain ⟨m, d', t, hb, ht, hc⟩ := chain_tbBuild (fun _ h => absurd h List.not_mem_nil) ht₂ hc hu.1
  cases hc
  obtain ⟨lmax, hlmax, hl⟩ := Deflate.withMaxCode_ok hl
  obtain ⟨dmax, hdmax, hd⟩ := Deflate.withMaxCode_ok hd
  exact ⟨lmax, dmax, m, d₁, d₂, hlmax, hl, hdmax, hd, hb.trans (congrArg (fun d => Except.ok (m, d)) (State.isDeflate_unique ht hu))⟩

/-- Settles O51: BLTREE scans and builds as the commands do; the last position with a length is found from 18 down. -/
theorem blTreeBuildsTheLengthTree : Obligations.BlTreeBuildsTheLengthTree := by
  refine ⟨fun s u d e hs hc hu hlens => ?_, fun s d lmax dmax hs hd hlmax hllt hllens hdmax hdlt hdlens => ?_⟩
  · obtain ⟨lmax, dmax, m, d₁, d₂, hlmax, hl, hdmax, hd, hb⟩ := chain_scans_build hs hc hu
    exact completes_tbBlTree hs (Deflate.buildBlTree_ok hlmax hl hdmax hd hb hlens)
  · intro freq pair used hfew
    obtain ⟨bd₁, hl, hcount₁⟩ := Deflate.scanTree_ok (d := d) (id := .ld) hd.bd.freq (show lmax + 1 ≤ 286 from hllt) hllens
    obtain ⟨bd₂, hr, hcount₂⟩ := Deflate.scanTree_ok (d := d.setTree .bd bd₁) (id := .dd) hcount₁.canonical (show dmax + 1 ≤ 30 from hdlt) hdlens
    rw [Nat.cast_succ, add_sub_cancel_right] at hl hr
    have hl : d.scanTree .ld lmax = .ok (d.setTree .bd bd₁) := hl
    have hr : (d.setTree .bd bd₁).scanTree .dd dmax = .ok (d.setTree .bd bd₂) := hr
    have hread₁ : ∀ n, Cells.read 0 bd₁.freq n = Cells.read 0 d.bd.freq n + (symbolsOf (lensBelow d.ld (lmax + 1))).count n := hcount₁.read
    have hread₂ : ∀ n, Cells.read 0 bd₂.freq n = Cells.read 0 bd₁.freq n + (symbolsOf (lensBelow d.dd (dmax + 1))).count n := hcount₂.read
    have hfreq : freq = Cells.read 0 bd₂.freq := funext fun n => ((hread₂ n).trans (congrArg (· + _) (hread₁ n))).symm
    obtain ⟨f, hbuild, hf⟩ := buildTree_pair (id := .bd) (f := (d.setTree .bd bd₂).forest .bd) (freq := freq) hcount₂.canonical hfreq hfew
    have hb : (d.setTree .bd bd₂).buildTree .bd = .ok ((pair.2 : Int), (d.setTree .bd bd₂).plant .bd f) := by
      rw [Deflate.buildTree, hbuild]
      rfl
    have hf : Forest.BuiltPair _ f .bd pair freq := hf
    have hlen : ∀ n < 19, Cells.find? f.tree.len n = some (if n = pair.1 ∨ n = pair.2 then 1 else 0) := fun n hn => by
      rw [hf.len n, if_pos (show n ≤ TreeId.bd.elems from hn.le)]
      split <;> rfl
    have hbl := Deflate.buildBlTree_ok hlmax hl hdmax hr hb fun n hn => ⟨_, hlen n hn, by split <;> decide⟩
    have hused : ((List.range' 3 16).filter fun k => Cells.find? f.tree.len (tableAt blOrder k) ≠ some 0) = used :=
      List.filter_congr fun k hk => by
        rw [hlen _ (blOrder_lt (List.mem_range'_1.1 hk).2), decide_eq_decide]
        split <;> simp [*]
    have hstatic : f.staticLen = d.staticLen := hf.staticLen.trans (by simp [pairStatic, TreeId.stree, Deflate.forest, Deflate.setTree])
    have hunits := congrArg₂ (fun cost static => ({ d with
      bd := f.tree, tb := f.tb, optLen := cost + (3 * (used.getLastD 2 + 1) + 14 : Nat), staticLen := static } : Deflate)) hf.optLen hstatic
    have hcompletes := completes_tbBlTree hs hbl
    rw [show (((d.setTree .bd bd₂).plant .bd f).bd) = f.tree from rfl, hused] at hcompletes
    refine ⟨f.tree, f.tb, hf.maxCode, hlen, fun n hn => ?_, ?_, ?_, ?_⟩
    · rw [hf.freqs, if_neg (show n ≠ TreeId.bd.elems from hn.ne)]
    · rw [hf.code, if_pos rfl]
    · rw [hf.code, if_neg hf.lt.1.ne', if_pos rfl]
    · exact (congrArg (fun d => completes .tbBlTree s 0 (used.getLastD 2) 0 (.deflate d) s.port.input []) hunits).mp hcompletes

end Sys2Proof.Machine

/-! # The last code of a build (R612)

Whatever the units hold, a build that succeeds leaves the descriptor's last code as it answers it, inside the alphabet. -/

namespace Sys2Proof.Machine

open Sys2Proof.Claim

section
variable {id : TreeId} {f : Forest}

theorem gatherLeaves_maxCode (ns : List Nat) (hns : ∀ n ∈ ns, n < id.elems) (heapLen : Nat) {m : Int} (hm : -1 ≤ m ∧ m < id.elems) (f : Forest) :
    Returns (gatherLeaves id ns heapLen m f) fun r => -1 ≤ r.2.1 ∧ r.2.1 < id.elems := by
  induction ns generalizing heapLen m f with
  | nil => exact .ok hm
  | cons n ns ih =>
    have hn := hns n List.mem_cons_self
    have hns' : ∀ n ∈ ns, n < id.elems := fun n hn => hns n (List.mem_cons_of_mem _ hn)
    refine .skip fun fr => .ite (fun _ => .skip fun heap => .skip fun depth => ih hns' _ (by omega) _) fun _ => ?_
    exact .skip fun len => ih hns' _ hm _

theorem forceTwo_maxCode (fuel heapLen : Nat) {m : Int} (hm : -1 ≤ m ∧ m < id.elems) (f : Forest) :
    Returns (forceTwo id fuel heapLen m f) fun r => -1 ≤ r.2.1 ∧ r.2.1 < id.elems := by
  have helems : 19 ≤ id.elems := by cases id <;> decide
  induction fuel generalizing heapLen m f with
  | zero => exact .ok hm
  | succ fuel ih =>
    refine .ite (fun _ => ?_) fun _ => .ok hm
    exact .skip fun heap => .skip fun tree => .skip fun depth => ih _ (by split <;> omega) _

/-! ## What a build leaves of the descriptor -/

/-- The descriptor's last code is `m`. -/
def Forest.EndsAt (m : Int) (f : Forest) : Prop := f.tree.maxCode = some m

variable {m : Int}

theorem pqDownHeap_endsAt (k : Nat) (hf : f.EndsAt m) : Returns (pqDownHeap id k f) (Forest.EndsAt m) :=
  .skip fun _ => .skip fun _ => .skip fun _ => .ok hf

theorem heapify_endsAt (k : Nat) (hf : f.EndsAt m) : Returns (heapify id k f) (Forest.EndsAt m) := by
  induction k generalizing f with
  | zero => exact .ok hf
  | succ k ih => exact .bind (pqDownHeap_endsAt _ hf) fun f hf => ih hf

theorem pushSorted_endsAt (n : Nat) (hf : f.EndsAt m) : Returns (pushSorted n f) (Forest.EndsAt m) := .skip fun _ => .skip fun _ => .ok hf

theorem setFreq_maxCode (t : Tree) (n v : Nat) : Returns (t.setFreq id n v) fun t' => t'.maxCode = t.maxCode := .skip fun _ => .ok rfl

theorem mergeTwo_endsAt (node : Nat) (hf : f.EndsAt m) : Returns (mergeTwo id node f) (Forest.EndsAt m) := by
  refine .skip fun len => .skip fun n => .skip fun last => .skip fun heap => ?_
  refine .bind (pqDownHeap_endsAt 1 hf) fun f hf => .skip fun top => ?_
  refine .bind (pushSorted_endsAt n hf) fun f hf => .bind (pushSorted_endsAt top hf) fun f hf => ?_
  refine .skip fun fn => .skip fun fm => .bind (setFreq_maxCode f.tree _ _) fun tree ht => ?_
  refine .skip fun dn => .skip fun dm => .skip fun depth => .skip fun dad => .skip fun dad => .skip fun heap => ?_
  exact pqDownHeap_endsAt 1 (ht.trans hf)

theorem mergeLoop_endsAt (fuel node : Nat) (hf : f.EndsAt m) : Returns (mergeLoop id fuel node f) (Forest.EndsAt m) := by
  induction fuel generalizing node f with
  | zero => exact .error _
  | succ fuel ih => exact .bind (mergeTwo_endsAt node hf) fun f hf => .skip fun len => .ite (fun _ => .ok hf) fun _ => ih _ hf

theorem depthLoop_endsAt (hs : List Nat) (overflow : Nat) (hf : f.EndsAt m) : Returns (depthLoop id hs overflow f) fun r => r.2.EndsAt m := by
  induction hs generalizing overflow f with
  | nil => exact .ok hf
  | cons h rest ih =>
    refine .skip fun n => .skip fun dad => .skip fun up => .skip fun len => .skip fun maxCode => ?_
    exact .ite (fun _ => ih _ hf) fun _ => .skip fun bl => .skip fun fr => ih _ hf

theorem assignLength_endsAt (maxCode : Int) (bits h : Nat) (n : Int) (hf : f.EndsAt m) :
    Returns (assignLength id maxCode bits h n f) fun r => r.2.EndsAt m := by
  induction h generalizing n f with
  | zero =>
    unfold assignLength
    split
    · exact .ok hf
    · exact .error _
    · contradiction
  | succ h ih =>
    by_cases hn : n = 0
    · rw [hn, assignLength_none]
      exact .ok hf
    · rw [assignLength_succ h hn]
      exact .skip fun x => .ite (fun _ => ih _ hf) fun _ => .skip fun l => .ite (fun _ => .skip fun fr => .skip fun len => ih _ hf) fun _ => ih _ hf

theorem reassign_endsAt (maxCode : Int) (bits h : Nat) (hf : f.EndsAt m) : Returns (reassign id maxCode bits h f) (Forest.EndsAt m) := by
  induction bits generalizing h f with
  | zero => exact .ok hf
  | succ bits ih => exact .skip fun n => .bind (assignLength_endsAt _ _ _ _ hf) fun r hr => ih r.1 hr

theorem genBitlen_endsAt (hf : f.EndsAt m) : Returns (genBitlen id f) (Forest.EndsAt m) := by
  refine .skip fun heapMax => .skip fun root => .skip fun len => .bind (depthLoop_endsAt _ _ hf) fun ⟨overflow, f⟩ hf => ?_
  exact .ite (fun _ => .ok hf) fun _ => .skip fun maxCode => .skip fun bl => reassign_endsAt _ _ _ hf

theorem growTree_endsAt (heapLen : Nat) (maxCode : Int) (hf : f.EndsAt m) : Returns (growTree id heapLen maxCode f) (Forest.EndsAt m) := by
  refine .bind (heapify_endsAt _ hf) fun f hf => .bind (mergeLoop_endsAt _ _ hf) fun f hf => .skip fun root => ?_
  refine .bind (pushSorted_endsAt root hf) fun f hf => .bind (genBitlen_endsAt hf) fun f hf => ?_
  exact .skip fun next => .skip fun code => .ok hf

/-- A build answers the last code it leaves. -/
theorem buildTree_endsAt (f : Forest) : Returns (buildTree id f) fun r => r.2.EndsAt r.1 ∧ -1 ≤ r.1 ∧ r.1 < id.elems := by
  rw [buildTree_eq]
  refine .bind (gatherLeaves_maxCode _ (fun n => List.mem_range.1) 0 (by omega) f) fun ⟨heapLen, m, f⟩ hm => ?_
  refine .bind (forceTwo_maxCode 2 heapLen hm f) fun ⟨heapLen, m, f⟩ hm => ?_
  exact .bind (growTree_endsAt heapLen m rfl) fun f hf => .ok ⟨hf, hm⟩

end

theorem Deflate.buildTree_endsAt (d : Deflate) (id : TreeId) :
    Returns (d.buildTree id) fun r => (r.2.tree id).maxCode = some r.1 ∧ -1 ≤ r.1 ∧ r.1 < id.elems :=
  .bind (Machine.buildTree_endsAt (d.forest id)) fun r hr => .ok ⟨by rw [Deflate.tree_plant]; exact hr.1, hr.2⟩

end Sys2Proof.Machine

/-! # FLUSHBLOCK (R640) -/

namespace Sys2Proof.Machine

open Sys2Proof.Claim

/-! ## Its parts -/

theorem lastBlIndex_le (bd : Tree) (n : Nat) : Returns (lastBlIndex bd n) fun mb => mb ≤ n := by
  induction n with
  | zero => exact .ok le_rfl
  | succ n ih => exact .ite (fun _ => .skip fun l => .ite (fun _ => ih.mono fun _ h => Nat.le_succ_of_le h) fun _ => .ok le_rfl) fun _ => .ok le_rfl

theorem Deflate.buildBlTree_le (d : Deflate) : Returns d.buildBlTree fun r => r.1 ≤ 18 :=
  .skip fun _ => .skip fun _ => .skip fun _ => .skip fun _ => .skip fun r => .bind (lastBlIndex_le r.2.bd 18) fun _ h => .ok h

theorem Deflate.flushBlock_ok {d e f₁ f : Deflate} {mb : Nat} {opt static : Int} {eof : Bool} {kind : BlockType}
    (hest : d.estimates = .ok (mb, opt, static, e))
    (hkind : chooseBlock ((d.strstart : Int) - d.blockStart) opt static (decide (0 ≤ d.blockStart)) = kind)
    (hemit : e.emitBlock kind eof mb = .ok f₁)
    (hend : (if eof then f₁.initBlock.windup else .ok f₁.initBlock) = .ok f) :
    d.flushBlock eof = .ok (kind, { f with blockStart := (f.strstart : Int) }) := by
  subst hkind
  rw [Deflate.flushBlock, hest, Except.ok_bind]
  simp only
  rw [hemit, Except.ok_bind]
  cases eof with
  | true =>
    have hend : f₁.initBlock.windup = .ok f := hend
    simp only [if_true, hend, Except.ok_bind]
  | false =>
    cases hend
    rfl

/-- The estimates at levels 1 to 9, from the three builds. -/
theorem Deflate.estimates_ok {d d₁ d₂ e : Deflate} {m m' : Int} {mb : Nat} (hlevel : 0 < d.level) (hl : d.buildTree .ld = .ok (m, d₁))
    (hd : d₁.buildTree .dd = .ok (m', d₂)) (hb : d₂.buildBlTree = .ok (mb, e)) :
    d.estimates = .ok (mb, min ((e.optLen + 10) / 8) ((e.staticLen + 10) / 8), (e.staticLen + 10) / 8, e) := by
  rw [Deflate.estimates, if_pos hlevel, hl, Except.ok_bind]
  simp only
  rw [hd, Except.ok_bind]
  simp only
  rw [hb, Except.ok_bind]
  have hbits : ∀ x : Int, x + 3 + 7 = x + 10 := fun x => add_assoc x 3 7
  rw [hbits, hbits, min_comm, min_def]

theorem chooseBlock_eq (stored opt static start : Int) :
    chooseBlock stored (min opt static) static (decide (0 ≤ start)) =
      if stored + 4 ≤ min opt static ∧ 0 ≤ start then .stored else if static ≤ opt then .fixed else .dynamic := by
  exact if_congr (by rw [decide_eq_true_eq]) rfl (if_congr (by omega) rfl rfl)

/-! ## The chain of its parts -/

theorem completes_tbFlushBlock {eof : BitVec 1} {s : State} {d f : Deflate} {kind : BlockType} (h : s.isDeflate d)
    (hf : d.flushBlock (eof == 1) = .ok (kind, f)) : completes (.tbFlushBlock eof) s 0 kind.code 0 (.deflate f) s.port.input [] := by
  refine completes_of_deflate (st := .ok) (p := s.startPort) h (exec_tbFlushBlock eof s) ?_ rfl
  rw [hf]
  rfl

section
variable {is : List Instr} {s u v : State} {d e : Deflate}

theorem chain_packing {i : Instr} {legal : Bool} {f : Deflate → Except Fault Deflate} (hx : exec i s = s.deflateCommand legal (Deflate.packing f))
    (his : ∀ i ∈ is, isDeflateCommand i) (hs : s.isDeflate d) (hc : chain (i :: is) s = some u) (hu : u.codec.err = none) :
    ∃ d' t, f d = .ok d' ∧ t.isDeflate d' ∧ chain is t = some u := by
  obtain ⟨d', t, hd, ht, -, hrest⟩ := chain_cons_ofExcept (g := id) (r := fun _ => 0) hx his hs hc hu
  exact ⟨d', t, hd, ht, hrest⟩

theorem chain_tbStored {eof : BitVec 1} {buf len : Half} (his : ∀ i ∈ is, isDeflateCommand i) (hs : s.isDeflate d)
    (hc : chain (.tbStored eof buf len :: is) s = some u) (hu : u.codec.err = none) :
    ∃ d' t, d.storedBlock buf.toNat len.toNat (eof == 1) = .ok d' ∧ t.isDeflate d' ∧ chain is t = some u := by
  obtain ⟨-, t, ht, hnone, hrest⟩ := chain_cons (exec_tbStored eof buf len s) his hs hc hu
  split at ht
  · cases ht
    cases hnone
  · obtain ⟨d', hd, ht, -⟩ := commit_ofExcept (g := id) (r := fun _ => 0) hs ht
    exact ⟨d', t, hd, ht, hrest⟩

theorem isDeflateCommand_flushEnd (eof : BitVec 1) : ∀ i ∈ [Instr.tbInitBlock] ++ if eof = 1 then [.bcwWindup] else [], isDeflateCommand i := by
  intro i hi
  rcases List.mem_cons.1 hi with rfl | hi
  · exact fun s => ⟨_, _, exec_tbInitBlock s⟩
  · split at hi
    · rw [List.mem_singleton.1 hi]
      exact fun s => ⟨_, _, exec_bcwWindup s⟩
    · cases hi

/-- A new block is started, and the last one padded. -/
theorem chain_flushEnd {eof : BitVec 1} (hs : s.isDeflate d) (hc : chain ([.tbInitBlock] ++ if eof = 1 then [.bcwWindup] else []) s = some u)
    (hu : u.isDeflate e) : (if (eof == 1) = true then d.initBlock.windup else .ok d.initBlock) = .ok e := by
  have hrest : ∀ i ∈ if eof = 1 then [Instr.bcwWindup] else [], isDeflateCommand i := fun i hi =>
    isDeflateCommand_flushEnd eof i (List.mem_cons_of_mem _ hi)
  obtain ⟨d', t, hd, ht, hc⟩ := chain_packing (f := fun d => .ok d.initBlock) (exec_tbInitBlock s) hrest hs hc hu.1
  cases hd
  obtain rfl | rfl := BitVec.eq_zero_or_eq_one eof
  · cases hc
    exact congrArg Except.ok (State.isDeflate_unique ht hu)
  · obtain ⟨d'', t', hd, ht', hc⟩ := chain_packing (exec_bcwWindup t) (fun _ h => absurd h List.not_mem_nil) ht hc hu.1
    cases hc
    exact hd.trans (congrArg Except.ok (State.isDeflate_unique ht' hu))

/-- The block chosen by FLUSHBLOCK, from units `e` with the last codes `lmax` and `dmax`. -/
def flushedBlock (e : Deflate) (eof : BitVec 1) (kind : BlockType) (lmax dmax mb : Nat) : List Instr :=
  match kind with
  | .stored => [.tbStored eof (BitVec.ofInt 16 e.blockStart) (BitVec.ofInt 16 ((e.strstart : Int) - e.blockStart))]
  | .fixed => [.bcwPut 3 (BitVec.ofNat 16 (2 + eof.toNat)), .tbCompress 0]
  | .dynamic =>
    [.bcwPut 3 (BitVec.ofNat 16 (4 + eof.toNat)),
      .tbSendAll (BitVec.ofNat 9 (lmax + 1)) (BitVec.ofNat 5 (dmax + 1)) (BitVec.ofNat 5 (mb + 1)), .tbCompress 1]

/-- The commands of the block send what FLUSHBLOCK sends. -/
theorem chain_flushedBlock {eof : BitVec 1} {kind : BlockType} {lmax dmax mb : Nat} (his : ∀ i ∈ is, isDeflateCommand i) (hs : s.isDeflate d)
    (hl : d.ld.maxCode = some (lmax : Int)) (hd : d.dd.maxCode = some (dmax : Int)) (hlmax : lmax < 286) (hdmax : dmax < 30) (hmb : mb ≤ 18)
    (hstored : kind = .stored → 0 ≤ d.blockStart ∧ d.blockStart < 65536 ∧ 0 ≤ (d.strstart : Int) - d.blockStart ∧
      (d.strstart : Int) - d.blockStart < 65536)
    (hc : chain (flushedBlock d eof kind lmax dmax mb ++ is) s = some u) (hu : u.codec.err = none) :
    ∃ d' t, d.emitBlock kind (eof == 1) mb = .ok d' ∧ t.isDeflate d' ∧ chain is t = some u := by
  cases kind with
  | stored =>
    obtain ⟨hstart, hstart', hlen, hlen'⟩ := hstored rfl
    have hword : ∀ v : Int, 0 ≤ v → v < 65536 → (BitVec.ofInt 16 v).toNat = v.toNat := fun v hv hv' => by
      rw [BitVec.toNat_ofInt]
      congr 1
      exact Int.emod_eq_of_lt hv hv'
    obtain ⟨d', t, hsend, ht, hrest⟩ := chain_tbStored his hs hc hu
    rw [hword _ hstart hstart', hword _ hlen hlen'] at hsend
    exact ⟨d', t, hsend, ht, hrest⟩
  | fixed =>
    obtain ⟨d₁, t₁, hput, ht₁, hc⟩ := chain_packing (exec_bcwPut 3 _ s)
      (List.forall_mem_cons.2 ⟨fun s => ⟨_, _, exec_tbCompress 0 s⟩, his⟩) hs hc hu
    obtain ⟨d', t, hsend, ht, hrest⟩ := chain_packing (exec_tbCompress 0 t₁) his ht₁ hc hu
    refine ⟨d', t, ?_, ht, hrest⟩
    rw [Deflate.emitBlock, flag_beq_one, show d.sendNat (2 + eof.toNat) 3 = .ok d₁ from hput, Except.ok_bind]
    exact hsend
  | dynamic =>
    have hcompress : ∀ i ∈ Instr.tbCompress 1 :: is, isDeflateCommand i := List.forall_mem_cons.2 ⟨fun s => ⟨_, _, exec_tbCompress 1 s⟩, his⟩
    obtain ⟨d₁, t₁, hput, ht₁, hc⟩ := chain_packing (exec_bcwPut 3 _ s)
      (List.forall_mem_cons.2 ⟨fun s => ⟨_, _, exec_tbSendAll _ _ _ s⟩, hcompress⟩) hs hc hu
    obtain ⟨d₂, t₂, hall, ht₂, hc⟩ := chain_packing (exec_tbSendAll _ _ _ t₁) hcompress ht₁ hc hu
    obtain ⟨d', t, hsend, ht, hrest⟩ := chain_packing (exec_tbCompress 1 t₂) his ht₂ hc hu
    have hd₁ : d₁ = d.withOutput d₁.bw d₁.pending := ((d.sendBits_appends _ _).of_ok hput).rest
    have hl₁ : d₁.ld.maxCode = some (lmax : Int) := by
      rw [hd₁]
      exact hl
    have hr₁ : d₁.dd.maxCode = some (dmax : Int) := by
      rw [hd₁]
      exact hd
    have hall : d₁.sendAllTrees (lmax + 1) (dmax + 1) (mb + 1) = .ok d₂ := by
      rw [BitVec.toNat_ofNat, BitVec.toNat_ofNat, BitVec.toNat_ofNat, Nat.mod_eq_of_lt (by omega), Nat.mod_eq_of_lt (by omega),
        Nat.mod_eq_of_lt (by omega)] at hall
      exact hall
    refine ⟨d', t, ?_, ht, hrest⟩
    rw [Deflate.emitBlock, flag_beq_one, show d.sendNat (4 + eof.toNat) 3 = .ok d₁ from hput, Except.ok_bind, hl₁, readField, Except.ok_bind,
      hr₁, readField, Except.ok_bind]
    exact (congrArg (· >>= fun d => d.compressBlock true) hall).trans ((Except.ok_bind ..).trans hsend)

/-- The three builds, as the units see them. -/
theorem chain_builds (hs : s.isDeflate d) (hc : chain [.tbBuild 0, .tbBuild 1, .tbBlTree] s = some u) (hu : u.isDeflate e) :
    ∃ m m' d₁ d₂ mb, d.buildTree .ld = .ok (m, d₁) ∧ d₁.buildTree .dd = .ok (m', d₂) ∧ d₂.buildBlTree = .ok (mb, e) ∧
      u.codec.regs.result0 = BitVec.ofNat 32 mb := by
  have hlast : ∀ i ∈ [Instr.tbBlTree], isDeflateCommand i := List.forall_mem_singleton.2 fun s => ⟨_, _, exec_tbBlTree s⟩
  obtain ⟨m, d₁, t₁, hl, ht₁, hc⟩ := chain_tbBuild (List.forall_mem_cons.2 ⟨isDeflateCommand_tbBuild 1, hlast⟩) hs hc hu.1
  obtain ⟨m', d₂, t₂, hd, ht₂, hc⟩ := chain_tbBuild hlast ht₁ hc hu.1
  obtain ⟨⟨mb, d'⟩, t, hb, ht, hr, hc⟩ := chain_cons_ofExcept (g := Prod.snd) (r := fun a => BitVec.ofNat 32 a.1) (exec_tbBlTree t₂)
    (fun _ h => absurd h List.not_mem_nil) ht₂ hc hu.1
  cases hc
  exact ⟨m, m', d₁, d₂, mb, hl, hd, hb.trans (congrArg (fun d => Except.ok (mb, d)) (State.isDeflate_unique ht hu)), hr⟩

end

theorem Deflate.buildTree_plant (d : Deflate) (id : TreeId) : Returns (d.buildTree id) fun r => ∃ f, r.2 = d.plant id f :=
  .skip fun r => .ok ⟨r.2, rfl⟩

/-- What the builds leave of the units, and the last codes. -/
theorem Deflate.builds_leave {d d₁ d₂ e : Deflate} {m m' : Int} {mb lmax dmax : Nat} (hl : d.buildTree .ld = .ok (m, d₁))
    (hd : d₁.buildTree .dd = .ok (m', d₂)) (hb : d₂.buildBlTree = .ok (mb, e)) (hlmax : e.ld.maxCode = some (lmax : Int))
    (hdmax : e.dd.maxCode = some (dmax : Int)) :
    d.Rebuilds e ∧ lmax < 286 ∧ dmax < 30 ∧ mb ≤ 18 := by
  have hrest : e = { d₂ with bd := e.bd, tb := e.tb, optLen := e.optLen, staticLen := e.staticLen } := d₂.buildBlTree_rest.of_ok hb
  obtain ⟨f, rfl⟩ := (d₁.buildTree_plant .dd).of_ok hd
  obtain ⟨hml, -, hlt⟩ := (d.buildTree_endsAt .ld).of_ok hl
  obtain ⟨hmd, -, hlt'⟩ := (d₁.buildTree_endsAt .dd).of_ok hd
  have hml : d₁.ld.maxCode = some m := hml
  rw [hrest] at hlmax hdmax
  have hm : m = lmax := Option.some.inj (hml.symm.trans hlmax)
  have hm' : m' = dmax := Option.some.inj (hmd.symm.trans hdmax)
  have hlt : m < 286 := hlt
  have hlt' : m' < 30 := hlt'
  refine ⟨((d.buildTree_rebuilds .ld).of_ok hl).trans (((d₁.buildTree_rebuilds .dd).of_ok hd).trans ⟨?_⟩), by omega, by omega,
    (Deflate.buildBlTree_le _).of_ok hb⟩
  rw [hrest]

/-- Settles O55: the chain of the parts ends in the units FLUSHBLOCK leaves; at level 0 the estimates are 1 more than STORED needs. -/
theorem flushBlockChoosesTheBlock : Obligations.FlushBlockChoosesTheBlock := by
  refine ⟨fun eof s u v d e f lmax dmax hs hlevel hc hu hl hd => ?_, fun eof s d start hs hw hlevel hstart hle hsize hlen hroom => ?_⟩
  · intro storedLen optLenb staticLenb kind block hstored hc' hv
    obtain ⟨m, m', d₁, d₂, mb, hbl, hbd, hbb, hmb⟩ := chain_builds hs hc hu
    obtain ⟨hrebuilds, hlmax, hdmax, hle⟩ := Deflate.builds_leave hbl hbd hbb hl hd
    have hrest : e = _ := hrebuilds.rest
    have hstart : e.blockStart = d.blockStart := by rw [hrest]
    have hstr : e.strstart = d.strstart := by rw [hrest]
    have hmb : u.codec.regs.result0.toNat = mb := by
      rw [hmb, BitVec.toNat_ofNat, Nat.mod_eq_of_lt (by omega)]
    have hblock : block = flushedBlock e eof kind lmax dmax mb := by
      unfold flushedBlock
      rw [hstart, hstr, ← hmb] <;> rfl
    have hinside : kind = .stored → 0 ≤ d.blockStart := fun hk => by
      by_contra hneg
      have : kind = if staticLenb ≤ optLenb then .fixed else .dynamic := if_neg fun h => hneg h.2
      rw [this] at hk
      split at hk <;> cases hk
    rw [hblock, List.append_assoc] at hc'
    have hfits : kind = .stored → 0 ≤ e.blockStart ∧ e.blockStart < 65536 ∧ 0 ≤ (e.strstart : Int) - e.blockStart ∧
        (e.strstart : Int) - e.blockStart < 65536 := fun hk => by
      rw [hstart, hstr]
      exact ⟨hinside hk, hstored hk⟩
    obtain ⟨f₁, t, hemit, ht, hend⟩ := chain_flushedBlock (isDeflateCommand_flushEnd eof) hu hl hd hlmax hdmax hle hfits hc' hv.1
    have hfinal := chain_flushEnd ht hend hv
    have hkind := chooseBlock_eq storedLen optLenb staticLenb d.blockStart
    have hflush := Deflate.flushBlock_ok (Deflate.estimates_ok hlevel hbl hbd hbb) hkind hemit hfinal
    have hends := congrArg Deflate.strstart ((d.flushBlock_endsBlock _).of_ok hflush).rest
    have hf : f.strstart = d.strstart := hends
    rw [show (f.strstart : Int) = d.strstart from congrArg Nat.cast hf] at hflush
    exact completes_tbFlushBlock hs hflush
  · intro len
    have hinside : 0 ≤ d.blockStart := by omega
    have hest : d.estimates = .ok (0, (d.strstart : Int) - d.blockStart + 5, (d.strstart : Int) - d.blockStart + 5, d) :=
      if_neg (by omega)
    have hkind : chooseBlock ((d.strstart : Int) - d.blockStart) ((d.strstart : Int) - d.blockStart + 5)
        ((d.strstart : Int) - d.blockStart + 5) (decide (0 ≤ d.blockStart)) = .stored := if_pos ⟨by omega, decide_eq_true hinside⟩
    have hemit : d.emitBlock .stored (eof == 1) 0 = .ok (d.withOutput ⟨0, 0⟩ (d.storedOutput start len (if eof == 1 then 1 else 0))) := by
      rw [Deflate.emitBlock, hstart, Int.toNat_natCast, show ((d.strstart : Int) - (start : Int)).toNat = len by omega]
      exact Deflate.storedBlock_ok hw (by omega) (show start + len ≤ 2 * 2 ^ d.dwbits by omega) hroom _
    rw [flag_beq_one] at hemit
    have hend : (if eof == 1 then (d.withOutput ⟨0, 0⟩ (d.storedOutput start len eof.toNat)).initBlock.windup
        else .ok (d.withOutput ⟨0, 0⟩ (d.storedOutput start len eof.toNat)).initBlock) =
        .ok (d.withOutput ⟨0, 0⟩ (d.storedOutput start len eof.toNat)).initBlock := by split <;> rfl
    exact ⟨d.initBlock, completes_tbInitBlock hs, completes_tbFlushBlock hs (Deflate.flushBlock_ok hest hkind hemit hend)⟩

end Sys2Proof.Machine
